-- ==== Sys2Proof/Word.lean ====
section
/-! DEFINITION. The word types of the module's interfaces (R11, R389): bytes, and the widths of its registers and
records. -/

namespace Sys2Proof

/-- One byte of memory, of a frame or of a record. -/
abbrev Byte := BitVec 8

/-- A 32-bit word: a register, an FP32 pattern, a CRC-32C seal. -/
abbrev W32 := BitVec 32

/-- A 64-bit word: a register, an epoch and count pair (R104), a hash. -/
abbrev W64 := BitVec 64

/-- A descriptor, in the 128-byte form (R386); byte k is bits [8k+7 : 8k]. -/
abbrev Desc := BitVec 1024

/-- A finite map with a default: the listed keys rise strictly and no listed value is the default, so that equal
maps are equal lists. Its operations are `fget` and `fset`. -/
abbrev FMap (α : Type) := List (Nat × α)

end Sys2Proof
end

