-- ==== Sys2Proof/Syntax.lean ====
section
/-! DEFINITION. The commands of the block: one constructor per row of spec/opcode_table.json, in the table's order, with
the values that come with it from outside. A command of a descriptor names the descriptor by the identifier under which
it was armed (`id`); where the operation commits in units, the command also says how many units this step commits
(log entry 8). -/

namespace Sys2Proof

/-- Outcome of CXL link training (R475, R477). -/
inductive LinkMode where
  | native | rateFallback | widthFallback | both | pcie
  deriving DecidableEq, Repr

/-- The two IDE streams (R498). -/
inductive IdeStream where
  | cxl | pcie
  deriving DecidableEq, Repr

/-- The three DOE instances (R483). -/
inductive DoeInst where
  | inst0 | inst1 | inst2
  deriving DecidableEq, Repr

/-- The memory BARs (R478). -/
inductive Bar where
  | bar0 | bar2 | bar4
  deriving DecidableEq, Repr

/-- Bytes of a BAR (R478). -/
def Bar.size : Bar → Nat
  | .bar0 => 0x4000000
  | .bar2 => 0x100000
  | .bar4 => 0x40000

/-- A packet of the fabric as received or sent (R452): port, ranks, tag, poison mark and payload bytes (R453). -/
structure Packet where
  port : BitVec 4
  dest : BitVec 20
  src : BitVec 20
  tag : BitVec 16
  poison : Bool
  body : List Byte
  deriving DecidableEq, Repr

/-- What the FEC of a received frame reports: uncorrectable codewords among its eight, and symbols corrected by physical lane
(R456, R473). -/
structure Fec where
  uncorrectable : Nat
  corrected : List Nat
  deriving DecidableEq, Repr

/-- A firmware block as it arrives at cores (R517, R518): physical tile and core, core 0 the tile core and 1 to 8 the engine
sequencers (R4). -/
structure FwArrival where
  cores : List (Nat × Nat)
  index : Nat
  data : List Byte
  deriving DecidableEq, Repr

/-- What an ALL_GATHER has gathered: each member's part in member order, and the seals of its blocks where they travel with it
(R271, R299; log entry 83). -/
structure Gathered where
  parts : List (List Byte)
  seals : List (List W32)
  deriving DecidableEq, Repr

/-- Which CLEARANCE has its verdict, and after how many parts of the commit another command can come; none: it runs whole
(R278, R281; log entry 52). -/
structure VerdictOf where
  id : Nat
  cut : Option Nat
  deriving DecidableEq, Repr

/-- A message of the Clearing engine as received or sent whole (R312, R454). -/
structure CollMsg where
  plane : BitVec 4
  phase : Nat
  final : Bool
  op : Nat
  group : W32
  epoch : Nat
  sender : Nat
  tranche : Nat
  members : Nat
  total : Nat
  data : List Byte
  deriving DecidableEq, Repr

/-- Bits of an HBM word that have flipped: the word is its interleaved address ÷ 16, and bit `b` of its 144 lies in symbol
b ÷ 8 of the code (R343; log entry 54). -/
structure WordError where
  word : Nat
  bits : List Nat
  deriving DecidableEq, Repr

/-- The commands. -/
inductive Instr where
  /-- PWR_GOOD_ASSERT (R504): Assertion of PWR_GOOD, with RESET_N deasserted, begins start-up at stage 0x01. -/
  | pwrGoodAssert
  /-- RESET_N (R504): Asserting RESET_N stops every stage and releasing it restarts start-up from stage 0x01 as
  a cold start. -/
  | resetN (asserted : Bool)
  /-- LOSS_OF_POWER (R609): Input below 38 V for 2 µs, or PWR_GOOD deasserted, lowers every band, stack and
  SerDes to Off and keeps the hub on the bulk capacitance. -/
  | lossOfPower (pwrGood : Bool)
  /-- INPUT_RESTORED (R556): The input returns to 40 V or more with PWR_GOOD still asserted, so the suspended
  erase resumes and records are accepted again. -/
  | inputRestored (mv : Nat)
  /-- VIN_LOW (R604): The input falls between 38 V and 40 V and the device sets TEL_STATUS.vin_low while keeping
  full function. -/
  | vinLow (mv : Nat)
  /-- INPUT_OVERCURRENT (R606): Input current above 57 A drops every band's clock to its lowest step within 2 µs
  and sets current_limit. -/
  | inputOvercurrent (ma : Nat)
  /-- CURRENT_LIMIT_TIMEOUT (R606): The hardware limiter has acted continuously for 1 ms, so the input switch
  opens until PWR_GOOD deasserts. -/
  | currentLimitTimeout
  /-- THERMAL_TRIP (R624): The analogue comparator trips at 110 °C die or hub, or 105 °C HBM, asserts
  THERMTRIP_N and opens the input switch. -/
  | thermalTrip
  /-- TRIP_LATCH_CLEAR (R624): The input falls below 10 V and clears the thermal trip latch and THERMTRIP_N. -/
  | tripLatchClear
  /-- POWER_SAMPLE (R605): The 1 µs input power sample drives the power cap loop's throttle steps. -/
  | powerSample (mv ma mw : Nat)
  /-- SENSOR_SAMPLE (R621): The 10 µs sample of every tile, hub and HBM sensor updates temperatures and begins
  or ends thermal holds. -/
  | sensorSample (tiles hubs hbm : List Int)
  /-- THERMAL_THROTTLE_STEP (R622): A band's throttle step rises every 100 µs at 98 °C or above and falls every
  1 ms at 95 °C or below. -/
  | thermalThrottleStep (band : Nat)
  /-- REF25_LOST (R620): Loss of REF25 for 10 µs moves the always-on domain to the internal oscillator and sets
  ref25_lost. -/
  | ref25Lost
  /-- REF25_RETURN (R620): REF25 returns and the always-on domain moves back to it without a reset. -/
  | ref25Return
  /-- FAB_REF_LOST (R620): Loss of a fabric reference takes the ports of that connector Down. -/
  | fabRefLost (die : BitVec 1)
  /-- CXL_REFCLK_LOST (R620): Loss of CXL_REFCLK takes the CXL link down as the standard requires. -/
  | cxlRefclkLost
  /-- STRESS_SAMPLE (R548): The per-minute temperature sample adds weighted stress units to each wear account.
  -/
  | stressSample
  /-- ALWAYS_ON (R572): Stage 0x01 completes after the always-on domain start and the Strongroom self-tests, or
  start-up fails. -/
  | alwaysOn (selfTests : Bool)
  /-- ALMANAC (R509): Stage 0x02 completes after the fuse map is read and the Daybook's retired tiles, lanes and
  unrepaired rows are taken. -/
  | almanac
  /-- IMAGES (R510): Stage 0x03 completes after boot and configuration images are verified and the locked limits
  are written. -/
  | images
  /-- BAND_WAVE (R511): Every 1 ms the next wave energises one band to Gated and loads its die and band
  controllers. -/
  | bandWave (loaded : Bool)
  /-- BANDS (R511): Stage 0x04 completes when all 14 waves have energised their bands. -/
  | bands
  /-- HBM (R512): Stage 0x05 completes when every stack has trained, repaired its redirected rows and recorded
  its windows, or start-up fails. -/
  | hbm (first second : BitVec 8) (windows : List Nat)
  /-- PORT_TRAINING (R514): Stage 0x06 completes when all enabled fabric ports have trained. -/
  | portTraining (trained enene : BitVec 16)
  /-- QUALIFICATION (R515): Stage 0x07 completes when every port is Active or Down after lane qualification
  windows. -/
  | qualification (passed : List (BitVec 9)) (margins : List Nat)
  /-- FIRMWARE (R518): Stage 0x08 completes after firmware broadcast, re-broadcast and unicast passes, excluding
  incomplete tiles. -/
  | firmware (passes : Nat) (broadcast unicast : List FwArrival)
  /-- OVERLAYS (R519): Stage 0x09 completes when each tile core has fetched and checked its overlay. -/
  | overlays (failed : List Nat)
  /-- SELF_TEST (R520): Stage 0x0A completes after tile self-test, HBM clear and remap-table assignment. -/
  | selfTest (units : List (BitVec 8))
  /-- CONVENTIONAL_RESET (R500): CXL_PERST_N retrains the link, resets configuration space and runs a compute
  reset. -/
  | conventionalReset
  /-- HOT_RESET (R500): A hot or secondary bus reset acts as a conventional reset. -/
  | hotReset
  /-- FUNCTION_LEVEL_RESET (R500): An FLR keeps the link and configuration and runs a compute reset. -/
  | functionLevelReset
  /-- COMPUTE_RESET (R501): A write of MGT_COMPUTE_RESET.go closes queues, unbinds groups, clears flags and
  SRAM, and keeps HBM per keep_hbm. -/
  | computeReset (value : W32)
  /-- COMPUTE_RESET_DONE (R503): The compute reset completes, so compute_reset clears and reset_done is set. -/
  | computeResetDone
  /-- CONFIGURATION_REQUEST (R503): A CXL configuration request is answered within 1 ms at any time after
  PWR_GOOD. -/
  | configurationRequest (offset : Nat) (data : Option W32)
  /-- CXL_LINK_UP (R475): CXL link training completes in one of the allowed modes, or as a PCIe endpoint. -/
  | cxlLinkUp (mode : LinkMode)
  /-- APERTURE_ENTRY_WRITE (R488): A configuration write to an aperture entry is applied or ignored per enable,
  size and in_use. -/
  | apertureEntryWrite (entry : BitVec 4) (dword : BitVec 2) (value : W32)
  /-- APERTURE_LOCK (R487): Setting aperture_lock makes entry writes ignored until the next conventional or hot
  reset. -/
  | apertureLock
  /-- HDM_DECODER_COMMIT (R492): An HDM decoder commit maps a host range onto the interleaved HBM view or
  reports a commit error. -/
  | hdmDecoderCommit (decoder : BitVec 2) (base size target ways : Nat)
  /-- HOST_HDM_READ (R495): A host CXL.mem read of HBM returns the line, with poison indication for a poisoned
  word. -/
  | hostHdmRead (line : Nat)
  /-- HOST_HDM_WRITE (R494): A host CXL.mem write updates HBM without changing seals, and clears or refuses
  poison. -/
  | hostHdmWrite (line : Nat) (data : BitVec 512) (enables : W64)
  /-- SHADOW_LINE_SNOOP (R491): A snoop removes a queue's shadow line, and the device rereads it and treats
  changed values as doorbell writes. -/
  | shadowLineSnoop (wq : BitVec 6) (tail cplHead : W32) (slots : List (Option Desc))
  /-- MSIX_UNMASK (R481): Unmasking a pending MSI-X vector sends one message. -/
  | msixUnmask (vector : BitVec 8)
  /-- IDE_INTEGRITY_FAILURE (R499): An IDE integrity failure discards the stream's flits and reports an
  uncorrectable error until new keys arrive. -/
  | ideIntegrityFailure (stream : IdeStream)
  /-- DOE_DISCOVERY (R483): A DOE discovery request returns the protocols of the instance. -/
  | doeDiscovery (inst : DoeInst) (index : Nat)
  /-- CDAT_TABLE_ACCESS (R484): A CXL table access request on DOE instance 0 returns the CDAT structures. -/
  | cdatTableAccess (index : Nat)
  /-- GET_VERSION (R584): The Strongroom answers an SPDM GET_VERSION request. -/
  | getVersion (inst : DoeInst) (req : List Byte)
  /-- GET_CAPABILITIES (R584): The Strongroom answers an SPDM GET_CAPABILITIES request. -/
  | getCapabilities (inst : DoeInst) (req : List Byte)
  /-- NEGOTIATE_ALGORITHMS (R584): The Strongroom answers SPDM NEGOTIATE_ALGORITHMS, offering SHA-256, SLH-DSA
  and ML-KEM-768. -/
  | negotiateAlgorithms (inst : DoeInst) (req : List Byte)
  /-- GET_DIGESTS (R584): The Strongroom answers an SPDM GET_DIGESTS request. -/
  | getDigests (inst : DoeInst) (req : List Byte)
  /-- GET_CERTIFICATE (R585): The Strongroom returns the certificate chain matching the identity key in use. -/
  | getCertificate (inst : DoeInst) (req : List Byte)
  /-- CHALLENGE (R585): The Strongroom answers an SPDM CHALLENGE, signed with the identity or debug key. -/
  | challenge (inst : DoeInst) (req : List Byte)
  /-- SPDM_GET_MEASUREMENTS (R584): The Strongroom returns measurements 0–5 as SPDM indices 1–6, signed. -/
  | spdmGetMeasurements (inst : DoeInst) (req : List Byte)
  /-- KEY_EXCHANGE (R587): The Strongroom performs ML-KEM key establishment for a secured SPDM session. -/
  | keyExchange (inst : DoeInst) (req : List Byte)
  /-- FINISH (R584): The Strongroom completes an SPDM session handshake with FINISH. -/
  | finish (inst : DoeInst) (session : Nat) (req : List Byte)
  /-- END_SESSION (R584): The Strongroom ends a secured SPDM session and discards its secrets. -/
  | endSession (inst : DoeInst) (session : Nat)
  /-- CHUNK_SEND (R584): The Strongroom accepts one chunk of a large SPDM request. -/
  | chunkSend (inst : DoeInst) (last : Bool) (chunk : List Byte)
  /-- CHUNK_GET (R584): The Strongroom returns one chunk of a large SPDM response. -/
  | chunkGet (inst : DoeInst) (index : Nat)
  /-- KEY_PROG (R587): IDE KEY_PROG inside a secured session on instance 2 loads decrypted keys into the IDE
  engines. -/
  | keyProg (inst : DoeInst) (session : Nat) (stream : IdeStream) (msg : List Byte)
  /-- TAIL_DOORBELL (R373): A tail doorbell write announces new descriptors, or is ignored with doorbell_error.
  -/
  | tailDoorbell (wq : BitVec 6) (tail : W32) (slots : List (Option Desc))
  /-- COMPLETION_HEAD_DOORBELL (R373): A completion head doorbell write releases completion entries so that
  retirement can resume. -/
  | completionHeadDoorbell (wq : BitVec 6) (head : W32)
  /-- DIRECT_SUBMISSION (R412): A write of bytes 0–7 of a direct slot arms, shadows or refuses the descriptor
  with BUSY. -/
  | directSubmission (wq : BitVec 6) (desc : Desc)
  /-- WQ_OPEN (R378): OPEN on ORY_WQ_CMD negotiates the version and opens the queue or reports an open_result.
  -/
  | wqOpen
  /-- WQ_CLOSE (R380): CLOSE on ORY_WQ_CMD cancels unretired descriptors, waits for them to retire and closes
  the queue. -/
  | wqClose
  /-- PREEMPT (R409): PREEMPT on ORY_WQ_CMD pre-empts started resumable descriptors and cancels unstarted ones.
  -/
  | preempt
  /-- CANCEL_ALL (R405): CANCEL_ALL on ORY_WQ_CMD targets every unretired descriptor of the queue. -/
  | cancelAll
  /-- CANCEL (R405): A write of ORY_WQ_CANCEL targets descriptors whose desc_id lies in the range. -/
  | cancel (last first : W32)
  /-- STREAM_CFG_WRITE (R381): A write of ORY_STREAM_CFG sets a stream's tile and multicast set, or is refused
  with stream_cfg_refused. -/
  | streamCfgWrite (value : W32)
  /-- DESCRIPTOR_START (R395): An armed descriptor starts once its flag, hazard, ordering, unit-room and band
  conditions hold. -/
  | descriptorStart (id : Nat)
  /-- DESCRIPTOR_RETIRE (R397): A completed descriptor retires in stream order, writing its completion entry and
  setting its signal flag. -/
  | descriptorRetire (id : Nat)
  /-- ORRERY_PREEMPT (R410): The Orrery pre-empts a lower-priority started descriptor that holds a unit that a
  higher-priority descriptor needs. -/
  | orreryPreempt (victim wanting : Nat)
  /-- MULTICAST_JOIN (R400): When join_window expires or every stream is ready, the Orrery forms a multicast
  tile mask and tree. -/
  | multicastJoin (ids : List Nat)
  /-- BATCH_DEADLINE (R134): The first batch member's deadline passes and the batch issues with the rows
  gathered. -/
  | batchDeadline (first : Nat)
  /-- BAND_IDLE_GATE (R394): After idle_gate_us with no armed descriptor on its tiles, a band lowers to Gated.
  -/
  | bandIdleGate (band : Nat)
  /-- BAND_RETAIN_IDLE (R613): After retain_idle with nothing armed or running, a band lowers from Gated to
  Retain. -/
  | bandRetainIdle (band : Nat)
  /-- BAND_OFF (R613): With off_spares set, a band whose tiles back no logical number lowers to Off. -/
  | bandOff (band : Nat)
  /-- BAND_WAKE_COMPLETE (R612): A band reaches Run after its wake time, after completing any lowering in
  progress. -/
  | bandWakeComplete (band : Nat)
  /-- STREAM (R115): The Array STREAM descriptor computes dot products chunk by chunk and K-block by K-block
  into the destination. -/
  | stream (id groups : Nat)
  /-- ADD (R139): The Vector ADD descriptor writes rne32(a + b). -/
  | add (id groups : Nat)
  /-- SUB (R139): The Vector SUB descriptor writes rne32(a − b). -/
  | sub (id groups : Nat)
  /-- MUL (R139): The Vector MUL descriptor writes rne32(a × b). -/
  | mul (id groups : Nat)
  /-- MAX (R82): The Vector MAX descriptor writes the IEEE 754-2019 maximum of a and b. -/
  | max (id groups : Nat)
  /-- MULADD (R139): The Vector MULADD descriptor writes rne32(rne32(a × s) + b). -/
  | muladd (id groups : Nat)
  /-- EXP2 (R82): The Vector EXP2 descriptor writes the correctly rounded exp2 of a. -/
  | exp2 (id groups : Nat)
  /-- RECIP (R82): The Vector RECIP descriptor writes the correctly rounded reciprocal of a. -/
  | recip (id groups : Nat)
  /-- RSQRT (R82): The Vector RSQRT descriptor writes the correctly rounded reciprocal square root of a. -/
  | rsqrt (id groups : Nat)
  /-- LOG2 (R82): The Vector LOG2 descriptor writes the correctly rounded log2 of a. -/
  | log2 (id groups : Nat)
  /-- CONVERT (R48): The Vector CONVERT descriptor converts a to the destination format under the conversion
  control. -/
  | convert (id groups : Nat)
  /-- RESIDUAL_ADD (R83): The Vector RESIDUAL_ADD descriptor adds the layer output into the FP32 residual
  stream. -/
  | residualAdd (id groups : Nat)
  /-- ROWSUM (R139): The Vector ROWSUM descriptor writes the rowsum of each row. -/
  | rowsum (id groups : Nat)
  /-- ROWMAX (R139): The Vector ROWMAX descriptor writes the maximum of each row. -/
  | rowmax (id groups : Nat)
  /-- LAYERNORM (R87): The Vector LAYERNORM descriptor normalises each row by the reference layernorm sequence.
  -/
  | layernorm (id groups : Nat)
  /-- RMSNORM (R87): The Vector RMSNORM descriptor normalises each row by the reference rmsnorm sequence. -/
  | rmsnorm (id groups : Nat)
  /-- SILU (R140): The Vector SILU descriptor writes silu of each element. -/
  | silu (id groups : Nat)
  /-- SILU_BWD (R140): The Vector SILU_BWD descriptor writes the silu gradient from x and dy. -/
  | siluBwd (id groups : Nat)
  /-- TREE_JOIN (R141): The Vector TREE_JOIN descriptor merges two node lists into the joined node list or the
  root. -/
  | treeJoin (id groups : Nat)
  /-- CONV_FWD (R153): The Window CONV_FWD descriptor runs a forward convolution from the map in tile SRAM. -/
  | convFwd (id groups : Nat)
  /-- CONV_DGRAD (R155): The Window CONV_DGRAD descriptor computes the input gradient of a convolution. -/
  | convDgrad (id groups : Nat)
  /-- CONV_WGRAD (R156): The Window CONV_WGRAD descriptor computes a weight-gradient slice of a convolution. -/
  | convWgrad (id groups : Nat)
  /-- POOL_MAX (R157): The Window POOL_MAX descriptor computes max pooling by the pooling sequence. -/
  | poolMax (id groups : Nat)
  /-- POOL_AVG (R157): The Window POOL_AVG descriptor computes average pooling by the pooling sequence. -/
  | poolAvg (id groups : Nat)
  /-- POOL_MAX_BWD (R157): The Window POOL_MAX_BWD descriptor routes each gradient to the first maximum tap. -/
  | poolMaxBwd (id groups : Nat)
  /-- POOL_AVG_BWD (R157): The Window POOL_AVG_BWD descriptor spreads each gradient over its window. -/
  | poolAvgBwd (id groups : Nat)
  /-- STRIPE_REGION_FETCH (R160): The next stripe's region is fetched, after the current stripe's last group
  commit where both regions do not fit. -/
  | stripeRegionFetch (id : Nat)
  /-- FWD (R169): The Attention FWD segment combines its key blocks into the row state and finishes at kb_lo 0.
  -/
  | fwd (id groups : Nat)
  /-- BWD (R189): The Attention BWD segment recomputes p and forms dQ state and dK and dV node lists. -/
  | bwd (id groups : Nat)
  /-- CACHE_WRITE (R206): The CACHE_WRITE descriptor stores keys and values for token positions into cache
  pages. -/
  | cacheWrite (id : Nat)
  /-- CACHE_MATCH (R210): The CACHE_MATCH descriptor maps matching prefix pages into a page table and writes the
  matched token count. -/
  | cacheMatch (id : Nat)
  /-- CACHE_RELEASE (R211): The CACHE_RELEASE descriptor empties a page table and drops page references. -/
  | cacheRelease (id : Nat)
  /-- STACK_OPEN (R221): The Stack OPEN descriptor reads the region record and sets every lane empty. -/
  | stackOpen (id : Nat)
  /-- PUSH (R229): The Stack PUSH descriptor encodes a frame into the first tier with room and commits it. -/
  | push (id : Nat)
  /-- POP (R231): The Stack POP descriptor checks and decodes the top frame into its destination and removes it.
  -/
  | pop (id : Nat)
  /-- DROP (R232): The Stack DROP descriptor removes the top count frames without reading them. -/
  | drop (id : Nat)
  /-- STACK_CLOSE (R232): The Stack CLOSE descriptor discards every frame and closes the stack. -/
  | stackClose (id : Nat)
  /-- ENCODE (R249): The Codec ENCODE descriptor writes a frame from its source. -/
  | encode (id : Nat)
  /-- DECODE (R249): The Codec DECODE descriptor decodes a frame into its destination. -/
  | decode (id : Nat)
  /-- COPY (R404): The Move COPY descriptor moves bytes, local or remote, in 4 KiB commits. -/
  | copy (id groups : Nat)
  /-- FILL (R404): The Move FILL descriptor writes a repeated 32-bit pattern. -/
  | fill (id groups : Nat)
  /-- MS_LANE_INIT (R354): MS_LANE_INIT writes empty lane blocks of a lane table. -/
  | msLaneInit (id : Nat)
  /-- MS_EXP_MAX (R354): MS_EXP_MAX raises table block exponents to the value rows' block exponents. -/
  | msExpMax (id rows : Nat)
  /-- MS_LANE_ADD (R356): MS_LANE_ADD converts value rows to lanes and adds them into the table. -/
  | msLaneAdd (id rows : Nat)
  /-- MS_LANE_OUT (R354): MS_LANE_OUT writes from_lanes of table blocks to an FP32 destination. -/
  | msLaneOut (id : Nat)
  /-- MS_INT_ADD (R354): MS_INT_ADD adds integer values into a table modulo 2^w. -/
  | msIntAdd (id rows : Nat)
  /-- MS_FLOAT_ADD (R355): MS_FLOAT_ADD writes rne32(old + x) in order of arrival, refused in reproducible mode.
  -/
  | msFloatAdd (id rows : Nat)
  /-- SET (R437): The Flag SET descriptor sets masked flags of a window, locally or remotely. -/
  | set (id : Nat)
  /-- CLEAR (R437): The Flag CLEAR descriptor clears masked flags of a window, locally or remotely. -/
  | clear (id : Nat)
  /-- WAIT (R430): The Flag WAIT descriptor completes when its condition over the window holds. -/
  | wait (id : Nat)
  /-- WATCH (R431): The Flag WATCH descriptor registers a watch in a slot on the window's home. -/
  | watch (id : Nat)
  /-- UNWATCH (R437): The Flag UNWATCH descriptor removes the mailbox's watches with the tag, each with a
  reason-1 message. -/
  | unwatch (id : Nat)
  /-- STREAM_BARRIER (R402): A STREAM barrier completes once earlier descriptors of its mask's streams have
  retired. -/
  | streamBarrier (id : Nat)
  /-- GROUP_BARRIER (R403): A GROUP barrier runs dissemination rounds of remote flag sets over the group. -/
  | groupBarrier (id : Nat)
  /-- ADAMW (R260): The Update ADAMW descriptor applies AdamW to a slice into the inactive generation. -/
  | adamw (id : Nat)
  /-- CARRY (R269): The Update CARRY descriptor copies slices bit for bit from the active to the inactive
  generation. -/
  | carry (id : Nat)
  /-- CONFIGURE (R284): The Update CONFIGURE descriptor binds the run record and opens its step. -/
  | configure (id : Nat)
  /-- CLEARANCE (R275): The Update CLEARANCE descriptor forms the local verdict and enters the clearance
  exchange. -/
  | clearance (id : Nat)
  /-- CLEARANCE_VERDICT (R278): The combined verdict arrives and the clearance passes with a flip or fails and
  reopens the step. -/
  | clearanceVerdict (verdict : VerdictOf)
  /-- ASSAY_CHECK (R94): A sampled output block is recomputed in BF16 on idle capacity and binned into the slot
  histogram. -/
  | assayCheck (id block : Nat)
  /-- ALARM_ACK (R100): Writing 1 to a slot's alarm bit clears it and sets alarm_base to the current streak. -/
  | alarmAck (value : BitVec 8)
  /-- ALL_REDUCE (R299): The ALL_REDUCE collective reduces all shares of src into dst at every member. -/
  | allReduce (id : Nat)
  /-- REDUCE_SCATTER (R299): The REDUCE_SCATTER collective gives each member its range of the reduction. -/
  | reduceScatter (id : Nat)
  /-- ALL_GATHER (R299): The ALL_GATHER collective gathers every member's src in member order, with optional
  drift record or compare. -/
  | allGather (id : Nat) (gathered : Gathered)
  /-- BROADCAST (R299): The BROADCAST collective copies the root member's src to every dst. -/
  | broadcast (id : Nat) (data : List Byte)
  /-- ALL_TO_ALL (R299): The ALL_TO_ALL collective exchanges parts between every pair of members. -/
  | allToAll (id : Nat) (parts : List (List Byte))
  /-- SEND (R303): The SEND collective sends count elements to a peer and completes on its acknowledgement. -/
  | send (id : Nat) (peerDigest : W64)
  /-- RECV (R303): The RECV collective receives count elements from a peer into dst. -/
  | recv (id : Nat) (peerDigest : W64) (data : List Byte)
  /-- GROUP_OPEN (R292): GROUP_OPEN binds a group record to a group queue after a head exchange of digests and
  shares. -/
  | groupOpen (id : Nat)
  /-- GROUP_CLOSE (R298): GROUP_CLOSE waits for earlier collectives and unbinds the group queue. -/
  | groupClose (id : Nat)
  /-- RESHARD (R317): RESHARD drains the group, exchanges the new epoch and applies the new group record. -/
  | reshard (id : Nat)
  /-- ADOPT (R327): ADOPT takes a failed rank and, per group, runs a notice head, sends FENCE and settles any
  pending clearance. -/
  | adopt (id : Nat)
  /-- TRANCHE_START (R311): A tranche starts when staging has room for its contribution and its leader claims or
  falls back. -/
  | trancheStart (id tranche : Nat)
  /-- GRANT (R313): A GRANT from the switch lets the member contribute to the tranche's phases. -/
  | grant (msg : CollMsg)
  /-- REFUSE (R313): A REFUSE makes the leader wait for a retry, or send FALLBACK after retry_limit. -/
  | refuse (msg : CollMsg)
  /-- CLAIM_RETRY (R313): The backoff timer expires and the leader sends its next CLAIM. -/
  | claimRetry (id tranche : Nat)
  /-- FALLBACK (R314): A FALLBACK moves the tranche onto the device ring. -/
  | fallback (msg : CollMsg)
  /-- RING_HOP (R314): A ring piece arrives from the previous member and is combined or forwarded. -/
  | ringHop (msg : CollMsg) (piece hops : Nat)
  /-- RESULT (R311): A whole RESULT of a head, exponent or lane phase arrives and the member proceeds or writes
  its destination. -/
  | result (msg : CollMsg)
  /-- SLOT_LOST (R315): SLOT_LOST ends the collective with TIMEOUT, marks the plane down, or reclaims a
  clearance slot. -/
  | slotLost (msg : CollMsg)
  /-- FENCE (R328): A FENCE makes a survivor end older-epoch work with TIMEOUT and raise the group's epoch. -/
  | fence (msg : CollMsg)
  /-- CLEARANCE_PLANE_RETEST (R321): Every 1,000 µs with no qualifying plane, the clearance leader tests the
  planes again. -/
  | clearancePlaneRetest (id : Nat)
  /-- FRAME_RECEIVE (R456): A received frame is checked, acted on once and acknowledged, or discarded with nak,
  and naks trigger replay. -/
  | frameReceive (port : BitVec 4) (fec : Fec) (frame : List Byte)
  /-- LANE_FAILING (R461): A lane declared failing is swapped onto the spare lane, or takes the port Down. -/
  | laneFailing (port : BitVec 4) (logical : BitVec 3)
  /-- WRITE (R465): A received WRITE packet is applied if its window allows it, and answered with an ACK. -/
  | write (pkt : Packet)
  /-- READ (R465): A received READ packet is answered with READ_DATA or a refusing status. -/
  | read (pkt : Packet)
  /-- READ_DATA (R464): A READ_DATA response completes the device's outstanding remote read. -/
  | readData (pkt : Packet)
  /-- ACK (R466): A received ACK completes, retries or ends the outstanding remote request. -/
  | ack (pkt : Packet)
  /-- FLAG (R420): A received FLAG packet applies a remote set or clear inside VSP_REMOTE_WIN at most once. -/
  | flag (pkt : Packet)
  /-- IDENT_QUERY (R467): A received IDENT_QUERY is answered with an IDENT_REPLY. -/
  | identQuery (pkt : Packet)
  /-- SWITCH (R459): A SWITCH advertisement sets the plane's CLR_PLANE_SLOT. -/
  | switch (pkt : Packet)
  /-- NOT_READY_RESEND (R466): Ten microseconds after a NOT_READY, the requester sends the request again. -/
  | notReadyResend (tag : Nat)
  /-- REMOTE_REQUEST_TIMEOUT (R466): A remote request, including a stack far access, with no final answer after
  5 ms ends its descriptor with TIMEOUT. -/
  | remoteRequestTimeout (tag : Nat)
  /-- REMOTE_FLAG_TIMEOUT (R438): A remote SET or CLEAR unacknowledged within 5 ms completes with TIMEOUT. -/
  | remoteFlagTimeout (tag : Nat)
  /-- UIO_TIMEOUT (R496): A UIO access with no completion after 5 ms ends its operation with TIMEOUT. -/
  | uioTimeout (tag : Nat)
  /-- RETRAIN (R471): A write of retrain moves an Active port to Draining. -/
  | retrain (port : BitVec 4)
  /-- RETRAIN_DRAIN_END (R471): When every frame is acknowledged, or after 100 µs, the draining port enters
  Training. -/
  | retrainDrainEnd (port : BitVec 4)
  /-- PORT_ACTIVE (R515): A port completes training and qualification and becomes Active or Down. -/
  | portActive (port : BitVec 4) (passed : BitVec 9) (enene : Bool)
  /-- MGT_RANK_WRITE (R525): A write of MGT_RANK sets the rank unless a group queue is bound, and sends
  IDENT_REPLY on every Active port. -/
  | mgtRankWrite (value : W32)
  /-- FLAG_SET_WRITE (R429): A host write to VSP_FLAG_SET sets flags after earlier posted host writes. -/
  | flagSetWrite (word : BitVec 10) (value : W64)
  /-- FLAG_CLEAR_WRITE (R429): A host write to VSP_FLAG_CLEAR clears flags after earlier posted host writes. -/
  | flagClearWrite (word : BitVec 10) (value : W64)
  /-- MANUAL_ACT (R441): A keyed write of VSP_MANUAL queues a Daybook record and then applies the set or clear,
  or is refused. -/
  | manualAct (value : W32)
  /-- MBOX_CFG_WRITE (R434): A write of VSP_MBOX_CFG enables, disables or is ignored per the mailbox's validity
  rules. -/
  | mboxCfgWrite (value : W32)
  /-- MBOX_RELEASE (R435): A write of VSP_MBOX_PTRS.head releases messages and lets waiting messages be written.
  -/
  | mboxRelease (value : W64)
  /-- MBOX_WRITE_RETRY (R435): Every 1 ms a failed mailbox message write is tried again. -/
  | mboxWriteRetry (mbox : BitVec 3)
  /-- SCRUB_READ (R347): The scrub reads each granule once per period, correcting or poisoning words. -/
  | scrubRead (granule : Nat) (errors : List WordError)
  /-- HBM_REFRESH (R361): The refresh interval expires and the stack is refreshed. -/
  | hbmRefresh (stack : BitVec 3)
  /-- SEAL_MERGE (R351): The seal owner merges a partial write into a sealed block and writes a new seal. -/
  | sealMerge (addr : Nat) (data : List Byte) (tensor policy base extent : Nat)
  /-- ROW_REPAIR (R362): A repair candidate row is redirected to a reserve row when auto_repair is set. -/
  | rowRepair (pc : BitVec 8) (row : Nat)
  /-- REPAIR_GO (R363): Setting HBM_REPAIR_CTRL.go starts a host-requested repair of the addressed row. -/
  | repairGo (value : W64)
  /-- POST_PACKAGE_REPAIR_DONE (R363): Post-package repair ends, the data is copied back, the reserve row is
  freed and a repair record is queued. -/
  | postPackageRepairDone (resource : Bool)
  /-- MARGIN_GO (R365): Setting HBM_MARGIN_CTRL.go starts a margin sweep, or refuses it outside compute reset.
  -/
  | marginGo (value : W32)
  /-- MARGIN_SWEEP_DONE (R365): The sweep ends, nominal is restored and HBM_MARGIN_RESULT is written. -/
  | marginSweepDone
  /-- CORE_WATCHDOG (R527): A tile core misses its 100 µs watchdog and the tile is retired with cause 6. -/
  | coreWatchdog (ptile : Nat)
  /-- BAND_WATCHDOG (R527): A band controller watchdog excludes all eight tiles of the band with cause 8. -/
  | bandWatchdog (band : Nat)
  /-- RAIL_OUT_OF_REGULATION (R608): A band rail leaving regulation faults the band under the band-fault rule.
  -/
  | railOutOfRegulation (band : Nat)
  /-- TILE_UNCORRECTABLE (R527): An uncorrectable word in tile SRAM restarts the operation on the tile, or on a
  second occurrence retires the tile. -/
  | tileUncorrectable (ptile word : Nat)
  /-- TILE_REMAP (R528): A faulted tile's number moves to a spare or partner, one remap at a time per die, and
  its descriptors restart. -/
  | tileRemap (die : BitVec 1)
  /-- PARTNER_SWITCH (R533): A partner tile saves one number's SRAM and loads the other number's after 1 ms or
  when idle. -/
  | partnerSwitch (ptile : Nat)
  /-- TIL_SAVE_BASE_WRITE (R535): A write of TIL_SAVE_BASE sets the save area and, on enable, gives partners to
  unbacked numbers. -/
  | tilSaveBaseWrite (value : W64)
  /-- RECORD_WRITE (R550): The Daybook engine programs the next queued record into both rings when a slot and a
  token are available. -/
  | recordWrite
  /-- SECTOR_ERASE_DONE (R545): A sector erase completes, writing its header and letting the head advance. -/
  | sectorEraseDone
  /-- CONSOLIDATION_START (R553): A consolidation begins when the newest BEGIN lies 128 sectors back or 2^46
  ticks have passed. -/
  | consolidationStart
  /-- CONSOLIDATE (R553): DBK_CMD 2 starts a consolidation. -/
  | consolidate
  /-- HOST_RECORD (R547): DBK_CMD 1 queues a HOST record carrying DBK_HOST_DATA. -/
  | hostRecord
  /-- DBK_READ_SEQ_WRITE (R569): A write of DBK_READ_SEQ starts a read of that record. -/
  | dbkReadSeqWrite (seq : W64)
  /-- DBK_READ_DONE (R569): The record read ends, filling DBK_READ_DATA and DBK_READ_STATUS and setting
  read_done. -/
  | dbkReadDone
  /-- TOKEN_REFILL (R566): The always-on counter adds slot tokens to the Daybook bucket at 20 per second. -/
  | tokenRefill
  /-- GET_MEASUREMENTS (R578): The Strongroom command returns the six measurements. -/
  | getMeasurements
  /-- GET_CERTS (R595): The Strongroom command returns the identity or debug certificate chain. -/
  | getCerts
  /-- ATTEST (R586): The Strongroom command returns a signed 256-byte attestation report. -/
  | attest
  /-- IMAGE_UPDATE (R596): The Strongroom command verifies an image and writes it to the partition or slot not
  in use. -/
  | imageUpdate
  /-- ROLLBACK_COMMIT (R583): The Strongroom command writes MIN_VERSION records and blows floor fuses to the
  running svn. -/
  | rollbackCommit
  /-- DEBUG_NONCE (R589): The Strongroom command returns and installs a fresh 32-byte nonce. -/
  | debugNonce
  /-- DEBUG_UNLOCK (R590): The Strongroom command checks a token and switches to the debug identity and opens
  debug paths. -/
  | debugUnlock
  /-- DAYBOOK_FORMAT (R591): The Strongroom command erases both Daybook rings and formats the Daybook under a
  valid token. -/
  | daybookFormat
  /-- OWNER_SET (R597): The Strongroom command blows the owner key while the owner field is blank. -/
  | ownerSet
  /-- RANDOM (R573): The Strongroom command returns DRBG bytes, reseeding after every 65,536 requests. -/
  | random
  /-- TAMPER (R593): A tamper sensor firing clears all keys and halts the Strongroom until a cold reset. -/
  | tamper (sensor : Nat)
  /-- ENTROPY_HEALTH_FAILURE (R573): A failed entropy health test stops the DRBG and clears drbg_ok. -/
  | entropyHealthFailure
  /-- LOCK_WRITE (R580): A write to a locked limit is ignored, counted in STR_LOCK_WRITES and flagged. -/
  | lockWrite (lock : BitVec 3)
  /-- CLEAR_FAULTS (R628): The PMBus CLEAR_FAULTS command clears ended status bits and releases ALERT_N. -/
  | clearFaults
  /-- CAPABILITY (R627): The PMBus CAPABILITY command returns 0xD0. -/
  | capability
  /-- STATUS_WORD (R627): The PMBus STATUS_WORD command returns the status word. -/
  | statusWord
  /-- STATUS_INPUT (R627): The PMBus STATUS_INPUT command returns the input status bits. -/
  | statusInput
  /-- STATUS_TEMPERATURE (R627): The PMBus STATUS_TEMPERATURE command returns the temperature status bits. -/
  | statusTemperature
  /-- READ_VIN (R627): The PMBus READ_VIN command returns the input voltage. -/
  | readVin
  /-- READ_IIN (R627): The PMBus READ_IIN command returns the input current. -/
  | readIin
  /-- READ_TEMPERATURE_1 (R627): The PMBus READ_TEMPERATURE_1 command returns the hottest compute-die sensor. -/
  | readTemperature1
  /-- READ_TEMPERATURE_2 (R627): The PMBus READ_TEMPERATURE_2 command returns the hottest HBM stack. -/
  | readTemperature2
  /-- READ_TEMPERATURE_3 (R627): The PMBus READ_TEMPERATURE_3 command returns the hottest hub sensor. -/
  | readTemperature3
  /-- READ_PIN (R627): The PMBus READ_PIN command returns the input power. -/
  | readPin
  /-- PMBUS_REVISION (R627): The PMBus PMBUS_REVISION command returns 0x33. -/
  | pmbusRevision
  /-- MFR_ID (R627): The PMBus MFR_ID command returns SALRUS. -/
  | mfrId
  /-- MFR_MODEL (R627): The PMBus MFR_MODEL command returns QZB-288-LC. -/
  | mfrModel
  /-- MFR_SERIAL (R627): The PMBus MFR_SERIAL command returns the serial as 16 hexadecimal characters. -/
  | mfrSerial
  /-- MFR_FLAG_ACT (R441): The PMBus MFR_FLAG_ACT command requests a manual flag act over the sideband path. -/
  | mfrFlagAct (value : W32)
  /-- MFR_FLAG_STATUS (R627): The PMBus MFR_FLAG_STATUS command returns VSP_MANUAL_STATUS bits. -/
  | mfrFlagStatus
  /-- MFR_POWER_CAP (R629): The PMBus MFR_POWER_CAP command reads or writes cap_w within 500–2,000 W. -/
  | mfrPowerCap (write : Option (BitVec 16))
  /-- MFR_MODULE_STATE (R627): The PMBus MFR_MODULE_STATE command returns MGT_STATE bits. -/
  | mfrModuleState
  /-- PMBUS_UNSUPPORTED_COMMAND (R627): Any other PMBus command sets the communication bit of STATUS_WORD and
  returns no data. -/
  | pmbusUnsupportedCommand (code : Byte)
  /-- ALERT_RESPONSE (R628): A read of the SMBus alert response address releases ALERT_N. -/
  | alertResponse
  /-- READ_CLEAR (R11): A read of an RC field returns its value and clears it. -/
  | readClear (offset : Bar × Nat)
  /-- REGISTER_WRITE (R11): A write to any register without a row of its own acts by its access type. -/
  | registerWrite (bar : Bar) (offset : Nat) (wide : Bool) (value : W64)
  /-- INSERTION (R601): Input power appears on insertion: the bulk capacitance charges at no more than 5 A, the
  hub powers into stage 0x00 and the MOD_ID strap is read. -/
  | insertion (modId : BitVec 6) (mv : Nat)
  /-- OVER_VOLTAGE (R627): The input rises above 52 V, setting STATUS_INPUT bit 7 and asserting ALERT_N. -/
  | overVoltage (mv : Nat)
  /-- UIO_COMPLETION (R496): A UIO completion arrives from the link, completing an outbound read or
  acknowledging an outbound write for fences and CXL-tier pushes. -/
  | uioCompletion (tag : Nat) (data : List Byte)
  /-- BACK_INVALIDATE_COMPLETION (R493): The host completes a back-invalidate snoop, after which the waiting
  device-side access or tagged transaction is applied. -/
  | backInvalidateCompletion (line : Nat) (data : Option (BitVec 512))
  deriving DecidableEq, Repr

end Sys2Proof
end

