-- ==== Sys2Proof/Config.lean ====
section
/-! DEFINITION. What the spec leaves to the device or to a standard it only names, as constants without a body: no proof
can see their values, and a claim holds whatever they are. -/

namespace Sys2Proof.Config

/-- A free number for each value of the counter `Chip.fresh`: every value that the spec leaves open and that is not named
below. Log entry 1. -/
opaque freeNat : Nat → Nat

/-- The lossless codec's stored form of a codec block (R235: the device's own). Log entry 3. -/
opaque losslessEnc : List Byte → List Byte

/-- The decoder of `losslessEnc`; the codec uses form 1 only where the two agree. Log entry 3. -/
opaque losslessDec : List Byte → List Byte

/-- The DRBG's output bytes by position in its stream (R573). Log entry 4. -/
opaque drbgByte : Nat → Byte

/-- SLH-DSA verification of (public key, message, signature), FIPS 205 (R571). Log entry 4. -/
opaque slhVerify : List Byte → List Byte → List Byte → Bool

/-- The SLH-DSA-SHA2-128f signature over a message, 17,088 bytes wide; the flag picks the debug identity (R585). Log
entry 4. -/
opaque slhSign : Bool → List Byte → List Byte

/-- The Daybook HMAC key that the Strongroom derives from the PUF root (R574). Log entry 4. -/
opaque daybookKey : List Byte

/-- The fused public keys: vendor primary, vendor secondary, debug authority (R576, R588). Log entry 4. -/
opaque fusedKey : Nat → List Byte

/-- The body of the SPDM response to a request, by request code and request bytes (R584: the DMTF standard's
layout). Log entry 5. -/
opaque spdmBody : Nat → List Byte → List Byte

/-- Bytes of a large SPDM response that one chunk carries, where it lies in 1 to 4,096 (R584). Log entry 5. -/
opaque chunkBytes : Nat

/-- The IDE keys that a KEY_PROG message decrypts to inside the Strongroom (R587). Log entry 5. -/
opaque ideUnwrap : List Byte → List Byte

/-- The measurement of the Strongroom ROM (R578, index 0). Log entry 4. -/
opaque romDigest : List Byte

/-- Place and length, in the flash's reserve partition, of the identity and debug certificate chains (R574). Log
entry 5. -/
opaque certSpan : Bool → Nat × Nat

/-- The bin of a check without any difference whose largest wide result has no finite reciprocal (R95: 0 × Inf has no
condition of its table), by that result's FP32 bits. Log entry 45. -/
opaque assayBin : Nat → Nat

/-- The exponent the device picks when it writes a measured value as LINEAR11 (R627). Log entry 6. -/
opaque linear11Exp : Int → Int

/-- The bytes of a configuration-space register that no rule lays out, by offset (R478, R479). Log entry 7. -/
opaque cfgByte : Nat → Byte

/-- Offset of the Salrus DVSEC in configuration space, a multiple of 4 (R479: no rule places it). Log entry 7. -/
opaque dvsecAt : Nat

/-- The row of its pseudo-channel that a slot lies in, by slot (R362: no rule gives the rows). Log entry 9. -/
opaque rowOfSlot : Nat → Nat

/-- Repair resources of a pseudo-channel, as read at start (R368: HBM_PC_REPAIRS.ppr_left). Log entry 2. -/
opaque pprResources : Nat → BitVec 8

/-- The measurement of the firmware manifest, by the digest of the boot image's body (R517, R578: no rule places the
manifest). Log entry 4. -/
opaque manifestDigest : List Byte → List Byte

/-- The firmware manifest that a boot image holds, by the digest of its body: block index, whether the engine sequencers take
the block, and the block's digest (R517: no rule lays it out). Log entry 4. -/
opaque fwManifest : List Byte → List (Nat × Bool × List Byte)

/-- What a rail's guard band may add before it reaches the rail maximum that the Strongroom locks, in mV, by rail (R563, R581:
no rule gives a maximum or a nominal setpoint). Log entry 59. -/
opaque railHeadroomMv : Nat → Nat

/-- The measurement of the Almanac, by its good tiles, lanes and stacks (R578: no rule lays out what is hashed). Log
entry 4. -/
opaque almanacDigest : Nat → Nat → Nat → List Byte

end Sys2Proof.Config
end

