-- ==== Sys2Proof/Machine/Bits.lean ====
section
/-! DEFINITION. Finite maps, byte order and bit fields (little-endian, 00_scope Conventions), and the small list
functions the meanings share. -/

namespace Sys2Proof.Machine

/-- The value of a finite map at a key: the listed one, or the default `d`. -/
def fget {α : Type} (d : α) (m : FMap α) (k : Nat) : α :=
  match m with
  | [] => d
  | (j, v) :: r => if j = k then v else fget d r k

/-- Puts an entry before the first larger key. -/
def finsert {α : Type} (k : Nat) (v : α) : FMap α → FMap α
  | [] => [(k, v)]
  | (j, w) :: r => if k < j then (k, v) :: (j, w) :: r else (j, w) :: finsert k v r

/-- Writes a finite map at a key and keeps it canonical: a write of the default removes the entry. -/
def fset {α : Type} [DecidableEq α] (d : α) (m : FMap α) (k : Nat) (v : α) : FMap α :=
  let rest := m.filter fun e => !(e.1 == k)
  if v = d then rest else finsert k v rest

/-- Whether a finite map is canonical: keys strictly rising, no listed default. -/
def fwf {α : Type} [DecidableEq α] (d : α) : FMap α → Bool
  | [] => true
  | [(_, v)] => decide (v ≠ d)
  | (j, v) :: (k, w) :: r => decide (v ≠ d) && decide (j < k) && fwf d ((k, w) :: r)

/-- Writes consecutive keys from `k`. -/
def fsetList {α : Type} [DecidableEq α] (d : α) (m : FMap α) (k : Nat) : List α → FMap α
  | [] => m
  | v :: r => fsetList d (fset d m k v) (k + 1) r

/-- Applies a function to the value at a key. -/
def fmod {α : Type} [DecidableEq α] (d : α) (m : FMap α) (k : Nat) (f : α → α) : FMap α :=
  fset d m k (f (fget d m k))

/-- Every key of the map from `lo` up to `hi` (exclusive), back to the default. -/
def fclear {α : Type} (m : FMap α) (lo hi : Nat) : FMap α :=
  m.filter fun e => decide (e.1 < lo) || decide (hi ≤ e.1)

/-- Applies a function to every value of a finite map. -/
def mapVals {α : Type} [DecidableEq α] (z : α) (f : α → α) (m : FMap α) : FMap α :=
  m.foldr (fun x r => fset z r x.1 (f x.2)) []

/-- Bits [lo + w − 1 : lo] of a number. -/
def bitsOf (x lo w : Nat) : Nat := x >>> lo % 2 ^ w

/-- Bit `i` of a number. -/
def bitOf (x i : Nat) : Bool := x.testBit i

/-- 1 for true, 0 for false. -/
def b2n (b : Bool) : Nat := if b then 1 else 0

/-- Field of a descriptor or record: `w` bits from bit `b` of byte `o`. -/
def fld {n : Nat} (d : BitVec n) (o b w : Nat) : Nat := bitsOf d.toNat (8 * o + b) w

/-- Whole bytes [o, o + n) of a descriptor or record, as a number. -/
def byt {m : Nat} (d : BitVec m) (o n : Nat) : Nat := bitsOf d.toNat (8 * o) (8 * n)

/-- `n` bytes of a number, the least significant first. -/
def toBytes : Nat → Nat → List Byte
  | 0, _ => []
  | n + 1, x => BitVec.ofNat 8 x :: toBytes n (x / 256)

/-- The number that bytes spell, the least significant first. -/
def ofBytes : List Byte → Nat
  | [] => 0
  | b :: r => b.toNat + 256 * ofBytes r

/-- The signed value of the low `w` bits of a number. -/
def sgn (w x : Nat) : Int := (BitVec.ofNat w x).toInt

/-- The `w`-bit pattern of an integer, modulo 2^w. -/
def unsgn (w : Nat) (x : Int) : Nat := (BitVec.ofInt w x).toNat

/-- Quotient rounded up. -/
def cdiv (a b : Nat) : Nat := (a + b - 1) / b

/-- The least `n` with x ≤ 2^n. -/
def clog2 (x : Nat) : Nat := if x ≤ 1 then 0 else (x - 1).log2 + 1

/-- Rounded up to a multiple of `m`. -/
def alignUp (x m : Nat) : Nat := cdiv x m * m

/-- Serial order of 32-bit identifiers: `a` lies after `b` (R413). -/
def after32 (a b : Nat) : Bool :=
  let x := (a + 2 ^ 32 - b % 2 ^ 32) % 2 ^ 32
  decide (1 ≤ x) && decide (x ≤ 2 ^ 31 - 1)

/-- Adds to a counter laid out as a 16-bit epoch over a 48-bit count (R104). -/
def ctrAdd (c : W64) (n : Nat) : W64 := c + BitVec.ofNat 64 n

/-- Whether adding `n` to the counter wraps its 48-bit count (R104). -/
def ctrWraps (c : W64) (n : Nat) : Bool := decide (2 ^ 48 ≤ c.toNat % 2 ^ 48 + n)

/-- The natural numbers [lo, hi). -/
def span (lo hi : Nat) : List Nat := (List.range (hi - lo)).map (lo + ·)

/-- The positions of the set bits of a number below `w`, rising. -/
def setBits (w x : Nat) : List Nat := (List.range w).filter x.testBit

/-- Number of set bits below `w`. -/
def popCount (w x : Nat) : Nat := (setBits w x).length

/-- The list with element `i` replaced, unchanged where there is none. -/
def listSet {α : Type} (l : List α) (i : Nat) (v : α) : List α := l.set i v

/-- Sets or clears bit `i` of a word. -/
def putBit {n : Nat} (x : BitVec n) (i : Nat) (b : Bool) : BitVec n :=
  if b then x ||| (1#n <<< i) else x &&& ~~~(1#n <<< i)

/-- The word with its `w` bits from `lo` replaced by the low bits of `v`. -/
def putField {n : Nat} (x : BitVec n) (lo w v : Nat) : BitVec n :=
  (x &&& ~~~(BitVec.ofNat n ((2 ^ w - 1) <<< lo))) ||| BitVec.ofNat n ((v % 2 ^ w) <<< lo)

/-- Inserts before the first element with a larger key. -/
def insertBy {α : Type} (key : α → Nat) (x : α) : List α → List α
  | [] => [x]
  | y :: r => if key x < key y then x :: y :: r else y :: insertBy key x r

/-- Sorted by key; equal keys keep their order. -/
def sortBy {α : Type} (key : α → Nat) (l : List α) : List α := l.foldl (fun r x => insertBy key x r) []

end Sys2Proof.Machine
end

