-- ==== Sys2Proof/Machine/Numeric.lean ====
section
/-! DEFINITION. Number formats, rounding and conversion (02_formats, R32 to R57, R70, R71): values are exact dyadic
numbers, and every rounding is written as one. -/

namespace Sys2Proof.Machine

/-- The formats of R32, in the order of their codes. -/
inductive Format where
  | fp32 | bf16 | fp16 | e4m3 | e5m2 | mxE4m3 | mxE5m2 | mxE3m2 | mxE2m3 | mxE2m1 | int8 | int32 | int64 | ue5m3
  deriving DecidableEq, Repr

/-- Format codes (R32); codes 0x0E to 0x3F are reserved. -/
def Format.ofCode : Nat → Option Format
  | 0 => some .fp32 | 1 => some .bf16 | 2 => some .fp16 | 3 => some .e4m3 | 4 => some .e5m2 | 5 => some .mxE4m3
  | 6 => some .mxE5m2 | 7 => some .mxE3m2 | 8 => some .mxE2m3 | 9 => some .mxE2m1 | 10 => some .int8
  | 11 => some .int32 | 12 => some .int64 | 13 => some .ue5m3 | _ => none

/-- The code of a format (R32). -/
def Format.code : Format → Nat
  | .fp32 => 0 | .bf16 => 1 | .fp16 => 2 | .e4m3 => 3 | .e5m2 => 4 | .mxE4m3 => 5 | .mxE5m2 => 6 | .mxE3m2 => 7
  | .mxE2m3 => 8 | .mxE2m1 => 9 | .int8 => 10 | .int32 => 11 | .int64 => 12 | .ue5m3 => 13

/-- Bits of one element (R32). -/
def Format.bits : Format → Nat
  | .fp32 => 32 | .bf16 => 16 | .fp16 => 16 | .e4m3 => 8 | .e5m2 => 8 | .mxE4m3 => 8 | .mxE5m2 => 8 | .mxE3m2 => 6
  | .mxE2m3 => 6 | .mxE2m1 => 4 | .int8 => 8 | .int32 => 32 | .int64 => 64 | .ue5m3 => 8

/-- Formats stored in blocks of 32 with an E8M0 scale (R37, R43). -/
def Format.block : Format → Bool
  | .mxE4m3 | .mxE5m2 | .mxE3m2 | .mxE2m3 | .mxE2m1 | .ue5m3 => true
  | _ => false

/-- The OCP Microscaling formats (R37). -/
def Format.mx : Format → Bool
  | .mxE4m3 | .mxE5m2 | .mxE3m2 | .mxE2m3 | .mxE2m1 => true
  | _ => false

/-- Integer formats. -/
def Format.int : Format → Bool
  | .int8 | .int32 | .int64 => true
  | _ => false

/-- Formats under delayed per-tensor scaling: codes 0x03 and 0x04 (R58). -/
def Format.scaled : Format → Bool
  | .e4m3 | .e5m2 => true
  | _ => false

/-- Width of the fraction field (R32). -/
def Format.fbits : Format → Nat
  | .fp32 => 23 | .bf16 => 7 | .fp16 => 10 | .e4m3 | .mxE4m3 => 3 | .e5m2 | .mxE5m2 => 2 | .mxE3m2 => 2 | .mxE2m3 => 3
  | .mxE2m1 => 1 | .ue5m3 => 3 | _ => 0

/-- Width of the exponent field (R32). -/
def Format.ebits : Format → Nat
  | .fp32 | .bf16 => 8 | .fp16 => 5 | .e4m3 | .mxE4m3 => 4 | .e5m2 | .mxE5m2 => 5 | .mxE3m2 => 3 | .mxE2m3 => 2
  | .mxE2m1 => 2 | .ue5m3 => 5 | _ => 0

/-- Exponent bias (R32). -/
def Format.bias : Format → Int
  | .fp32 | .bf16 => 127 | .fp16 => 15 | .e4m3 | .mxE4m3 => 7 | .e5m2 | .mxE5m2 => 15 | .mxE3m2 => 3 | .mxE2m3 => 1
  | .mxE2m1 => 1 | .ue5m3 => 15 | _ => 0

/-- Magnitude pattern of the largest finite element (R32). -/
def Format.maxMag : Format → Nat
  | .fp32 => 0x7F7FFFFF | .bf16 => 0x7F7F | .fp16 => 0x7BFF | .e4m3 | .mxE4m3 => 0x7E | .e5m2 | .mxE5m2 => 0x7B
  | .mxE3m2 => 0x1F | .mxE2m3 => 0x1F | .mxE2m1 => 0x7 | .ue5m3 => 0xFE | _ => 0

/-- Magnitude pattern of Inf, where the format has one (R32). -/
def Format.infMag : Format → Option Nat
  | .fp32 => some 0x7F800000 | .bf16 => some 0x7F80 | .fp16 => some 0x7C00 | .e5m2 | .mxE5m2 => some 0x7C
  | _ => none

/-- The canonical NaN pattern, where an element can be NaN (R32, R35). -/
def Format.nanBits : Format → Option Nat
  | .fp32 => some 0x7FC00000 | .bf16 => some 0x7FC0 | .fp16 => some 0x7E00 | .e4m3 | .mxE4m3 => some 0x7F
  | .e5m2 | .mxE5m2 => some 0x7E | .ue5m3 => some 0xFF | _ => none

/-- Formats with a sign bit above exponent and fraction. -/
def Format.signed : Format → Bool
  | .ue5m3 => false | _ => true

/-- Exponent of the largest finite element, for the block formats (R40). -/
def Format.emax : Format → Int
  | .mxE4m3 => 8 | .mxE5m2 => 15 | .mxE3m2 => 4 | .mxE2m3 => 2 | .mxE2m1 => 2 | .ue5m3 => 16 | _ => 0

/-- Weight, as a power of two, of the lowest bit of a subnormal: 1 − bias − fraction bits. -/
def Format.lsbMin (f : Format) : Int := 1 - f.bias - f.fbits

/-- A decoded value: NaN, an infinity, or the exact number ±m × 2^e with its own sign of zero (R34). -/
inductive FVal where
  | nan
  | inf (neg : Bool)
  | fin (neg : Bool) (m : Nat) (e : Int)
  deriving DecidableEq, Repr

/-- m × 2^e as an integer over 2^lo, for lo ≤ e. -/
def shiftTo (m : Nat) (e lo : Int) : Nat := m <<< (e - lo).toNat

/-- Exponent of the leading bit of m × 2^e, for m > 0: floor(log2). -/
def topExp (m : Nat) (e : Int) : Int := (m.log2 : Int) + e

def FVal.isNan : FVal → Bool | .nan => true | _ => false
def FVal.isInf : FVal → Bool | .inf _ => true | _ => false
def FVal.finite : FVal → Bool | .fin .. => true | _ => false
def FVal.isZero : FVal → Bool | .fin _ m _ => m == 0 | _ => false
def FVal.sign : FVal → Bool | .nan => false | .inf s => s | .fin s _ _ => s
def FVal.zero : FVal := .fin false 0 0
def FVal.neg : FVal → FVal | .nan => .nan | .inf s => .inf (!s) | .fin s m e => .fin (!s) m e
def FVal.abs : FVal → FVal | .nan => .nan | .inf _ => .inf false | .fin _ m e => .fin false m e

/-- Multiplied by 2^k, exactly. -/
def FVal.scale (k : Int) : FVal → FVal
  | .fin s m e => .fin s m (e + k) | x => x

/-- The value of an integer. -/
def FVal.ofInt (x : Int) : FVal := .fin (decide (x < 0)) x.natAbs 0

/-- Decodes one element's bits, block scale aside (R32, R43). -/
def decodeElem (f : Format) (b : Nat) : FVal :=
  if f.int then FVal.ofInt (sgn f.bits b) else
  let w := f.ebits + f.fbits
  let neg := f.signed && b.testBit w
  let mag := b % 2 ^ w
  if f.infMag = some mag then .inf neg
  else if f.nanBits.isSome && decide (f.maxMag < mag) then .nan
  else
    let ex := mag >>> f.fbits
    let fr := mag % 2 ^ f.fbits
    if ex = 0 then .fin neg fr f.lsbMin else .fin neg (2 ^ f.fbits + fr) (f.lsbMin + (ex : Int) - 1)

/-- Rounding by R50 or, with a draw, by R57. -/
inductive Rounding where
  | nearest
  | stochastic (u : Nat)
  deriving DecidableEq, Repr

/-- Rounds m × 2^e to a whole number of units 2^lsb: ties to even (R50), or away from zero when the draw lies below the
first 32 bits of the remainder (R57). -/
def roundUnits (r : Rounding) (m : Nat) (e lsb : Int) : Nat :=
  if lsb ≤ e then shiftTo m e lsb else
  let k := (lsb - e).toNat
  let q := m >>> k
  let rem := m % 2 ^ k
  match r with
  | .nearest =>
    let half := 2 ^ (k - 1)
    if rem > half ∨ (rem = half ∧ q % 2 = 1) then q + 1 else q
  | .stochastic u =>
    let t := if 32 ≤ k then rem >>> (k - 32) else rem <<< (32 - k)
    if u < t then q + 1 else q

/-- The magnitude pattern of m × 2^e in a format with unbounded exponent range above: subnormals kept (R33). -/
def roundMag (r : Rounding) (f : Format) (m : Nat) (e : Int) : Nat :=
  if m = 0 then 0 else
  let lsb := max (topExp m e - f.fbits) f.lsbMin
  let q := roundUnits r m e lsb
  ((lsb - f.lsbMin).toNat <<< f.fbits) + q

/-- Sign bit of a pattern of the format. -/
def signBit (f : Format) (neg : Bool) : Nat :=
  if f.signed && neg then 2 ^ (f.ebits + f.fbits) else 0

/-- A conversion control (R48). -/
structure ConvCtl where
  propagate : Bool
  rounding : Rounding
  deriving DecidableEq, Repr

/-- Round to nearest, propagate: the control of every write that carries none. -/
def ConvCtl.plain : ConvCtl := ⟨true, .nearest⟩

/-- What a conversion gives: the element's bits; whether it marks the step (R53); whether a finite value saturated
(R54). -/
structure Converted where
  bits : Nat
  mark : Bool
  sat : Bool
  deriving DecidableEq, Repr

/-- Conversion to a floating-point format without a block scale (R50, R51, R53, R57). -/
def convFloat (f : Format) (c : ConvCtl) (x : FVal) : Converted :=
  match x with
  | .nan => ⟨f.nanBits.getD 0, true, false⟩
  | .inf s =>
    if c.propagate then
      match f.infMag with
      | some i => ⟨signBit f s + i, true, false⟩
      | none => ⟨f.nanBits.getD 0, true, false⟩
    else ⟨signBit f s + f.maxMag, true, false⟩
  | .fin s m e =>
    let g := roundMag c.rounding f m e
    if g ≤ f.maxMag then ⟨signBit f s + g, false, false⟩
    else if c.propagate then
      match f.infMag with
      | some i => ⟨signBit f s + i, true, false⟩
      | none => ⟨f.nanBits.getD 0, true, false⟩
    else ⟨signBit f s + f.maxMag, false, true⟩

/-- Conversion to an integer format: saturating, NaN as 0, both specials marked (R55). -/
def convInt (f : Format) (r : Rounding) (x : FVal) : Converted :=
  let top : Int := 2 ^ (f.bits - 1) - 1
  let bot : Int := -(2 ^ (f.bits - 1))
  match x with
  | .nan => ⟨0, true, false⟩
  | .inf s => ⟨unsgn f.bits (if s then bot else top), true, false⟩
  | .fin s m e =>
    let q : Int := roundUnits r m e 0
    let v := if s then -q else q
    if v > top then ⟨unsgn f.bits top, false, true⟩
    else if v < bot then ⟨unsgn f.bits bot, false, true⟩
    else ⟨unsgn f.bits v, false, false⟩

/-- Conversion to one element of a format without a block scale. -/
def convElem (f : Format) (c : ConvCtl) (x : FVal) : Converted :=
  if f.int then convInt f c.rounding x else convFloat f c x

/-- Larger of two magnitudes m × 2^e. -/
def magMax (a b : Nat × Int) : Nat × Int :=
  if a.1 = 0 then b else if b.1 = 0 then a else
  let lo := min a.2 b.2
  if shiftTo a.1 a.2 lo < shiftTo b.1 b.2 lo then b else a

/-- Largest magnitude among the finite values. -/
def amaxOf (xs : List FVal) : Nat × Int :=
  xs.foldl (fun a x => match x with | .fin _ m e => magMax a (m, e) | _ => a) (0, 0)

/-- What writing one block of 32 gives: the scale code, the elements' conversions. -/
structure BlockOut where
  scale : Nat
  elems : List Nat
  mark : Bool
  sats : Nat
  deriving DecidableEq, Repr

/-- Writes a block of an MX or UE5M3 format (R40, R42, R44, R52): scale from the largest magnitude, elements
saturating; a block with a NaN, an Inf or, for UE5M3, a negative source is scale 0xFF with zero elements. The rounding
of element i is `rs i`. -/
def convBlock (f : Format) (rs : Nat → Rounding) (xs : List FVal) : BlockOut :=
  let bad := xs.any fun x => !x.finite || (f == .ue5m3 && x.sign && !x.isZero)
  if bad then ⟨0xFF, xs.map fun _ => 0, true, 0⟩ else
  let a := amaxOf xs
  if a.1 = 0 then ⟨0, xs.map fun x => signBit f x.sign, false, 0⟩ else
  let code := (topExp a.1 a.2 - f.emax + 127).toNat
  let cs := xs.zipIdx.map fun (x, i) =>
    convFloat f ⟨false, rs i⟩ (x.scale (127 - (code : Int)))
  let fixZero := cs.map fun c => if f == .ue5m3 then c.bits % 256 else c.bits
  ⟨code, fixZero, false, (cs.filter (·.sat)).length⟩

/-- The highest scale code that decodes (R40). -/
def Format.ceiling (f : Format) : Int := 254 - f.emax

/-- Decodes an element of a block under its scale code (R41): 0xFF and codes above the ceiling read as NaN. -/
def decodeBlockElem (f : Format) (code bits : Nat) : FVal :=
  if code = 0xFF ∨ (code : Int) > f.ceiling then .nan
  else (decodeElem f bits).scale ((code : Int) - 127)

/-! ### FP32 arithmetic (R82) -/

/-- The value of an FP32 pattern. -/
def f32v (b : W32) : FVal := decodeElem .fp32 b.toNat

/-- rne32: rounds an exact value to FP32; beyond the largest finite it is Inf (03, helpers). -/
def rne32 (x : FVal) : W32 := BitVec.ofNat 32 (convFloat .fp32 .plain x).bits

def f32nan : W32 := 0x7FC00000#32
def f32zero : W32 := 0#32
def f32one : W32 := 0x3F800000#32
def f32negInf : W32 := 0xFF800000#32

/-- Exact sum; a zero sum is −0 only when both terms are −0 (R82, IEEE 754 round to nearest). -/
def FVal.add (x y : FVal) : FVal :=
  match x, y with
  | .nan, _ | _, .nan => .nan
  | .inf a, .inf b => if a = b then .inf a else .nan
  | .inf a, _ => .inf a
  | _, .inf b => .inf b
  | .fin s m e, .fin t n g =>
    let lo := min e g
    let a : Int := shiftTo m e lo
    let b : Int := shiftTo n g lo
    let v := (if s then -a else a) + (if t then -b else b)
    if v = 0 then .fin (s && t) 0 0 else .fin (decide (v < 0)) v.natAbs lo

/-- Exact product; 0 × Inf is NaN (R74, R76). -/
def FVal.mul (x y : FVal) : FVal :=
  match x, y with
  | .nan, _ | _, .nan => .nan
  | .inf a, .inf b => .inf (a != b)
  | .inf a, .fin t n _ => if n = 0 then .nan else .inf (a != t)
  | .fin s m _, .inf b => if m = 0 then .nan else .inf (s != b)
  | .fin s m e, .fin t n g => .fin (s != t) (m * n) (e + g)

def f32add (a b : W32) : W32 := rne32 ((f32v a).add (f32v b))
def f32sub (a b : W32) : W32 := rne32 ((f32v a).add (f32v b).neg)
def f32mul (a b : W32) : W32 := rne32 ((f32v a).mul (f32v b))
def f32negate (a : W32) : W32 := a ^^^ 0x80000000#32
def f32abs (a : W32) : W32 := a &&& 0x7FFFFFFF#32
def f32isNan (a : W32) : Bool := (f32v a).isNan
def f32isZero (a : W32) : Bool := (f32v a).isZero
def f32finite (a : W32) : Bool := (f32v a).finite

/-- Order key of an FP32 pattern: unsigned order of keys is numeric order, −0 below +0 (R454). -/
def f32key (a : W32) : Nat :=
  if a.msb then (~~~a).toNat else (a ||| 0x80000000#32).toNat

/-- The maximum of IEEE 754-2019 (R82): NaN wins, −0 ranks below +0. -/
def f32max (a b : W32) : W32 :=
  if f32isNan a || f32isNan b then f32nan else if f32key a < f32key b then b else a

/-- The minimum that mirrors it (R82). -/
def f32min (a b : W32) : W32 :=
  if f32isNan a || f32isNan b then f32nan else if f32key b < f32key a then b else a

/-- a < b as numbers, false on NaN. -/
def f32lt (a b : W32) : Bool :=
  !f32isNan a && !f32isNan b && !(f32isZero a && f32isZero b) && decide (f32key a < f32key b)

/-- float32 of an unsigned 32-bit integer. -/
def f32ofNat (n : Nat) : W32 := rne32 (.fin false n 0)

/-- Floor of the square root, bit by bit from `i`. -/
def isqrtFrom (y : Nat) : Nat → Nat → Nat
  | 0, r => r
  | i + 1, r => let r' := r + 2 ^ i; if r' * r' ≤ y then isqrtFrom y i r' else isqrtFrom y i r

def isqrt (y : Nat) : Nat := isqrtFrom y (y.log2 / 2 + 1) 0

/-- recip: correctly rounded 1/x (R82). The quotient keeps 64 bits beyond the divisor's and a sticky bit. -/
def f32recip (a : W32) : W32 :=
  match f32v a with
  | .nan => f32nan
  | .inf s => if s then 0x80000000#32 else 0#32
  | .fin s m e =>
    if m = 0 then (if s then f32negInf else 0x7F800000#32) else
    let k := m.log2 + 64
    let q := 2 ^ k / m
    let st := b2n (decide (q * m ≠ 2 ^ k))
    rne32 (.fin s (2 * q + st) (-(k : Int) - 1 - e))

/-- rsqrt: correctly rounded 1/√x (R82). -/
def f32rsqrt (a : W32) : W32 :=
  match f32v a with
  | .nan => f32nan
  | .inf s => if s then f32nan else 0#32
  | .fin s m e =>
    if m = 0 then (if s then f32negInf else 0x7F800000#32)
    else if s then f32nan else
    let odd := e % 2 ≠ 0
    let m' := if odd then 2 * m else m
    let e' := if odd then e - 1 else e
    let k := m'.log2 + 64
    let r := isqrt (2 ^ (2 * k) / m')
    let st := b2n (decide (r * r * m' ≠ 2 ^ (2 * k)))
    rne32 (.fin false (2 * r + st) (-(k : Int) - 1 - e' / 2))

/-! ### exp2 and log2: intervals in fixed point, narrowed until both ends round alike -/

/-- Lower bound of ln 2 × 2^p by its series Σ 1/(n 2^n); the error is below p + 2 units. -/
def ln2Fix (p : Nat) : Nat := (span 1 (p + 1)).foldl (fun s n => s + 2 ^ p / (n * 2 ^ n)) 0

/-- Lower bound of exp(y / 2^p) × 2^p by Taylor's series with `n` terms from `t`. -/
def expFix (p y : Nat) : Nat → Nat → Nat → Nat
  | 0, _, _ => 0
  | fuel + 1, k, t => t + expFix p y fuel (k + 1) (((t * y) >>> p) / (k + 1))

/-- An interval, in units of 2^−p, that holds 2^f for the fraction f = `num` / 2^`den`. -/
def exp2Frac (p num den : Nat) : Nat × Nat :=
  let g := p + 64
  let f := if den ≤ g then num <<< (g - den) else num >>> (den - g)
  let y := (f * ln2Fix g) >>> g
  let lo := expFix g y (p + 16) 0 (2 ^ g)
  (lo >>> 64, ((lo + 64 * (p + 128)) >>> 64) + 1)

/-- exp2 of the dyadic ±m × 2^e, m ≠ 0, tried at each precision of the list. -/
def exp2Try (s : Bool) (m : Nat) (e : Int) : List Nat → W32
  | [] => f32nan
  | p :: r =>
    let den := (-e).toNat
    let n : Int := if 0 ≤ e then shiftTo m e 0 else m
    let v : Int := if s then -n else n
    let k : Int := v / 2 ^ den
    let num := (v % 2 ^ den).toNat
    if num = 0 then rne32 (.fin false 1 k) else
    let (lo, hi) := exp2Frac p num den
    let a := rne32 (.fin false lo (k - p))
    let b := rne32 (.fin false hi (k - p))
    if a = b ∨ r = [] then a else exp2Try s m e r

/-- The precisions tried; the first decides every FP32 argument but for the last bits of a proof of it. -/
def precisions : List Nat := [96, 192, 384, 768, 1536]

/-- exp2: correctly rounded, with the special cases of R82. -/
def f32exp2 (a : W32) : W32 :=
  match f32v a with
  | .nan => f32nan
  | .inf s => if s then 0#32 else 0x7F800000#32
  | .fin s m e =>
    if m = 0 then f32one
    else if 0 ≤ topExp m e ∧ 8 ≤ topExp m e then (if s then 0#32 else 0x7F800000#32)
    else exp2Try s m e precisions

/-- Lower bound of 2 atanh(t) × 2^p for t = `t` / 2^p, by its odd series. -/
def atanhFix (p t2 : Nat) : Nat → Nat → Nat → Nat
  | 0, _, _ => 0
  | fuel + 1, k, pw => 2 * (pw / (2 * k + 1)) + atanhFix p t2 fuel (k + 1) ((pw * t2) >>> p)

/-- An interval, in units of 2^−p, that holds log2 of the significand m / 2^(bits − 1) in [1, 2). -/
def log2Frac (p m : Nat) : Nat × Nat :=
  let g := p + 64
  let one := 2 ^ m.log2
  let t := (m - one) * 2 ^ g / (m + one)
  let t2 := (t * t) >>> g
  let num := atanhFix g t2 (p + 16) 0 t
  let l := ln2Fix g
  let lo := num * 2 ^ g / (l + g + 2)
  let hi := (num + 16 * (p + 128)) * 2 ^ g / l + 1
  (lo >>> 64, (hi >>> 64) + 1)

/-- log2 of m × 2^e, m > 0, tried at each precision of the list. -/
def log2Try (m : Nat) (e : Int) : List Nat → W32
  | [] => f32nan
  | p :: r =>
    let k := topExp m e
    if m = 2 ^ m.log2 then rne32 (FVal.ofInt k) else
    let (lo, hi) := log2Frac p m
    let v (x : Nat) : W32 := rne32 ((FVal.ofInt (k * 2 ^ p + x)).scale (-(p : Int)))
    if v lo = v hi ∨ r = [] then v lo else log2Try m e r

/-- log2: correctly rounded, with the special cases of R82. -/
def f32log2 (a : W32) : W32 :=
  match f32v a with
  | .nan => f32nan
  | .inf s => if s then f32nan else 0x7F800000#32
  | .fin s m e => if m = 0 then f32negInf else if s then f32nan else log2Try m e precisions

/-! ### Draws (R56) -/

/-- mix64 of R56. -/
def mix64 (z : W64) : W64 :=
  let z := (z ^^^ (z >>> 30)) * 0xBF58476D1CE4E5B9#64
  let z := (z ^^^ (z >>> 27)) * 0x94D049BB133111EB#64
  z ^^^ (z >>> 31)

/-- The 32-bit draw of an element (R56). -/
def srDraw (step : W64) (tensor index : Nat) : Nat :=
  let x := mix64 step
  let x := mix64 (x ^^^ (BitVec.ofNat 64 tensor * 0x9E3779B97F4A7C15#64))
  let x := mix64 (x ^^^ BitVec.ofNat 64 index)
  x.toNat >>> 32

/-- Whether a block of output is checked (R93). -/
def assayPick (step : W64) (tensor block k : Nat) : Bool :=
  let x := mix64 step
  let x := mix64 (x ^^^ (BitVec.ofNat 64 tensor * 0xD6E8FEB86659FD93#64))
  let x := mix64 (x ^^^ BitVec.ofNat 64 block)
  decide (x.toNat >>> (64 - k) = 0)

/-! ### Integer lanes (R70, R71, R90) -/

/-- The block exponent of pass one: the largest floor(log2 |x|), or 0x8000 (−32,768) for no nonzero finite element. -/
def blockExp (xs : List W32) : Int :=
  let a := amaxOf (xs.map f32v)
  if a.1 = 0 then -32768 else topExp a.1 a.2

/-- x × 2^k truncated toward zero. -/
def truncScaled (x : FVal) (k : Int) : Int :=
  match x with
  | .fin s m e =>
    let q : Int := if 0 ≤ e + k then shiftTo m (e + k) 0 else (m >>> (-(e + k)).toNat : Nat)
    if s then -q else q
  | _ => 0

/-- to_lanes of one element (R90). -/
def toLane (x : W32) (E : Int) (h w : Nat) : Int :=
  if E = -32768 then 0 else truncScaled (f32v x) ((w : Int) - 2 - h - E)

/-- from_lanes of one lane sum (R90). -/
def fromLane (S E : Int) (h w : Nat) (nonfinite : Bool) : W32 :=
  if nonfinite then f32nan else if E = -32768 then f32zero
  else rne32 ((FVal.ofInt S).scale (E - ((w : Int) - 2 - h)))

/-- Whether a value of magnitude at least 2^(E + 1) met the block's exponent (R356). -/
def laneTooBig (x : W32) (E : Int) : Bool :=
  match f32v x with
  | .fin _ m e => decide (m ≠ 0) && decide (E + 1 ≤ topExp m e)
  | _ => false

end Sys2Proof.Machine
end

