-- ==== Sys2Proof/Machine/Reference.lean ====
section
/-! DEFINITION. The reference sequences (03_reference_order, R72 to R91, and R140, R157, R203, R271, R305): every training
result bit for bit. -/

namespace Sys2Proof.Machine

/-- The list padded with +0 to 128 products (R75: the last block is padded with zeros). -/
def pad128 (p : List FVal) : List FVal := p ++ List.replicate (128 - p.length) .zero

/-- The windowed sum of finite products, as an integer in units of 2^q, and q (R75). -/
def windowed (p : List FVal) : Int × Int :=
  let a := amaxOf p
  let q := topExp a.1 a.2 - 60
  (if a.1 = 0 then 0 else (p.map fun x => truncScaled x (-q)).foldl (· + ·) 0, q)

/-- The windowed sum of one K-block's products, rounded once (R75, R76). -/
def wsum (ps : List FVal) : W32 :=
  let p := pad128 ps
  if p.any (·.isNan) then f32nan
  else if p.any (· == .inf false) && p.any (· == .inf true) then f32nan
  else if p.any (· == .inf false) then 0x7F800000#32
  else if p.any (· == .inf true) then f32negInf
  else
    let (s, q) := windowed p
    if s = 0 then (if p.all (·.sign) then 0x80000000#32 else f32zero)
    else rne32 ((FVal.ofInt s).scale q)

/-- A K-block result; bit 32 tells a nonzero windowed sum that rounded to zero (R98). -/
def blockResult (ps : List FVal) : BitVec 33 :=
  let v := wsum ps
  BitVec.ofNat 33 (v.toNat + if f32isZero v && ps.all (·.finite) && (windowed (pad128 ps)).1 != 0 then 2 ^ 32 else 0)

/-- Node (ℓ, i) of the tree of R79 over the leaves `v`, combined by `f`; none where it has no block. -/
def treeNode {α : Type} (f : α → α → α) (v : List α) : Nat → Nat → Option α
  | 0, i => v[i]?
  | l + 1, i =>
    match treeNode f v l (2 * i), treeNode f v l (2 * i + 1) with
    | some a, some b => some (f a b)
    | some a, none => some a
    | none, _ => none

/-- The dot product's root over its K-block results (R79); +0 for no block. -/
def treeDot (v : List W32) : W32 := (treeNode f32add v (clog2 v.length) 0).getD f32zero

/-- The nodes (level, index) that make up the node list of [lo, hi) below node (ℓ, i), for n blocks (R119). -/
def nodesBelow (n lo hi : Nat) : Nat → Nat → List (Nat × Nat)
  | 0, i => if i < n ∧ lo ≤ i ∧ i < hi then [(0, i)] else []
  | l + 1, i =>
    let a := i * 2 ^ (l + 1)
    let b := min (a + 2 ^ (l + 1)) n
    if b ≤ a then []
    else if lo ≤ a ∧ b ≤ hi then [(l + 1, i)]
    else nodesBelow n lo hi l (2 * i) ++ nodesBelow n lo hi l (2 * i + 1)

/-- The node list of [lo, hi) for k_total = n (R119), in ascending order of first block. -/
def nodeList (n lo hi : Nat) : List (Nat × Nat) := nodesBelow n lo hi (clog2 n) 0

/-- Blocks cut from a list, `k` at a time. -/
def chunksOf {α : Type} (k : Nat) (l : List α) : List (List α) :=
  (List.range (cdiv l.length k)).map fun i => (l.drop (k * i)).take k

/-- rowsum: wsum over each 128-element block, then the tree (R83). The elements are exact values. -/
def rowsumV (x : List FVal) : W32 := treeDot ((chunksOf 128 x).map wsum)

def rowsum (x : List W32) : W32 := rowsumV (x.map f32v)

/-- Dot product of two vectors by R74, R75, R79. -/
def dotV (a b : List FVal) : W32 := rowsumV (List.zipWith FVal.mul a b)

/-- Layer normalisation of a row (R87). -/
def layernorm (x g b : List W32) (eps : W32) : List W32 :=
  let rn := f32recip (f32ofNat x.length)
  let mu := f32mul (rowsum x) rn
  let d := x.map fun xi => f32sub xi mu
  let var := f32mul (rowsumV (d.map fun di => (f32v di).mul (f32v di))) rn
  let r := f32rsqrt (f32add var eps)
  (d.zip (g.zip b)).map fun (di, gi, bi) => f32add (f32mul (f32mul di r) gi) bi

/-- RMS normalisation of a row (R87). -/
def rmsnorm (x g : List W32) (eps : W32) : List W32 :=
  let rn := f32recip (f32ofNat x.length)
  let r := f32rsqrt (f32add (f32mul (rowsumV (x.map fun xi => (f32v xi).mul (f32v xi))) rn) eps)
  (x.zip g).map fun (xi, gi) => f32mul (f32mul xi r) gi

/-- LOG2E of R140. -/
def log2eC : W32 := 0x3FB8AA3B#32

/-- sigm of R140. -/
def sigm (x : W32) : W32 :=
  let t := f32mul (f32negate (f32abs x)) log2eC
  let e := f32exp2 t
  let r := f32recip (f32add f32one e)
  if f32isNan x then f32nan else if x.msb && !f32isZero x then f32mul e r else r

/-- silu and its gradient (R140). -/
def silu (x : W32) : W32 := f32mul x (sigm x)

def siluBwd (x dy : W32) : W32 :=
  let s := sigm x
  f32mul dy (f32mul s (f32add f32one (f32mul x (f32sub f32one s))))

/-! ### Softmax and attention (R84 to R86) -/

/-- The state of one query row: m, l and o[dv]. -/
structure RowState where
  m : W32
  l : W32
  o : List W32
  deriving DecidableEq, Repr

/-- EMPTY of R84. -/
def RowState.empty (dv : Nat) : RowState := ⟨f32negInf, f32zero, List.replicate dv f32zero⟩

/-- Maximum over a list, from −Inf. -/
def maxOf (t : List W32) : W32 := t.foldl f32max f32negInf

/-- The leaf of one key block (R84): scores, value columns (dv columns of 128 exact values), allowed keys, and the
conversion of p to its format, given back as exact values. -/
def attLeaf (s : List W32) (vcols : List (List FVal)) (allowed : List Bool) (c : W32) (conv : List W32 → List FVal) :
    RowState :=
  let t := (s.zip allowed).map fun (si, a) => if a then f32mul si c else f32negInf
  let m := maxOf t
  if m = f32negInf then RowState.empty vcols.length else
  let e := t.map fun ti => f32exp2 (f32sub ti m)
  let l := wsum (e.map f32v)
  let p := conv e
  ⟨m, l, vcols.map fun v => wsum (List.zipWith FVal.mul p v)⟩

/-- combine of R84, in place of rne32 addition in the tree of R79. -/
def attCombine (x y : RowState) : RowState :=
  if x.m = f32negInf then y else if y.m = f32negInf then x else
  let m := f32max x.m y.m
  let a := f32exp2 (f32sub x.m m)
  let b := f32exp2 (f32sub y.m m)
  ⟨m, f32add (f32mul x.l a) (f32mul y.l b),
    List.zipWith (fun xo yo => f32add (f32mul xo a) (f32mul yo b)) x.o y.o⟩

/-- finish of R84: the output row, then m, l and lse2; R85 for an empty row. -/
def attFinish (r : RowState) : List W32 × W32 × W32 × W32 :=
  if f32isZero r.l then (r.o.map fun _ => f32zero, f32negInf, f32zero, f32negInf)
  else
    let q := f32recip r.l
    (r.o.map fun od => f32mul od q, r.m, r.l, f32add r.m (f32log2 r.l))

/-- p_i of the backward pass (R86). -/
def attP (s c lse2 : W32) (allowed : Bool) : W32 :=
  if !allowed || lse2 = f32negInf then f32zero else f32exp2 (f32sub (f32mul s c) lse2)

/-- ds_i of the backward pass (R86). -/
def attDs (p dp dd kScale : W32) : W32 := f32mul (f32mul p (f32sub dp dd)) kScale

/-! ### AdamW (R88) -/

/-- The nine constants of the step. -/
structure AdamK where
  b1 : W32
  omb1 : W32
  b2 : W32
  omb2 : W32
  c1 : W32
  c2 : W32
  lr : W32
  wd : W32
  eps2 : W32
  deriving DecidableEq, Repr

/-- One weight: (w1, m1, v1) of R88. -/
def adamw (w g m v : W32) (k : AdamK) : W32 × W32 × W32 :=
  let m1 := f32add (f32mul k.b1 m) (f32mul k.omb1 g)
  let v1 := f32add (f32mul k.b2 v) (f32mul k.omb2 (f32mul g g))
  let d := f32rsqrt (f32add (f32mul v1 k.c2) k.eps2)
  let u := f32mul (f32mul m1 k.c1) d
  (f32sub w (f32mul k.lr (f32add u (f32mul k.wd w))), m1, v1)

/-! ### Pooling (R157) -/

/-- pool: `win` in tap order, none for an absent tap. -/
def pool (win : List (Option W32)) (avg incPad : Bool) : W32 :=
  let x := win.filterMap id
  if x = [] then f32zero
  else if !avg then x.foldl f32max (x.headD f32zero)
  else
    let n := if incPad then win.length else x.length
    f32mul (rowsum (win.map fun w => w.getD f32zero)) (f32recip (f32ofNat n))

/-- The lowest tap that equals the maximum of the window, under the ranking of R82 (R157). -/
def firstMaxTap (win : List (Option W32)) : Nat :=
  let x := win.filterMap id
  let m := x.foldl f32max (x.headD f32zero)
  win.findIdx fun w =>
    match w with
    | some v => decide (f32key v = f32key m)
    | none => false

/-! ### Hashes and digests -/

/-- Chained hash of a page's 128 token identifiers (R203). -/
def blockHash (prev : W64) (tok : List Nat) : W64 :=
  (chunksOf 2 tok).foldl (fun x p =>
    mix64 (x ^^^ BitVec.ofNat 64 (p.getD 0 0 ||| (p.getD 1 0) <<< 32))) prev

/-- Drift digest of a gathered tensor's seals (R271). -/
def driftDigest (tensor : Nat) (seals : List (Nat × W32)) : W64 :=
  let k := mix64 (BitVec.ofNat 64 tensor)
  seals.foldl (fun d (i, c) => d + mix64 (k ^^^ BitVec.ofNat 64 (i <<< 32 ||| c.toNat))) 0#64

/-- The chain of R305 over a list of fields, first the group identifier. -/
def collChain (fields : List Nat) : W64 :=
  match fields with
  | [] => 1#64
  | g :: r => (r.foldl (fun x v => mix64 (x ^^^ BitVec.ofNat 64 v)) (mix64 (BitVec.ofNat 64 g))) ||| 1#64

/-- One byte into the reflected CRC-32C register. -/
def crcByte (c : W32) (b : Byte) : W32 :=
  (List.range 8).foldl (fun c _ =>
    if c.getLsbD 0 then (c >>> 1) ^^^ 0x82F63B78#32 else c >>> 1) (c ^^^ b.setWidth 32)

/-- CRC-32C: reflected, initial value and final XOR all ones (R348). -/
def crc32c (bs : List Byte) : W32 := (bs.foldl crcByte 0xFFFFFFFF#32) ^^^ 0xFFFFFFFF#32

/-- The seal of a block (R348): identifier, block index, then the covered bytes. -/
def sealOf (tensor block : Nat) (bs : List Byte) : W32 :=
  crc32c (toBytes 4 tensor ++ toBytes 4 block ++ bs)

/-- One byte into the CRC-64 of a frame, most significant bit first (R450). -/
def crc64Byte (c : W64) (b : Byte) : W64 :=
  (List.range 8).foldl (fun c _ =>
    if c.msb then (c <<< 1) ^^^ 0x42F0E1EBA9EA3693#64 else c <<< 1) (c ^^^ (b.setWidth 64 <<< 56))

/-- CRC-64 of a frame's bytes 0 to 5,131 (R450). -/
def crc64 (bs : List Byte) : W64 := (bs.foldl crc64Byte 0xFFFFFFFFFFFFFFFF#64) ^^^ 0xFFFFFFFFFFFFFFFF#64

/-! ### Order keys of MAX and MIN (R454) -/

/-- The key of an element already widened: FP32 pattern or sign-extended integer of `w` bits. -/
def orderKeyF (x : W32) (min : Bool) : Nat :=
  if f32isNan x then (if min then 0 else 0xFFFFFFFF) else f32key x

def orderKeyI (w x : Nat) : Nat := x ^^^ 2 ^ (w - 1)

/-- The FP32 pattern a key stands for; all ones (MAX) or zero (MIN) is NaN. -/
def orderUnkeyF (k : Nat) (min : Bool) : W32 :=
  if k = (if min then 0 else 0xFFFFFFFF) then f32nan
  else if k.testBit 31 then BitVec.ofNat 32 k &&& 0x7FFFFFFF#32 else ~~~(BitVec.ofNat 32 k)

/-! ### Bounded codec forms (R236, R237) -/

/-- b_encode: code byte and (sign, magnitude) of 32 values. -/
def bEncode (bits : Nat) (x : List FVal) : Nat × List (Bool × Nat) :=
  let mmax := if bits = 8 then 127 else 7
  let f : Int := if bits = 8 then 6 else 2
  if x.any (!·.finite) then (0xFF, x.map fun _ => (false, 0)) else
  let a := amaxOf x
  if a.1 = 0 then (0, x.map fun v => (v.sign, 0)) else
  let e := max (-126) (topExp a.1 a.2)
  ((e + 127).toNat, x.map fun v =>
    match v with
    | .fin s m ex => (s, min mmax (roundUnits .nearest m (ex + f - e) 0))
    | _ => (false, 0))

/-- b_decode of one element. -/
def bDecode (bits code : Nat) (s : Bool) (q : Nat) : FVal :=
  let f : Int := if bits = 8 then 6 else 2
  if code = 0xFF then .nan else if code = 0 then .fin s 0 0 else .fin s q ((code : Int) - 127 - f)

/-- Rounds m × 2^e / (n × 2^g) toward +Inf to FP32; the quotient keeps a sticky bit. -/
def quotUp (m : Nat) (e : Int) (n : Nat) (g : Int) : W32 :=
  if m = 0 then f32zero else
  let k := n.log2 + 64
  let q := (m * 2 ^ k) / n
  let q' := 2 * q + b2n (decide (q * n ≠ m * 2 ^ k))
  let ex := e - g - k - 1
  let lsb := max (topExp q' ex - 23) Format.fp32.lsbMin
  let d := (lsb - ex).toNat
  let up := if ex ≤ lsb then cdiv q' (2 ^ d) else q'
  rne32 (.fin false up (if ex ≤ lsb then lsb else ex))

/-- Error of one sub-block: the largest |decoded − source| over its largest source magnitude (R237). -/
def bError (bits : Nat) (x : List FVal) : W32 :=
  let (code, es) := bEncode bits x
  if code = 0xFF then 0x7F800000#32 else
  let a := amaxOf x
  if a.1 = 0 then f32zero else
  let d := amaxOf ((x.zip es).map fun (v, s, q) => (bDecode bits code s q).add v.neg)
  quotUp d.1 d.2 a.1 a.2

end Sys2Proof.Machine
end

