-- ==== Sys2Proof/Machine/State.lean ====
section
/-! DEFINITION. The state of the module: every register, table, queue and counter the spec names, as plain data, and the
queue of waiting commands. -/

namespace Sys2Proof.Machine

/-- Why the machine stops with a fault. No rule stops the block; every error of the spec is an effect on the state. -/
inductive Fault where
  /-- Raised by no meaning: the spec gives the block no state in which it stops (safe). -/
  | never
  deriving DecidableEq, Repr

/-- Why a command has no meaning. -/
inductive Refusal where
  /-- An arm of `exec` whose meaning is not written yet (safe). -/
  | notModelled (mnemonic : String)
  /-- A command names a physical tile at or above 112 or a band at or above 14, which R4 does not give the module: no
  such command exists. Raised by the commands that name a tile or a band (safe). -/
  | noSuchUnit
  deriving DecidableEq, Repr

/-! ### Output -/

/-- Packet types of R452, with COLL messages by their code of R454. -/
inductive PktType where
  | write | read | readData | ack | flag | coll (msg : Nat) | identQuery | identReply | switch
  deriving DecidableEq, Repr

/-- Everything the block puts on its links and pins, in order. The list is the model's own. -/
inductive Out where
  /-- An MSI-X message (R481). -/
  | msix (vector : Nat)
  /-- A frame's packet, with its frame sequence number (R450). -/
  | packet (type : PktType) (seq : Nat) (p : Packet)
  /-- A frame sent again after a nak (R456). -/
  | resend (port seq : Nat)
  /-- A frame that carries link control only: nak, swap_req or swap_ack (R450). -/
  | control (port : Nat) (nak swapReq swapAck : Bool) (ack lane : Nat)
  /-- A piece sent to the next member of the device ring (R314). -/
  | ring (peer piece hops : Nat) (m : CollMsg)
  /-- A read or write through the outbound window (R496). -/
  | uioRead (tag addr len : Nat)
  | uioWrite (tag addr : Nat) (data : List Byte)
  /-- A coherent write to host memory: completion entries and mailbox messages (R490). -/
  | hostWrite (addr : Nat) (data : List Byte)
  /-- A coherent read of a host line (R490, R491). -/
  | hostRead (addr : Nat)
  /-- A back-invalidate snoop (R493). -/
  | snoop (line : Nat)
  /-- The answer to a host CXL.mem read (R495). -/
  | hdmData (line : Nat) (data : List Byte) (poison : Bool)
  /-- A host CXL.mem write was reported through the CXL RAS capability (R495). -/
  | rasError
  /-- The answer to a configuration request (R503). -/
  | config (offset : Nat) (value : W32)
  /-- The answer to a register read (R11). -/
  | regRead (bar : Bar) (offset : Nat) (value : W64)
  /-- A DOE response: code and bytes (R483, R584). -/
  | doe (inst : DoeInst) (code : Nat) (data : List Byte)
  /-- The CDAT structures (R484): kind and value. -/
  | cdat (kind : Nat) (value : Nat)
  /-- The answer to a PMBus read (R627); no bytes where the command is not supported. -/
  | pmbus (data : List Byte)
  /-- A movement collective's part for a member (R299). -/
  | move (group : W32) (peer : Nat) (data : List Byte)
  /-- An aligned record of a collective's pair digest for a member (R303). -/
  | pairDigest (group : W32) (peer : Nat) (digest : W64)
  deriving DecidableEq, Repr

/-! ### Management, power and clocks -/

/-- MGT_ registers (R414), the start-up machine (R505) and the sideband pins (R626). -/
structure Mgt where
  powered : Bool            -- the hub runs (R601)
  pwrGood : Bool            -- PWR_GOOD pin
  resetHeld : Bool          -- RESET_N asserted
  modId : BitVec 6          -- MOD_ID strap (R626)
  stage : BitVec 8          -- MGT_STATE.stage
  failed : Bool
  computeReset : Bool
  ready : Bool
  reproducible : Bool       -- MGT_MODE
  rankValid : Bool          -- MGT_RANK
  rank : BitVec 20
  resetGo : Bool            -- MGT_COMPUTE_RESET.go
  counter0 : W64
  counter1 : W64
  evt : BitVec 3
  evtEn : BitVec 3
  stepping : BitVec 16
  serial : W64
  waves : Nat               -- waves of stage 0x04 done (R511)
  bandBad : BitVec 14       -- bands faulted for this boot (R511)
  aoCounter : W64           -- TEL_AO_COUNTER, 25 MHz (R616)
  deriving DecidableEq, Repr

/-- One band (R607, R612): its state, the steps its loops request, its hottest sensor, and what is pending. -/
structure Band where
  state : BitVec 2
  thermalStep : BitVec 4
  capStep : BitVec 4
  overcurrent : Bool
  temp : Int                -- 1/16 °C
  waking : Bool             -- a wake request waits (R615)
  held : Bool               -- the thermal loop holds the band (R622)
  deriving DecidableEq, Repr

/-- TEL_ registers (R636), the input stage (R606, R609, R624) and PMBus status (R627, R628). -/
structure Tel where
  retainIdle : BitVec 8
  capW : BitVec 11
  offSpares : Bool
  powerLost : Bool
  ref25Lost : Bool
  vinLow : Bool
  stackHold : BitVec 8      -- stacks that hold their die's bands (R623)
  cap : Bool
  currentLimit : Bool
  evt : BitVec 6
  evtEn : BitVec 6
  vin : BitVec 16
  iin : BitVec 17
  pin : BitVec 22
  peak : BitVec 22
  recent : List Nat         -- last 10 samples in mW, newest first (R605)
  pinSum : Nat              -- samples of the millisecond in progress, in mW
  pinCount : Nat            -- and how many
  overCapUs : Nat           -- samples above cap_w in a row (R605)
  tempDie0 : Int
  tempDie1 : Int
  tempHub : Int
  tempHbm : Int
  bandSel : BitVec 4
  bands : FMap Band         -- 7 × die + B
  energy : W64
  energyFrac : Nat          -- mW·µs below one mJ
  throttleUs : W64
  switchOpen : Bool         -- input switch
  tripLatch : Bool
  overVoltage : Bool
  latched : BitVec 16       -- STATUS_INPUT [7:0] and STATUS_TEMPERATURE [15:8] as read (R627)
  reported : BitVec 16      -- bits of `latched` reported since they were set (R628)
  comm : Bool               -- STATUS_WORD communication bit
  deriving DecidableEq, Repr

/-! ### Queues -/

/-- Where an armed descriptor stands. -/
inductive Phase where
  | arming | armed | started | stopped | done
  deriving DecidableEq, Repr

/-- An armed descriptor (R393, R395, R397): what was read at arming, where it runs, and its progress over all its
attempts. `ext` holds bytes that came from outside the module, by device address. -/
structure Entry where
  id : Nat
  wq : Nat
  index : Nat               -- ring index, or 2^32 for the direct slot
  slot : Nat                -- index in the resume area (R411)
  desc : Desc
  record : BitVec 2048      -- the record that is read once at arming
  tile : Nat                -- 127: none
  holds : Bool              -- holds a scoreboard or module entry
  phase : Phase
  status : Nat
  chunk : Nat               -- chunk, row, block or key-block position
  kblock : Nat
  groups : Nat
  block : Nat               -- position block (R163)
  written : Bool            -- the pass in progress is the last of the range
  from_ : Nat               -- first column of the restarted chunk still to write (R130)
  begun : Bool              -- some attempt began a commit (R131)
  kept : Bool               -- tile SRAM intact (R129)
  marked : Bool             -- counted in ASY_NF_COUNT (R97)
  cancel : Bool             -- a cancellation waits for its own rule
  asked : Bool              -- external reads are outstanding
  acks : List Nat           -- tags of remote requests not yet answered
  ext : List (Nat × Byte)
  /-- Operand bytes held in tile SRAM, by device address: the resident operand, gathered rows, map regions (R112, R134,
  R158, R193). -/
  held : List (Nat × List Byte)
  nextHeld : List (Nat × List Byte) -- the next stripe's region (R160)
  rest : FMap W32           -- results whose block of 32 the next position block completes (R639)
  tree : FMap (BitVec 33)   -- K-block results of the chunk in progress (R116); bit 32: a nonzero sum rounded to zero
  wide : FMap W32           -- the same in BF16, for outputs that the Assay checks (R94)
  pairs : List (Nat × W32 × W32) -- narrow and wide results of those outputs
  seat : Nat                -- rows of its batch that were gathered before its own (R134)
  fill : List Nat           -- 4 KiB units of its tile's fill lane that its read-ahead holds (R242, R244)
  want : Option (Nat × Nat) -- stat_addr and stat_tensor of a resume record with sram_kept (R129)
  slotW : Option Nat        -- watch slot of a started WAIT
  lead : Option Nat         -- the batch this descriptor gathers in (R134)
  win : Option (Bool × Desc) -- the generation active and the run record bound at the first access (R259)
  mcast : List Nat          -- descriptors of its multicast stream (R400)
  round : Nat               -- GROUP barrier round, hop, or stage of a multi-message operation
  apart : Bool              -- retires outside any stream's order (R642, R643)
  deriving DecidableEq, Repr

/-- What a descriptor in the direct slot is a target of, before it is armed: the pending cancellation, and PREEMPT (R408,
R409). -/
structure Hit where
  cancel : Bool
  pre : Bool
  deriving DecidableEq, Repr

/-- A work queue (R370 to R378, R405 to R412, R415). -/
structure Wq where
  cfg : W32
  base : W64
  cplBase : W64
  resumeBase : W64
  offer : W64
  isOpen : Bool
  closing : Bool
  major : BitVec 4
  minor : BitVec 4
  openResult : BitVec 3
  cancelBusy : Bool
  preemptBusy : Bool
  tail : W32
  head : W32
  cplHead : W32
  cplTail : W32
  completed : W64
  fetched : W32             -- next index to arm
  prevDesc : Option W32     -- previous armed desc_id (R388)
  retired : List Nat        -- retired indices above the head
  hostSlots : FMap (Option Desc) -- ring slots read from host memory, by index; none: poisoned
  direct : Option Nat       -- entry of the direct slot
  submitted : Option (Desc × Hit) -- the direct slot's descriptor while no entry is free for it (R393, R412)
  shadow : Option (Desc × Hit) -- its one-deep shadow (R412)
  slotBytes : Desc          -- bytes written to its 128 bytes of BAR2 (R372, R412)
  lineTail : W32            -- shadow line as last read (R491)
  lineHead : W32
  targets : List Nat        -- entries that cancel_busy waits for
  ranges : List (Option (W32 × W32) × W32) -- cancelled (first, last), or all, below a tail, not yet fetched
  preTargets : List Nat     -- entries that preempt_busy waits for
  preAll : Option W32       -- every unfetched slot below this tail is a target of PREEMPT
  deriving DecidableEq, Repr

/-- A stream (R381, R382). -/
structure Stream where
  tile : BitVec 7
  mcast : BitVec 6
  owner : Option Nat
  deriving DecidableEq, Repr

/-- ORY_ registers (R415) and the armed descriptors in order of arming. -/
structure Ory where
  lookahead : BitVec 8
  idleGate : BitVec 8
  joinWindow : BitVec 8
  preemptEn : Bool
  evt : BitVec 7
  evtEn : BitVec 7
  armedCnt : W64
  retiredCnt : W64
  preemptions : W64
  lastRefusal : W64
  streamSel : BitVec 8
  wqSel : BitVec 6
  wqs : FMap Wq
  streams : FMap Stream
  skipped : List (Nat × W32) -- queue and desc_id of pre-empted scatters that skipped a poisoned word (R357)
  entries : List Entry
  nextId : Nat
  deriving DecidableEq, Repr

/-! ### Vesper -/

/-- Who waits in a watch slot: a mailbox with its tag, or a WAIT descriptor. -/
inductive Waiter where
  | mbox (m : Nat) (tag : W32)
  | entry (id : Nat)
  deriving DecidableEq, Repr

/-- A registered watch (R430, R431); `fired` once its message waits to be written (R435). -/
structure Watch where
  base : Nat
  mask : W64
  cond : Nat
  clearOnFire : Bool
  who : Waiter
  fired : Bool
  deriving DecidableEq, Repr

/-- A message that waits for its mailbox (R434, R435), with the slot its watch keeps. -/
structure MboxMsg where
  tag : W32
  base : Nat
  cond : Nat
  clearOnFire : Bool
  reason : Nat
  snapshot : W64
  slot : Option Nat
  deriving DecidableEq, Repr

/-- A mailbox (R434, R445). -/
structure Mbox where
  vector : BitVec 8
  host : Bool
  log2 : BitVec 5
  irq : Bool
  enable : Bool
  base : W64
  head : W32
  tail : W32
  waiting : List MboxMsg
  stuck : Bool              -- the oldest write failed (R435)
  deriving DecidableEq, Repr

/-- VSP_ registers (R445), flags, overrun bits, strict marks, watch slots (0 to 2,047 on die 0) and mailboxes. -/
structure Vsp where
  ready : Bool
  evt : BitVec 7
  evtEn : BitVec 7
  count64 : BitVec 11
  base64 : BitVec 10
  strictLast : W64
  manualResult : BitVec 8
  sets : W64
  firedCnt : W64
  overruns : W64
  manualActs : W64
  flags : BitVec 65536
  overrun : BitVec 65536
  strict : BitVec 65536
  watches : FMap (Option Watch)
  mboxSel : BitVec 3
  mboxes : FMap Mbox
  deriving DecidableEq, Repr

/-! ### Clearing engine -/

/-- Where a tranche, or a head exchange, stands (R309 to R314). -/
inductive TPhase where
  | waiting                 -- not started
  | claimed                 -- started; no GRANT or FALLBACK yet
  | backoff                 -- the leader waits to claim again
  | head | exponent | values -- contributing to that phase
  | done
  deriving DecidableEq, Repr

/-- A tranche of a collective, or its head exchange, named by its tranche identifier (R309). -/
structure Tranche where
  tid : Nat                 -- value of the tranche counter
  head : Bool
  lo : Nat                  -- first block or element
  hi : Nat
  owner : Nat               -- range owner (REDUCE_SCATTER)
  leader : Nat
  start : Nat               -- place, among the planes of the mask, of its own plane
  plane : Nat               -- plane it runs on; 16: none qualifies
  phase : TPhase
  ring : Bool
  retries : Nat
  staged : List (List Nat)  -- values read from each local share
  exps : List Int           -- combined block exponents
  pieces : FMap (List Byte) -- ring pieces whole so far
  deriving DecidableEq, Repr

/-- What a collective in flight waits for. -/
inductive CPhase where
  | head | tranches | moving | verdict | mismatch | abandoned | kept
  deriving DecidableEq, Repr

/-- A collective in flight (R296, R305, R309), a clearance exchange (R320), or a head of an adoption (R327). -/
structure Coll where
  ent : Option Entry        -- its descriptor; none where this module only takes part
  gq : Nat
  code : Nat                -- opcode of its digest (R305)
  seq : Nat
  epoch : Nat
  digest : W64
  words : List Nat          -- the four words of its head (R454)
  phase : CPhase
  cancelled : Bool
  sent : Bool               -- the head contribution has been sent (R307)
  lost : Bool               -- it has ended here and writes nothing more (R315)
  tranches : List Tranche   -- the head exchange first
  deriving DecidableEq, Repr

/-- A message, or a ring piece, that arrived before this module could act on it. -/
structure Early where
  msg : Nat                 -- code of R454; 0 for a ring piece
  body : CollMsg
  piece : Nat
  hops : Nat
  deriving DecidableEq, Repr

/-- A group queue (R291 to R298, R335). -/
structure Gq where
  bound : Bool
  record : BitVec 512
  members : List Nat
  epoch : BitVec 16
  nextTranche : BitVec 24
  nextSeq : W32
  sends : FMap Nat          -- SENDs so far, by peer (R303)
  recvs : FMap Nat
  deriving DecidableEq, Repr

/-- A clearance exchange kept until the next one starts (R323): contribution and, once received, result. -/
structure ClrKept where
  gq : Nat
  verdict : W32
  amax : FMap W32
  final : Bool              -- the result has been received
  result : W32
  resultAmax : FMap W32
  acted : Bool
  passed : Nat              -- parts of steps 1 to 3 of R278 that a passed clearance has done
  deriving DecidableEq, Repr

/-- CLR_ registers (R335) and the collectives in flight. -/
structure Clr where
  switchEn : Bool
  lastStatus : BitVec 8
  evt : BitVec 6
  evtEn : BitVec 6
  gqSel : BitVec 6
  planeSlot : FMap W32      -- slot_count over slot_kib
  planeDown : BitVec 16
  collectives : W64
  tranSwitch : W64
  tranRing : W64
  refusals : W64
  laneBytes : W64
  lastAbort : W64
  gqs : FMap Gq
  colls : List Coll
  kept : List ClrKept       -- by group queue
  early : List Early        -- messages that wait for this module to reach them
  deriving DecidableEq, Repr

/-! ### Memory, seals and repair -/

/-- HBM_ registers (R368), poison, seals, row state and temperature. -/
structure Hbm where
  scrubHours : BitVec 8
  ceThreshold : BitVec 8
  autoRepair : Bool
  pprEn : Bool
  throttled : BitVec 8
  trained : BitVec 8
  evt : BitVec 8
  evtEn : BitVec 8
  sel : BitVec 8
  pcCe : FMap W64
  pcUe : FMap W64
  pprLeft : FMap (BitVec 8)
  pprDone : FMap (BitVec 8)
  redirects : FMap (List Nat)  -- rows redirected, by pseudo-channel
  rowCe : FMap Nat          -- corrected words of a row in this scrub period
  candidates : List (Nat × Nat)
  temps : FMap Int          -- 1/16 °C, by stack
  ueAddr : W64
  sealLast : W64
  sealCount : W64
  repairCtrl : W64
  repairAsk : Option (Nat × Bool) -- address and hppr of the repair that go has asked for
  repairRow : Option (Nat × Nat × Bool)  -- pseudo-channel, row, steps 2 to 4 asked
  lastResult : BitVec 8
  marginCtrl : W32
  marginResult : W64
  sweeping : Bool
  sweepCtrl : W32           -- HBM_MARGIN_CTRL as the sweep that runs was started
  adderOps : W64
  scrubPasses : W64
  scrubPos : Nat            -- granules scrubbed in this period
  scrubbed : List (Nat × Nat) -- which: rising ranges of granules, first to one past the last (R347)
  deriving DecidableEq, Repr

/-! ### Fabric -/

/-- A frame in a replay buffer (R455). -/
structure Sent where
  seq : Nat
  resends : Nat             -- times resent (R456)
  bytes : List Byte         -- the frame (R450)
  deriving DecidableEq, Repr

/-- A fabric port (R447 to R461, R469 to R473). -/
structure Port where
  state : BitVec 4
  rate : Bool               -- FAB_PORT_CTRL.rate
  disable : Bool
  retrain : Bool
  lane112 : Bool            -- lane_rate
  laneMap : W32
  spareUsed : Bool
  spareBad : Bool           -- lane 8 unusable: lane 8 or more than lane 8 failed
  retired : BitVec 9        -- lanes retired or bad
  lockedGbps : BitVec 8
  softGbps : BitVec 8
  replaysMax : BitVec 8
  cw : W64
  corr : W64
  uncorr : W64
  replays : W64
  txBytes : W64
  rxBytes : W64
  laneErr : FMap W64
  txSeq : BitVec 16         -- next frame to send
  rxSeq : BitVec 16         -- last frame received in order
  acked : BitVec 16         -- last frame acknowledged to us
  replay : List Sent        -- frames unacknowledged (R455)
  credit : FMap Nat         -- slots we may still send, by virtual channel
  credRx : FMap Nat         -- cumulative credits last seen
  returned : FMap Nat       -- cumulative credits we return
  waiting : List (PktType × Packet)
  swapping : Option Nat     -- logical lane asked to move
  rxPart : Option (PktType × Packet) -- a packet whose last slot has not arrived
  rxColl : Option CollMsg   -- a contribution or result whose last packet has not arrived (R454)
  deriving DecidableEq, Repr

/-- An outstanding remote request (R464, R466): a read or write of an entry, or a flag update. -/
structure Remote where
  tag : Nat
  entry : Nat
  type : PktType
  dest : Nat
  addr : Nat
  len : Nat
  data : List Byte
  port : Nat
  notReady : Bool           -- waits for its resend
  deriving DecidableEq, Repr

/-- A window of remote access (R465). -/
structure FabWin where
  base : W64
  limit : W64
  rankHi : BitVec 20
  rankLo : BitVec 20
  writeEn : Bool
  readEn : Bool
  deriving DecidableEq, Repr

/-- FAB_ registers (R473). -/
structure Fab where
  swapThr : BitVec 8
  swapEn : Bool
  evt : BitVec 5
  evtEn : BitVec 5
  winSel : BitVec 4
  wins : FMap FabWin
  misroute : W64
  portSel : BitVec 4
  laneSel : BitVec 4
  ports : FMap Port
  remotes : List Remote
  nextTag : Nat
  flagSeq : FMap Nat        -- last sequence number sent, by destination (R464)
  flagSeen : FMap (List Nat) -- last 1,024 numbers of each source
  held : List (PktType × Packet) -- remote accesses that wait for a back-invalidate snoop (R493)
  deriving DecidableEq, Repr

/-! ### CXL -/

/-- An entry of the aperture table (R487). -/
structure Aper where
  base : W64
  size : W64
  deriving DecidableEq, Repr

/-- An HDM decoder (R492): host base, size, target. -/
structure HdmDec where
  committed : Bool
  error : Bool
  base : Nat
  size : Nat
  target : Nat
  deriving DecidableEq, Repr

/-- A UIO access in flight (R496). -/
structure Uio where
  tag : Nat
  entry : Nat
  addr : Nat
  len : Nat
  read : Bool
  deriving DecidableEq, Repr

/-- An SPDM session (R584, R587). -/
structure Session where
  id : Nat
  established : Bool
  deriving DecidableEq, Repr

/-- The CXL port, configuration space and DOE (R475 to R499). -/
structure Cxl where
  link : Option LinkMode
  refclk : Bool
  vecMask : BitVec 256      -- MSI-X table masks
  vecPend : BitVec 256      -- pending-bit array
  vecTable : FMap W32       -- MSI-X table words: 4 × vector + 0, 1, 2 (address, upper address, data)
  lock : Bool               -- aperture_lock
  keepHbm : Bool
  lastReset : BitVec 8
  apers : FMap Aper
  hdms : FMap HdmDec
  filter : List Nat         -- lines the host may hold, oldest first
  snoops : List Nat         -- snoops outstanding
  heldReads : List Nat      -- host reads that wait for room in the filter, oldest first
  uios : List Uio
  nextTag : Nat
  ideHalt : Bool            -- CXL stream discards
  ideHaltIo : Bool          -- PCIe stream discards
  ideKeys : Option (List Byte)
  ideKeysIo : Option (List Byte)
  aer : Bool                -- uncorrectable internal error reported
  ras : Bool
  sessions : List Session
  nextSession : Nat
  chunkIn : List Byte       -- large request so far
  chunkOut : List Byte      -- large response
  deriving DecidableEq, Repr

/-! ### Assay -/

/-- A tracking slot (R103) and, for the step, its counts (R98). -/
structure Slot where
  tensor : W32
  histEn : Bool
  zeroEn : Bool
  thrBin : BitVec 4
  zeroLimit : BitVec 16
  underThr : BitVec 16
  streak : BitVec 16
  alarmBase : BitVec 16
  histWrapped : Bool
  errEvent : Bool
  alarm : Bool
  checks : W64
  saturations : W64
  hist : FMap W64
  newChecks : FMap Nat      -- checks and saturations since the last opening, which merges them into the view
  newSats : Nat
  nTotal : Nat
  nZero : Nat
  nUnder : Nat
  deriving DecidableEq, Repr

/-- The configuration bytes of a slot as written, until the next opening (R101). -/
structure SlotCfg where
  tensor : W32
  histEn : Bool
  zeroEn : Bool
  thrBin : BitVec 4
  zeroLimit : BitVec 16
  underThr : BitVec 16
  deriving DecidableEq, Repr

/-- A check that is due (R93): operation, block and destination tensor, with the narrow and the wide results that it
compares (R94). -/
structure DueCheck where
  op : Nat
  block : Nat
  tensor : Nat
  narrow : List W32
  wide : List W32
  deriving DecidableEq, Repr

/-- ASY_ registers (R102) and the slots. -/
structure Asy where
  sampleLog2 : BitVec 5
  zeroEn : Bool
  sampleEn : Bool
  nextSampleLog2 : BitVec 5
  nextZeroEn : Bool
  nextSampleEn : Bool
  evt : BitVec 4
  evtEn : BitVec 4
  nfCount : W32
  nfTensor : W32
  nfFirst : W64
  nfSet : Bool              -- a mark of this step has been recorded
  nfIds : List (Nat × W32)  -- queue and desc_id of pre-empted descriptors that have been counted (R97)
  checks : W64
  slotSel : BitVec 12
  slots : FMap Slot
  nextCfg : FMap (Option SlotCfg)
  due : List DueCheck       -- blocks picked for a check and not yet checked
  deriving DecidableEq, Repr

/-! ### The run -/

/-- Scale state of a table entry for the step (R60 to R66): how its exponent is known, what was converted. -/
structure Scale where
  lost : Bool
  e : Option Int            -- none: current scaling, not set yet
  margin : Nat
  current : Bool            -- the tensor runs with current scaling
  converted : Bool
  tensor : W32
  format : Nat
  amax : W32
  deriving DecidableEq, Repr

/-- The bound run record (R284) and what the step holds outside memory. -/
structure Run where
  recAddr : Option Nat      -- address of the bound record
  cfg : Desc                -- bytes 0 to 127 of the record as bound
  step : W64
  active : Bool             -- B active
  scales : FMap Scale       -- by identifier bits [15:0]
  copies : FMap (Option Int) -- exponents that an ADAMW of the step converted copies with, by table entry (R263)
  deriving DecidableEq, Repr

/-! ### Tiles -/

/-- What a stopped operation left in a tile's SRAM and array: its stationary operand's address and tensor, the operand
bytes held, and the tree state (R128, R129). -/
structure InPlace where
  addr : Nat
  tensor : Nat
  held : List (Nat × List Byte)
  tree : FMap (BitVec 33)
  wide : FMap W32
  deriving DecidableEq, Repr

/-- TIL_, ATT_ and COD_ registers of a physical tile (R218, R251, R538). -/
structure Tile where
  logical : BitVec 7
  second : BitVec 7
  role : BitVec 4
  cause : BitVec 8
  permanent : Bool
  selftest : BitVec 8       -- result
  units : BitVec 8
  fwComplete : Bool
  fwPasses : BitVec 4
  fwUnicast : BitVec 12
  accepted : FMap Nat       -- bitmap of the blocks that each of its nine cores has accepted (R517)
  faultCause : BitVec 8
  faultStamp : BitVec 48
  ueSeen : Bool             -- an uncorrectable word in this power cycle (R527)
  running : BitVec 7        -- the number a partner runs
  attBatchEn : Bool
  attLast : BitVec 8
  attActive : Bool
  attEvt : BitVec 4
  attEvtEn : BitVec 4
  attSegments : W64
  attKeyBlocks : W64
  attSkipped : W64
  attLastDrop : BitVec 37
  attCacheOps : W64
  codRawOnly : Bool
  codLast : BitVec 8
  codActive : Bool
  codEvt : BitVec 5
  codEvtEn : BitVec 5
  codErrLimit : W32
  codMaxErr : W32
  codBytesIn : W64
  codBytesOut : W64
  codFrames : W64
  codPops : W64
  codSpillFar : W64
  codSpillCxl : W64
  codHits : W64
  codMisses : W64
  inPlace : List InPlace    -- by member of the batch that stopped
  deriving DecidableEq, Repr

/-- A block of the firmware manifest (R517). -/
structure FwBlock where
  index : Nat
  engine : Bool             -- the engine sequencers take it, not the tile core
  digest : List Byte
  deriving DecidableEq, Repr

/-- The fuse map (R509, R582): good or bad parts, floors, revocation, owner key. -/
structure Almanac where
  tileBad : BitVec 112
  laneBad : BitVec 144
  stackBad : BitVec 8
  thermo : BitVec 64
  revoked : Bool
  owner : Option (List Byte)
  failedLast : BitVec 112   -- tiles that failed self-test at the previous start (R520)
  deriving DecidableEq, Repr

/-- Module state of repair (R528 to R535). -/
structure Til where
  tiles : FMap Tile
  manifest : List FwBlock   -- of the boot image that runs (R517)
  remapGen : W64
  saveBase : W64            -- base and enable as TIL_SAVE_BASE
  pending0 : List Nat       -- faulted physical tiles of die 0 waiting for their remap
  pending1 : List Nat
  unbacked : List Nat
  almanac : Almanac
  deriving DecidableEq, Repr

/-! ### Daybook -/

/-- A record before it is sealed (R546). -/
structure Rec where
  type : Nat
  restated : Bool
  stamp : BitVec 48
  die : Bool
  step : W64
  payload : List Byte
  deriving DecidableEq, Repr

/-- A sector erase in progress (R545): ring and sector. -/
structure Erase where
  ring : Bool
  sector : Nat
  suspended : Bool
  deriving DecidableEq, Repr

/-- A consolidation in progress (R553): BEGIN's number, records still to write, count. -/
structure Consol where
  beginSeq : Nat
  sector : Nat              -- the sector that holds BEGIN
  left : List Rec
  count : Nat
  deriving DecidableEq, Repr

/-- DBK_ registers (R569) and the engine: queue, head, erases, state keys, wear. -/
structure Dbk where
  wearWarnK : BitVec 8
  flushed : Bool
  stateFull : Bool
  mode : BitVec 2           -- DBK_STATUS.state
  evt : BitVec 7
  evtEn : BitVec 7
  seqHead : W64
  seqTail : W64
  tokens : Nat
  records : W64
  lost : W64
  readSeq : W64
  readResult : BitVec 8
  readMac : Bool
  readBusy : Bool
  readData : List Byte
  hostData : List Byte
  lastStep : W64
  queue : List Rec
  head : Nat                -- head sector
  nextSlot : Nat            -- next slot of the head; 0: its header is not written yet
  firstSeq : Nat            -- of the head
  consSeq : Nat             -- BEGIN of the newest complete consolidation
  consSector : Nat          -- the sector that holds it
  consol : Option Consol
  consTick : W64            -- always-on count at the last BEGIN
  erases : List Erase
  eraseCnt : FMap Nat       -- erase counts, by 2 × sector + ring (R560)
  keys : List (Nat × Nat × List Byte) -- live state: type, key, payload
  wear : FMap Nat           -- stress units in 2^-20, by account (65,536 × kind + index)
  guards : FMap Nat         -- guard band of each rail in mV (R563)
  wearLast : FMap Nat       -- stress units at the account's last record
  margins : FMap (List Nat) -- first margin and last four, by account
  eraseMax : W32            -- DBK_ERASE_MAX
  prevStage : BitVec 8      -- stage at the previous start's end
  deriving DecidableEq, Repr

/-! ### Strongroom -/

/-- A DOE request that the Strongroom serves (R584, R587): an SPDM request with its code, a chunk of a large request, a
request for a chunk of a large response, or an IDE KEY_PROG message. -/
inductive DoeReq where
  | spdm (inst : DoeInst) (code session : Nat) (req : List Byte)
  | chunk (inst : DoeInst) (last : Bool) (data : List Byte)
  | chunkGet (inst : DoeInst) (index : Nat)
  | keyProg (inst : DoeInst) (session : Nat) (stream : IdeStream) (msg : List Byte)
  deriving DecidableEq, Repr

/-- STR_ registers (R600) and the Strongroom's own state. -/
structure Str where
  selftestOk : Bool
  halted : Bool
  cfgSlot1 : Bool
  bootB : Bool
  drbgOk : Bool
  debug : Bool
  evt : BitVec 5
  evtEn : BitVec 5
  go : Bool
  opcode : BitVec 8
  running : BitVec 8        -- the opcode whose command go started (R595)
  result : BitVec 8
  buf : W64
  bufLen : BitVec 26
  respLen : BitVec 26
  cfgVersion : W32
  bootVersion : W32
  locks : BitVec 7
  lockWrites : W64
  measurements : List (List Byte)
  nonce : Option (List Byte)
  drbgPos : Nat
  drbgReqs : Nat
  keysHeld : Bool
  bootSvn : Nat
  cfgSvn : Nat
  bootSlot1Revoke : Bool    -- the boot image is signed with slot 1 and has revoke_primary
  scopes : BitVec 2         -- debug paths open
  minBoot : Nat             -- Daybook minimum versions
  minCfg : Nat
  committing : Bool         -- ROLLBACK_COMMIT has queued its records (R583)
  doeWait : List DoeReq     -- DOE requests that wait for the command that runs (R595)
  deriving DecidableEq, Repr

/-- A stack held open (R220, R224): its control area and, per fill area, what is read ahead. -/
structure OpenStack where
  area : Nat
  region : BitVec 1024
  farSeals : FMap (List W32) -- seals of frames outside local HBM, by 256 × lane + index (R228)
  deriving DecidableEq, Repr

/-- What runs behind the management controller: queues, flags, collectives, memory, links, tiles and the Daybook. -/
structure Chip where
  ory : Ory
  vsp : Vsp
  clr : Clr
  hbm : Hbm
  fab : Fab
  cxl : Cxl
  asy : Asy
  run : Run
  til : Til
  dbk : Dbk
  openStacks : FMap (Option OpenStack)  -- by sequence context
  /-- HBM by interleaved address and tile SRAM by its window address (R339, R340): an unlisted byte reads 0. -/
  mem : FMap Byte
  /-- Poisoned 16-byte words, by address ÷ 16 (R345). -/
  poison : FMap Bool
  /-- Bits that have flipped in an HBM word and that the code can correct, by address ÷ 16 (R343, R344). -/
  upsets : FMap (List Nat)
  /-- Seal slots, by granule of a block's first byte (R350); none: no valid seal. -/
  seals : FMap (Option W32)
  /-- The attached flash (R540): an unlisted byte reads 0xFF, erased. -/
  flash : FMap Byte
  /-- Everything sent so far, newest last (the model's own field). -/
  out : List Out
  /-- Counter of free values drawn (the model's own field). -/
  fresh : Nat
  deriving DecidableEq, Repr

/-- The device: everything but the queue of commands. -/
structure Dev where
  mgt : Mgt
  tel : Tel
  str : Str
  chip : Chip
  deriving DecidableEq, Repr

/-- The state of the block: the device and the commands that wait, first in, first out. -/
structure State where
  dev : Dev
  pending : List Instr
  deriving DecidableEq, Repr

/-! ### Reset: the values the spec states, and zero where it states none (log entry 2) -/

def Mgt.reset : Mgt :=
  ⟨false, false, false, 0, 0, false, false, false, false, false, 0, false, 0, 0, 0, 0, 0, 0, 0, 0, 0⟩

def Band.reset : Band := ⟨0, 0, 0, false, 0, false, false⟩

def Tel.reset : Tel where
  retainIdle := 10
  capW := 2000
  offSpares := true
  powerLost := false
  ref25Lost := false
  vinLow := false
  stackHold := 0
  cap := false
  currentLimit := false
  evt := 0
  evtEn := 0
  vin := 0
  iin := 0
  pin := 0
  peak := 0
  recent := []
  pinSum := 0
  pinCount := 0
  overCapUs := 0
  tempDie0 := 0
  tempDie1 := 0
  tempHub := 0
  tempHbm := 0
  bandSel := 0
  bands := []
  energy := 0
  energyFrac := 0
  throttleUs := 0
  switchOpen := false
  tripLatch := false
  overVoltage := false
  latched := 0
  reported := 0
  comm := false

/-- An entry that holds nothing. -/
def Entry.reset : Entry where
  id := 0
  wq := 0
  index := 0
  slot := 0
  desc := 0
  record := 0
  tile := 127
  holds := false
  phase := .arming
  status := 0
  chunk := 0
  kblock := 0
  groups := 0
  block := 0
  written := false
  from_ := 0
  begun := false
  kept := false
  marked := false
  cancel := false
  asked := false
  acks := []
  ext := []
  held := []
  nextHeld := []
  rest := []
  tree := []
  wide := []
  pairs := []
  seat := 0
  fill := []
  want := none
  slotW := none
  lead := none
  win := none
  mcast := []
  round := 0
  apart := false

def Wq.reset : Wq :=
  ⟨0, 0, 0, 0, 0, false, false, 0, 0, 0, false, false, 0, 0, 0, 0, 0, 0, none, [], [], none, none, none, 0, 0, 0, [], [], [], none⟩

def Stream.reset : Stream := ⟨127, 0, none⟩

def Ory.reset : Ory := ⟨32, 20, 10, true, 0, 0, 0, 0, 0, 0, 0, 0, [], [], [], [], 0⟩

def Mbox.reset : Mbox := ⟨0, false, 0, false, false, 0, 0, 0, [], false⟩

def Vsp.reset : Vsp := ⟨false, 0, 0, 0, 0, 0, 0, 0, 0, 0, 0, 0, 0, 0, [], 0, []⟩

def Gq.reset : Gq := ⟨false, 0, [], 0, 0, 0, [], []⟩

def Clr.reset : Clr := ⟨true, 0, 0, 0, 0, [], 0, 0, 0, 0, 0, 0, 0, [], [], [], []⟩

def Hbm.reset : Hbm where
  scrubHours := 24
  ceThreshold := 16
  autoRepair := true
  pprEn := true
  throttled := 0
  trained := 0
  evt := 0
  evtEn := 0
  sel := 0
  pcCe := []
  pcUe := []
  pprLeft := []
  pprDone := []
  redirects := []
  rowCe := []
  candidates := []
  temps := []
  ueAddr := 0
  sealLast := 0
  sealCount := 0
  repairCtrl := 0
  repairAsk := none
  repairRow := none
  lastResult := 0
  marginCtrl := 16
  marginResult := 0
  sweeping := false
  sweepCtrl := 0
  adderOps := 0
  scrubPasses := 0
  scrubPos := 0
  scrubbed := []

def Port.reset : Port where
  state := 0
  rate := false
  disable := false
  retrain := false
  lane112 := false
  laneMap := 0x76543210
  spareUsed := false
  spareBad := false
  retired := 0
  lockedGbps := 0
  softGbps := 0
  replaysMax := 0
  cw := 0
  corr := 0
  uncorr := 0
  replays := 0
  txBytes := 0
  rxBytes := 0
  laneErr := []
  txSeq := 0
  rxSeq := 0xFFFF
  acked := 0xFFFF
  replay := []
  credit := []
  credRx := []
  returned := []
  waiting := []
  swapping := none
  rxPart := none
  rxColl := none

def FabWin.reset : FabWin := ⟨0, 0, 0, 0, false, false⟩

def Fab.reset : Fab := ⟨40, true, 0, 0, 0, [], 0, 0, 0, [], [], 0, [], [], []⟩

def Aper.reset : Aper := ⟨0, 0⟩
def HdmDec.reset : HdmDec := ⟨false, false, 0, 0, 0⟩

def Cxl.reset : Cxl :=
  ⟨none, true, BitVec.allOnes 256, 0, [], false, true, 0, [], [], [], [], [], [], 0, false, false, none, none, false, false, [], 0, [], []⟩

def Slot.reset : Slot := ⟨0, false, false, 0, 64, 0x8000, 0, 0, false, false, false, 0, 0, [], [], 0, 0, 0, 0⟩

def Asy.reset : Asy := ⟨10, true, true, 10, true, true, 0, 0, 0, 0, 0, false, [], 0, 0, [], [], []⟩

def Scale.reset : Scale := ⟨true, none, 0, false, false, 0, 0, 0⟩

def Run.reset : Run := ⟨none, 0, 0xFFFFFFFFFFFFFFFF, false, [], []⟩

def Tile.reset : Tile where
  logical := 127
  second := 127
  role := 0
  cause := 0
  permanent := false
  selftest := 0
  units := 0
  fwComplete := false
  fwPasses := 0
  fwUnicast := 0
  accepted := []
  faultCause := 0
  faultStamp := 0
  ueSeen := false
  running := 127
  attBatchEn := true
  attLast := 0
  attActive := false
  attEvt := 0
  attEvtEn := 0
  attSegments := 0
  attKeyBlocks := 0
  attSkipped := 0
  attLastDrop := 0
  attCacheOps := 0
  codRawOnly := false
  codLast := 0
  codActive := false
  codEvt := 0
  codEvtEn := 0
  codErrLimit := 0x7F800000
  codMaxErr := 0
  codBytesIn := 0
  codBytesOut := 0
  codFrames := 0
  codPops := 0
  codSpillFar := 0
  codSpillCxl := 0
  codHits := 0
  codMisses := 0
  inPlace := []

def Almanac.reset : Almanac := ⟨0, 0, 0, 0, false, none, 0⟩

def Til.reset : Til := ⟨[], [], 0, 0, [], [], [], Almanac.reset⟩

def Dbk.reset : Dbk where
  wearWarnK := 80
  flushed := false
  stateFull := false
  mode := 0
  evt := 0
  evtEn := 0
  seqHead := 0
  seqTail := 0
  tokens := 512
  records := 0
  lost := 0
  readSeq := 0
  readResult := 0
  readMac := false
  readBusy := false
  readData := []
  hostData := []
  lastStep := 0xFFFFFFFFFFFFFFFF
  queue := []
  head := 0
  nextSlot := 0
  firstSeq := 0
  consSeq := 0
  consSector := 0
  consol := none
  consTick := 0
  erases := []
  eraseCnt := []
  keys := []
  wear := []
  guards := []
  wearLast := []
  margins := []
  eraseMax := 0
  prevStage := 0

def Str.reset : Str :=
  ⟨false, false, false, false, false, false, 0, 0, false, 0, 0, 0, 0, 0, 0, 0, 0, 0, 0, [], none, 0, 0, false, 0, 0,
    false, 0, 0, 0, false, []⟩

def Chip.reset : Chip where
  ory := Ory.reset
  vsp := Vsp.reset
  clr := Clr.reset
  hbm := Hbm.reset
  fab := Fab.reset
  cxl := Cxl.reset
  asy := Asy.reset
  run := Run.reset
  til := Til.reset
  dbk := Dbk.reset
  openStacks := []
  mem := []
  poison := []
  upsets := []
  seals := []
  flash := []
  out := []
  fresh := 0

def Dev.reset : Dev := ⟨Mgt.reset, Tel.reset, Str.reset, Chip.reset⟩

/-- The machine before power is applied: every register at the reset value the spec states; nothing waits. -/
def State.reset : State := ⟨Dev.reset, []⟩

end Sys2Proof.Machine
end

