-- ==== Sys2Proof/Machine/Ops.lean ====
section
/-! DEFINITION. The named operations over the module's state: outcomes, events and vectors, counters, Daybook queueing,
memory with its poison and seals, and armed descriptors. -/

namespace Sys2Proof.Machine

/-! ### Outcomes -/

/-- The outcome of a command that changes the device alone. -/
def onDev (f : Dev → Dev) (s : State) : Host.Outcome State Fault Refusal := .next { s with dev := f s.dev }

/-- The outcome of a command that changes the chip, reading the management registers. -/
def onChip (f : Mgt → Chip → Chip) (s : State) : Host.Outcome State Fault Refusal :=
  onDev (fun d => { d with chip := f d.mgt d.chip }) s

/-- A write of a register outside the MGT_, STR_, DBK_ and TEL_ blocks: ignored before Ready (R507), and discarded while
the PCIe IDE stream has failed (R499). -/
def whenReady (m : Mgt) (f : Chip → Chip) (c : Chip) : Chip := if m.ready && !c.cxl.ideHaltIo then f c else c

/-- The outcome of a command that names a band (R4: 14 bands). -/
def onBand (b : Nat) (f : Dev → Dev) (s : State) : Host.Outcome State Fault Refusal :=
  if b < 14 then onDev f s else .refused .noSuchUnit

/-- The outcome of a command that names a physical tile (R4: 112 physical tiles). -/
def onTile (p : Nat) (f : Dev → Dev) (s : State) : Host.Outcome State Fault Refusal :=
  if p < 112 then onDev f s else .refused .noSuchUnit

/-- Applies a chip function to a device. -/
def Dev.mapChip (d : Dev) (f : Chip → Chip) : Dev := { d with chip := f d.chip }

/-! ### Output, vectors and events -/

/-- Whether an output belongs to an IDE stream that has failed, on which the device sends nothing (R499). -/
def Out.blocked (c : Chip) : Out → Bool
  | .msix _ | .uioRead .. | .uioWrite .. | .regRead .. => c.cxl.ideHaltIo
  | .hostWrite .. | .hostRead _ | .snoop _ | .hdmData .. => c.cxl.ideHalt
  | _ => false

/-- Appends to what the block has sent. -/
def emit (o : Out) (c : Chip) : Chip := if o.blocked c then c else { c with out := c.out ++ [o] }

/-- A vector is requested (R481): one message, or one pending bit while the vector is masked or pending. -/
def requestVector (v : Nat) (c : Chip) : Chip :=
  if c.cxl.vecMask.getLsbD v || c.cxl.vecPend.getLsbD v then
    { c with cxl := { c.cxl with vecPend := putBit c.cxl.vecPend v true } }
  else emit (.msix v) c

/-- The blocks with event registers that lie on the chip. -/
inductive Blk where
  | ory | vsp | clr | hbm | fab | asy | dbk | att (p : Nat) | cod (p : Nat)
  deriving DecidableEq, Repr

/-- The vector of a block (R480). -/
def Blk.vector : Blk → Nat
  | .ory => 0 | .vsp => 1 | .clr => 2 | .hbm => 3 | .fab => 4 | .asy => 5 | .dbk => 6
  | .att p => 16 + 4 * (p / 56) + p % 4
  | .cod p => 24 + 4 * (p / 56) + p % 4

/-- The registers of a physical tile. -/
def Chip.tile (c : Chip) (p : Nat) : Tile := fget Tile.reset c.til.tiles p

/-- Updates the registers of a physical tile. -/
def Chip.setTile (c : Chip) (p : Nat) (t : Tile) : Chip :=
  { c with til := { c.til with tiles := fset Tile.reset c.til.tiles p t } }

/-- Event status of a block. -/
def Blk.status (c : Chip) : Blk → Nat
  | .ory => c.ory.evt.toNat | .vsp => c.vsp.evt.toNat | .clr => c.clr.evt.toNat | .hbm => c.hbm.evt.toNat
  | .fab => c.fab.evt.toNat | .asy => c.asy.evt.toNat | .dbk => c.dbk.evt.toNat
  | .att p => (c.tile p).attEvt.toNat | .cod p => (c.tile p).codEvt.toNat

/-- Event enables of a block. -/
def Blk.enable (c : Chip) : Blk → Nat
  | .ory => c.ory.evtEn.toNat | .vsp => c.vsp.evtEn.toNat | .clr => c.clr.evtEn.toNat | .hbm => c.hbm.evtEn.toNat
  | .fab => c.fab.evtEn.toNat | .asy => c.asy.evtEn.toNat | .dbk => c.dbk.evtEn.toNat
  | .att p => (c.tile p).attEvtEn.toNat | .cod p => (c.tile p).codEvtEn.toNat

/-- Writes a block's event status. -/
def Blk.setStatus (c : Chip) (v : Nat) : Blk → Chip
  | .ory => { c with ory := { c.ory with evt := .ofNat 7 v } }
  | .vsp => { c with vsp := { c.vsp with evt := .ofNat 7 v } }
  | .clr => { c with clr := { c.clr with evt := .ofNat 6 v } }
  | .hbm => { c with hbm := { c.hbm with evt := .ofNat 8 v } }
  | .fab => { c with fab := { c.fab with evt := .ofNat 5 v } }
  | .asy => { c with asy := { c.asy with evt := .ofNat 4 v } }
  | .dbk => { c with dbk := { c.dbk with evt := .ofNat 7 v } }
  | .att p => c.setTile p { c.tile p with attEvt := .ofNat 4 v }
  | .cod p => c.setTile p { c.tile p with codEvt := .ofNat 5 v }

/-- Writes a block's event enables. -/
def Blk.setEnable (c : Chip) (v : Nat) : Blk → Chip
  | .ory => { c with ory := { c.ory with evtEn := .ofNat 7 v } }
  | .vsp => { c with vsp := { c.vsp with evtEn := .ofNat 7 v } }
  | .clr => { c with clr := { c.clr with evtEn := .ofNat 6 v } }
  | .hbm => { c with hbm := { c.hbm with evtEn := .ofNat 8 v } }
  | .fab => { c with fab := { c.fab with evtEn := .ofNat 5 v } }
  | .asy => { c with asy := { c.asy with evtEn := .ofNat 4 v } }
  | .dbk => { c with dbk := { c.dbk with evtEn := .ofNat 7 v } }
  | .att p => c.setTile p { c.tile p with attEvtEn := .ofNat 4 v }
  | .cod p => c.setTile p { c.tile p with codEvtEn := .ofNat 5 v }

/-- Whether event bit `i` goes from 0 to 1 while it is enabled (R481). -/
def evtRises (status enable i : Nat) : Bool := !status.testBit i && enable.testBit i

/-- An event of a block (R481). -/
def raise (b : Blk) (i : Nat) (c : Chip) : Chip :=
  let s := b.status c
  let c' := b.setStatus c (s ||| 2 ^ i)
  if evtRises s (b.enable c) i then requestVector b.vector c' else c'

/-- Raises an event where a condition holds. -/
def raiseIf (p : Bool) (b : Blk) (i : Nat) (c : Chip) : Chip := if p then raise b i c else c

/-- A write of W1C event status: a bit left set and enabled makes a new request (R481). -/
def evtW1c (b : Blk) (w : Nat) (c : Chip) : Chip :=
  let s := b.status c
  let s' := s - (s &&& w)
  let c' := b.setStatus c s'
  if s' &&& b.enable c ≠ 0 then requestVector b.vector c' else c'

/-- A write of event enables: enabling a set bit makes a request (R481). -/
def evtEnableW (b : Blk) (w : Nat) (c : Chip) : Chip :=
  let e := b.enable c
  let c' := b.setEnable c w
  if (b.status c &&& b.enable c') - (b.status c &&& b.enable c' &&& e) ≠ 0 then requestVector b.vector c' else c'

/-- The blocks with event registers outside the chip. -/
inductive DBlk where
  | mgt | tel | str
  deriving DecidableEq, Repr

/-- Their vectors (R480). -/
def DBlk.vector : DBlk → Nat | .mgt => 0 | .tel => 8 | .str => 7

def DBlk.status (d : Dev) : DBlk → Nat
  | .mgt => d.mgt.evt.toNat | .tel => d.tel.evt.toNat | .str => d.str.evt.toNat

def DBlk.enable (d : Dev) : DBlk → Nat
  | .mgt => d.mgt.evtEn.toNat | .tel => d.tel.evtEn.toNat | .str => d.str.evtEn.toNat

def DBlk.setStatus (d : Dev) (v : Nat) : DBlk → Dev
  | .mgt => { d with mgt := { d.mgt with evt := .ofNat 3 v } }
  | .tel => { d with tel := { d.tel with evt := .ofNat 6 v } }
  | .str => { d with str := { d.str with evt := .ofNat 5 v } }

def DBlk.setEnable (d : Dev) (v : Nat) : DBlk → Dev
  | .mgt => { d with mgt := { d.mgt with evtEn := .ofNat 3 v } }
  | .tel => { d with tel := { d.tel with evtEn := .ofNat 6 v } }
  | .str => { d with str := { d.str with evtEn := .ofNat 5 v } }

/-- An event of a block outside the chip (R481). -/
def raiseD (b : DBlk) (i : Nat) (d : Dev) : Dev :=
  let s := b.status d
  let d' := b.setStatus d (s ||| 2 ^ i)
  if evtRises s (b.enable d) i then d'.mapChip (requestVector b.vector) else d'

/-- W1C event status outside the chip. -/
def evtW1cD (b : DBlk) (w : Nat) (d : Dev) : Dev :=
  let s := b.status d
  let s' := s - (s &&& w)
  let d' := b.setStatus d s'
  if s' &&& b.enable d ≠ 0 then d'.mapChip (requestVector b.vector) else d'

/-- Event enables outside the chip. -/
def evtEnableD (b : DBlk) (w : Nat) (d : Dev) : Dev :=
  let e := b.enable d
  let d' := b.setEnable d w
  if (b.status d &&& b.enable d') - (b.status d &&& b.enable d' &&& e) ≠ 0 then
    d'.mapChip (requestVector b.vector) else d'

/-! ### Free values and identity -/

/-- A free value: a number that no rule fixes, another at each draw (log entry 1). -/
def drawFree (c : Chip) : Nat × Chip := (Config.freeNat c.fresh, { c with fresh := c.fresh + 1 })

/-- The die of a logical tile; tile 127 counts as die 0 (R4). -/
def dieOf (t : Nat) : Nat := if t < 96 then t / 48 else 0

/-- The band, module-wide 7 × die + B, of a physical tile (R4). -/
def bandOf (p : Nat) : Nat := 7 * (p / 56) + p % 56 / 4 / 2

/-- The local counter of a die (R414). -/
def Mgt.counter (m : Mgt) (die : Nat) : W64 := if die = 0 then m.counter0 else m.counter1

/-- The physical tile that holds a logical number, if any (R530). -/
def ptileOf (c : Chip) (t : Nat) : Option Nat :=
  if 96 ≤ t then none else
  (List.range 112).find? fun p =>
    let x := c.tile p
    x.logical.toNat = t || x.second.toNat = t

/-! ### The Daybook's queue (R547 to R551) -/

/-- Types of keep class (R547). -/
def recKeep (type : Nat) : Bool := [2, 3, 4, 6, 7, 8, 9].contains type

/-- State records carry a key (R547): TILE_RETIRE, LANE_RETIRE, HBM_ROW, WEAR, MIN_VERSION, STEP. -/
def recKey (type : Nat) (p : List Byte) : Option Nat :=
  let b (i : Nat) : Nat := (p.getD i 0).toNat
  match type with
  | 2 => some (b 0)
  | 3 => some (b 0 * 256 + b 1)
  | 4 => some (b 0 * 2 ^ 32 + ofBytes ((p.drop 4).take 4))
  | 5 => some (b 0 * 65536 + ofBytes ((p.drop 2).take 2))
  | 6 => some (b 0)
  | 7 => some 0
  | _ => none

/-- A record's payload: 64 bytes, unused bytes zero (R546). -/
def payload64 (p : List Byte) : List Byte := (p ++ List.replicate 64 0).take 64

/-- Whether a state record would create a key beyond 2,048 live ones, those queued included (R548). -/
def recOverflows (k : Dbk) (type : Nat) (p : List Byte) : Bool :=
  match recKey type p with
  | none => false
  | some key =>
    let live := k.keys.map fun x => (x.1, x.2.1)
    let queued := (k.queue.filterMap fun r => (recKey r.type r.payload).map (r.type, ·)).filter (!live.contains ·)
    let all := live ++ queued.eraseDups
    !all.contains (type, key) && decide (2048 ≤ all.length)

/-- A record handed to the Daybook engine (R549, R551): whether the queue accepts it, and the chip after. -/
def queueRec (m : Mgt) (die type : Nat) (payload : List Byte) (c : Chip) : Bool × Chip :=
  let p := payload64 payload
  let k := c.dbk
  let full := recOverflows k type p
  let room := decide (k.queue.length < if recKeep type then 256 else 192)
  if k.mode ≠ 2 ∧ !k.flushed ∧ room ∧ !full then
    let r : Rec := ⟨type, false, BitVec.ofNat 48 (m.counter die).toNat, decide (die = 1), c.run.step, p⟩
    (true, { c with dbk := { k with queue := k.queue ++ [r] } })
  else
    let c := if full then { c with dbk := { k with stateFull := true } } else c
    let c := raiseIf (ctrWraps c.dbk.lost 1) .dbk 6 c
    let c := { c with dbk := { c.dbk with lost := ctrAdd c.dbk.lost 1 } }
    (false, raise .dbk 2 c)

/-- A record whose loss changes nothing else (R551). -/
def journal (m : Mgt) (die type : Nat) (payload : List Byte) (c : Chip) : Chip := (queueRec m die type payload c).2

/-! ### Addresses (R339 to R341) -/

def hbmTop : Nat := 0x4800000000
def windowBase : Nat := 0x800000000000
def sramBase : Nat := 0xF00000000000
/-- An address that names nothing. -/
def nowhere : Nat := 2 ^ 48

def fold8 (g : Nat) : Nat := (g ^^^ (g >>> 8) ^^^ (g >>> 16)) % 256

def fold5 (t : Nat) : Nat := (t ^^^ (t >>> 5) ^^^ (t >>> 10) ^^^ (t >>> 15) ^^^ (t >>> 20)) % 32

/-- Pseudo-channel of a cell named by its interleaved address (R340). -/
def pcOf (a : Nat) : Nat := (a >>> 8) % 256 ^^^ fold8 (a >>> 16)

/-- The interleaved address of byte `b` of stack `s`'s local view (R340). -/
def localToGlobal (s b : Nat) : Nat :=
  let u := b >>> 8
  let t := u >>> 5
  let p := 32 * s + ((u % 32) ^^^ fold5 t)
  (t <<< 16) + ((p ^^^ fold8 t) <<< 8) + b % 256

/-- The stack-local address of a cell named by its interleaved address (R340). -/
def globalToLocal (a : Nat) : Nat :=
  let t := a >>> 16
  let p := pcOf a
  0x400000000000 + (p / 32) * 0x1000000000 + (t <<< 13) + (((p % 32) ^^^ fold5 t) <<< 8) + a % 256

/-- The cell of an address, by its interleaved or tile SRAM address; none where the map lists nothing (R339). -/
def canon (a : Nat) : Option Nat :=
  if a < hbmTop then some a
  else if 0x400000000000 ≤ a ∧ a < 0x408000000000 then
    let s := (a - 0x400000000000) / 0x1000000000
    let b := (a - 0x400000000000) % 0x1000000000
    if b < 0x900000000 then some (localToGlobal s b) else none
  else if sramBase ≤ a ∧ a < sramBase + 0x18000000 then some a
  else none

/-- Whether an address lies beyond the module, in the outbound window (R485). -/
def isOuter (a : Nat) : Bool := decide (0xC00000000000 ≤ a) && decide (a < 0xD00000000000)

/-- End of the generation window's range (R339: at most 144 GiB). -/
def windowEnd : Nat := windowBase + 0x2400000000

/-- Whether an address lies in the range of the generation window (R258, R339). -/
def inWindow (a : Nat) : Bool := decide (windowBase ≤ a) && decide (a < windowEnd)

/-- The range of the map an address lies in, for accesses that must not straddle two. -/
def regionOf (a : Nat) : Nat :=
  if a < hbmTop then 1
  else if 0x400000000000 ≤ a ∧ a < 0x408000000000 then 2 + (a - 0x400000000000) / 0x1000000000
  else if sramBase ≤ a ∧ a < sramBase + 0x18000000 then 10
  else if isOuter a then 16 + (a >>> 40) % 16
  else 0

/-- Whether an aperture entry lets an access of `n` bytes through (R485); no UIO as a PCIe endpoint (R477). -/
def apertureLets (c : Chip) (a n : Nat) (write : Bool) : Bool :=
  let e := fget Aper.reset c.cxl.apers ((a >>> 40) % 16)
  let o := a % 2 ^ 40
  e.base.getLsbD 0 && e.base.getLsbD (if write then 2 else 1) && decide (o + n ≤ e.size.toNat) &&
    decide (c.cxl.link ≠ some .pcie)

/-- Whether an access to [a, a + n) may be made at all. -/
def accessible (c : Chip) (a n : Nat) (write : Bool) : Bool :=
  if n = 0 then true
  else if isOuter a then apertureLets c a n write
  else (canon a).isSome && (canon (a + n - 1)).isSome && decide (regionOf a = regionOf (a + n - 1))

/-- Whether [a, a + n) lies in HBM, through one of its views (R339). -/
def hbmSpan (a n : Nat) : Bool :=
  let z := a + max n 1 - 1
  (canon a).any (fun k => decide (k < hbmTop)) && (canon z).any (fun k => decide (k < hbmTop)) &&
    decide (regionOf a = regionOf z)

/-! ### Bytes -/

/-- A byte of a cell. -/
def cellByte (c : Chip) (k : Nat) : Byte := fget 0 c.mem k

/-- The byte an on-module address reads as; zero where there is none. -/
def readByte (c : Chip) (a : Nat) : Byte :=
  match canon a with
  | some k => cellByte c k
  | none => 0

/-- `n` bytes from an on-module address. -/
def readBytes (c : Chip) (a n : Nat) : List Byte := (List.range n).map fun i => readByte c (a + i)

/-- A little-endian number of `n` bytes from an on-module address. -/
def readNat (c : Chip) (a n : Nat) : Nat := ofBytes (readBytes c a n)

/-- Writes one byte where the address has a cell. -/
def writeByte (a : Nat) (v : Byte) (c : Chip) : Chip :=
  match canon a with
  | some k => { c with mem := fset 0 c.mem k v }
  | none => c

/-- Writes consecutive bytes. -/
def writeBytes (a : Nat) : List Byte → Chip → Chip
  | [], c => c
  | v :: r, c => writeBytes (a + 1) r (writeByte a v c)

/-! ### Poison and seals (R345, R346, R350 to R352) -/

/-- Whether the 16-byte word of an on-module address is poisoned. -/
def poisonedAt (c : Chip) (a : Nat) : Bool :=
  match canon a with
  | some k => fget false c.poison (k / 16)
  | none => false

/-- Sets or clears the poison of the word of a cell, which is written whole: no flipped bit is left in it. -/
def setPoison (a : Nat) (v : Bool) (c : Chip) : Chip :=
  match canon a with
  | some k => { c with poison := fset false c.poison (k / 16) v, upsets := fset [] c.upsets (k / 16) [] }
  | none => c

/-- First addresses of the 16-byte words that [a, a + n) touches. -/
def wordsIn (a n : Nat) : List Nat :=
  if n = 0 then [] else (span (a / 16) ((a + n - 1) / 16 + 1)).map (16 * ·)

/-- The first poisoned word of a range. -/
def firstPoison (c : Chip) (a n : Nat) : Option Nat := (wordsIn a n).find? (poisonedAt c)

/-- Makes the row of a cell a repair candidate (R362). -/
def addCandidate (k : Nat) (c : Chip) : Chip :=
  let r := (pcOf k, Config.rowOfSlot (k >>> 16))
  if c.hbm.candidates.contains r then c else { c with hbm := { c.hbm with candidates := c.hbm.candidates ++ [r] } }

/-- A corrected word: its cell is written back, and the correction counts for the pseudo-channel and for the row, which
becomes a repair candidate from ce_threshold on (R344, R362). -/
def correctWord (k : Nat) (c : Chip) : Chip :=
  let p := pcOf k
  let row := Config.rowOfSlot (k >>> 16)
  let n := fget 0 c.hbm.pcCe p
  let c := raiseIf (ctrWraps n 1) .hbm 7 c
  let key := row * 256 + p
  let r := fget 0 c.hbm.rowCe key + 1
  let c := { c with hbm := { c.hbm with
    pcCe := fset 0 c.hbm.pcCe p (ctrAdd n 1)
    rowCe := fset 0 c.hbm.rowCe key r } }
  if c.hbm.ceThreshold.toNat ≠ 0 ∧ c.hbm.ceThreshold.toNat ≤ r ∧ !c.hbm.candidates.contains (p, row) then
    raise .hbm 0 (addCandidate k c)
  else c

/-- What the code makes of flipped bits (R343): bits of one symbol are corrected, two bits in two symbols are detected, and
of any other pattern nothing is guaranteed. -/
inductive Ecc where
  | clean | corrected | uncorrectable | unknown
  deriving DecidableEq, Repr

def eccOf (bits : List Nat) : Ecc :=
  match (bits.map (· / 8)).eraseDups with
  | [] => .clean
  | [_] => .corrected
  | _ => if bits.length = 2 then .uncorrectable else .unknown

/-- A read corrects the flipped bits of the words of [a, a + n), and counts each word (R344). -/
def meet (a n : Nat) (c : Chip) : Chip :=
  if c.upsets = [] then c else
  (wordsIn a n).foldl (fun c w =>
    match canon w with
    | some k =>
      if fget [] c.upsets (k / 16) = [] then c
      else correctWord (k / 16 * 16) { c with upsets := fset [] c.upsets (k / 16) [] }
    | none => c) c

/-- Records an access that met an uncorrectable or poisoned HBM word (R346). -/
def recordUe (a : Nat) (c : Chip) : Chip :=
  match canon a with
  | none => c
  | some k =>
    if hbmTop ≤ k then c else
    let p := pcOf k
    let n := fget 0 c.hbm.pcUe p
    let c := raiseIf (ctrWraps n 1) .hbm 7 c
    let c := { c with hbm := { c.hbm with
      pcUe := fset 0 c.hbm.pcUe p (ctrAdd n 1)
      ueAddr := BitVec.ofNat 64 (2 ^ 63 + k / 16 * 16) } }
    raise .hbm 1 (addCandidate k c)

/-- The valid seal of the block whose first byte has this address (R350). -/
def sealAt (c : Chip) (a : Nat) : Option W32 :=
  match canon a with
  | some k => fget none c.seals (k / 256)
  | none => none

/-- Writes a block's seal into the slot of its first granule, in HBM or tile SRAM (R343, R350, R528, R529). -/
def setSeal (a : Nat) (v : Option W32) (c : Chip) : Chip :=
  match canon a with
  | some k => { c with seals := fset none c.seals (k / 256) v }
  | none => c

/-- Records a seal mismatch (R352). -/
def recordMismatch (tid block : Nat) (c : Chip) : Chip :=
  let c := raiseIf (ctrWraps c.hbm.sealCount 1) .hbm 7 c
  let c := { c with hbm := { c.hbm with
    sealCount := ctrAdd c.hbm.sealCount 1
    sealLast := BitVec.ofNat 64 (block <<< 32 ||| tid % 2 ^ 32) } }
  raise .hbm 2 c

/-! ### Tensor references (R389) -/

/-- A tensor reference; `format` and `layout` hold the codes. -/
structure TRef where
  addr : Nat
  ext : Nat
  format : Nat
  layout : Nat
  policy : Nat
  tid : Nat
  deriving DecidableEq, Repr

/-- The reference at byte `o` of a descriptor. -/
def tref {n : Nat} (d : BitVec n) (o : Nat) : TRef :=
  ⟨byt d o 8, byt d (o + 8) 8, fld d (o + 16) 0 6, byt d (o + 17) 1, fld d (o + 18) 0 2, byt d (o + 20) 4⟩

/-- A reference whose 32 bytes are all zero is absent (R389). -/
def trefAbsent {n : Nat} (d : BitVec n) (o : Nat) : Bool := decide (byt d o 32 = 0)

/-- A plain range of memory, without a seal. -/
def TRef.plain (a n : Nat) : TRef := ⟨a, n, 0, 0, 0, 0⟩

/-- Whether a reference's blocks carry seals here: policy Full or Seal-only, in HBM or tile SRAM (R349, R529; log entry 10). -/
def TRef.sealed (r : TRef) (phys : Nat) : Bool :=
  (r.policy = 1 || r.policy = 2) && (canon phys).isSome

/-! ### Entries: armed descriptors -/

def entryOf (c : Chip) (id : Nat) : Option Entry := c.ory.entries.find? fun e => e.id = id

def setEntry (e : Entry) (c : Chip) : Chip :=
  { c with ory := { c.ory with entries := c.ory.entries.map fun x => if x.id = e.id then e else x } }

/-- The entry as the chip holds it now. -/
def curEntry (c : Chip) (e : Entry) : Entry := (entryOf c e.id).getD e

/-- Ends an operation with a status; it retires later (R397). -/
def finish (e : Entry) (st : Nat) (c : Chip) : Chip :=
  setEntry { curEntry c e with phase := .done, status := st, asked := false } c

/-- Class and opcode of a descriptor (R384). -/
def dClass (d : Desc) : Nat := byt d 1 1
def dOpcode (d : Desc) : Nat := byt d 2 1
def dId (d : Desc) : Nat := byt d 4 4
def dStream (d : Desc) : Nat := byt d 12 1
def dSc (d : Desc) : Nat := byt d 13 1

/-- The started entry `id` of a class and opcode, with nothing outstanding that it waits for. -/
def running (c : Chip) (id cls op : Nat) : Option Entry :=
  (entryOf c id).filter fun e =>
    decide (e.phase = .started) && decide (dClass e.desc = cls) && decide (dOpcode e.desc = op)

/-- Runs a command of a descriptor; any other state has no such event (log entry 11). -/
def onRunning (cls op id : Nat) (f : Mgt → Entry → Chip → Chip) (s : State) : Host.Outcome State Fault Refusal :=
  onChip (fun m c =>
    match running c id cls op with
    | some e => f m e c
    | none => c) s

/-! ### Accesses of a commit unit -/

/-- Fixes the generation window of an operation at its first access (R259). -/
def bindWindow (c : Chip) (e : Entry) : Entry :=
  if e.win.isSome || c.run.recAddr.isNone then e else { e with win := some (c.run.active, c.run.cfg) }

/-- The address behind a window address: active for reads, inactive for Update writes (R258). -/
def phys (e : Entry) (inactive : Bool) (a : Nat) : Nat :=
  if !inWindow a then a else
  match e.win with
  | some (b, r) =>
    let o := a - windowBase
    if o < byt r 24 8 then byt r (if b != inactive then 16 else 8) 8 + o else nowhere
  | none => nowhere

/-- Whether [a, a + n) stays within the generation where `a` is a window address (R259). -/
def windowHolds (e : Entry) (a n : Nat) : Bool :=
  !inWindow a || e.win.any fun w => decide (a - windowBase + n ≤ byt w.2 24 8)

/-- One range of a reference that a unit reads or writes. -/
structure Acc where
  ref : TRef
  off : Nat
  len : Nat
  write : Bool
  inactive : Bool
  again : Bool              -- read again even where tile SRAM holds a copy
  deriving DecidableEq, Repr

def Acc.rd (r : TRef) (off len : Nat) : Acc := ⟨r, off, len, false, false, false⟩
def Acc.wr (r : TRef) (off len : Nat) : Acc := ⟨r, off, len, true, false, false⟩

def Acc.at (a : Acc) (e : Entry) : Nat := phys e a.inactive (a.ref.addr + a.off)

/-- A write through the generation window that is not an Update's (R259), or an access that leaves the generation. -/
def Acc.barred (a : Acc) (e : Entry) : Bool :=
  (a.write && !a.inactive && inWindow (a.ref.addr + a.off)) || !windowHolds e (a.ref.addr + a.off) a.len

/-- The byte at an address: from the operation's external bytes, or from memory (R258, R485). -/
def peekMem (c : Chip) (e : Entry) (a : Nat) : Byte :=
  let p := phys e false a
  if isOuter p then ((e.ext.find? fun x => x.1 = p).map (·.2)).getD 0 else readByte c p

/-- The bytes that an operation's tile SRAM holds from an address on; none where it holds no copy. -/
def heldFrom (e : Entry) (p : Nat) : Option (List Byte) :=
  (e.held.find? fun h => decide (h.1 ≤ p) && decide (p < h.1 + h.2.length)).map fun h => h.2.drop (p - h.1)

/-- The byte an operation reads at an address: the copy that its tile SRAM holds, or the byte at the address. -/
def peek (c : Chip) (e : Entry) (a : Nat) : Byte :=
  match heldFrom e (phys e false a) with
  | some l => l.headD 0
  | none => peekMem c e a

def peekN (c : Chip) (e : Entry) (a n : Nat) : List Byte := (List.range n).map fun i => peek c e (a + i)

def peekNat (c : Chip) (e : Entry) (a n : Nat) : Nat := ofBytes (peekN c e a n)

/-- Seal blocks of a reference that a range touches. -/
def blocksOf (off len : Nat) : List Nat := if len = 0 then [] else span (off / 4096) ((off + len - 1) / 4096 + 1)

/-- Length of block `b` of a reference: the last one ends at the extent (R348). -/
def blockLen (r : TRef) (b : Nat) : Nat := min 4096 (r.ext - 4096 * b)

/-- What a check before a commit unit finds. -/
inductive Pre where
  /-- The unit may run. -/
  | go (c : Chip)
  /-- It ends the operation with a status. -/
  | stop (st : Nat) (c : Chip)
  /-- It waits for the host or the link. -/
  | wait (c : Chip)
  deriving DecidableEq, Repr

def Pre.andThen (p : Pre) (f : Chip → Pre) : Pre :=
  match p with
  | .go c => f c
  | x => x

/-- Lines of the snoop filter that a range touches through either view (R493). -/
def trackedIn (c : Chip) (a n : Nat) : List Nat :=
  c.cxl.filter.filter fun l =>
    (decide (l < a + n) && decide (a < l + 64)) ||
    (decide (globalToLocal l < a + n) && decide (a < globalToLocal l + 64))

/-- Sends the back-invalidate snoops of lines not yet snooped (R493). -/
def sendSnoops (ls : List Nat) (c : Chip) : Chip :=
  ls.foldl (fun c l =>
    if c.cxl.snoops.contains l then c
    else emit (.snoop l) { c with cxl := { c.cxl with snoops := c.cxl.snoops ++ [l] } }) c

/-- Issues a UIO access for an entry (R496). -/
def sendUio (e : Entry) (a n : Nat) (read : Bool) (data : List Byte) (c : Chip) : Chip :=
  let t := c.cxl.nextTag
  let c := { c with cxl := { c.cxl with nextTag := t + 1, uios := c.cxl.uios ++ [⟨t, e.id, a, n, read⟩] } }
  emit (if read then .uioRead t a n else .uioWrite t a data) c

/-- Whether bytes from outside the module are still missing. -/
def extMissing (e : Entry) (a n : Nat) : Bool :=
  (List.range n).any fun i => !(e.ext.any fun x => x.1 = a + i)

/-- Whether a read of a tile SRAM word is one by the array, the accumulator or the vector unit: an uncorrectable word is then
a fault of the tile (R107), and the unit waits until TILE_UNCORRECTABLE deals with it (R527). -/
def tileReads (e : Entry) (w : Nat) : Bool :=
  [1, 2, 3, 8, 9].contains (dClass e.desc) && (canon w).any fun k => decide (hbmTop ≤ k)

/-- What an access that meets a poisoned word comes to (R107, R346). -/
def metPoison (e : Entry) (w : Nat) (c : Chip) : Pre := if tileReads e w then .wait c else .stop 0x0B (recordUe w c)

/-- Checks one block that a Full reader touches: poison before the seal (R346, R352). -/
def checkBlock (e : Entry) (x : Acc) (b : Nat) (c : Chip) : Pre :=
  let a := phys e x.inactive (x.ref.addr + 4096 * b)
  let n := blockLen x.ref b
  match firstPoison c a n with
  | some w => .stop 0x0B (recordUe w c)
  | none =>
    if sealAt c a = some (sealOf x.ref.tid b (readBytes c a n)) then .go c
    else .stop 0x07 (recordMismatch x.ref.tid b c)

/-- Checks one read: each touched block whole under Full, else each touched word (R345, R346, R352). -/
def checkRead (e : Entry) (x : Acc) (c : Chip) : Pre :=
  let a := x.at e
  if isOuter a then .go c
  else if x.ref.policy = 1 && x.ref.sealed a then
    (blocksOf x.off x.len).foldl (fun p b => p.andThen (checkBlock e x b)) (.go c)
  else
    match firstPoison c a x.len with
    | some w => metPoison e w c
    | none => .go c

/-- First words that [a, a + n) covers only in part. -/
def partWords (a n : Nat) : List Nat := (wordsIn a n).filter fun w => decide (w < a) || decide (a + n < w + 16)

/-- Checks one write: a partly written poisoned word is refused (R345). -/
def checkWrite (e : Entry) (x : Acc) (c : Chip) : Pre :=
  let a := x.at e
  if isOuter a then .go c else
  match (partWords a x.len).find? (poisonedAt c) with
  | some w => .stop 0x0B (recordUe w c)
  | none => .go c

/-- Checks the merge of a block that an operation writes in part (R351): the rest of the block, which the unit's writes
`ws` leave, is read, and its seal is checked under Full. -/
def checkMerge (e : Entry) (ws : List Acc) (x : Acc) (b : Nat) (c : Chip) : Pre :=
  let a := phys e x.inactive (x.ref.addr + 4096 * b)
  let n := blockLen x.ref b
  let rest := (wordsIn a n).filter fun w =>
    !(ws.any fun y => decide (y.at e ≤ w) && decide (w + 16 ≤ y.at e + y.len))
  match rest.find? (poisonedAt c) with
  | some w => .stop 0x0B (recordUe w c)
  | none =>
    if x.ref.policy = 1 && sealAt c a ≠ some (sealOf x.ref.tid b (readBytes c a n))
    then .stop 0x07 (recordMismatch x.ref.tid b c) else .go c

/-- Whether a read's bytes are all held in tile SRAM, so that it makes no access. -/
def Acc.fetched (e : Entry) (x : Acc) : Bool :=
  !x.write && !x.again && (heldFrom e (x.at e)).any fun l => decide (x.len ≤ l.length)

/-- The ranges that an access reads: a Full reader whole blocks; a write the words and the sealed blocks that it covers in
part. -/
def Acc.reach (e : Entry) (part : TRef → Nat → Bool) (x : Acc) : List (Nat × Nat) :=
  let a := x.at e
  let block (b : Nat) : Nat × Nat := (phys e x.inactive (x.ref.addr + 4096 * b), blockLen x.ref b)
  if isOuter a then []
  else if x.write then
    (partWords a x.len).map (·, 16) ++
      (if x.ref.sealed a then ((blocksOf x.off x.len).filter (part x.ref)).map block else [])
  else if x.ref.policy = 1 && x.ref.sealed a then (blocksOf x.off x.len).map block
  else [(a, x.len)]

/-- Everything checked before a commit unit: addresses, host lines, external bytes, then reads and writes in order.
`part` says which blocks the operation writes only in part. -/
def prepare (e0 : Entry) (xs0 : List Acc) (part : TRef → Nat → Bool) (c : Chip) : Pre :=
  let e := bindWindow c e0
  let c := setEntry e c
  let xs := xs0.filter (!·.fetched e)
  if xs.any fun x => !accessible c (x.at e) x.len x.write || x.barred e then .stop 0x0E c else
  let lines := (xs.filter fun x => !isOuter (x.at e)).flatMap fun x => trackedIn c (x.at e) x.len
  if lines ≠ [] then .wait (sendSnoops lines c) else
  let outer := xs.filter fun x => !x.write && isOuter (x.at e) && extMissing e (x.at e) x.len
  if outer ≠ [] then
    if e.asked then .wait c
    else .wait (outer.foldl (fun c x => sendUio e (x.at e) x.len true [] c) (setEntry { e with asked := true } c))
  else
  let c := (xs.flatMap (·.reach e part)).foldl (fun c r => meet r.1 r.2 c) c
  let reads := (xs.filter fun x => !x.write).foldl (fun p x => p.andThen (checkRead e x)) (.go c)
  let ws := xs.filter (·.write)
  ws.foldl (fun p x =>
    let p := p.andThen (checkWrite e x)
    if x.ref.sealed (x.at e) then
      (blocksOf x.off x.len).foldl (fun p b =>
        if part x.ref b then p.andThen (checkMerge e ws x b) else p) p
    else p) reads

/-- The copies that some reads bring into tile SRAM, but for those it already holds. -/
def copies (c : Chip) (e : Entry) (xs : List Acc) : List (Nat × List Byte) :=
  (xs.filter fun x => !x.write && !x.fetched e).map fun x =>
    (x.at e, (List.range x.len).map fun i => peekMem c e (x.ref.addr + x.off + i))

/-- An entry that holds them. -/
def holdReads (c : Chip) (e : Entry) (xs : List Acc) : Entry := { e with held := e.held ++ copies c e xs }

/-- One write of a commit. -/
structure Wr where
  ref : TRef
  off : Nat
  data : List Byte
  inactive : Bool
  deriving DecidableEq, Repr

/-- Applies one write: memory, and the poison of words that it covers whole (R345); or a UIO write (R496). -/
def applyWrite (e : Entry) (w : Wr) (c : Chip) : Chip :=
  let a := phys e w.inactive (w.ref.addr + w.off)
  if isOuter a then sendUio e a w.data.length false w.data c else
  let c := writeBytes a w.data c
  ((wordsIn a w.data.length).filter fun x => decide (a ≤ x) && decide (x + 16 ≤ a + w.data.length)).foldl
    (fun c x => setPoison x false c) c

/-- Seals one block from its bytes as they now are (R348). -/
def sealBlock (e : Entry) (r : TRef) (inactive : Bool) (b : Nat) (c : Chip) : Chip :=
  let a := phys e inactive (r.addr + 4096 * b)
  setSeal a (some (sealOf r.tid b (readBytes c a (blockLen r b)))) c

/-- One commit (R126): every write, then the seals of the blocks that no later commit of the operation touches
(R351); `hold` names the blocks whose seal waits. -/
def commit (e : Entry) (ws : List Wr) (hold : TRef → Nat → Bool) (c : Chip) : Chip :=
  let c := ws.foldl (fun c w => applyWrite e w c) c
  ws.foldl (fun c w =>
    if w.ref.sealed (phys e w.inactive (w.ref.addr + w.off)) then
      (blocksOf w.off w.data.length).foldl (fun c b => if hold w.ref b then c else sealBlock e w.ref w.inactive b c) c
    else c) c

/-- How far ranges (offset, length) cover without a gap from `p` on, each extending it at most once a round. -/
def coveredTo (rs : List (Nat × Nat)) : Nat → Nat → Nat
  | 0, p => p
  | n + 1, p => coveredTo rs n (rs.foldl (fun p x => if x.1 ≤ p then max p (x.1 + x.2) else p) p)

/-- Whether the ranges that an operation writes cover block `b` whole, together. -/
def coversBlock (ranges : List (TRef × Nat × Nat)) (r : TRef) (b : Nat) : Bool :=
  let rs := (ranges.filter fun x => decide (x.1 = r)).map (·.2)
  decide (4096 * b + blockLen r b ≤ coveredTo rs rs.length (4096 * b))

/-- Whether one of the ranges touches block `b`. -/
def touchesBlock (ranges : List (TRef × Nat × Nat)) (r : TRef) (b : Nat) : Bool :=
  ranges.any fun (q, o, n) => decide (q = r) && decide (0 < n) && decide (o < 4096 * b + blockLen r b) &&
    decide (4096 * b < o + n)

/-- A commit that is the whole of its operation: nothing waits. -/
def commitAll (e : Entry) (ws : List Wr) (c : Chip) : Chip := commit e ws (fun _ _ => false) c

/-- Runs one unit: its checks, then its effect on success, or the operation's end. -/
def unit (e : Entry) (xs : List Acc) (part : TRef → Nat → Bool) (f : Entry → Chip → Chip) (c : Chip) : Chip :=
  match prepare e xs part c with
  | .go c => f (curEntry c e) c
  | .stop st c => finish e st c
  | .wait c => c

end Sys2Proof.Machine
end

