-- ==== Sys2Proof/Machine/Operands.lean ====
section
/-! DEFINITION. Operand forms: tensor elements and spans (R38, R39, R390, R391), per-tensor scales (R58 to R66, R262), and
what a write of results does beside its bytes: conversion, marks, saturations, amax and silent counts. -/

namespace Sys2Proof.Machine

/-! ### Layouts and spans -/

/-- Storage index of element (r, c) of a rows × cols matrix (R390); a planar tensor of `cols` channels over `rows` positions
is the column-major matrix (R148; log entry 75). -/
def storeIdx (layout rows cols r c : Nat) : Nat :=
  if layout = 1 ∨ 3 ≤ layout then c * rows + r
  else if layout = 2 then
    (c / 128 * (rows / 128) + r / 128) * 16384 + r % 128 * 128 + c % 128
  else r * cols + c

/-- Elements along the innermost dimension of a layout (R38). -/
def innermost (layout rows cols : Nat) : Nat := if layout = 1 ∨ 3 ≤ layout then rows else if layout = 2 then 128 else cols

/-- Bytes that `n` elements of a format take, with their scale array (R39). -/
def spanOf (f : Format) (n : Nat) : Nat :=
  if f.block then alignUp (cdiv (n * f.bits) 8) 256 + cdiv n 32 else cdiv (n * f.bits) 8

/-- Offset of the scale byte of the block of element `i` (R39). -/
def scaleOff (f : Format) (n i : Nat) : Nat := alignUp (cdiv (n * f.bits) 8) 256 + i / 32

/-- The format of a reference; none for a reserved code (R36). -/
def TRef.fmt (r : TRef) : Option Format := Format.ofCode r.format

/-- Runs of consecutive numbers in a list: first and length. -/
def runsOf : List Nat → List (Nat × Nat)
  | [] => []
  | i :: r =>
    match runsOf r with
    | (j, n) :: q => if j = i + 1 then (i, n + 1) :: q else (i, 1) :: (j, n) :: q
    | [] => [(i, 1)]

/-- Byte ranges of elements: their run in the element array and, for block formats, in the scale array. -/
def elemRanges (f : Format) (n : Nat) (idx : List Nat) : List (Nat × Nat) :=
  let el := (runsOf idx).map fun (i, k) =>
    let lo := i * f.bits / 8
    (lo, cdiv ((i + k) * f.bits) 8 - lo)
  if f.block then
    el ++ (runsOf ((idx.map (· / 32)).eraseDups)).map fun (b, k) => (scaleOff f n (32 * b), k)
  else el

/-! ### Sources -/

/-- A source as an operation reads it: reference, format, elements in all, and the exponent of its scale. -/
structure Src where
  ref : TRef
  f : Format
  n : Nat
  k : Int
  base : Nat := 0           -- byte offset of the tensor from the reference's address
  deriving DecidableEq, Repr

/-- Address of a tensor's copy-exponent entry (R261). -/
def expEntry (cfg : Desc) (tid : Nat) : Nat := byt cfg 48 8 + 8 * (tid % 65536)

/-- Address of a tensor's scale-history record (R59). -/
def historyRec (cfg : Desc) (tid : Nat) : Nat := byt cfg 40 8 + 128 * (tid % 65536)

/-- The scale state of a tensor in this step; another identifier at its index counts as a lost record (R60). -/
def scaleState (c : Chip) (tid : Nat) : Scale :=
  let s := fget Scale.reset c.run.scales (tid % 65536)
  if s.tensor.toNat = tid then s else { Scale.reset with tensor := .ofNat 32 tid }

/-- Whether a reference reads a per-tensor-scaled copy through the window (R262). -/
def isCopy (r : TRef) : Bool := (r.format = 3 || r.format = 4) && inWindow r.addr

/-- The exponent that a read of the tensor removes (R61, R66, R69, R262). -/
def readScale (c : Chip) (e : Entry) (r : TRef) : Int :=
  if r.format ≠ 3 ∧ r.format ≠ 4 then 0
  else if isCopy r then
    match e.win with
    | some (b, cfg) => sgn 8 (readNat c (expEntry cfg r.tid + (if b then 5 else 4)) 1)
    | none => 0
  else if c.run.recAddr.isNone then 0
  else (scaleState c r.tid).e.getD 0

/-- The accesses to the copy-exponent table that a read of this reference makes. -/
def scaleAccs (c : Chip) (e : Entry) (r : TRef) : List Acc :=
  match (bindWindow c e).win with
  | some (_, cfg) => if isCopy r then [.rd (.plain (expEntry cfg r.tid) 8) 0 8] else []
  | none => []

/-- Whether a copy's table entry holds another identifier: the operation ends with FORMAT (R262). A poisoned entry is met by
the read of it (R647). -/
def scaleMismatch (c : Chip) (e : Entry) (r : TRef) : Bool :=
  match (bindWindow c e).win with
  | some (_, cfg) => isCopy r && readNat c (expEntry cfg r.tid) 4 != r.tid && (firstPoison c (expEntry cfg r.tid) 8).isNone
  | none => false

/-- A source of `n` elements. -/
def mkSrc (c : Chip) (e : Entry) (r : TRef) (n : Nat) : Src :=
  ⟨r, (Format.ofCode r.format).getD .fp32, n, readScale c e r, 0⟩

/-- The stored bits of an element. -/
def Src.bits (s : Src) (c : Chip) (e : Entry) (i : Nat) : Nat :=
  let bo := i * s.f.bits
  bitsOf (peekNat c e (s.ref.addr + s.base + bo / 8) (cdiv (bo % 8 + s.f.bits) 8)) (bo % 8) s.f.bits

/-- The scale code of an element's block. -/
def Src.code (s : Src) (c : Chip) (e : Entry) (i : Nat) : Nat := (peek c e (s.ref.addr + s.base + scaleOff s.f s.n i)).toNat

/-- The element as stored: its scale, where it is per tensor, not removed. -/
def Src.raw (s : Src) (c : Chip) (e : Entry) (i : Nat) : FVal :=
  if s.f.block then decodeBlockElem s.f (s.code c e i) (s.bits c e i) else decodeElem s.f (s.bits c e i)

/-- val of the reference order: the decoded value, its scale removed (R62, R74). -/
def Src.val (s : Src) (c : Chip) (e : Entry) (i : Nat) : FVal := (s.raw c e i).scale (-s.k)

/-- The accesses that reading the elements makes. -/
def Src.accs (s : Src) (c : Chip) (e : Entry) (idx : List Nat) : List Acc :=
  scaleAccs c e s.ref ++ (elemRanges s.f s.n idx).map fun (o, n) => .rd s.ref (s.base + o) n

/-! ### Marks, saturations, silent counts (R54, R97, R98) -/

/-- Units that ASY_NF_FIRST names (R102). -/
inductive NfUnit where
  | array | vector | attention | clearing | conversion
  deriving DecidableEq, Repr

def NfUnit.code : NfUnit → Nat
  | .array => 0 | .vector => 1 | .attention => 2 | .clearing => 3 | .conversion => 4

/-- A mark of an operation: counted once for its descriptor, and recorded when it is the step's first (R97). -/
def mark (e : Entry) (u : NfUnit) (tid die : Nat) (c : Chip) : Chip :=
  let e := curEntry c e
  if e.marked then c else
  let c := setEntry { e with marked := true } c
  let a := c.asy
  let a := { a with nfCount := if a.nfCount = BitVec.allOnes 32 then a.nfCount else a.nfCount + 1 }
  let a := if a.nfSet then a else { a with
    nfSet := true
    nfTensor := .ofNat 32 tid
    nfFirst := .ofNat 64 (dClass e.desc <<< 56 ||| u.code <<< 48 ||| (die % 2) <<< 32 ||| dId e.desc) }
  raise .asy 2 { c with asy := a }

def markIf (p : Bool) (e : Entry) (u : NfUnit) (tid die : Nat) (c : Chip) : Chip :=
  if p then mark e u tid die c else c

/-- Updates the slots bound to a tensor (R103); a slot that still holds its reset values binds none (log entry 13). -/
def onSlots (tid : Nat) (f : Slot → Slot) (c : Chip) : Chip :=
  c.asy.slots.foldl (fun c (i, s) =>
    if s.tensor.toNat = tid then
      { c with asy := { c.asy with slots := fset Slot.reset c.asy.slots i (f s) } }
    else c) c

/-- Saturations of a tensor (R54, R103). -/
def addSats (tid n : Nat) (c : Chip) : Chip :=
  if n = 0 then c else
  onSlots tid (fun s => { s with newSats := s.newSats + n }) c

/-- Elements written, for the silent-zero watch (R98). -/
def addSilent (tid n z u : Nat) (c : Chip) : Chip :=
  if c.run.recAddr.isNone || !c.asy.zeroEn || n = 0 then c else
  onSlots tid (fun s => if s.zeroEn then
    { s with nTotal := s.nTotal + n, nZero := s.nZero + z, nUnder := s.nUnder + u } else s) c

/-! ### Writing results -/

/-- What converting the elements of a commit gives. -/
structure WOut where
  bytes : List (Nat × List Byte)
  mark : Bool
  sats : Nat
  zeros : Nat
  unders : Nat
  deriving DecidableEq, Repr

/-- Adjacent byte writes as one. -/
def mergeBytes : List (Nat × List Byte) → List (Nat × List Byte)
  | [] => []
  | (o, b) :: r =>
    match mergeBytes r with
    | (p, d) :: q => if p = o + b.length then (o, b ++ d) :: q else (o, b) :: (p, d) :: q
    | [] => [(o, b)]

/-- Magnitude bits of an element; all zero for an integer zero. -/
def magBits (f : Format) (b : Nat) : Nat := if f.int then b else b % 2 ^ (f.ebits + f.fbits)

/-- Whether an element's bits stand for zero, and whether for a subnormal (R98). -/
def bitsZero (f : Format) (b : Nat) : Bool := magBits f b = 0
def bitsSub (f : Format) (b : Nat) : Bool := !f.int && magBits f b != 0 && magBits f b < 2 ^ f.fbits

/-- Rounding that the conversion control selects for one element (R48, R56). -/
def roundingOf (step : W64) (tid nib logical : Nat) : Rounding :=
  if nib % 4 = 1 then .stochastic (srDraw step tid logical) else .nearest

/-- Elements cut to the blocks that hold them, keyed by block. -/
def byBlock (xs : List (Nat × Nat × FVal)) : List (Nat × List (Nat × Nat × FVal)) :=
  ((xs.map fun x => x.1 / 32).eraseDups).map fun b => (b, xs.filter fun x => x.1 / 32 = b)

/-- Converts the elements (storage index, logical index, value) of one commit to a destination of `n` elements, under
the conversion control `nib` and the per-tensor exponent `k` (R40 to R44, R50 to R57, R62, R639). -/
def convertOut (step : W64) (r : TRef) (f : Format) (n nib : Nat) (k : Int) (xs : List (Nat × Nat × FVal)) : WOut :=
  if f.block then
    let bs : List (Nat × List (Nat × Nat × FVal) × BlockOut) := (byBlock xs).map fun (b, ys) =>
      (b, ys, convBlock f (fun i => roundingOf step r.tid nib (ys.getD i (0, 0, .zero)).2.1) (ys.map fun y => y.2.2))
    let el := bs.map fun (b, _, o) =>
      (b * 4 * f.bits, toBytes (4 * f.bits) ((o.elems.zipIdx).foldl (fun a (v, i) => a ||| v <<< (i * f.bits)) 0))
    let sc := bs.map fun (b, _, o) => (scaleOff f n (32 * b), [BitVec.ofNat 8 o.scale])
    let flat := bs.flatMap fun (_, ys, o) => ys.zip o.elems
    ⟨mergeBytes el ++ mergeBytes sc, bs.any fun x => x.2.2.mark, bs.foldl (fun a x => a + x.2.2.sats) 0,
      (flat.filter fun (_, v) => bitsZero f v).length,
      (flat.filter fun (y, v) => (bitsZero f v || bitsSub f v) && !y.2.2.isZero).length⟩
  else
    let cs := xs.map fun x => (x, convElem f ⟨nib.testBit 2, roundingOf step r.tid nib x.2.1⟩ (x.2.2.scale k))
    ⟨mergeBytes (cs.map fun (x, v) => (x.1 * (f.bits / 8), toBytes (f.bits / 8) v.bits)), cs.any (·.2.mark),
      (cs.filter (·.2.sat)).length, (cs.filter fun (_, v) => bitsZero f v.bits).length,
      (cs.filter fun (x, v) => (bitsZero f v.bits || bitsSub f v.bits) && !x.2.2.isZero).length⟩

/-- Largest |x| of values, NaN excluded, as FP32 (R63). -/
def amaxF32 (xs : List FVal) : W32 :=
  xs.foldl (fun a x => if x.isNan then a else f32max a (rne32 x.abs)) f32zero

/-- floor(log2(fmax ÷ a)) for a positive finite magnitude m × 2^e, where fmax = 7 × 2^t. -/
def floorLogRatio (t : Int) (m : Nat) (e : Int) : Int :=
  let l := t + 2 - topExp m e
  let lo := min (e + l) t
  if shiftTo m (e + l) lo ≤ shiftTo 7 t lo then l else l - 1

/-- The exponent that a_ref gives (R61, R66); `zero` is what a_ref of zero gives. -/
def expOf (code : Nat) (aref : W32) (margin : Nat) (zero : Int) : Int :=
  match f32v aref with
  | .fin _ m e =>
    if m = 0 then zero
    else max (-127) (min 127 (floorLogRatio (if code = 3 then 6 else 13) m e - margin))
  | _ => -127

/-- The exponent that a conversion to code 0x03 or 0x04 uses; under current scaling the first conversion of the step sets
it from its whole source `all` (R61, R66, R69). -/
def writeScale (tid : Nat) (f : Format) (all : Unit → List FVal) (c : Chip) : Int × Chip :=
  if !f.scaled || c.run.recAddr.isNone then (0, c) else
  let s := scaleState c tid
  match s.e with
  | some k => (k, c)
  | none =>
    let k := expOf f.code (amaxF32 (all ())) s.margin 0
    (k, { c with run := { c.run with
      scales := fset Scale.reset c.run.scales (tid % 65536) { s with e := some k, current := true } } })

/-- Keeps the pending amax of a scaled conversion (R63, R64). -/
def keepAmax (tid : Nat) (f : Format) (xs : List FVal) (c : Chip) : Chip :=
  if !f.scaled || c.run.recAddr.isNone then c else
  let s := scaleState c tid
  let s' := { s with converted := true, format := f.code, amax := f32max s.amax (amaxF32 xs) }
  { c with run := { c.run with scales := fset Scale.reset c.run.scales (tid % 65536) s' } }

/-- The writes of converted bytes to a reference. -/
def wrsOf (r : TRef) (bs : List (Nat × List Byte)) : List Wr := bs.map fun (o, d) => ⟨r, o, d, false⟩

/-- Converts results: the writes they make, and the marks, saturations, silent counts and amax of the conversion. `tiny`
counts the results that are zero as FP32 while their exact value is not; FP32 is then the final rounding (R98). -/
def convertFor (e : Entry) (r : TRef) (f : Format) (n nib : Nat) (k : Int) (die : Nat)
    (xs : List (Nat × Nat × FVal)) (c : Chip) (tiny : Nat := 0) : List Wr × Chip :=
  let o := convertOut c.run.step r f n nib k xs
  let c := markIf o.mark e .conversion r.tid die c
  let c := addSats r.tid o.sats c
  let c := addSilent r.tid xs.length o.zeros (o.unders + if f = .fp32 then tiny else 0) c
  (wrsOf r o.bytes, keepAmax r.tid f (xs.map (·.2.2)) c)

/-- Converts and commits results. -/
def commitValues (e : Entry) (r : TRef) (f : Format) (n nib : Nat) (k : Int) (die : Nat)
    (xs : List (Nat × Nat × FVal)) (hold : TRef → Nat → Bool) (c : Chip) (tiny : Nat := 0) : Chip :=
  let (ws, c) := convertFor e r f n nib k die xs c tiny
  commit (curEntry c e) ws hold c

/-- The writes of FP32 values as computed, with no conversion control (R640), and their silent counts; `tiny` as for
`convertFor`. -/
def f32For (r : TRef) (xs : List (Nat × W32)) (c : Chip) (tiny : Nat := 0) : List Wr × Chip :=
  let z := (xs.filter fun x => f32isZero x.2).length
  let u := (xs.filter fun x => bitsSub .fp32 x.2.toNat).length
  (wrsOf r (mergeBytes (xs.map fun (i, v) => (4 * i, toBytes 4 v.toNat))), addSilent r.tid xs.length z (u + tiny) c)

/-- Commits FP32 values as computed, with no conversion control (R640). -/
def commitF32 (e : Entry) (r : TRef) (xs : List (Nat × W32)) (hold : TRef → Nat → Bool) (c : Chip) (tiny : Nat := 0) : Chip :=
  let (ws, c) := f32For r xs c tiny
  commit (curEntry c e) ws hold c

/-- The elements that fit an extent of a format. -/
def elemsIn (f : Format) (ext : Nat) : Nat :=
  if f.block then
    let most := ext / (4 * f.bits + 1)
    ((List.range 257).find? fun k => decide (spanOf f (32 * (most - k)) ≤ ext)).elim 0 fun k => 32 * (most - k)
  else 8 * ext / f.bits

/-- Silent counts of a tensor whose bytes [off, off + data.length) an operation moves as they are (R98): an element
counts with its last byte. -/
def countMoved (e : Entry) (r : TRef) (off : Nat) (data : List Byte) (c : Chip) : Chip :=
  match r.fmt with
  | none => c
  | some f =>
    let n := elemsIn f r.ext
    let byte (j : Nat) : Byte := if off ≤ j then data.getD (j - off) 0 else peekMem c e (r.addr + j)
    let at' (i : Nat) : Nat :=
      let lo := i * f.bits / 8
      bitsOf (ofBytes ((List.range (cdiv (i * f.bits % 8 + f.bits) 8)).map fun k => byte (lo + k))) (i * f.bits % 8) f.bits
    let bits := (span (cdiv (8 * off + 1) f.bits - 1) (min (cdiv (8 * (off + data.length) + 1) f.bits - 1) n)).map at'
    addSilent r.tid bits.length (bits.filter (bitsZero f)).length (bits.filter (bitsSub f)).length c

/-! ### Checks of references, shared by the class tables -/

/-- A reference that no unit can accept: reserved format or layout code, or an innermost dimension that does not fit (R36,
R38, R390). -/
def badShape (r : TRef) (rows cols : Nat) : Bool :=
  match r.fmt with
  | none => true
  | some f =>
    decide (4 < r.layout) ||
    (r.layout = 2 && (rows % 128 != 0 || cols % 128 != 0)) ||
    (f.block && innermost r.layout rows cols % 32 != 0)

/-- A span beyond its reference's extent, or a reference beyond the address space (R391). -/
def overExtent (r : TRef) (len : Nat) : Bool := decide (r.ext < len) || decide (2 ^ 48 < r.addr + r.ext)

/-- Span of `n` elements under a reference. -/
def TRef.span (r : TRef) (n : Nat) : Nat := (r.fmt.map (spanOf · n)).getD 0

/-- Reserved bits of a reference, the reserved seal policy and reserved policy bits (R16, R349, R389). -/
def refReserved {n : Nat} (d : BitVec n) (o : Nat) : Bool :=
  fld d (o + 16) 6 2 != 0 || fld d (o + 18) 2 6 != 0 || fld d (o + 18) 0 2 == 3 || byt d (o + 19) 1 != 0 ||
    byt d (o + 24) 8 != 0

/-- Whether [a, a + n) and [b, b + m) share an address. -/
def overlap (a n b m : Nat) : Bool := decide (0 < n) && decide (0 < m) && decide (a < b + m) && decide (b < a + n)

/-- Whether [a, a + n) of the interleaved view shares a cell with [b, b + m) of a stack-local view, granule by granule
(R340, R341). -/
def viewsMeet (a n b m : Nat) : Bool :=
  decide (regionOf a = 1) && (span 2 10).contains (regionOf b) && decide (0 < m) &&
  (span (b / 256) ((b + m - 1) / 256 + 1)).any fun g =>
    let lo := max b (256 * g)
    let hi := min (b + m) (256 * g + 256)
    (canon lo).any fun k => overlap a n k (hi - lo)

/-- Whether [a, a + n) and [b, b + m) share a byte of memory through any of the views; window addresses are compared as
written (R341, R396). -/
def overlaps (a n b m : Nat) : Bool := overlap a n b m || viewsMeet a n b m || viewsMeet b m a n

/-- The checks of R645 on one reference: a write that reaches into the window, a window address at or beyond gen_bytes
within [address, address + extent) (R259; log entry 75), and sealed references off a block boundary (R350). -/
def refAccess (c : Chip) (r : TRef) (write update : Bool) : Bool :=
  let n := max r.ext 1
  (write && !update && overlap r.addr n windowBase (windowEnd - windowBase)) ||
  (c.run.recAddr.isSome && decide (r.addr < windowEnd) && decide (windowBase + byt c.run.cfg 24 8 < r.addr + n)) ||
  ((r.policy = 1 || r.policy = 2) && r.addr % 4096 != 0)

/-- The same checks on `n` bytes from a plain address that a descriptor names; an address of 0 names none. -/
def addrAccess (c : Chip) (a n : Nat) (write : Bool) : Bool := refAccess c (.plain a n) write false

/-! ### Commits of an operation in several units -/

/-- All the byte ranges of a destination of `n` elements. -/
def allRanges (r : TRef) (f : Format) (n : Nat) : List (TRef × Nat × Nat) :=
  let el := cdiv (n * f.bits) 8
  if f.block then [(r, 0, el), (r, scaleOff f n 0, cdiv n 32)] else [(r, 0, el)]

/-- Blocks of the destination that the whole operation writes only in part (R351). -/
def partOf (r : TRef) (f : Format) (n : Nat) : TRef → Nat → Bool :=
  fun q b => decide (q = r) && !coversBlock (allRanges r f n) q b

/-- Blocks whose seal waits for a later commit of the operation: wholly covered, and touched by the elements `rest`
(R351). -/
def holdOf (r : TRef) (f : Format) (n : Nat) (rest : List Nat) : TRef → Nat → Bool :=
  let later := (elemRanges f n rest).map fun (o, k) => (r, o, k)
  fun q b => coversBlock (allRanges r f n) q b && touchesBlock later q b

/-- The accesses that writing the elements makes. -/
def wrAccs (r : TRef) (f : Format) (n : Nat) (idx : List Nat) : List Acc :=
  (elemRanges f n idx).map fun (o, k) => .wr r o k

/-! ### Resume records (R128) -/

/-- The 32 bytes of a resume record. -/
def resumeBytes (e : Entry) (chunk kblock groups flags cause : Nat) (statAddr statTensor block : Nat) : List Byte :=
  toBytes 4 (dId e.desc) ++ toBytes 4 chunk ++ toBytes 2 kblock ++ toBytes 2 groups ++ toBytes 1 flags ++
  toBytes 1 cause ++ toBytes 2 0 ++ toBytes 8 statAddr ++ toBytes 4 statTensor ++ toBytes 4 block

end Sys2Proof.Machine
end

