-- ==== Sys2Proof/Machine/Array.lean ====
section
/-! DEFINITION. The Array class: STREAM (R108 to R131, R144, R145), its batches (R133 to R137), and the dot products that
the Window class shares. -/

namespace Sys2Proof.Machine

/-! ### Formats and geometry (R108) -/

def Format.class8 (f : Format) : Bool :=
  [Format.e4m3, .e5m2, .mxE4m3, .mxE5m2, .mxE3m2, .mxE2m3, .mxE2m1].contains f

def Format.sixteen (f : Format) : Bool := f == .bf16 || f == .fp16

/-- The rate class of an operand pair; none for a pair not in R108. -/
def rateClass (a b : Format) : Option Nat :=
  if a = .mxE2m1 ∧ b = .mxE2m1 then some 4
  else if a.class8 && b.class8 then some 8
  else if (a.sixteen && a == b) || (a.scaled && b.sixteen) || (a.sixteen && b.scaled) then some 16
  else none

def rowsCap (cls : Nat) : Nat := if cls = 16 then 128 else 256

/-- K-blocks a stationary block covers (R111). -/
def kStep (cls : Nat) : Nat := if cls = 4 then 2 else 1

/-- Bytes of the tree-state region (R116). -/
def treeState (cls chunk kTotal : Nat) : Nat := rowsCap cls * 4 * chunk * (clog2 kTotal + 1)

/-- Bytes of `rows` × `k` resident elements with their scales (R117). -/
def residentBytes (f : Format) (rows k : Nat) : Nat :=
  cdiv (rows * k * f.bits) 8 + (if f.block then rows * (k / 32) else 0)

/-! ### Dot products -/

/-- The products of K-block `k` of one output (R74, R75). -/
def kProducts (st wt : Nat → FVal) (kElems k : Nat) : List FVal :=
  (span (128 * k) (min (128 * k + 128) kElems)).map fun i => (st i).mul (wt i)

/-- The FP32 value of a K-block result or tree node. -/
def resultValue (v : BitVec 33) : W32 := v.setWidth 32

/-- Whether it is a zero whose exact value is not (R98). -/
def resultTiny (v : BitVec 33) : Bool := v.msb

/-- A tree node over two others (R79); a sum of FP32 values never rounds to zero. -/
def addResults (a b : BitVec 33) : BitVec 33 := (f32add (resultValue a) (resultValue b)).setWidth 33

/-- What one output writes: its root, or the node list of the range in partial mode (R118, R119). -/
def outNodes (mode kTotal kFirst kCount : Nat) (v : List (BitVec 33)) : List (BitVec 33) :=
  let node (l i : Nat) : BitVec 33 := (treeNode addResults v l i).getD 0
  if mode = 2 then (nodeList kTotal kFirst (kFirst + kCount)).map fun (l, i) => node l i
  else [node (clog2 v.length) 0]

/-- Planes of the destination: one, or one per node of the range (R119). -/
def planesOf (mode kTotal kFirst kCount : Nat) : Nat :=
  if mode = 2 then (nodeList kTotal kFirst (kFirst + kCount)).length else 1

/-- One array operation over a block of rows, its operands as functions of row or column and reduced index. -/
structure Job where
  stat : Nat → Nat → FVal
  weight : Nat → Nat → FVal
  kElems : Nat
  kFirst : Nat
  kCount : Nat
  mode : Nat
  conv : Nat
  dest : TRef
  nDest : Nat               -- elements of the destination
  held : Nat → Nat → Nat → Option (BitVec 33) -- tree state: the K-block result of a row and column, where an earlier pass made it
  done : Nat → Nat → Option W32 -- the result of a row and column, where an earlier position block made it (R639)
  sidx : Nat → Nat → Nat → Nat -- storage index by plane, row, column
  lidx : Nat → Nat → Nat    -- logical index by row, column

/-- The result of K-block `k` of output (r, n): from the tree state, or from the operands (R75, R116). -/
def Job.block (j : Job) (r n k : Nat) : BitVec 33 :=
  match j.held r n k with
  | some v => v
  | none => blockResult (kProducts (j.stat r) (j.weight n) j.kElems k)

/-- The K-block results of one output over [kFirst, kFirst + kCount), in place among all of its K-blocks. -/
def Job.blocks (j : Job) (r n : Nat) : List (BitVec 33) :=
  (List.range (cdiv j.kElems 128)).map fun k =>
    if j.kFirst ≤ k ∧ k < j.kFirst + j.kCount then j.block r n k else 0

/-- The nodes that output (row, col) writes, by plane. -/
def Job.nodes (j : Job) (r n : Nat) : List (BitVec 33) :=
  match j.done r n with
  | some v => [v.setWidth 33]
  | none => outNodes j.mode (cdiv j.kElems 128) j.kFirst j.kCount (j.blocks r n)

/-- The values that output (row, col) writes, by plane. -/
def Job.out (j : Job) (r n : Nat) : List W32 := (j.nodes r n).map resultValue

/-- Whether a K-block result of the pass is NaN or Inf (R77). -/
def Job.passMarks (j : Job) (rows cols ks : List Nat) : Bool :=
  rows.any fun r => cols.any fun n => ks.any fun k => !f32finite (resultValue (j.block r n k))

/-- How many outputs are zero while their exact value is not (R98). -/
def Job.tiny (j : Job) (rows cols : List Nat) : Nat :=
  (rows.flatMap fun r => cols.flatMap fun n => (j.nodes r n).filter resultTiny).length

/-- Storage indices of the outputs of some rows and columns. -/
def Job.indices (j : Job) (rows cols : List Nat) : List Nat :=
  (List.range (planesOf j.mode (cdiv j.kElems 128) j.kFirst j.kCount)).flatMap fun p =>
    sortBy id (cols.flatMap fun n => rows.map fun r => j.sidx p r n)

/-- Format of the destination. -/
def Job.fmt (j : Job) : Format := (j.dest.fmt).getD .fp32

/-- The old value that accumulate mode reads. -/
def Job.old (j : Job) (c : Chip) (e : Entry) (i : Nat) : W32 :=
  .ofNat 32 (ofBytes ((List.range 4).map fun b => peekMem c e (j.dest.addr + 4 * i + b)))

/-- Writes the results of some rows and columns (R118): converted, accumulated or as node lists; `all` lists every
output of the operation, for current scaling. -/
def Job.write (j : Job) (e : Entry) (die : Nat) (rows cols : List Nat) (all : Unit → List FVal)
    (hold : TRef → Nat → Bool) (c : Chip) : Chip :=
  let pairs := sortBy (fun x => j.sidx 0 x.1 x.2) (cols.flatMap fun n => rows.map fun r => (r, n))
  if j.mode = 0 then
    let xs := pairs.map fun (r, n) => (j.sidx 0 r n, j.lidx r n, f32v ((j.out r n).headD f32zero))
    let c := markIf (xs.any fun x => !x.2.2.finite) e .array j.dest.tid die c
    let (k, c) := writeScale j.dest.tid j.fmt all c
    commitValues e j.dest j.fmt j.nDest j.conv k die xs hold c (j.tiny rows cols)
  else if j.mode = 1 then
    let xs := pairs.map fun (r, n) =>
      (j.sidx 0 r n, f32add (j.old c e (j.sidx 0 r n)) ((j.out r n).headD f32zero))
    let c := markIf (xs.any fun x => !f32finite x.2) e .array j.dest.tid die c
    commitF32 e j.dest xs hold c
  else
    let np := planesOf j.mode (cdiv j.kElems 128) j.kFirst j.kCount
    let xs := (List.range np).flatMap fun p => pairs.map fun (r, n) => (j.sidx p r n, (j.out r n).getD p f32zero)
    let c := markIf (xs.any fun x => !f32finite x.2) e .array j.dest.tid die c
    commitF32 e j.dest xs hold c (j.tiny rows cols)

/-- What `Job.write` writes. -/
def Job.writes (j : Job) (e : Entry) (rows cols : List Nat) (all : Unit → List FVal) (c : Chip) : List Wr :=
  let pairs := sortBy (fun x => j.sidx 0 x.1 x.2) (cols.flatMap fun n => rows.map fun r => (r, n))
  if j.mode = 0 then
    wrsOf j.dest (convertOut c.run.step j.dest j.fmt j.nDest j.conv (writeScale j.dest.tid j.fmt all c).1
      (pairs.map fun (r, n) => (j.sidx 0 r n, j.lidx r n, f32v ((j.out r n).headD f32zero)))).bytes
  else if j.mode = 1 then
    (f32For j.dest (pairs.map fun (r, n) =>
      (j.sidx 0 r n, f32add (j.old c e (j.sidx 0 r n)) ((j.out r n).headD f32zero))) c).1
  else
    (f32For j.dest ((List.range (planesOf j.mode (cdiv j.kElems 128) j.kFirst j.kCount)).flatMap fun p =>
      pairs.map fun (r, n) => (j.sidx p r n, (j.out r n).getD p f32zero)) c).1

/-! ### The descriptor (R144) -/

/-- The fields of an Array descriptor. -/
structure ArrD where
  stat : TRef
  weights : TRef
  dest : TRef
  nCols : Nat
  kElems : Nat
  chunk : Nat
  kFirst : Nat
  kCount : Nat
  deadline : Nat
  mode : Nat
  conv : Nat
  rows : Nat
  deriving DecidableEq, Repr

def arrD (d : Desc) : ArrD :=
  ⟨tref d 16, tref d 48, tref d 80, byt d 112 4, byt d 116 3, 16 * (byt d 119 1 + 1), byt d 120 2, byt d 122 2,
    fld d 124 22 10, fld d 124 20 2, fld d 124 16 4, fld d 124 0 9⟩

def ArrD.kTotal (a : ArrD) : Nat := cdiv a.kElems 128

/-- The rate class of the operand pair. -/
def ArrD.cls (a : ArrD) : Option Nat :=
  match a.stat.fmt, a.weights.fmt with
  | some f, some g => rateClass f g
  | _, _ => none

/-- Elements of the destination (R119). -/
def ArrD.nDest (a : ArrD) : Nat := planesOf a.mode a.kTotal a.kFirst a.kCount * (a.rows * a.nCols)

/-- The checks of an armed Array descriptor (R145); `deadlines` tells whether the queue knows the deadline field
(R380). -/
def checkArray (c : Chip) (d : Desc) (deadlines : Bool) : Option Nat :=
  let a := arrD d
  let cls := a.cls.getD 8
  let reserved := a.mode = 3 || fld d 124 9 7 != 0 || a.conv.testBit 3 || refReserved d 16 || refReserved d 48 ||
    refReserved d 80 || (!deadlines && a.deadline != 0)
  let badDest := match a.dest.fmt with
    | none => true
    | some f => (a.mode != 0 && f != .fp32) || (a.mode = 0 && f.block && a.dest.layout != 1)
  let format := a.cls.isNone || badDest || (cls = 4 && a.kFirst % 2 = 1) || 2 ≤ a.conv % 4 ||
    badShape a.stat a.rows a.kElems || badShape a.weights a.nCols a.kElems || badShape a.dest a.rows a.nCols
  let work := residentBytes (a.stat.fmt.getD .fp32) a.rows (128 * a.kCount) + treeState cls a.chunk a.kTotal
  let extent := rowsCap cls < a.rows || 8388480 < a.kElems || a.kTotal < a.kFirst + a.kCount ||
    (a.mode != 2 && (a.kFirst != 0 || a.kCount != a.kTotal)) || 3 * 2 ^ 20 < work ||
    overExtent a.stat (a.stat.span (a.rows * a.kElems)) || overExtent a.weights (a.weights.span (a.nCols * a.kElems)) ||
    overExtent a.dest (a.dest.span a.nDest)
  let access := refAccess c a.stat false false || refAccess c a.weights false false || refAccess c a.dest true false
  if reserved then some 0x04
  else if format then some 0x10
  else if a.nCols = 0 || a.kElems = 0 || a.kCount = 0 || a.rows = 0 then some 0x01
  else if extent then some 0x02
  else if access then some 0x0E
  else none

/-! ### STREAM (R115) -/

/-- Place of a K-block result in the tree state. -/
def ArrD.treeKey (a : ArrD) (r n k : Nat) : Nat := (r * a.nCols + n) * a.kTotal + k

/-- A result held at a place of the tree state. -/
def treeAt (m : FMap (BitVec 33)) (k : Nat) : Option (BitVec 33) := (m.find? fun x => x.1 = k).map (·.2)

/-- The operation of one descriptor as a job over its own rows: the resident operand as tile SRAM holds it (R112), the
weights as they stream, and the tree state of earlier passes (R116). -/
def arrJob (c : Chip) (e : Entry) : Job :=
  let a := arrD e.desc
  let s := mkSrc c e a.stat (a.rows * a.kElems)
  let w := mkSrc c e a.weights (a.nCols * a.kElems)
  let stream := { e with held := [] }
  { stat := fun r i => s.val c e (storeIdx a.stat.layout a.rows a.kElems r i)
    weight := fun n i => w.val c stream (storeIdx a.weights.layout a.nCols a.kElems n i)
    kElems := a.kElems
    kFirst := a.kFirst
    kCount := a.kCount
    mode := a.mode
    conv := a.conv
    dest := a.dest
    nDest := a.nDest
    held := fun r n k => treeAt e.tree (a.treeKey r n k)
    done := fun _ _ => none
    sidx := fun p r n =>
      if a.mode = 2 then p * (a.rows * a.nCols) + r * a.nCols + n else storeIdx a.dest.layout a.rows a.nCols r n
    lidx := fun r n => r * a.nCols + n }

/-- Whether two operations stand at one position, so that they can run as one. -/
def samePlace (x y : Entry) : Bool :=
  x.chunk == y.chunk && x.kblock == y.kblock && x.groups == y.groups && x.from_ == y.from_

/-- Batchable descriptors (R133), at one position where the host restarts them (R136, R411). -/
def batchable (x y : Entry) : Bool :=
  let a := arrD x.desc
  let b := arrD y.desc
  a.deadline != 0 && b.deadline != 0 && byt x.desc 48 32 == byt y.desc 48 32 && a.kElems == b.kElems &&
    a.kFirst == b.kFirst && a.kCount == b.kCount && a.nCols == b.nCols && a.chunk == b.chunk && a.mode == b.mode &&
    a.conv == b.conv && a.stat.format == b.stat.format && a.weights.format == b.weights.format &&
    a.dest.format == b.dest.format && samePlace x y

/-- The members that run with an entry, in the order of their rows: its batch, or itself (R134, R136). -/
def membersOf (c : Chip) (e : Entry) : List Entry :=
  match e.lead with
  | none => [e]
  | some l => sortBy (·.seat) (c.ory.entries.filter fun x => decide (x.lead = some l) && decide (x.phase = .started))

/-- Columns of a commit group: group `g` of chunk `ci` (R115). -/
def groupCols (a : ArrD) (ci g : Nat) : List Nat :=
  let lo := ci * a.chunk + 16 * g
  span lo (min (lo + 16) (min ((ci + 1) * a.chunk) a.nCols))

/-- Groups of a chunk. -/
def chunkGroups (a : ArrD) (ci : Nat) : Nat := cdiv (min a.chunk (a.nCols - ci * a.chunk)) 16

/-- Whether the pass at K-block `k` is the last of the range. -/
def lastPass (cls kFirst kCount k : Nat) : Bool := kFirst + kCount ≤ k + kStep cls

/-- K-blocks of a pass (R111). -/
def passBlocks (cls kFirst kCount k : Nat) : List Nat := span k (min (k + kStep cls) (kFirst + kCount))

/-- The position after a group: the next group, pass or chunk. -/
def nextPos (cls kFirst kCount groups : Nat) (e : Entry) : Entry :=
  if e.groups + 1 < groups then { e with groups := e.groups + 1 }
  else if lastPass cls kFirst kCount e.kblock then 
    { e with chunk := e.chunk + 1, kblock := kFirst, groups := 0, from_ := 0, tree := [], wide := [] }
  else { e with kblock := e.kblock + kStep cls, groups := e.from_ }

/-- Reduced indices of some K-blocks. -/
def kIndices (kElems : Nat) (ks : List Nat) : List Nat :=
  ks.flatMap fun k => span (128 * k) (min (128 * k + 128) kElems)

/-- Whether decoding these elements widens a NaN or Inf: block formats, and FP8 beside a 16-bit operand (R41, R46). -/
def widensSpecial (s : Src) (cls : Nat) (c : Chip) (e : Entry) (idx : List Nat) : Bool :=
  (s.f.block || (cls = 16 && s.f.scaled)) && idx.any fun i => !(s.raw c e i).finite

/-- The reads that load the resident operand, of the whole range, into tile SRAM (R112, R117). -/
def statAccs (c : Chip) (e : Entry) : List Acc :=
  let a := arrD e.desc
  let ks := kIndices a.kElems (span a.kFirst (a.kFirst + a.kCount))
  (mkSrc c e a.stat (a.rows * a.kElems)).accs c e
    (sortBy id ((List.range a.rows).flatMap fun r => ks.map (storeIdx a.stat.layout a.rows a.kElems r)))

/-- The accesses of one member in one group; the resident operand makes none once it is loaded. -/
def groupAccs (c : Chip) (e : Entry) (cls ci k g : Nat) : List Acc :=
  let a := arrD e.desc
  let j := arrJob c e
  let ks := kIndices a.kElems (passBlocks cls a.kFirst a.kCount k)
  let cols := groupCols a ci g
  let last := lastPass cls a.kFirst a.kCount k
  let out := j.indices (List.range a.rows) cols
  statAccs c e ++
  ((mkSrc c e a.weights (a.nCols * a.kElems)).accs c e
    (cols.flatMap fun n => ks.map (storeIdx a.weights.layout a.nCols a.kElems n))).map (fun x => { x with again := true }) ++
  (if last && a.mode = 1 then (elemRanges .fp32 a.nDest out).map fun (o, n) => { Acc.rd a.dest o n with again := true } else []) ++
  (if last then wrAccs a.dest j.fmt a.nDest out else [])

/-- Every result of the operation, for current scaling (R66). -/
def arrAll (c : Chip) (e : Entry) : List FVal :=
  let a := arrD e.desc
  (List.range a.rows).flatMap fun r => (List.range a.nCols).map fun n => f32v (((arrJob c e).out r n).headD f32zero)

/-- Blocks whose seal waits for a later group (R351). -/
def arrHold (c : Chip) (e : Entry) (cols : List Nat) : TRef → Nat → Bool :=
  let a := arrD e.desc
  let j := arrJob c e
  holdOf a.dest j.fmt a.nDest (j.indices (List.range a.rows) (span (cols.headD 0 + cols.length) a.nCols))

/-- What a group writes for one member: nothing before the last pass. -/
def groupWrites (cls ci k g : Nat) (c : Chip) (e : Entry) : List Wr :=
  let a := arrD e.desc
  if lastPass cls a.kFirst a.kCount k then
    (arrJob c e).writes e (List.range a.rows) (groupCols a ci g) (fun _ => arrAll c e) c
  else []

/-! ### Sampled checks (R93, R94) -/

/-- An operand as the check takes it: converted to BF16 to nearest even (R94). -/
def toBf16 (x : FVal) : FVal := decodeElem .bf16 (convElem .bf16 ⟨true, .nearest⟩ x).bits

/-- The job that a check recomputes: both operands in BF16, with no tree state of the operation's own. -/
def Job.wide (j : Job) : Job :=
  { j with stat := fun r i => toBf16 (j.stat r i), weight := fun n i => toBf16 (j.weight n i), held := fun _ _ _ => none }

/-- The output block of 256 × 128 that holds output (r, n). -/
def checkBlockOf (cols r n : Nat) : Nat := r / 256 * cdiv cols 128 + n / 128

/-- Output blocks that the Assay checks (R93). -/
def pickBlocks (c : Chip) (tid rows cols : Nat) : List Nat :=
  let bound := c.asy.slots.any fun x => decide (x.2.tensor.toNat = tid) && x.2.histEn
  if c.asy.sampleEn && c.run.recAddr.isSome && bound then
    (List.range (cdiv rows 256 * cdiv cols 128)).filter fun b => assayPick c.run.step tid b c.asy.sampleLog2.toNat
  else []

/-- What a check compares for output (r, n): its narrow and wide values, by plane (R94; log entry 45). -/
def Job.pair (j : Job) (wide : Nat → Option W32) (a : ArrD) (r n : Nat) : List (Nat × W32 × W32) :=
  let w : Job := { j.wide with held := fun r n k => (wide (a.treeKey r n k)).map (·.setWidth 33) }
  (List.zipWith (fun x y => (r * a.nCols + n, x, y)) (j.out r n) (w.out r n))

/-- Takes the K-block results of a pass into the tree state, in BF16 too where the output is to be checked; the last pass
leaves the pairs that its checks compare (R94, R116). -/
def keepPass (cls ci k g : Nat) (picked : List Nat) (j : Job) (e : Entry) : Entry :=
  let a := arrD e.desc
  let ks := passBlocks cls a.kFirst a.kCount k
  let outs := (List.range a.rows).flatMap fun r => (groupCols a ci g).map fun n => (r, n)
  let checked := outs.filter fun (r, n) => picked.contains (checkBlockOf a.nCols r n)
  let wide := checked.foldl (fun m (r, n) => ks.foldl (fun m k =>
    m.filter (·.1 != a.treeKey r n k) ++ [(a.treeKey r n k, resultValue (j.wide.block r n k))]) m) e.wide
  if lastPass cls a.kFirst a.kCount k then
    let at' (i : Nat) : Option W32 := (wide.find? fun x => x.1 = i).map (·.2)
    { e with wide := wide, pairs := e.pairs ++ checked.flatMap fun (r, n) => j.pair at' a r n }
  else
    { e with wide := wide, tree := e.tree ++ outs.flatMap fun (r, n) => ks.map fun k => (a.treeKey r n k, j.block r n k) }

/-- The checks that a completed operation leaves due; an output without a pair, from before a restart by the host, is taken
from the operands as they stand. -/
def dueChecks (c : Chip) (e : Entry) : List DueCheck :=
  let a := arrD e.desc
  let j := arrJob c e
  (pickBlocks c a.dest.tid a.rows a.nCols).map fun b =>
    let outs := ((List.range a.rows).flatMap fun r => (List.range a.nCols).map fun n => (r, n)).filter fun (r, n) =>
      checkBlockOf a.nCols r n = b
    let ps := outs.flatMap fun (r, n) =>
      match e.pairs.filter fun p => p.1 = r * a.nCols + n with
      | [] => j.pair (fun _ => none) a r n
      | l => l
    ⟨e.id, b, a.dest.tid, ps.map (·.2.1), ps.map (·.2.2)⟩

/-- Adds the checks that are due. -/
def addDue (xs : List DueCheck) (c : Chip) : Chip := { c with asy := { c.asy with due := c.asy.due ++ xs } }

/-! ### Groups -/

/-- The effect of one group on one member: the marks of its pass, its results held in the tree state or, in the last pass,
written. -/
def groupEffect (cls ci k g : Nat) (e : Entry) (c : Chip) : Chip :=
  let c0 := c
  let a := arrD e.desc
  let j := arrJob c e
  let die := dieOf e.tile
  let rows := List.range a.rows
  let cols := groupCols a ci g
  let ks := passBlocks cls a.kFirst a.kCount k
  let ki := kIndices a.kElems ks
  let s := mkSrc c e a.stat (a.rows * a.kElems)
  let w := mkSrc c e a.weights (a.nCols * a.kElems)
  let c := markIf (widensSpecial s cls c e (rows.flatMap fun r => ki.map (storeIdx a.stat.layout a.rows a.kElems r)))
    e .conversion a.stat.tid die c
  let c := markIf (widensSpecial w cls c { e with held := [] }
      (cols.flatMap fun n => ki.map (storeIdx a.weights.layout a.nCols a.kElems n)))
    e .conversion a.weights.tid die c
  let c := markIf (j.passMarks rows cols ks) e .array a.dest.tid die c
  let c := setEntry (keepPass cls ci k g (pickBlocks c a.dest.tid a.rows a.nCols) j { e with marked := (curEntry c e).marked }) c
  if lastPass cls a.kFirst a.kCount k then
    j.write e die rows cols (fun _ => arrAll c0 e) (arrHold c0 e cols) c
  else c

/-- What a group reads and writes, for all members. -/
def streamAccs (c : Chip) (e : Entry) (ms : List Entry) : List Acc :=
  ms.flatMap fun x => groupAccs c { x with win := e.win } ((arrD e.desc).cls.getD 8) e.chunk e.kblock e.groups

/-- Blocks that a batch writes only in part. -/
def streamPart (ms : List Entry) : TRef → Nat → Bool := fun q b =>
  ms.any fun x => (arrD x.desc).dest = q && partOf (arrD x.desc).dest ((arrD x.desc).dest.fmt.getD .fp32) (arrD x.desc).nDest q b

/-- Whether a member reads a copy whose table entry holds another identifier (R262). -/
def streamBad (c : Chip) (e : Entry) (ms : List Entry) : Bool :=
  ms.any fun x => scaleMismatch c { x with win := e.win } (arrD x.desc).stat || scaleMismatch c e (arrD e.desc).weights

/-- An entry as its batch runs it: the generation that the batch resolved first (R259), and the rows that its members
gathered. -/
def batchEntry (e : Entry) (ms : List Entry) : Entry :=
  { e with win := (ms.findSome? (·.win)), held := (ms.flatMap (·.held)).eraseDups }

/-- One commit group of an operation or batch: all its members' writes, or none (R126, R136). -/
def streamGroup (e0 : Entry) (c : Chip) : Chip :=
  let ms := membersOf c (curEntry c e0)
  let e := batchEntry (curEntry c e0) ms
  let a := arrD e.desc
  let cls := a.cls.getD 8
  let endAll (st : Nat) (c : Chip) : Chip := ms.foldl (fun c x => finish x st c) c
  if streamBad c e ms then endAll 0x10 c else
  match prepare e (streamAccs c (bindWindow c e) ms) (streamPart ms) c with
  | .wait c => c
  | .stop st c => endAll st c
  | .go c =>
    let e := holdReads c (bindWindow c e) (ms.flatMap fun x => statAccs c { x with win := (bindWindow c e).win })
    let c := ms.foldl (fun c x =>
      groupEffect cls e.chunk e.kblock e.groups { curEntry c x with win := e.win, ext := e.ext, held := e.held } c) c
    let c := ms.foldl (fun c x => setEntry { nextPos cls a.kFirst a.kCount (chunkGroups a e.chunk)
      { curEntry c x with chunk := e.chunk, kblock := e.kblock, groups := e.groups, from_ := e.from_ } with begun := true } c) c
    if (curEntry c e).chunk * a.chunk < a.nCols then c
    else ms.foldl (fun c x =>
      let x := curEntry c x
      finish x 0 (addDue (dueChecks c x) c)) c

/-- Gathers a batched descriptor's rows into the buffer as it arrives, where nothing stands in the way (R134); the batch
reads them itself otherwise. -/
def gatherRows (accs : Chip → Entry → List Acc) (e0 : Entry) (c : Chip) : Chip :=
  let e := curEntry c e0
  match prepare e (accs c (bindWindow c e)) (fun _ _ => false) c with
  | .go c => setEntry (holdReads c (curEntry c e) (accs c (curEntry c e))) c
  | .wait c => c
  | .stop _ _ => c

/-- `n` commit groups, until the operation ends or waits. -/
def streamGroups (id : Nat) : Nat → Chip → Chip
  | 0, c => c
  | n + 1, c =>
    match running c id 1 1 with
    | some e => if e.lead.isSome && e.round = 0 then c else streamGroups id n (streamGroup e c)
    | none => c

/-- STREAM (R115): commits up to `groups` groups of the descriptor's operation. -/
def execStream (id groups : Nat) (s : State) : Host.Outcome State Fault Refusal :=
  onChip (fun _ c => streamGroups id groups c) s

end Sys2Proof.Machine
end

