-- ==== Sys2Proof/Machine/Vector.lean ====
section
/-! DEFINITION. The Vector class (R138 to R143, R146, R147, R407). -/

namespace Sys2Proof.Machine

/-- Formats that widen exactly to FP32 (R46, R138). -/
def Format.widens (f : Format) : Bool := f != .int32 && f != .int64

/-- The fields of a Vector descriptor (R146). -/
structure VecD where
  op : Nat
  a : TRef
  b : TRef
  dest : TRef
  n : Nat
  rows : Nat
  s : W32
  conv : Nat
  kLo : Nat
  kMid : Nat
  kHi : Nat
  kTotal : Nat
  deriving DecidableEq, Repr

def vecD (d : Desc) : VecD :=
  ⟨dOpcode d, tref d 16, tref d 48, tref d 80, byt d 112 4, byt d 116 4, .ofNat 32 (byt d 120 4), fld d 124 0 4,
    byt d 120 2, byt d 122 2, byt d 124 2, byt d 126 2⟩

def VecD.join (v : VecD) : Bool := v.op = 0x12
/-- ROWSUM and ROWMAX: one result a row. -/
def VecD.reduces (v : VecD) : Bool := v.op = 0x0C || v.op = 0x0D
def VecD.rowOp (v : VecD) : Bool := decide (0x0C ≤ v.op) && decide (v.op ≤ 0x0F)
def VecD.twoSource (v : VecD) : Bool := [1, 2, 3, 4, 5, 0x0B, 0x0E, 0x0F, 0x11, 0x12].contains v.op

/-- Elements of each source and of the destination. -/
def VecD.nA (v : VecD) : Nat :=
  if v.join then (nodeList v.kTotal v.kLo v.kMid).length * (v.rows * v.n) else v.rows * v.n
def VecD.nB (v : VecD) : Nat :=
  if v.join then (nodeList v.kTotal v.kMid v.kHi).length * (v.rows * v.n)
  else if v.op = 0x0E then 2 * v.n else if v.op = 0x0F then v.n else v.rows * v.n
def VecD.outPlanes (v : VecD) : Nat := if v.join then (nodeList v.kTotal v.kLo v.kHi).length else 1
/-- Columns of the destination. -/
def VecD.cols (v : VecD) : Nat := if v.reduces then 1 else v.n
def VecD.nDest (v : VecD) : Nat := v.outPlanes * (v.rows * v.cols)

/-- The checks of an armed Vector descriptor (R147, in the order of R145). -/
def checkVector (c : Chip) (d : Desc) : Option Nat :=
  let v := vecD d
  let oneZero := !v.twoSource && byt d 48 32 != 0
  let reserved := oneZero || refReserved d 16 || refReserved d 48 || refReserved d 80 ||
    (!v.join && (fld d 124 4 4 != 0 || byt d 125 3 != 0 || v.conv.testBit 3))
  let src (r : TRef) : Bool := (r.fmt.map (!·.widens)).getD true
  let lineB := v.b.fmt.isNone || 4 < v.b.layout || (v.b.fmt.any (·.block) && v.nB % 32 != 0)
  let shapeB := if v.join || v.rowOp then lineB else badShape v.b v.rows v.n
  let format := src v.a || (v.twoSource && src v.b) || v.dest.fmt.isNone || (v.rowOp && v.a.layout != 0) ||
    (v.join && v.dest.fmt != some .fp32) || (!v.join && 2 ≤ v.conv % 4) || badShape v.a v.rows v.n ||
    (v.twoSource && shapeB) || badShape v.dest v.rows v.cols || (v.reduces && (v.dest.fmt.any (·.block)))
  let ranges := v.join && !(v.kLo < v.kMid && v.kMid < v.kHi && v.kHi ≤ v.kTotal)
  let extent := 2 ^ 24 < v.n || ranges || overExtent v.a (v.a.span v.nA) ||
    (v.twoSource && overExtent v.b (v.b.span v.nB)) || overExtent v.dest (v.dest.span v.nDest)
  let same := v.dest.addr = v.a.addr && v.dest.ext = v.a.ext
  let beyond (r : TRef) : Bool := overlaps v.dest.addr v.dest.ext r.addr r.ext
  let access := (!same && beyond v.a) || (v.twoSource && beyond v.b) ||
    refAccess c v.a false false || (v.twoSource && refAccess c v.b false false) || refAccess c v.dest true false
  if reserved then some 0x04
  else if format then some 0x10
  else if v.n = 0 || v.rows = 0 then some 0x01
  else if extent then some 0x02
  else if access then some 0x0E
  else none

/-! ### Commit units (R407, R639) -/

/-- Rows and row length that commit units are cut from: a plane counts as a row in TREE_JOIN. -/
def VecD.unitRows (v : VecD) : Nat := if v.join then v.outPlanes else v.rows
def VecD.unitLen (v : VecD) : Nat := if v.join then v.rows * v.n else v.n

/-- Whether a unit is 32 whole rows: a block-format destination whose layout is not row-major. -/
def VecD.byRows (v : VecD) : Bool := v.dest.fmt.any (·.block) && v.dest.layout != 0

/-- The (row, column) pairs that the unit at row `r`, group `g` writes. -/
def VecD.unit (v : VecD) (r g : Nat) : List (Nat × Nat) :=
  let cols := if v.reduces then [0] else List.range v.unitLen
  if v.byRows then (span r (min (r + 32) v.unitRows)).flatMap fun i => cols.map (i, ·)
  else if v.rowOp then cols.map (r, ·)
  else (span (16384 * g) (min (16384 * g + 16384) v.unitLen)).map (r, ·)

/-- The position after a unit. -/
def VecD.next (v : VecD) (e : Entry) : Entry :=
  if v.byRows then { e with chunk := min (e.chunk + 32) v.unitRows }
  else if v.rowOp then { e with chunk := e.chunk + 1 }
  else if 16384 * (e.groups + 1) < v.unitLen then { e with groups := e.groups + 1 }
  else { e with chunk := e.chunk + 1, groups := 0 }

/-- Storage index of an output. -/
def VecD.sidx (v : VecD) (r i : Nat) : Nat :=
  if v.join then r * (v.rows * v.n) + i else storeIdx v.dest.layout v.rows v.cols r i

/-! ### Results (R139) -/

/-- FP32 value of an element of a source. -/
def Src.f32 (s : Src) (c : Chip) (e : Entry) (i : Nat) : W32 := rne32 (s.val c e i)

/-- The node (l, i) of a joined list: as delivered, or joined from its halves (R141). -/
def joinNode (get : Nat → Nat → Option W32) : Nat → Nat → Option W32
  | 0, i => get 0 i
  | l + 1, i =>
    match get (l + 1) i with
    | some v => some v
    | none =>
      match joinNode get l (2 * i), joinNode get l (2 * i + 1) with
      | some a, some b => some (f32add a b)
      | some a, none => some a
      | none, b => b

/-- The result of one element of an elementwise opcode. -/
def vecElem (op : Nat) (a b s : W32) : W32 :=
  match op with
  | 0x01 => f32add a b
  | 0x02 => f32sub a b
  | 0x03 => f32mul a b
  | 0x04 => f32max a b
  | 0x05 => f32add (f32mul a s) b
  | 0x06 => f32exp2 a
  | 0x07 => f32recip a
  | 0x08 => f32rsqrt a
  | 0x09 => f32log2 a
  | 0x0B => f32add a b
  | 0x10 => silu a
  | 0x11 => siluBwd a b
  | _ => a

/-- Whether a product of two FP32 values is zero while neither of them is. -/
def mulTiny (a b : W32) : Bool :=
  f32finite a && f32finite b && !f32isZero a && !f32isZero b && f32isZero (f32mul a b)

/-- Whether an elementwise result is zero while its exact value before the last rounding is not (R98). -/
def vecTiny (op : Nat) (a b : W32) : Bool :=
  match op with
  | 0x03 => mulTiny a b
  | 0x06 => f32finite a && f32isZero (f32exp2 a)
  | 0x10 => mulTiny a (sigm a)
  | 0x11 =>
    let s := sigm a
    mulTiny b (f32mul s (f32add f32one (f32mul a (f32sub f32one s))))
  | _ => false

/-- The same of result `i` of a row operation. -/
def rowTiny (op : Nat) (a b : List W32) (s : W32) (i : Nat) : Bool :=
  let v := a.map f32v
  if op = 0x0C then a.length ≤ 128 && resultTiny (blockResult v)
  else if op = 0x0F then
    let var := f32mul (rowsumV (v.map fun x => x.mul x)) (f32recip (f32ofNat a.length))
    mulTiny (f32mul (a.getD i f32zero) (f32rsqrt (f32add var s))) (b.getD i f32zero)
  else false

/-- The results of one row of a row operation, and whether an intermediate value is NaN or Inf. -/
def vecRow (op : Nat) (a b : List W32) (s : W32) : List W32 × Bool :=
  let rn := f32recip (f32ofNat a.length)
  let sq (x : List W32) : W32 := f32mul (rowsumV (x.map fun v => (f32v v).mul (f32v v))) rn
  if op = 0x0C then ([rowsum a], false)
  else if op = 0x0D then ([a.foldl f32max (a.headD f32zero)], false)
  else if op = 0x0E then
    let mu := f32mul (rowsum a) rn
    let var := sq (a.map fun x => f32sub x mu)
    (layernorm a (b.take a.length) (b.drop a.length) s, [mu, var, f32add var s, f32rsqrt (f32add var s)].any (!f32finite ·))
  else
    let var := sq a
    (rmsnorm a b s, [var, f32add var s, f32rsqrt (f32add var s)].any (!f32finite ·))

/-- The result at (row, column), with whether it or an intermediate value is NaN or Inf. -/
def vecOut (v : VecD) (a b : Src) (c : Chip) (e : Entry) (r i : Nat) : W32 × Bool :=
  if v.join then
    let la := nodeList v.kTotal v.kLo v.kMid
    let lb := nodeList v.kTotal v.kMid v.kHi
    let out := (nodeList v.kTotal v.kLo v.kHi).getD r (0, 0)
    let get (l j : Nat) : Option W32 :=
      if la.contains (l, j) then some (a.f32 c e (la.idxOf (l, j) * (v.rows * v.n) + i))
      else if lb.contains (l, j) then some (b.f32 c e (lb.idxOf (l, j) * (v.rows * v.n) + i))
      else none
    let x := (joinNode get out.1 out.2).getD f32zero
    (x, !f32finite x)
  else if v.rowOp then
    let xs := (List.range v.n).map fun j => a.f32 c e (r * v.n + j)
    let ys := (List.range v.nB).map fun j => if v.reduces then f32zero else b.f32 c e j
    let (out, bad) := vecRow v.op xs ys v.s
    let x := out.getD i f32zero
    (x, bad || !f32finite x)
  else
    let x := vecElem v.op (a.f32 c e (storeIdx v.a.layout v.rows v.n r i))
      (if v.twoSource then b.f32 c e (storeIdx v.b.layout v.rows v.n r i) else f32zero) v.s
    (x, v.op != 0x0A && !f32finite x)

/-- Whether the result at (row, column) is zero while its exact value is not (R98). -/
def outTiny (v : VecD) (a b : Src) (c : Chip) (e : Entry) (r i : Nat) : Bool :=
  if v.join then false
  else if v.rowOp then
    rowTiny v.op ((List.range v.n).map fun j => a.f32 c e (r * v.n + j))
      ((List.range v.nB).map fun j => if v.reduces then f32zero else b.f32 c e j) v.s i
  else
    vecTiny v.op (a.f32 c e (storeIdx v.a.layout v.rows v.n r i))
      (if v.twoSource then b.f32 c e (storeIdx v.b.layout v.rows v.n r i) else f32zero)

/-- Source elements that the outputs of a unit read. -/
def VecD.readsA (v : VecD) (u : List (Nat × Nat)) : List Nat :=
  if v.join then
    (List.range (nodeList v.kTotal v.kLo v.kMid).length).flatMap fun p => u.map fun x => p * (v.rows * v.n) + x.2
  else if v.rowOp then (u.map (·.1)).eraseDups.flatMap fun r => span (r * v.n) ((r + 1) * v.n)
  else u.map fun x => storeIdx v.a.layout v.rows v.n x.1 x.2

def VecD.readsB (v : VecD) (u : List (Nat × Nat)) : List Nat :=
  if !v.twoSource then []
  else if v.join then
    (List.range (nodeList v.kTotal v.kMid v.kHi).length).flatMap fun p => u.map fun x => p * (v.rows * v.n) + x.2
  else if v.rowOp then List.range v.nB
  else u.map fun x => storeIdx v.b.layout v.rows v.n x.1 x.2

/-- Whether decoding the elements widens a NaN or Inf (R46): any format but FP32. -/
def widens32 (s : Src) (c : Chip) (e : Entry) (idx : List Nat) : Bool :=
  s.f != .fp32 && idx.any fun i => !(s.raw c e i).finite

/-- Format of the destination. -/
def VecD.fmt (v : VecD) : Format := v.dest.fmt.getD .fp32

/-- What a unit reads and writes. -/
def vecAccs (c : Chip) (e : Entry) : List Acc :=
  let v := vecD e.desc
  let u := v.unit e.chunk e.groups
  (mkSrc c e v.a v.nA).accs c e (v.readsA u) ++
  (if v.twoSource then (mkSrc c e v.b v.nB).accs c e (v.readsB u) else []) ++
  wrAccs v.dest v.fmt v.nDest (sortBy id (u.map fun x => v.sidx x.1 x.2))

/-- The outputs of a unit by storage index: row and column, result, and whether it marks. -/
def vecResults (c : Chip) (e : Entry) : List ((Nat × Nat) × W32 × Bool) :=
  let v := vecD e.desc
  (sortBy (fun x => v.sidx x.1 x.2) (v.unit e.chunk e.groups)).map fun x =>
    (x, vecOut v (mkSrc c e v.a v.nA) (mkSrc c e v.b v.nB) c e x.1 x.2)

/-- Every result of the operation, for current scaling (R66). -/
def vecAll (c : Chip) (e : Entry) : List FVal :=
  let v := vecD e.desc
  (List.range v.rows).flatMap fun r => (List.range v.cols).map fun i =>
    f32v (vecOut v (mkSrc c e v.a v.nA) (mkSrc c e v.b v.nB) c e r i).1

/-- What a unit writes: FP32 node lists of TREE_JOIN, else results under the conversion control. -/
def vecWrites (c : Chip) (e : Entry) : List Wr :=
  let v := vecD e.desc
  let rs := vecResults c e
  if v.join then (f32For v.dest (rs.map fun r => (v.sidx r.1.1 r.1.2, r.2.1)) c).1
  else wrsOf v.dest (convertOut c.run.step v.dest v.fmt v.nDest v.conv
    (writeScale v.dest.tid v.fmt (fun _ => vecAll c e) c).1
    (rs.map fun r => (v.sidx r.1.1 r.1.2, r.1.1 * v.cols + r.1.2, f32v r.2.1))).bytes

/-- Blocks whose seal waits for a later unit (R351). -/
def vecHold (e : Entry) : TRef → Nat → Bool :=
  let v := vecD e.desc
  let nx := v.next e
  holdOf v.dest v.fmt v.nDest (if v.unitRows ≤ nx.chunk then [] else
    (span nx.chunk v.unitRows).flatMap fun r => (List.range (if v.reduces then 1 else v.unitLen)).filterMap fun i =>
      if r = nx.chunk ∧ i < 16384 * nx.groups then none else some (v.sidx r i))

/-- One commit unit. -/
def vecUnit (e0 : Entry) (c : Chip) : Chip :=
  let e := curEntry c e0
  let v := vecD e.desc
  let u := v.unit e.chunk e.groups
  if scaleMismatch c e v.a || (v.twoSource && scaleMismatch c e v.b) then finish e 0x10 c else
  unit e (vecAccs c e) (partOf v.dest v.fmt v.nDest) (fun e c =>
    let die := dieOf e.tile
    let rs := vecResults c e
    let c1 := markIf (widens32 (mkSrc c e v.a v.nA) c e (v.readsA u)) e .conversion v.a.tid die c
    let c1 := markIf (v.twoSource && widens32 (mkSrc c e v.b v.nB) c e (v.readsB u)) e .conversion v.b.tid die c1
    let c1 := markIf (rs.any fun r => r.2.2) e .vector v.dest.tid die c1
    let nx := v.next e
    let c2 :=
      if v.join then commitF32 e v.dest (rs.map fun r => (v.sidx r.1.1 r.1.2, r.2.1)) (vecHold e) c1
      else
        let (k, c1) := writeScale v.dest.tid v.fmt (fun _ => vecAll c e) c1
        commitValues e v.dest v.fmt v.nDest v.conv k die
          (rs.map fun r => (v.sidx r.1.1 r.1.2, r.1.1 * v.cols + r.1.2, f32v r.2.1)) (vecHold e) c1
          (u.filter fun x => f32isZero (vecOut v (mkSrc c e v.a v.nA) (mkSrc c e v.b v.nB) c e x.1 x.2).1 &&
            outTiny v (mkSrc c e v.a v.nA) (mkSrc c e v.b v.nB) c e x.1 x.2).length
    let e2 := curEntry c2 e
    let c3 := setEntry { e2 with chunk := nx.chunk, groups := nx.groups, begun := true } c2
    if v.unitRows ≤ nx.chunk then finish e 0 c3 else c3) c

/-- `n` commit units, until the operation ends or waits. -/
def vecUnits (id op : Nat) : Nat → Chip → Chip
  | 0, c => c
  | n + 1, c =>
    match running c id 2 op with
    | some e => vecUnits id op n (vecUnit e c)
    | none => c

/-- A Vector opcode (R139): commits up to `groups` units of the descriptor's operation. -/
def runVector (op id groups : Nat) (s : State) : Host.Outcome State Fault Refusal :=
  onChip (fun _ c => vecUnits id op groups c) s

/-- ADD (R139). -/
def execAdd (id groups : Nat) (s : State) : Host.Outcome State Fault Refusal := runVector 0x01 id groups s
/-- SUB (R139). -/
def execSub (id groups : Nat) (s : State) : Host.Outcome State Fault Refusal := runVector 0x02 id groups s
/-- MUL (R139). -/
def execMul (id groups : Nat) (s : State) : Host.Outcome State Fault Refusal := runVector 0x03 id groups s
/-- MAX (R82, R139). -/
def execMax (id groups : Nat) (s : State) : Host.Outcome State Fault Refusal := runVector 0x04 id groups s
/-- MULADD (R139). -/
def execMuladd (id groups : Nat) (s : State) : Host.Outcome State Fault Refusal := runVector 0x05 id groups s
/-- EXP2 (R82, R139). -/
def execExp2 (id groups : Nat) (s : State) : Host.Outcome State Fault Refusal := runVector 0x06 id groups s
/-- RECIP (R82, R139). -/
def execRecip (id groups : Nat) (s : State) : Host.Outcome State Fault Refusal := runVector 0x07 id groups s
/-- RSQRT (R82, R139). -/
def execRsqrt (id groups : Nat) (s : State) : Host.Outcome State Fault Refusal := runVector 0x08 id groups s
/-- LOG2 (R82, R139). -/
def execLog2 (id groups : Nat) (s : State) : Host.Outcome State Fault Refusal := runVector 0x09 id groups s
/-- CONVERT (R48 to R57, R139). -/
def execConvert (id groups : Nat) (s : State) : Host.Outcome State Fault Refusal := runVector 0x0A id groups s
/-- RESIDUAL_ADD (R83, R139). -/
def execResidualAdd (id groups : Nat) (s : State) : Host.Outcome State Fault Refusal := runVector 0x0B id groups s
/-- ROWSUM (R139). -/
def execRowsum (id groups : Nat) (s : State) : Host.Outcome State Fault Refusal := runVector 0x0C id groups s
/-- ROWMAX (R82, R139). -/
def execRowmax (id groups : Nat) (s : State) : Host.Outcome State Fault Refusal := runVector 0x0D id groups s
/-- LAYERNORM (R87, R139). -/
def execLayernorm (id groups : Nat) (s : State) : Host.Outcome State Fault Refusal := runVector 0x0E id groups s
/-- RMSNORM (R87, R139). -/
def execRmsnorm (id groups : Nat) (s : State) : Host.Outcome State Fault Refusal := runVector 0x0F id groups s
/-- SILU (R140). -/
def execSilu (id groups : Nat) (s : State) : Host.Outcome State Fault Refusal := runVector 0x10 id groups s
/-- SILU_BWD (R140). -/
def execSiluBwd (id groups : Nat) (s : State) : Host.Outcome State Fault Refusal := runVector 0x11 id groups s
/-- TREE_JOIN (R141). -/
def execTreeJoin (id groups : Nat) (s : State) : Host.Outcome State Fault Refusal := runVector 0x12 id groups s

end Sys2Proof.Machine
end

