-- ==== Sys2Proof/Machine/Cache.lean ====
section
/-! DEFINITION. The paged key–value cache (R200 to R212, R217) and the attention registers of a tile (R218). -/

namespace Sys2Proof.Machine

/-! ### Registers of the tile (R218, R219) -/

/-- Updates the registers of the physical tile that an operation runs on. -/
def onPtile (e : Entry) (f : Nat → Chip → Chip) (c : Chip) : Chip :=
  match ptileOf c e.tile with
  | some p => f p c
  | none => c

/-- Raises an attention event on the operation's tile. -/
def attRaise (e : Entry) (i : Nat) (c : Chip) : Chip := onPtile e (fun p => raise (.att p) i) c

/-- Adds to the segment, key-block, skipped and cache-operation counters; a wrap raises counter_wrapped (R104, R218). -/
def attCount (e : Entry) (seg kb skip ops : Nat) (c : Chip) : Chip :=
  onPtile e (fun p c =>
    let t := c.tile p
    let wraps := ctrWraps t.attSegments seg || ctrWraps t.attKeyBlocks kb || ctrWraps t.attSkipped skip ||
      ctrWraps t.attCacheOps ops
    raiseIf wraps (.att p) 3 (c.setTile p { t with
      attSegments := ctrAdd t.attSegments seg
      attKeyBlocks := ctrAdd t.attKeyBlocks kb
      attSkipped := ctrAdd t.attSkipped skip
      attCacheOps := ctrAdd t.attCacheOps ops })) c

/-- Whether another segment or cache operation runs on the operation's tile. -/
def othersRun (e : Entry) (c : Chip) : Bool :=
  c.ory.entries.any fun x => x.id != e.id && dClass x.desc = 3 && x.phase == .started && x.tile = e.tile &&
    !(x.lead.isSome && x.round = 0)

/-- ATT_STATUS.active. -/
def attActive (e : Entry) (b : Bool) (c : Chip) : Chip :=
  onPtile e (fun p c => c.setTile p { c.tile p with attActive := b }) c

/-- Ends a segment or cache operation: ATT_STATUS shows its status. -/
def attEnd (e : Entry) (st : Nat) (c : Chip) : Chip :=
  finish e st (onPtile e (fun p c => c.setTile p { c.tile p with attLast := .ofNat 8 st, attActive := othersRun e c }) c)

/-! ### Pools, pages and page tables (R200 to R202) -/

/-- A pool record (R200). -/
structure Pool where
  addr : Nat
  version : Nat
  pageCount : Nat
  pageBase : Nat
  pageBytes : Nat
  kf : Nat
  vf : Nat
  d : Nat
  heads : Nat
  treeBase : Nat
  treeLog2 : Nat
  seed : W64
  ptBase : Nat
  maxPages : Nat
  clock : Nat
  deriving DecidableEq, Repr

def readPool (c : Chip) (e : Entry) (a : Nat) : Pool :=
  let g (o n : Nat) : Nat := peekNat c e (a + o) n
  ⟨a, g 0 1, g 4 4, g 8 8, g 16 4, g 20 1, g 21 1, g 22 1, g 23 1, g 24 8, g 32 1, .ofNat 64 (g 40 8), g 48 8, g 56 4, g 64 8⟩

/-- The reference that means no page. -/
def noPage : Nat := 2 ^ 64 - 1

def Pool.page (p : Pool) (i : Nat) : Nat := p.pageBase + i * p.pageBytes
def Pool.entry (p : Pool) (sc i : Nat) : Nat := p.ptBase + (sc * p.maxPages + i) * 16

/-- A plane's bytes: 128 × d elements with their scales, aligned to 256 (R201). -/
def planeBytes (code d : Nat) : Nat := alignUp (((Format.ofCode code).map (spanOf · (128 * d))).getD 0) 256

def Pool.keyPlane (p : Pool) (h : Nat) : Nat := 1024 + h * (planeBytes p.kf p.d + planeBytes p.vf p.d)
def Pool.valPlane (p : Pool) (h : Nat) : Nat := p.keyPlane h + planeBytes p.kf p.d

/-- Scale-block size of a format (R185). -/
def scaleBlock (code : Nat) : Nat := if (Format.ofCode code).any (·.block) then 32 else 0

/-- The page of a page-table entry; none where the entry is empty or dropped (R202). -/
def pageOf (c : Chip) (e : Entry) (p : Pool) (ref : Nat) : Option Nat :=
  let i := ref % 2 ^ 32
  if ref = noPage || p.pageCount ≤ i then none
  else if peekNat c e (p.page i + 8) 4 = ref >>> 32 then some i else none

/-- The page-table reference of entry `i` of a sequence context. -/
def ptRef (c : Chip) (e : Entry) (p : Pool) (sc i : Nat) : Nat := peekNat c e (p.entry sc i) 8

/-- Table indices that a hash probes (R204). -/
def Pool.probes (p : Pool) (hash : Nat) : List Nat := (List.range 16).map fun j => (hash + j) % 2 ^ p.treeLog2

/-- The page-table range that a live descriptor names in a pool (R208). -/
def namedSpan (x : Entry) : Nat × List Nat :=
  let d := x.desc
  match dOpcode d with
  | 3 => (byt d 88 8, span (byt d 96 4 / 128) (cdiv (byt d 96 4 + byt d 100 4) 128))
  | 5 => (byt d 88 8, [])
  | 1 => if byt x.record 1 1 = 2 then (byt x.record 108 8, span (byt d 104 4) (byt d 108 4)) else (0, [])
  | _ => (0, [])

/-- Pages that a descriptor names are pinned from its arming to its completion (R208). -/
def pinned (c : Chip) (e : Entry) (p : Pool) : List Nat :=
  (c.ory.entries.filter fun x => decide (dClass x.desc = 3) && decide (x.phase ≠ .done)).flatMap fun x =>
    let (a, is) := namedSpan x
    if a ≠ p.addr then []
    else
      let is := if dOpcode x.desc = 5 then List.range p.maxPages else is
      is.filterMap fun i => pageOf c e p (ptRef c e p (dSc x.desc) i)

/-! ### A cache operation: its reads and writes, and how it ends -/

structure CacheSt where
  c : Chip
  e : Entry
  accs : List Acc
  wrs : List Wr
  fail : Option Nat
  exhausted : Bool
  deriving DecidableEq, Repr

abbrev CacheM := StateM CacheSt

/-- Reads a number; the access is part of the operation. -/
def cget (a n : Nat) : CacheM Nat := fun s => (peekNat s.c s.e a n, { s with accs := s.accs ++ [.rd (.plain a n) 0 n] })

/-- Writes bytes; later reads of the operation see them. -/
def cput (a : Nat) (bs : List Byte) : CacheM Unit := fun s =>
  ((), { s with
    c := writeBytes a bs s.c
    accs := s.accs ++ [.wr (.plain a bs.length) 0 bs.length]
    wrs := s.wrs ++ [⟨.plain a bs.length, 0, bs, false⟩] })

def cputN (a n v : Nat) : CacheM Unit := cput a (toBytes n v)

/-- Ends the operation with a status, unless it has ended. -/
def cfail (st : Nat) : CacheM Unit := fun s => ((), if s.fail.isSome then s else { s with fail := some st })

/-- Does nothing once the operation has ended. -/
def cwhen (p : Bool) (f : CacheM Unit) : CacheM Unit := fun s => if s.fail.isSome || !p then ((), s) else f s

def ceach {α : Type} (l : List α) (f : α → CacheM Unit) : CacheM Unit :=
  l.foldlM (fun _ x => cwhen true (f x)) ()

/-- Steps `f` over a list while it says so, and counts the steps. -/
def cwalk {α : Type} (f : α → CacheM Bool) : List α → CacheM Nat
  | [] => pure 0
  | x :: r => do
    if ← f x then return (← cwalk f r) + 1 else return 0

/-- The tree entry of a page, by its hash (R204). -/
def treeEntryOf (p : Pool) (i gen : Nat) : CacheM (Option Nat) := do
  let hash ← cget (p.page i + 24) 8
  (p.probes hash).foldlM (fun found t => do
    let ref ← cget (p.treeBase + 32 * t + 8) 8
    return if found.isNone && ref = gen <<< 32 ||| i then some t else found) none

/-- Generation, references and tree entry of a page. -/
def pageUse (p : Pool) (i : Nat) : CacheM (Nat × Nat × Option Nat) := do
  let gen ← cget (p.page i + 8) 4
  let refs ← cget (p.page i + 12) 4
  let t ← treeEntryOf p i gen
  return (gen, refs, t)

/-- Frees a page: its generation advances and its references are 0 (R207, R211). -/
def freePage (p : Pool) (i gen : Nat) (t : Option Nat) : CacheM Unit := do
  cputN (p.page i + 8) 4 (gen + 1)
  cputN (p.page i + 12) 4 0
  match t with
  | some t => cputN (p.treeBase + 32 * t + 8) 8 noPage
  | none => pure ()
  let n ← cget (p.addr + 60) 4
  cputN (p.addr + 60) 4 (n + 1)

/-- Drops the unpinned page with the smallest last_use, the lowest index among equals; EXTENT where every allocated page
is pinned (R207). -/
def dropPage (p : Pool) : CacheM Unit := do
  let s ← get
  let pins := pinned s.c s.e p
  let best ← (List.range p.pageCount).foldlM (fun (best : Option (Nat × Nat)) i => do
    let (_, refs, t) ← pageUse p i
    let use ← cget (p.page i + 16) 8
    return if (refs ≠ 0 || t.isSome) && !pins.contains i && best.all (fun b => decide (use < b.1)) then some (use, i)
      else best) none
  match best with
  | none => do
    cfail 0x02
    modify fun s => { s with exhausted := true }
  | some (_, i) => do
    let (gen, _, t) ← pageUse p i
    freePage p i gen t
    let n ← cget (p.addr + 72) 8
    cputN (p.addr + 72) 8 (n + 1)

/-- Takes the free page with the lowest index, dropping one where none is free (R207). -/
def takePage (p : Pool) : CacheM (Option Nat) := do
  if (← cget (p.addr + 60) 4) = 0 then dropPage p
  if (← get).fail.isSome then return none
  let found ← (List.range p.pageCount).foldlM (fun (f : Option Nat) i => do
    if f.isSome then return f
    let (_, refs, t) ← pageUse p i
    return if refs = 0 && t.isNone then some i else none) none
  match found with
  | none => do
    cfail 0x02
    modify fun s => { s with exhausted := true }
    return none
  | some i => do
    let n ← cget (p.addr + 60) 4
    cputN (p.addr + 60) 4 (n - 1)
    return some i

/-- The cache descriptor's fields (R214). -/
structure CacheD where
  keys : TRef
  values : TRef
  addr80 : Nat              -- tokens (CACHE_WRITE) or result (CACHE_MATCH)
  pool : Nat
  pos : Nat
  count : Nat
  conv : Nat
  sc : Nat
  deriving DecidableEq, Repr

def cacheD (d : Desc) : CacheD :=
  ⟨tref d 16, tref d 48, byt d 80 8, byt d 88 8, byt d 96 4, if dOpcode d = 3 then byt d 100 4 else byt d 96 4,
    fld d 115 0 4, dSc d⟩

/-- The mutable chip of an operation. -/
def conChip (f : Chip → Chip) : CacheM Unit := modify fun s => { s with c := f s.c }

/-- Reference of the page before page `i` of a sequence, and the hash up to it; none where it is dropped or not full. -/
def parentOf (p : Pool) (sc i : Nat) : CacheM (Nat × Option Nat) := do
  if i = 0 then return (noPage, some p.seed.toNat)
  let ref ← cget (p.entry sc (i - 1)) 8
  let s ← get
  match pageOf s.c s.e p ref with
  | none => return (noPage, none)
  | some j => do
    let tokens ← cget (p.page j + 7) 1
    let hash ← cget (p.page j + 24) 8
    return (ref, if tokens = 128 then some hash else none)

/-- A newly allocated page and its entry (R201, R206). -/
def newPage (p : Pool) (d : CacheD) (kx vx : Int) (i : Nat) : CacheM Unit := do
  match ← takePage p with
  | none => pure ()
  | some j => do
    let a := p.page j
    let gen ← cget (a + 8) 4
    let (parent, _) ← parentOf p d.sc i
    cput a ([0x20, 2, .ofNat 8 p.kf, .ofNat 8 p.vf, .ofNat 8 p.d, .ofNat 8 (max (scaleBlock p.kf) (scaleBlock p.vf)),
      .ofNat 8 p.heads, 0])
    cputN (a + 12) 4 1
    cputN (a + 24) 8 0
    cputN (a + 32) 8 parent
    cputN (a + 40) 1 (unsgn 8 kx)
    cputN (a + 41) 1 (unsgn 8 vx)
    cputN (p.entry d.sc i) 8 (gen <<< 32 ||| j)
    cputN (p.entry d.sc i + 8) 1 0

/-- Converts elements into a plane of a page: bytes, marks and counts. -/
def writePlane (a : Nat) (r : TRef) (f : Format) (n conv : Nat) (k : Int) (xs : List (Nat × Nat × FVal)) : CacheM Unit := do
  let s ← get
  let (ws, c) := convertFor s.e r f n conv k (dieOf s.e.tile) xs s.c
  conChip fun _ => c
  ceach ws fun w => cput (a + w.off) w.data

/-- The exponent of a conversion into a page: zero before a run record is bound (R69), else the one its header holds, by
which readers remove the scale again (R186). DESIGN CHOICE (log entry 78): the rules do not say which of two serves where
the exponent in force has changed since the page was allocated. -/
def pageExp (c : Chip) (x : Nat) : Int := if c.run.recAddr.isSome then sgn 8 x else 0

/-- Stores the positions `js` of page `i` (R206). -/
def fillPage (p : Pool) (d : CacheD) (i : Nat) (js : List Nat) : CacheM Unit := do
  let ref ← cget (p.entry d.sc i) 8
  let a := p.page (ref % 2 ^ 32)
  let kx ← cget (a + 40) 1
  let vx ← cget (a + 41) 1
  let old ← cget (a + 7) 1
  let kf := (Format.ofCode p.kf).getD .fp32
  let vf := (Format.ofCode p.vf).getD .fp32
  let s ← get
  let n := d.count * p.heads * p.d
  let src (j h f : Nat) : Nat := ((128 * i + j - d.pos) * p.heads + h) * p.d + f
  let ks := mkSrc s.c s.e d.keys n
  let vs := mkSrc s.c s.e d.values n
  ceach (List.range p.heads) fun h => do
    writePlane (a + p.keyPlane h) d.keys kf (128 * p.d) d.conv (pageExp s.c kx)
      (js.flatMap fun j => (List.range p.d).map fun f => (j * p.d + f, src j h f, ks.val s.c s.e (src j h f)))
    -- A block of values spans 32 keys: its other keys are read back and encoded again.
    let vp : Src := ⟨{ TRef.plain a p.pageBytes with format := p.vf }, vf, 128 * p.d, sgn 8 vx, p.valPlane h⟩
    let all := if vf.block then (js.map (· / 32)).eraseDups.flatMap fun b => span (32 * b) (32 * b + 32) else js
    writePlane (a + p.valPlane h) d.values vf (128 * p.d) d.conv (pageExp s.c vx)
      ((List.range p.d).flatMap fun f => all.map fun j =>
        if js.contains j then (f * 128 + j, src j h f, vs.val s.c s.e (src j h f))
        else (f * 128 + j, f * 128 + j, if j < old then vp.val s.c s.e (f * 128 + j) else .zero))
  ceach js fun j => do
    let t ← cget (d.addr80 + 4 * (128 * i + j - d.pos)) 4
    cputN (a + 64 + 4 * j) 4 t
  let tokens := js.foldl (fun m j => max m (j + 1)) old
  cputN (a + 7) 1 tokens
  cputN (p.entry d.sc i + 8) 1 tokens
  cputN (a + 16) 8 p.clock

/-- The 128 token identifiers of a page. -/
def pageTokens (a : Nat) : CacheM (List Nat) :=
  (List.range 128).foldlM (fun l j => do return l ++ [← cget (a + 64 + 4 * j) 4]) []

/-- Whether tree entry `t` has this hash and parent, and its page these tokens (R204). -/
def treeMatches (p : Pool) (t hash parent : Nat) (tok : List Nat) : CacheM (Option Nat) := do
  let b := p.treeBase + 32 * t
  let h ← cget b 8
  let ref ← cget (b + 8) 8
  let par ← cget (b + 16) 8
  if h ≠ hash || par ≠ parent || ref = noPage || p.pageCount ≤ ref % 2 ^ 32 then return none
  let ts ← pageTokens (p.page (ref % 2 ^ 32))
  return if ts = tok then some ref else none

/-- The tree's page for a hash, parent and tokens. -/
def treeFind (p : Pool) (hash parent : Nat) (tok : List Nat) : CacheM (Option Nat) :=
  (p.probes hash).foldlM (fun found t => do
    if found.isSome then return found
    treeMatches p t hash parent tok) none

/-- A page that is now full gets its hash and, where no equal entry is present, a tree entry (R205). -/
def insertPage (p : Pool) (sc i : Nat) : CacheM Unit := do
  let ref ← cget (p.entry sc i) 8
  let a := p.page (ref % 2 ^ 32)
  if (← cget (a + 7) 1) = 128 then
    let tok ← pageTokens a
    match ← parentOf p sc i with
    | (parent, some prev) => do
      let hash := (blockHash (.ofNat 64 prev) tok).toNat
      cputN (a + 24) 8 hash
      if (← treeFind p hash parent tok).isNone then
        let slot ← (p.probes hash).foldlM (fun (f : Option Nat) t => do
          let r ← cget (p.treeBase + 32 * t + 8) 8
          return if f.isNone && r = noPage then some t else f) none
        match slot with
        | some t => cput (p.treeBase + 32 * t) (toBytes 8 hash ++ toBytes 8 ref ++ toBytes 8 parent ++ toBytes 8 0)
        | none => pure ()
    | _ => pure ()

/-- Advances the pool clock (R212). -/
def tickPool (p : Pool) : CacheM Unit := cputN (p.addr + 64) 8 (p.clock + 1)

/-- CACHE_WRITE (R206, R207). -/
def cacheWrite (d : CacheD) : CacheM Unit := do
  let s ← get
  let p := readPool s.c s.e d.pool
  let pages := span (d.pos / 128) (cdiv (d.pos + d.count) 128)
  let n := d.count * p.heads * p.d
  let ks := mkSrc s.c s.e d.keys n
  let vs := mkSrc s.c s.e d.values n
  modify fun s => { s with accs := s.accs ++ ks.accs s.c s.e (List.range n) ++ vs.accs s.c s.e (List.range n) ++
    [.rd (.plain d.pool 128) 0 128, .rd (.plain (p.entry d.sc 0) (16 * p.maxPages)) 0 (16 * p.maxPages)] }
  if scaleMismatch s.c s.e d.keys || scaleMismatch s.c s.e d.values then cfail 0x10
  -- A full page that its entry maps may not be touched.
  ceach pages fun i => do
    let s ← get
    match pageOf s.c s.e p (ptRef s.c s.e p d.sc i) with
    | some j => cwhen ((← cget (p.page j + 7) 1) = 128) (cfail 0x0E)
    | none => pure ()
  let kf := (Format.ofCode p.kf).getD .fp32
  let vf := (Format.ofCode p.vf).getD .fp32
  let s ← get
  let (kx, c) := writeScale d.keys.tid kf (fun _ => (List.range n).map (ks.val s.c s.e)) s.c
  let (vx, c) := writeScale d.values.tid vf (fun _ => (List.range n).map (vs.val s.c s.e)) c
  cwhen true (conChip fun _ => c)
  ceach pages fun i => do
    let s ← get
    if (pageOf s.c s.e p (ptRef s.c s.e p d.sc i)).isNone then newPage p d kx vx i
    let js := (List.range 128).filter fun j => decide (d.pos ≤ 128 * i + j) && decide (128 * i + j < d.pos + d.count)
    cwhen true (fillPage p d i js)
    cwhen true (insertPage p d.sc i)
  cwhen true (tickPool p)

/-- CACHE_MATCH (R210). -/
def cacheMatch (d : CacheD) : CacheM Unit := do
  let s ← get
  let p := readPool s.c s.e d.pool
  modify fun s => { s with accs := s.accs ++ [.rd (.plain d.pool 128) 0 128] }
  ceach (List.range p.maxPages) fun i => do
    let ref ← cget (p.entry d.sc i) 8
    cwhen (ref ≠ noPage) (cfail 0x02)
  if (← get).fail.isSome then return
  -- The parent reference and hash so far travel in the table itself: page i − 1 has just been mapped.
  let n ← cwalk (fun i => do
    let tok ← (List.range 128).foldlM (fun l j => do return l ++ [← cget (d.keys.addr + 4 * (128 * i + j)) 4]) []
    let parent ← if i = 0 then pure noPage else cget (p.entry d.sc (i - 1)) 8
    let prev ← if i = 0 then pure p.seed.toNat else cget (p.page (parent % 2 ^ 32) + 24) 8
    match ← treeFind p (blockHash (.ofNat 64 prev) tok).toNat parent tok with
    | none => return false
    | some ref => do
      let a := p.page (ref % 2 ^ 32)
      let refs ← cget (a + 12) 4
      cputN (a + 12) 4 (refs + 1)
      cputN (a + 16) 8 p.clock
      cputN (p.entry d.sc i) 8 ref
      cputN (p.entry d.sc i + 8) 1 128
      let m ← cget (p.addr + 80) 8
      cputN (p.addr + 80) 8 (m + 1)
      return true) (List.range (d.count / 128))
  cputN d.addr80 4 (128 * n)
  tickPool p

/-- CACHE_RELEASE (R211). -/
def cacheRelease (d : CacheD) : CacheM Unit := do
  let s ← get
  let p := readPool s.c s.e d.pool
  modify fun s => { s with accs := s.accs ++ [.rd (.plain d.pool 128) 0 128] }
  ceach (List.range p.maxPages) fun i => do
    let ref ← cget (p.entry d.sc i) 8
    let s ← get
    match pageOf s.c s.e p ref with
    | some j => do
      let (gen, refs, t) ← pageUse p j
      cputN (p.page j + 12) 4 (refs - 1)
      cputN (p.page j + 16) 8 p.clock
      if refs - 1 = 0 && t.isNone then freePage p j gen none
    | none => pure ()
    cwhen (ref ≠ noPage) (do
      cputN (p.entry d.sc i) 8 noPage
      cputN (p.entry d.sc i + 8) 1 0)
  tickPool p

/-- A cache operation run on a chip: what it leaves, its accesses, and its end. -/
def cacheRun (f : CacheD → CacheM Unit) (e : Entry) (c : Chip) : CacheSt :=
  (f (cacheD e.desc) ⟨c, e, [], [], none, false⟩).2

/-- Runs a cache operation whole (R212): its checks, then all its writes in one commit. -/
def runCache (op : Nat) (f : CacheD → CacheM Unit) (id : Nat) (s : State) : Host.Outcome State Fault Refusal :=
  onRunning 3 op id (fun _ e c =>
    let e := bindWindow c e
    match prepare e (cacheRun f e c).accs (fun _ _ => true) (attActive e true c) with
    | .wait c => c
    | .stop st c => attEnd e st c
    | .go c =>
      let e := curEntry c e
      let r := cacheRun f e c
      match r.fail with
      | some st => attEnd e st (if r.exhausted then attRaise e 2 c else c)
      | none =>
        let c := commitAll e r.wrs { r.c with mem := c.mem }
        attEnd e 0 (attCount e 0 0 0 1 c)) s

/-- The checks of an armed cache descriptor (R217, in the order of R216). -/
def checkCache (c : Chip) (e : Entry) (d : Desc) : Option Nat :=
  let x := cacheD d
  let op := dOpcode d
  let p := readPool c e x.pool
  let reserved := peekN c e (x.pool + 1) 3 ++ peekN c e (x.pool + 33) 7 ++ peekN c e (x.pool + 88) 40 != List.replicate 50 0 ||
    (if op = 3 then refReserved d 16 || refReserved d 48 || byt d 104 11 != 0 || fld d 115 4 4 != 0 || byt d 116 12 != 0 ||
      x.conv.testBit 3
    else if op = 4 then refReserved d 16 || byt d 48 32 != 0 || byt d 100 28 != 0
    else byt d 16 72 != 0 || byt d 96 32 != 0)
  let n := x.count * p.heads * p.d
  let write := op = 3
  let badFmt (r : TRef) : Bool := (r.fmt.map (!·.widens)).getD true || r.layout != 0
  let format := (op = 4 && ((Format.ofCode x.keys.format).isNone || 4 < x.keys.layout)) || (write && (badFmt x.keys || badFmt x.values || badShape x.keys (x.count * p.heads) p.d ||
    badShape x.values (x.count * p.heads) p.d || 2 ≤ x.conv % 4)) || (p.d != 64 && p.d != 128) ||
    (Format.ofCode p.kf).isNone || (Format.ofCode p.vf).isNone
  let extent := 31 < x.sc || (write && (2 ^ 20 < x.count || p.maxPages * 128 < x.pos + x.count ||
    overExtent x.keys (x.keys.span n) || overExtent x.values (x.values.span n))) ||
    (op = 4 && (p.maxPages * 128 < x.count || overExtent x.keys (4 * x.count)))
  let access := (write && (refAccess c x.keys false false || refAccess c x.values false false)) ||
    (op = 4 && refAccess c x.keys false false) || (op ≠ 5 && addrAccess c x.addr80 (if op = 4 then 4 else 4 * x.count) (op = 4)) ||
    addrAccess c x.pool 128 true
  if access then some 0x0E
  else if p.version ≠ 0x20 then some 0x03
  else if reserved then some 0x04
  else if format then some 0x10
  else if op ≠ 5 ∧ x.count = 0 then some 0x01
  else if extent then some 0x02
  else none

/-- CACHE_WRITE (R206). -/
def execCacheWrite (id : Nat) (s : State) : Host.Outcome State Fault Refusal := runCache 3 cacheWrite id s
/-- CACHE_MATCH (R210). -/
def execCacheMatch (id : Nat) (s : State) : Host.Outcome State Fault Refusal := runCache 4 cacheMatch id s
/-- CACHE_RELEASE (R211). -/
def execCacheRelease (id : Nat) (s : State) : Host.Outcome State Fault Refusal := runCache 5 cacheRelease id s

end Sys2Proof.Machine
end

