-- ==== Sys2Proof/Machine/Attention.lean ====
section
/-! DEFINITION. Attention segments: FWD and BWD (R167 to R199, R209, R213 to R216). -/

namespace Sys2Proof.Machine

/-! ### Descriptor and record (R214, R215) -/

structure AttD where
  bwd : Bool
  query : TRef
  out : TRef
  c : W32
  kScale : W32
  qBase : Nat
  seqLen : Nat
  kbLo : Nat
  kbHi : Nat
  rows : Nat
  pfmt : Nat
  conv : Nat
  source : Nat
  causal : Bool
  d : Nat
  window : Nat
  head : Nat
  globals : Nat
  skip : Nat
  state : Nat
  stats : Nat
  keys : TRef
  values : TRef
  keyBase : Nat
  pool : Nat
  dOut : TRef
  o : TRef
  dKeys : TRef
  dValues : TRef
  deriving DecidableEq, Repr

def attD (d : Desc) (r : BitVec 2048) : AttD :=
  { bwd := dOpcode d = 2, query := tref d 16, out := tref d 48, c := .ofNat 32 (byt d 88 4), kScale := .ofNat 32 (byt d 92 4)
    qBase := byt d 96 4, seqLen := byt d 100 4, kbLo := byt d 104 4, kbHi := byt d 108 4, rows := fld d 112 0 9
    pfmt := fld d 114 0 6, conv := fld d 115 0 4, source := byt r 1 1, causal := fld r 2 0 1 = 1, d := byt r 3 1
    window := byt r 4 2, head := byt r 6 2, globals := byt r 8 8, skip := byt r 16 8, state := byt r 24 8
    stats := byt r 32 8, keys := tref r 40, values := tref r 72, keyBase := byt r 104 4, pool := byt r 108 8
    dOut := tref r 128, o := tref r 160, dKeys := tref r 192, dValues := tref r 224 }

/-- Key blocks of the sequence, and levels of its tree (R168). -/
def AttD.nKb (a : AttD) : Nat := cdiv a.seqLen 128
def AttD.levels (a : AttD) : Nat := clog2 a.nKb

/-- Words of a row's node: m, l and o, or dQ (R173). -/
def AttD.nodeWords (a : AttD) : Nat := if a.bwd then a.d else 2 + a.d
/-- Slot plane size P (R173). -/
def AttD.plane (a : AttD) : Nat := alignUp (a.rows * 4 * a.nodeWords) 256
/-- The D plane, in the backward layout (R173). -/
def AttD.dPlane (a : AttD) : Nat := if a.bwd then alignUp (a.rows * 4) 256 else 0
def AttD.slotOff (a : AttD) (l : Nat) : Nat := 256 + a.dPlane + l * a.plane
def AttD.stateRef (a : AttD) : TRef := .plain a.state (a.slotOff (a.levels + 1))

/-- Common format of two operands (R46, R47). -/
def wideTo : Format → List Format
  | .mxE2m1 => [.mxE2m3, .mxE3m2, .mxE4m3, .fp32]
  | .mxE3m2 | .mxE2m3 => [.mxE4m3, .fp32]
  | .mxE4m3 | .mxE5m2 | .ue5m3 | .fp16 | .bf16 => [.fp32]
  | .e4m3 | .e5m2 => [.fp16, .bf16, .fp32]
  | .int8 => [.int32, .int64, .fp16, .bf16, .fp32]
  | .int32 => [.int64]
  | _ => []

def commonFormat (a b : Format) : Option Format :=
  if (wideTo a).contains b then some b
  else if (wideTo b).contains a then some a
  else [Format.fp16, .bf16, .fp32].find? fun f => (wideTo a).contains f && (wideTo b).contains f

/-- Class of the score pass, and whether both operands are widened first (R182). -/
def scoreClass (q k : Format) : Option (Nat × Bool) :=
  match rateClass q k with
  | some cls => some (cls, false)
  | none => (commonFormat q k).bind fun f => (rateClass f f).map (·, true)

/-- The key–value formats that a segment expects: of its tensors, its chunk's key reference, or its pool. -/
def AttD.kvFormats (a : AttD) (c : Chip) (e : Entry) : Nat × Nat :=
  if a.source = 2 then let p := readPool c e a.pool; (p.kf, p.vf) else (a.keys.format, a.values.format)

/-! ### Which keys a query may see (R179 to R181) -/

/-- What the record's lists hold. -/
structure Mask where
  globals : List Nat
  skipped : Nat → Bool

def AttD.mask (a : AttD) (c : Chip) (e : Entry) : Mask where
  globals := if a.globals = 0 then [] else
    ((List.range 256).map fun i => peekNat c e (a.globals + 4 * i) 4).filter (· ≠ 0xFFFFFFFF)
  skipped := fun kb => a.skip ≠ 0 && (peek c e (a.skip + kb / 8)).toNat.testBit (kb % 8)

/-- allowed() of R179. -/
def AttD.allowed (a : AttD) (m : Mask) (q k : Nat) : Bool :=
  if a.seqLen ≤ k || m.skipped (k / 128) then false
  else if a.causal && decide (q < k) then false
  else if a.window = 0 || m.globals.contains q || m.globals.contains k then true
  else if a.causal then decide (q - k < 128 * a.window)
  else decide ((q - k) + (k - q) < 128 * a.window)

/-- Whether no row sees a key of the block (R181). -/
def AttD.skips (a : AttD) (m : Mask) (kb : Nat) : Bool :=
  m.skipped kb || !(List.range a.rows).any fun r => (List.range 128).any fun i => a.allowed m (a.qBase + r) (128 * kb + i)

/-! ### Key and value sources (R184 to R186, R201) -/

/-- The keys and values of one key block: their sources, the keys that each plane holds, and the first key's place. -/
structure KvBlock where
  ks : Src
  vs : Src
  n : Nat
  first : Nat
  deriving DecidableEq, Repr

/-- A ring chunk's tokens and plane stride (R215). -/
def AttD.chunkTokens (a : AttD) (c : Chip) (e : Entry) : Nat := peekNat c e (a.keys.addr + 8) 4
def AttD.chunkStride (a : AttD) (c : Chip) (e : Entry) : Nat := peekNat c e (a.keys.addr + 16) 8

/-- Keys and values of a block; without a bound run record a per-tensor scale reads as 1 (R69, R186). -/
def AttD.kv (a : AttD) (c : Chip) (e : Entry) (kb : Nat) : KvBlock :=
  if a.source = 0 then
    let n := a.seqLen - a.keyBase
    ⟨mkSrc c e a.keys (n * a.d), mkSrc c e a.values (n * a.d), n, 128 * kb - a.keyBase⟩
  else
    let page (h : Nat) (ref : TRef) (n bk bv first : Nat) : KvBlock :=
      let fmt (o : Nat) : Format := (Format.ofCode (peekNat c e (h + o) 1)).getD .fp32
      let exp (f : Format) (o : Nat) : Int := if f.scaled && c.run.recAddr.isSome then sgn 8 (peekNat c e (h + o) 1) else 0
      ⟨⟨ref, fmt 2, n * a.d, exp (fmt 2) 40, bk⟩, ⟨ref, fmt 3, n * a.d, exp (fmt 3) 41, bv⟩, n, first⟩
    if a.source = 1 then
      let s := a.chunkStride c e
      page a.keys.addr a.keys (a.chunkTokens c e) (256 + 2 * a.head * s) (256 + (2 * a.head + 1) * s) (128 * kb - a.keyBase)
    else
      let p := readPool c e a.pool
      let b := p.page (ptRef c e p (dSc e.desc) kb % 2 ^ 32)
      page b (.plain b p.pageBytes) 128 (p.keyPlane a.head) (p.valPlane a.head) 0

/-- Element `f` of the block's key `i`, and of its value (R184); +0 beyond the source. -/
def KvBlock.key (b : KvBlock) (d : Nat) (c : Chip) (e : Entry) (i f : Nat) : FVal :=
  if b.first + i < b.n then b.ks.val c e ((b.first + i) * d + f) else .zero
def KvBlock.value (b : KvBlock) (c : Chip) (e : Entry) (i f : Nat) : FVal :=
  if b.first + i < b.n then b.vs.val c e (f * b.n + b.first + i) else .zero

/-- Elements of the block's keys and values that lie in the sequence. -/
def KvBlock.keyIdx (b : KvBlock) (d : Nat) : List Nat := span (b.first * d) (min (b.first + 128) b.n * d)
def KvBlock.valIdx (b : KvBlock) (d : Nat) : List Nat :=
  (List.range d).flatMap fun f => span (f * b.n + b.first) (f * b.n + min (b.first + 128) b.n)

/-! ### The passes of one key block (R169, R189) -/

/-- Values converted to pfmt to nearest, given back exactly (R84, R86), and whether the conversion marks. R84 and R86 name
only the rounding: the model saturates, and an MX block is 32 keys of a row in every pass (log entry 76). -/
def convP (f : Format) (xs : List W32) : List FVal × Bool :=
  if f.block then
    let bs := (chunksOf 32 (xs.map f32v)).map (convBlock f (fun _ => .nearest))
    (bs.flatMap fun b => b.elems.map (decodeBlockElem f b.scale), bs.any (·.mark))
  else
    let cs := xs.map fun x => convElem f ⟨false, .nearest⟩ (f32v x)
    (cs.map fun x => decodeElem f x.bits, cs.any (·.mark))

/-- A row of a reference: `d` values. -/
def rowVals (s : Src) (c : Chip) (e : Entry) (layout rows d r : Nat) : List FVal :=
  (List.range d).map fun f => s.val c e (storeIdx layout rows d r f)

/-- The sources of a segment that do not depend on the key block. -/
structure AttSrc where
  a : AttD
  c : Chip
  e : Entry
  m : Mask
  q : Src
  g : Src                   -- dO
  o : Src
  pf : Format

def attSrc (c : Chip) (e : Entry) : AttSrc :=
  let a := attD e.desc e.record
  let n := a.rows * a.d
  ⟨a, c, e, a.mask c e, mkSrc c e a.query n, mkSrc c e a.dOut n, mkSrc c e a.o n, (Format.ofCode a.pfmt).getD .bf16⟩

def AttSrc.query (x : AttSrc) (r : Nat) : List FVal := rowVals x.q x.c x.e x.a.query.layout x.a.rows x.a.d r
def AttSrc.dO (x : AttSrc) (r : Nat) : List FVal := rowVals x.g x.c x.e x.a.dOut.layout x.a.rows x.a.d r
def AttSrc.outRow (x : AttSrc) (r : Nat) : List FVal := rowVals x.o x.c x.e x.a.o.layout x.a.rows x.a.d r

/-- Whether an earlier segment has left D in the state's plane (R189). -/
def AttSrc.dStored (x : AttSrc) : Bool := x.a.state ≠ 0 && peekNat x.c x.e x.a.state 1 = 0x20

/-- D of a row (R86): the state's plane once a segment has written it, else computed (R189). -/
def AttSrc.dRow (x : AttSrc) (r : Nat) : W32 :=
  if x.dStored then .ofNat 32 (peekNat x.c x.e (x.a.state + 256 + 4 * r) 4)
  else wsum (List.zipWith FVal.mul (x.dO r) (x.outRow r))

/-- One row against one key block: forward leaf words, or p and ds as converted; whether a value that R77 counts is NaN or
Inf; and which words of dQ are zeros whose exact value is not (R98). -/
structure RowPass where
  node : List W32
  p : List FVal
  ds : List FVal
  bad : Bool
  tiny : List Bool
  deriving DecidableEq, Repr

/-- lse2 of a row, from the forward statistics (R189). -/
def AttSrc.lse (x : AttSrc) (r : Nat) : W32 := .ofNat 32 (peekNat x.c x.e (x.a.stats + 12 * r + 8) 4)

/-- Whether a row of the backward pass sees no key at all: its gradients are zero and mark nothing (R85, R86). -/
def AttSrc.emptyRow (x : AttSrc) (r : Nat) : Bool :=
  x.lse r = f32negInf || !(List.range x.a.seqLen).any (x.a.allowed x.m (x.a.qBase + r))

def AttSrc.pass (x : AttSrc) (kb r : Nat) : RowPass :=
  let a := x.a
  let b := a.kv x.c x.e kb
  let q := x.query r
  let ok := (List.range 128).map fun i => a.allowed x.m (a.qBase + r) (128 * kb + i)
  let keys := (List.range 128).map fun i => (List.range a.d).map (b.key a.d x.c x.e i)
  let s := keys.map fun k => wsum (List.zipWith FVal.mul q k)
  let cols := (List.range a.d).map fun f => (List.range 128).map fun i => b.value x.c x.e i f
  let live (l : List W32) : List W32 := ((l.zip ok).filter (·.2)).map (·.1)
  if !a.bwd then
    let leaf := attLeaf s cols ok a.c (fun l => (convP x.pf l).1)
    let t := s.map (f32mul · a.c)
    let fine := live s ++ live t ++
      (if leaf.m = f32negInf then [] else live (t.map (f32sub · leaf.m)) ++ leaf.l :: leaf.o)
    ⟨leaf.m :: leaf.l :: leaf.o, [], [], fine.any (!f32finite ·), []⟩
  else if x.emptyRow r then
    ⟨List.replicate a.d f32zero, List.replicate 128 (.fin false 0 0), List.replicate 128 (.fin false 0 0), false, []⟩
  else
    let lse := x.lse r
    let g := x.dO r
    let dd := x.dRow r
    let ps := (s.zip ok).map fun (si, k) => attP si a.c lse k
    let dps := (List.range 128).map fun i => wsum (List.zipWith FVal.mul g ((List.range a.d).map (b.value x.c x.e i)))
    let ds := (ps.zip dps).map fun (p, dp) => attDs p dp dd a.kScale
    let (pc, m1) := convP x.pf ps
    let (dc, m2) := convP x.pf ds
    let dq := (List.range a.d).map fun f => blockResult (List.zipWith FVal.mul dc (keys.map fun k => k.getD f .zero))
    let t := s.map (f32mul · a.c)
    let fine := live s ++ live t ++ live (t.map (f32sub · lse)) ++ live ps ++ dps ++ ds ++ dq.map resultValue
    ⟨dq.map resultValue, pc, dc, m1 || m2 || !f32finite dd || fine.any (!f32finite ·), dq.map resultTiny⟩

/-! ### Row state (R170 to R173) -/

/-- A node for every row, or EMPTY for every row. -/
abbrev Node := Option (List (List W32))

/-- Combines two nodes, the left one of lower blocks (R84, R79). -/
def AttD.join (a : AttD) (x y : Node) : Node :=
  match x, y with
  | none, y => y
  | x, none => x
  | some x, some y =>
    some (List.zipWith (fun u v =>
      if a.bwd then List.zipWith f32add u v
      else
        let z := attCombine ⟨u.getD 0 0, u.getD 1 0, u.drop 2⟩ ⟨v.getD 0 0, v.getD 1 0, v.drop 2⟩
        z.m :: z.l :: z.o) x y)

/-- Whether combining two nodes makes a NaN or an Inf: in the combined node, or in x.m − m (R77). -/
def AttD.joinBad (a : AttD) (x y : Node) : Bool :=
  match x, y with
  | some u, some v =>
    ((u.zip v).any fun (u, v) => !a.bwd && u.getD 0 0 ≠ f32negInf && v.getD 0 0 ≠ f32negInf &&
      !(f32finite (f32sub (u.getD 0 0) (f32max (u.getD 0 0) (v.getD 0 0))) &&
        f32finite (f32sub (v.getD 0 0) (f32max (u.getD 0 0) (v.getD 0 0))))) ||
    (((a.join x y).getD []).any fun w => (a.bwd || w.getD 0 0 ≠ f32negInf) && w.any (!f32finite ·))
  | _, _ => false

/-- The slots while a segment runs: which levels hold a node, the nodes, the levels read and written, and whether combining
them has made a NaN or Inf. -/
structure Slots where
  lo : Nat
  nodes : List Node
  read : List Nat
  written : List Nat
  bad : Bool
  deriving DecidableEq, Repr

/-- Carries a node from level `l` up: the levels set in 2^L − (kb + 1) that it meets are combined with it. -/
def AttD.carry (a : AttD) (count : Nat) (s : Slots) (x : Node) (l : Nat) : Nat → Slots
  | 0 => { s with nodes := s.nodes.set l x, written := l :: s.written }
  | f + 1 =>
    if count.testBit l then
      a.carry count { s with nodes := s.nodes.set l none, read := l :: s.read, written := s.written.erase l
                             bad := s.bad || a.joinBad x (s.nodes.getD l none) }
        (a.join x (s.nodes.getD l none)) (l + 1) f
    else { s with nodes := s.nodes.set l x, written := l :: s.written.erase l }

/-- Adds the leaf of key block `kb` (R171). -/
def AttD.add (a : AttD) (s : Slots) (kb : Nat) (x : Node) : Slots :=
  { a.carry (2 ^ a.levels - (kb + 1)) s x 0 (a.levels + 1) with lo := kb }

/-- The slots a segment starts from (R171, R174): read from the state, or EMPTY where nothing precedes it. -/
def AttSrc.slots (x : AttSrc) : Slots :=
  let a := x.a
  let held := a.state ≠ 0 && peekNat x.c x.e a.state 1 = 0x20
  let mask := peekNat x.c x.e (a.state + 20) 4
  let load (l : Nat) : Node :=
    if held && (2 ^ a.levels - a.kbHi).testBit l && !mask.testBit l then
      some ((List.range a.rows).map fun r => (List.range a.nodeWords).map fun w =>
        .ofNat 32 (peekNat x.c x.e (a.state + a.slotOff l + 4 * (r * a.nodeWords + w)) 4))
    else none
  ⟨a.kbHi, (List.range (a.levels + 1)).map load, [], [], false⟩

/-- The leaf of a key block: EMPTY where it is skipped, or where every row's leaf is EMPTY (R84, R172, R181). -/
def AttSrc.leaf (x : AttSrc) (kb : Nat) : Node :=
  if x.a.skips x.m kb then none else
  let rows := (List.range x.a.rows).map fun r => (x.pass kb r).node
  if !x.a.bwd && rows.all (·.head? = some f32negInf) then none else some rows

/-- The slots after the segment's key blocks, in descending order (R170). -/
def AttSrc.final (x : AttSrc) : Slots :=
  (span x.a.kbLo x.a.kbHi).reverse.foldl (fun s kb => x.a.add s kb (x.leaf kb)) x.slots

/-! ### Start of a segment (R174, R175, R185, R209) -/

/-- Page-table entries in the segment's range. -/
def AttD.entries (a : AttD) : List Nat := if a.source = 2 then span a.kbLo a.kbHi else []

/-- What the start checks read. -/
def AttD.startAccs (a : AttD) (c : Chip) (e : Entry) : List Acc :=
  (if a.state ≠ 0 then [Acc.rd a.stateRef 0 28, Acc.wr a.stateRef 2 1] else []) ++
  (if a.source = 1 then [Acc.rd a.keys 0 64] else []) ++
  (if a.source = 2 then
    let p := readPool c e a.pool
    Acc.rd (.plain a.pool 128) 0 128 ::
      (a.entries.map fun i => Acc.rd (.plain (p.entry (dSc e.desc) i) 16) 0 16) ++
      (a.entries.filterMap fun i => (pageOf c e p (ptRef c e p (dSc e.desc) i)).map fun j =>
        Acc.rd (.plain (p.page j) 64) 0 64)
  else [])

/-- R174: whether the state does not fit the segment. -/
def AttD.stateBad (a : AttD) (c : Chip) (e : Entry) : Bool :=
  if a.state = 0 then a.kbLo ≠ 0 || a.kbHi ≠ a.nKb else
  let g (o n : Nat) : Nat := peekNat c e (a.state + o) n
  if g 0 1 = 0 then a.kbHi ≠ a.nKb
  else g 0 1 ≠ 0x20 || g 1 1 ≠ (if a.bwd then 2 else 1) || g 8 4 ≠ a.nKb || g 12 4 ≠ a.qBase || g 16 2 ≠ a.rows ||
    g 18 1 ≠ a.d || g 4 4 ≠ a.kbHi

/-- R185: whether a key–value header differs from what the descriptor expects. -/
def AttD.headerBad (a : AttD) (c : Chip) (e : Entry) : Bool :=
  let (kf, vf) := a.kvFormats c e
  let bad (h : Nat) : Bool :=
    let k := peekNat c e (h + 2) 1
    let v := peekNat c e (h + 3) 1
    let vOk := if a.source = 1 then
        match Format.ofCode a.pfmt, Format.ofCode v with
        | some f, some g => (rateClass f g).isSome
        | _, _ => false
      else decide (v = vf)
    k ≠ kf || !vOk || peekNat c e (h + 4) 1 ≠ a.d || peekNat c e (h + 5) 1 ≠ max (scaleBlock k) (scaleBlock v)
  if a.source = 1 then bad a.keys.addr
  else if a.source = 2 then
    let p := readPool c e a.pool
    a.entries.any fun i =>
      match pageOf c e p (ptRef c e p (dSc e.desc) i) with
      | some j => bad (p.page j)
      | none => false
  else false

/-- R209: the first dropped entry in the range. -/
def AttD.dropped (a : AttD) (c : Chip) (e : Entry) : Option Nat :=
  let p := readPool c e a.pool
  a.entries.find? fun i => (pageOf c e p (ptRef c e p (dSc e.desc) i)).isNone

/-- Sets or clears busy in the header (R175). -/
def AttD.setBusy (a : AttD) (b : Bool) (c : Chip) : Chip :=
  if a.state = 0 then c else
  writeByte (a.state + 2) (.ofNat 8 ((readByte c (a.state + 2)).toNat / 2 * 2 + b2n b)) c

/-- Lets go of what a running segment holds: busy, and ATT_STATUS.active unless another one runs on the tile (R175, R195,
R218). -/
def attRelease (e : Entry) (st : Nat) (c : Chip) : Chip :=
  let c := if e.round = 2 then (attD e.desc e.record).setBusy false c else c
  onPtile e (fun p c => c.setTile p { c.tile p with attLast := .ofNat 8 st, attActive := othersRun e c }) c

/-- Ends a segment with a status; busy is cleared (R175). -/
def segEnd (e0 : Entry) (st : Nat) (c : Chip) : Chip :=
  let e := curEntry c e0
  finish e st (attRelease e st c)

/-- The start checks of one segment, and busy set. -/
def segStart (e0 : Entry) (c : Chip) : Chip :=
  let e := bindWindow c (curEntry c e0)
  let a := attD e.desc e.record
  match prepare e (a.startAccs c e) (fun _ _ => false) (attActive e true c) with
  | .wait c => c
  | .stop st c => segEnd e st c
  | .go c =>
    let e := curEntry c e
    if a.stateBad c e then segEnd e 0x02 c
    else if a.state ≠ 0 && peekNat c e (a.state + 2) 1 % 2 = 1 then segEnd e 0x05 c
    else if a.headerBad c e then segEnd e 0x10 (attRaise e 0 c)
    else
      let c := setEntry (holdReads c e ((a.startAccs c e).filter fun x => x.ref != a.stateRef)) c
      match a.dropped c e with
      | some i =>
        let drop : BitVec 37 := .ofNat 37 ((dSc e.desc % 32) <<< 32 ||| i)
        segEnd e 0x0E (attRaise e 1 (onPtile e (fun p c => c.setTile p { c.tile p with attLastDrop := drop }) c))
      | none => setEntry { curEntry c e with round := 2 } (a.setBusy true c)

/-! ### The commit of a segment (R176, R177) -/

/-- Accesses of the key blocks [lo, hi) and of what every block needs. -/
def AttSrc.blockAccs (x : AttSrc) (lo hi : Nat) : List Acc :=
  let a := x.a
  let n := a.rows * a.d
  (if a.globals = 0 then [] else [Acc.rd (.plain a.globals 1024) 0 1024]) ++
  (if a.skip = 0 then [] else [Acc.rd (.plain a.skip (cdiv a.nKb 8)) (lo / 8) (cdiv hi 8 - lo / 8)]) ++
  x.q.accs x.c x.e (List.range n) ++
  (if a.bwd then x.g.accs x.c x.e (List.range n) ++
    (if x.dStored then [Acc.rd a.stateRef 256 (4 * a.rows)] else x.o.accs x.c x.e (List.range n)) ++
    [Acc.rd (.plain a.stats (12 * a.rows)) 0 (12 * a.rows)] else []) ++
  ((span lo hi).filter fun kb => !a.skips x.m kb).flatMap fun kb =>
    let b := a.kv x.c x.e kb
    b.ks.accs x.c x.e (b.keyIdx a.d) ++ b.vs.accs x.c x.e (b.valIdx a.d)

/-- Query blocks of the dK and dV node lists (R191). -/
def AttD.qBlocks (a : AttD) : Nat × Nat := (a.qBase / 128, cdiv a.rows 128)

/-- One element of a node-list destination: the planes' values at (key, feature) (R191). -/
def AttSrc.dNode (x : AttSrc) (pick : RowPass → List FVal) (row : Nat → List FVal) (kb i f : Nat) : List (BitVec 33) :=
  let a := x.a
  let (q0, n) := a.qBlocks
  let kt := cdiv a.seqLen 128
  if a.skips x.m kb then (nodeList kt q0 (q0 + n)).map fun _ => 0 else
  outNodes 2 kt q0 n ((List.range kt).map fun qb =>
    if q0 ≤ qb ∧ qb < q0 + n then
      blockResult ((span (128 * (qb - q0)) (min (128 * (qb - q0) + 128) a.rows)).map fun r =>
        ((pick (x.pass kb r)).getD i .zero).mul ((row r).getD f .zero))
    else 0)

/-- Every element of a node-list destination, by index. -/
def AttSrc.dList (x : AttSrc) (pick : RowPass → List FVal) (row : Nat → List FVal) : List (Nat × BitVec 33) :=
  let a := x.a
  let keys := (a.kbHi - a.kbLo) * 128
  (List.range keys).flatMap fun k => (List.range a.d).flatMap fun f =>
    ((x.dNode pick row (a.kbLo + k / 128) (k % 128) f).zipIdx).map fun (v, p) => (p * (keys * a.d) + k * a.d + f, v)

/-- Their FP32 values in order of storage, and how many are zeros whose exact value is not (R98). -/
def listValues (l : List (Nat × BitVec 33)) : List (Nat × W32) := (sortBy (·.1) l).map fun y => (y.1, resultValue y.2)
def listTiny (l : List (Nat × BitVec 33)) : Nat := (l.filter fun y => resultTiny y.2).length

/-- Elements of a node-list destination. -/
def AttD.dElems (a : AttD) : Nat :=
  (nodeList (cdiv a.seqLen 128) a.qBlocks.1 (a.qBlocks.1 + a.qBlocks.2)).length * ((a.kbHi - a.kbLo) * 128 * a.d)

/-- The last node of each row at finish (R171): the root. -/
def AttSrc.root (x : AttSrc) (s : Slots) : List (List W32) :=
  (s.nodes.getD x.a.levels none).getD
    ((List.range x.a.rows).map fun _ =>
      if x.a.bwd then List.replicate x.a.d f32zero else f32negInf :: f32zero :: List.replicate x.a.d f32zero)

/-- The rows written at finish, and their statistics (R84, R177, R190). -/
def AttSrc.results (x : AttSrc) (s : Slots) : List (List W32 × List W32) :=
  (x.root s).map fun w =>
    if x.a.bwd then (w, [])
    else
      let (o, m, l, lse) := attFinish ⟨w.getD 0 0, w.getD 1 0, w.drop 2⟩
      (o, [m, l, lse])

/-- The header that a segment leaves (R173). -/
def AttD.header (a : AttD) (s : Slots) (id : Nat) : List Byte :=
  let count := 2 ^ a.levels - s.lo
  let mask := (List.range (a.levels + 1)).foldl (fun m l =>
    if count.testBit l && (s.nodes.getD l none).isNone then m ||| 2 ^ l else m) 0
  toBytes 1 0x20 ++ toBytes 1 (if a.bwd then 2 else 1) ++ toBytes 1 0 ++ toBytes 1 a.levels ++ toBytes 4 s.lo ++
  toBytes 4 a.nKb ++ toBytes 4 a.qBase ++ toBytes 2 a.rows ++ toBytes 1 a.d ++ toBytes 1 0 ++ toBytes 4 mask ++ toBytes 4 id ++
  toBytes 228 0

/-- Levels whose slots the commit writes: nodes stored, none at finish (R172). -/
def AttD.stored (a : AttD) (s : Slots) : List Nat :=
  if a.state = 0 || a.kbLo = 0 then [] else s.written.eraseDups.filter fun l => (s.nodes.getD l none).isSome

/-- The writes of the row state (R173, R176). -/
def AttSrc.stateWrites (x : AttSrc) (s : Slots) : List Wr :=
  let a := x.a
  if a.state = 0 then [] else
  let words (l : List W32) : List Byte := l.flatMap fun w => toBytes 4 w.toNat
  (a.stored s).map (fun l => ⟨a.stateRef, a.slotOff l, words (((s.nodes.getD l none).getD []).flatten), false⟩) ++
  (if a.bwd && peekNat x.c x.e a.state 1 = 0 then [⟨a.stateRef, 256, words ((List.range a.rows).map x.dRow), false⟩] else []) ++
  [⟨a.stateRef, 0, a.header s (dId x.e.desc), false⟩]

/-- Accesses of the commit beside those of the key blocks. -/
def AttSrc.commitAccs (x : AttSrc) (s : Slots) : List Acc :=
  let a := x.a
  let held := s.read.eraseDups.filter fun l => (x.slots.nodes.getD l none).isSome
  (if a.state = 0 then [] else held.map fun l => Acc.rd a.stateRef (a.slotOff l) (a.rows * 4 * a.nodeWords)) ++
  (x.stateWrites s).map (fun w => Acc.wr w.ref w.off w.data.length) ++
  (if a.kbLo = 0 then
    wrAccs a.out ((a.out.fmt).getD .fp32) (a.rows * a.d) (List.range (a.rows * a.d)) ++
    (if a.bwd then [] else [Acc.wr (.plain a.stats (12 * a.rows)) 0 (12 * a.rows)])
  else []) ++
  (if a.bwd then [Acc.wr a.dKeys 0 (4 * a.dElems), Acc.wr a.dValues 0 (4 * a.dElems)] else []) ++
  (if a.source = 2 then
    let p := readPool x.c x.e a.pool
    Acc.wr (.plain a.pool 128) 64 8 :: a.entries.map fun i =>
      Acc.wr (.plain (p.page (ptRef x.c x.e p (dSc x.e.desc) i % 2 ^ 32)) 64) 16 8
  else [])

/-- A paged segment updates last_use of its pages and the pool clock (R212). -/
def AttSrc.poolWrites (x : AttSrc) : List Wr :=
  let a := x.a
  if a.source ≠ 2 then [] else
  let p := readPool x.c x.e a.pool
  let clock := (readPool x.c { x.e with held := [] } a.pool).clock
  (a.entries.map fun i =>
    let b := p.page (ptRef x.c x.e p (dSc x.e.desc) i % 2 ^ 32)
    (⟨.plain b 64, 16, toBytes 8 clock, false⟩ : Wr)) ++
  [⟨.plain a.pool 128, 64, toBytes 8 (clock + 1), false⟩]

/-- Whether decoding the operands of the segment widens a NaN or Inf, as (query, keys, values). -/
def AttSrc.widens (x : AttSrc) (kb : Nat) : Bool × Bool × Bool :=
  let a := x.a
  let b := a.kv x.c x.e kb
  let wide := (scoreClass x.q.f b.ks.f).getD (8, false)
  let nf (s : Src) (cls : Nat) (all : Bool) (idx : List Nat) : Bool :=
    (s.f.block || all || (cls = 16 && s.f.scaled)) && idx.any fun i => !(s.raw x.c x.e i).finite
  (nf x.q wide.1 wide.2 (List.range (a.rows * a.d)), nf b.ks wide.1 wide.2 (b.keyIdx a.d),
    nf b.vs ((rateClass x.pf b.vs.f).getD 8) false (b.valIdx a.d))

/-- The output values of a segment that finishes its rows, by element. -/
def AttSrc.outValues (x : AttSrc) (s : Slots) : List (Nat × Nat × FVal) :=
  if x.a.kbLo = 0 then ((x.results s).zipIdx).flatMap fun (w, r) =>
    (w.1.zipIdx).map fun (v, f) => (r * x.a.d + f, r * x.a.d + f, f32v v)
  else []

/-- What a segment writes: row state, output, statistics, node lists, and the pool's use words. -/
def segWrites (c : Chip) (e : Entry) : List Wr :=
  let x := attSrc c e
  let a := x.a
  let s := x.final
  let f := (a.out.fmt).getD .fp32
  let xs := x.outValues s
  x.stateWrites s ++
  (if a.kbLo = 0 then
    wrsOf a.out (convertOut c.run.step a.out f (a.rows * a.d) a.conv
      (writeScale a.out.tid f (fun _ => xs.map (·.2.2)) c).1 xs).bytes
  else []) ++
  (if a.kbLo = 0 && !a.bwd then
    [⟨.plain a.stats (12 * a.rows), 0, (x.results s).flatMap fun w => w.2.flatMap fun v => toBytes 4 v.toNat, false⟩]
  else []) ++
  (if a.bwd then
    (f32For a.dKeys (listValues (x.dList (·.ds) x.query)) c).1 ++ (f32For a.dValues (listValues (x.dList (·.p) x.dO)) c).1
  else []) ++ x.poolWrites

/-- How many elements of an FP32 output are zeros whose exact value is not (R98): a product at finish, or the only leaf of a
dQ. -/
def AttSrc.outTiny (x : AttSrc) (s : Slots) : Nat :=
  if x.a.kbLo ≠ 0 then 0
  else if x.a.bwd then
    if x.a.nKb ≠ 1 || x.a.skips x.m 0 then 0 else ((List.range x.a.rows).flatMap fun r => (x.pass 0 r).tiny.filter id).length
  else ((x.root s).flatMap fun w => (w.drop 2).filter fun o =>
    !f32isZero (w.getD 1 0) && mulTiny o (f32recip (w.getD 1 0))).length

/-- The whole commit of a segment: marks, state, output, node lists, pool and counters (R176). -/
def segCommit (e : Entry) (c : Chip) : Chip :=
  let x := attSrc c e
  let a := x.a
  let s := x.final
  let die := dieOf e.tile
  let blocks := (span a.kbLo a.kbHi).filter fun kb => !a.skips x.m kb
  let c := blocks.foldl (fun c kb =>
    let (wq, wk, wv) := x.widens kb
    let c := markIf wq e .conversion a.query.tid die c
    let c := markIf wk e .conversion a.keys.tid die c
    let c := markIf wv e .conversion a.values.tid die c
    markIf ((List.range a.rows).any fun r => (x.pass kb r).bad) e .attention a.out.tid die c) c
  let res := if a.kbLo = 0 then x.results s else []
  let xs := x.outValues s
  let bad := s.bad || res.any (fun w => w.1.any (!f32finite ·) || (!w.2.isEmpty && !f32isZero (w.2.getD 1 0) && w.2.any (!f32finite ·))) ||
    (s.written.any fun l => ((s.nodes.getD l none).getD []).any fun w =>
      if a.bwd then w.any (!f32finite ·) else w.getD 0 0 ≠ f32negInf && w.any (!f32finite ·))
  let c := markIf bad e .attention a.out.tid die c
  let f := (a.out.fmt).getD .fp32
  let (k, c) := if a.kbLo = 0 then writeScale a.out.tid f (fun _ => xs.map (·.2.2)) c else (0, c)
  let (w1, c) := if a.kbLo = 0 then convertFor e a.out f (a.rows * a.d) a.conv k die xs c (x.outTiny s) else ([], c)
  let w2 : List Wr := if a.kbLo = 0 && !a.bwd then
      [⟨.plain a.stats (12 * a.rows), 0, res.flatMap fun w => w.2.flatMap fun v => toBytes 4 v.toNat, false⟩] else []
  let dk := if a.bwd then x.dList (·.ds) x.query else []
  let dv := if a.bwd then x.dList (·.p) x.dO else []
  let c := markIf (dk.any fun y => !f32finite (resultValue y.2)) e .attention a.dKeys.tid die c
  let c := markIf (dv.any fun y => !f32finite (resultValue y.2)) e .attention a.dValues.tid die c
  let (w3, c) := if a.bwd then f32For a.dKeys (listValues dk) c (listTiny dk) else ([], c)
  let (w4, c) := if a.bwd then f32For a.dValues (listValues dv) c (listTiny dv) else ([], c)
  let c := commitAll (curEntry c e) (x.stateWrites s ++ w1 ++ w2 ++ w3 ++ w4 ++ x.poolWrites) c
  attCount e 1 blocks.length (a.kbHi - a.kbLo - blocks.length) 0 c

/-- Key blocks [lo, hi) of the group in progress: they descend from the highest (R193). -/
def segRange (e : Entry) : Nat × Nat :=
  let a := attD e.desc e.record
  (max a.kbLo (a.kbHi - 16 * e.groups - 16), a.kbHi - 16 * e.groups)

/-- Whether the group in progress is the last. -/
def segLast (e : Entry) : Bool := decide ((segRange e).1 ≤ (attD e.desc e.record).kbLo)

/-- Whether a member reads a copy whose table entry holds another identifier (R262). -/
def segBad (c : Chip) (e : Entry) (ms : List Entry) : Bool := ms.any fun y0 =>
  let y := { y0 with win := e.win }
  let b := attD y.desc y.record
  scaleMismatch c y b.query || (b.source = 0 && (scaleMismatch c y b.keys || scaleMismatch c y b.values)) ||
    (b.bwd && (scaleMismatch c y b.dOut || scaleMismatch c y b.o))

/-- The sources of each member, as the batch sees memory. -/
def segSrcs (c : Chip) (e : Entry) (ms : List Entry) : List AttSrc :=
  ms.map fun y => attSrc c { y with win := e.win, ext := e.ext, held := e.held }

/-- What a group brings into tile SRAM; earlier groups' key blocks are there (R193). -/
def segReads (c : Chip) (e : Entry) (ms : List Entry) : List Acc :=
  (segSrcs c e ms).flatMap fun x => x.blockAccs (segRange e).1 (segRange e).2

/-- What a group reads and, when it is the last, writes. -/
def segAccs (c : Chip) (e : Entry) (ms : List Entry) : List Acc :=
  segReads c e ms ++
  if segLast e then (segSrcs c (holdReads c e (segReads c e ms)) ms).flatMap fun x => x.commitAccs x.final else []

/-- Blocks of its sealed destinations that a segment writes only in part (R351). -/
def segPart (ms : List Entry) : TRef → Nat → Bool := fun q b =>
  ms.any fun y =>
    let a := attD y.desc y.record
    (q = a.out && partOf a.out (a.out.fmt.getD .fp32) (a.rows * a.d) q b) ||
      ((q = a.dKeys || q = a.dValues) && a.bwd && !coversBlock [(q, 0, 4 * a.dElems)] q b)

/-- One commit group of 16 key blocks of a segment or a batch (R193, R213): the last one commits. -/
def segGroup (e0 : Entry) (c : Chip) : Chip :=
  let ms := membersOf c (curEntry c e0)
  let e := bindWindow c (batchEntry (curEntry c e0) ms)
  let endAll (st : Nat) (c : Chip) : Chip := ms.foldl (fun c x => segEnd x st c) c
  if segBad c e ms then endAll 0x10 c else
  match prepare e (segAccs c e ms) (segPart ms) c with
  | .wait c => c
  | .stop st c => endAll st c
  | .go c =>
    let e := holdReads c e (segReads c e ms)
    let join (x : Entry) (c : Chip) : Entry := { curEntry c x with win := e.win, ext := e.ext, held := e.held }
    if segLast e then ms.foldl (fun c x => segEnd x 0 (segCommit (join x c) c)) c
    else ms.foldl (fun c x => setEntry { join x c with groups := e.groups + 1 } c) c

/-- The reads that gather a batched segment's queries (R134, R213). -/
def queryAccs (c : Chip) (e : Entry) : List Acc :=
  let a := attD e.desc e.record
  (mkSrc c e a.query (a.rows * a.d)).accs c e (List.range (a.rows * a.d))

/-- One step of a segment: its start, or a commit group. -/
def segStep (e : Entry) (c : Chip) : Chip :=
  let ms := membersOf c e
  if ms.all (·.round = 2) then segGroup e c
  else ms.foldl (fun c x => if x.round = 2 then c else segStart x c) c

/-- `n` commit groups, until the operation ends or waits; a gathering batch does not run. -/
def segSteps (id op : Nat) : Nat → Chip → Chip
  | 0, c => c
  | n + 1, c =>
    match running c id 3 op with
    | some e => if e.lead.isSome && e.round = 0 then c else segSteps id op n (segStep e c)
    | none => c

/-- A segment commits up to `groups` groups; its start counts as one more. -/
def runSegment (op id groups : Nat) (s : State) : Host.Outcome State Fault Refusal :=
  onChip (fun _ c => segSteps id op (groups + 1) c) s

/-! ### Checks at arming (R216) -/

/-- Whether a list of global positions ascends strictly up to its padding (R180). -/
def ascending : List Nat → Bool
  | [] => true
  | [_] => true
  | x :: y :: r => (decide (x < y) || (x = 0xFFFFFFFF && y = 0xFFFFFFFF)) && ascending (y :: r)

/-- Bytes of a ring chunk that the descriptor's own counts reach at least: the header, the planes of the heads before, and
the head's keys; the stride stands in the chunk, which arming does not read (R197, R391; log entry 77). -/
def AttD.ringReach (a : AttD) : Nat :=
  let n := (min a.seqLen (128 * a.kbHi) - a.keyBase) * a.d
  256 + 2 * a.head * alignUp (a.keys.span n) 256 + a.keys.span n

/-- The checks of an armed FWD or BWD descriptor; FWD does not read the fields that R215 names for BWD (log entry 76). -/
def checkAttention (c : Chip) (e : Entry) (d : Desc) (rec : BitVec 2048) (deadlines : Bool) : Option Nat :=
  let a := attD d rec
  let nq := a.rows * a.d
  let nk := (a.seqLen - a.keyBase) * a.d
  let beyond (x n : Nat) : Bool := n ≠ 0 && overlaps a.out.addr a.out.ext x n
  let access := byt d 80 8 % 256 != 0 || beyond a.query.addr a.query.ext ||
    beyond a.state (if a.state = 0 then 0 else a.slotOff (a.levels + 1)) || beyond a.stats (12 * a.rows) ||
    a.state % 256 != 0 || addrAccess c a.state (if a.state = 0 then 0 else a.slotOff (a.levels + 1)) true ||
    addrAccess c a.stats (12 * a.rows) (!a.bwd) || addrAccess c a.globals 1024 false ||
    addrAccess c a.skip (cdiv a.nKb 8) false || addrAccess c a.pool 128 true || refAccess c a.query false false || refAccess c a.out true false ||
    (a.source ≠ 2 && refAccess c a.keys false false) || (a.source = 0 && refAccess c a.values false false) ||
    (a.bwd && (refAccess c a.dOut false false || refAccess c a.o false false || refAccess c a.dKeys true false ||
      refAccess c a.dValues true false))
  let deadline := fld d 116 22 10
  let reserved := fld d 112 9 7 != 0 || fld d 114 6 2 != 0 || fld d 115 4 4 != 0 || fld d 116 0 22 != 0 ||
    byt d 120 8 != 0 || a.conv.testBit 3 || ((a.bwd || !deadlines) && deadline != 0) || refReserved d 16 ||
    refReserved d 48 || 2 < a.source || fld rec 2 1 7 != 0 || byt rec 116 12 != 0 ||
    (a.source = 2 && (byt rec 40 32 != 0 || a.keyBase != 0)) || (a.source ≠ 0 && byt rec 72 32 != 0) ||
    (a.source ≠ 2 && a.pool != 0) || refReserved rec 40 || refReserved rec 72 ||
    (a.bwd && (refReserved rec 128 || refReserved rec 160 || refReserved rec 192 || refReserved rec 224))
  let (kf, vf) := a.kvFormats c e
  let score := match a.query.fmt, Format.ofCode kf with
    | some q, some k => scoreClass q k
    | _, _ => none
  let pOk := match Format.ofCode a.pfmt with
    | some f => (f == .bf16 || f == .fp16 || f == .mxE4m3) &&
        (a.source = 1 || ((Format.ofCode vf).map fun v => (rateClass f v).isSome).getD false)
    | none => false
  let dOk := a.d = 64 || a.d = 128
  let format := !dOk || score.isNone || !pOk || (a.source = 0 && (a.keys.layout != 0 || a.values.layout != 1)) ||
    (a.bwd && a.source = 2) || badShape a.query a.rows a.d || badShape { a.out with layout := 0 } a.rows a.d ||
    4 < a.out.layout || (a.source = 1 && 4 < a.keys.layout) ||
    2 ≤ a.conv % 4 || (a.source = 0 && (badShape a.keys (a.seqLen - a.keyBase) a.d ||
      badShape a.values (a.seqLen - a.keyBase) a.d)) ||
    (a.bwd && (badShape a.dOut a.rows a.d || badShape a.o a.rows a.d || a.dKeys.format != 0 ||
      a.dValues.format != 0 || 4 < a.dKeys.layout || 4 < a.dValues.layout))
  let cap := rowsCap ((score.map (·.1)).getD 8)
  let globals := if a.globals = 0 then [] else (List.range 256).map fun i => peekNat c e (a.globals + 4 * i) 4
  let extent := cap < a.rows || 2 ^ 24 < a.seqLen || a.kbHi ≤ a.kbLo || a.nKb < a.kbHi ||
    (a.state = 0 && (a.kbLo ≠ 0 || a.kbHi ≠ a.nKb)) || !ascending globals ||
    (a.skip ≠ 0 && !accessible c a.skip (cdiv a.nKb 8) false) || (a.bwd && a.qBase % 128 != 0) || 8192 < a.window ||
    (a.source ≠ 2 && 128 * a.kbLo < a.keyBase) || overExtent a.query (a.query.span nq) ||
    overExtent a.out (a.out.span nq) ||
    (a.source = 0 && (overExtent a.keys (a.keys.span nk) || overExtent a.values (a.values.span nk))) ||
    (a.source = 1 && overExtent a.keys a.ringReach) ||
    (a.bwd && (overExtent a.dOut (a.dOut.span nq) || overExtent a.o (a.o.span nq) ||
      overExtent a.dKeys (4 * a.dElems) || overExtent a.dValues (4 * a.dElems)))
  let version := byt rec 0 1
  if access then some 0x0E
  else if version ≠ 0x20 ∧ version ≠ 0x21 then some 0x03
  else if reserved then some 0x04
  else if format then some 0x10
  else if a.rows = 0 ∨ a.seqLen = 0 then some 0x01
  else if extent then some 0x02
  else none

/-- Segments that may gather into one query block (R213). -/
def attBatchable (c : Chip) (x y : Entry) : Bool :=
  let a := attD x.desc x.record
  let b := attD y.desc y.record
  let p := readPool c x a.pool
  !a.bwd && !b.bwd && dSc x.desc != dSc y.desc && fld x.desc 116 22 10 != 0 && fld y.desc 116 22 10 != 0 && a.source = 2 && b.source = 2 &&
    a.pool = b.pool && a.kbLo = b.kbLo && a.kbHi = b.kbHi && a.head = b.head && a.query.format = b.query.format &&
    a.out.format = b.out.format && a.pfmt = b.pfmt && a.c = b.c && a.kScale = b.kScale && samePlace x y &&
    (span a.kbLo a.kbHi).all fun i => ptRef c x p (dSc x.desc) i = ptRef c y p (dSc y.desc) i

/-- FWD (R169). -/
def execFwd (id groups : Nat) (s : State) : Host.Outcome State Fault Refusal := runSegment 1 id groups s
/-- BWD (R189). -/
def execBwd (id groups : Nat) (s : State) : Host.Outcome State Fault Refusal := runSegment 2 id groups s

end Sys2Proof.Machine
end

