-- ==== Sys2Proof/Machine/Link.lean ====
section
/-! DEFINITION. The sending side of the fabric: packets, credits, frames and remote requests (R449 to R457, R463, R464). -/

namespace Sys2Proof.Machine

/-! ### Ports -/

def Chip.port (c : Chip) (p : Nat) : Port := fget Port.reset c.fab.ports p
def Chip.setPort (c : Chip) (p : Nat) (x : Port) : Chip := { c with fab := { c.fab with ports := fset Port.reset c.fab.ports p x } }
def onPort (p : Nat) (f : Port → Port) (c : Chip) : Chip := c.setPort p (f (c.port p))

/-- Ports in state Active (R458), rising. -/
def activePorts (c : Chip) : List Nat := (List.range 16).filter fun p => decide ((c.port p).state.toNat = 3)

/-- Virtual channel of a packet type (R452). -/
def vcOf : PktType → Nat
  | .write | .read | .flag => 0
  | .readData | .ack => 1
  | .coll _ => 2
  | _ => 3

/-- Slots of a packet (R452). -/
def slotsOf (p : Packet) : Nat := max 1 (cdiv p.body.length 256)

/-- Credits left on a virtual channel: 256 at the start (R457). -/
def Port.credits (x : Port) (vc : Nat) : Nat := fget 256 x.credit vc

/-- Whether a port may send a packet now (R455, R457, R458, R463, R469). -/
def mayTransmit (m : Mgt) (x : Port) (t : PktType) (p : Packet) : Bool :=
  let vc := vcOf t
  x.state = 3 && decide (x.replay.length < 128) && decide (slotsOf p ≤ x.credits vc) &&
    (vc = 3 || (m.rankValid && x.lockedGbps ≠ 0))

/-- Type code of a slot header (R452). -/
def typeCode : PktType → Nat
  | .write => 0 | .read => 1 | .readData => 2 | .ack => 3 | .flag => 4 | .coll _ => 5 | .identQuery => 6 | .identReply => 7
  | .switch => 8

/-- Header of slot `i` of a packet (R452). -/
def headerOf (t : PktType) (p : Packet) (i : Nat) : Nat :=
  let n := slotsOf p
  let part := min 256 (p.body.length - 256 * i)
  p.dest.toNat <<< 76 ||| p.src.toNat <<< 56 ||| typeCode t <<< 52 ||| vcOf t <<< 50 ||| (max 1 (cdiv part 4) - 1) <<< 44 |||
    b2n (i = 0) <<< 43 ||| b2n (i + 1 = n) <<< 42 ||| b2n p.poison <<< 41 ||| i <<< 36 ||| p.tag.toNat

/-- Bytes filled with zeros to a length. -/
def zeroFill (n : Nat) (l : List Byte) : List Byte := l ++ List.replicate (n - l.length) 0

/-- Bytes 0 to 5,131 of the frame that carries a packet in its first slots (R450). -/
def frameBody (x : Port) (t : PktType) (p : Packet) : List Byte :=
  toBytes 2 x.txSeq.toNat ++ toBytes 2 x.rxSeq.toNat ++ toBytes 4 0 ++
  (List.range 4).flatMap (fun vc => toBytes 2 (fget 0 x.returned vc)) ++ toBytes 8 0 ++
  zeroFill 228 ((List.range (slotsOf p)).flatMap fun i => toBytes 12 (headerOf t p i)) ++ zeroFill 4864 p.body ++ toBytes 16 0

/-- The frame that carries a packet: its body and the CRC over it (R450). -/
def frameOf (x : Port) (t : PktType) (p : Packet) : List Byte :=
  let b := frameBody x t p
  b ++ toBytes 8 (crc64 b).toNat

/-- Sends a packet as the next frame: one packet a frame (log entry 16). -/
def transmit (port : Nat) (t : PktType) (p : Packet) (c : Chip) : Chip :=
  let x := c.port port
  let wrap := ctrWraps x.txBytes p.body.length
  let c := c.setPort port { x with
    txSeq := x.txSeq + 1
    replay := x.replay ++ [⟨x.txSeq.toNat, 0, frameOf x t p⟩]
    credit := fset 256 x.credit (vcOf t) (x.credits (vcOf t) - slotsOf p)
    txBytes := ctrAdd x.txBytes p.body.length }
  raiseIf wrap .fab 4 (emit (.packet t x.txSeq.toNat p) c)

/-- Hands a packet to a port: sent at once, or kept in order behind what waits on its virtual channel. -/
def sendPacket (m : Mgt) (port : Nat) (t : PktType) (p : Packet) (c : Chip) : Chip :=
  let x := c.port port
  if mayTransmit m x t p && !(x.waiting.any fun w => vcOf w.1 = vcOf t) then transmit port t p c
  else c.setPort port { x with waiting := x.waiting ++ [(t, p)] }

/-- Sends what waits on a port, each virtual channel in its own order. -/
def drainPort (m : Mgt) (port : Nat) (c : Chip) : Chip :=
  let ws := (c.port port).waiting
  ws.foldl (fun c (t, p) => sendPacket m port t p c) (onPort port (fun x => { x with waiting := [] }) c)

/-! ### Packets (R453) -/

def requestBody (addr len : Nat) (data : List Byte) : List Byte := toBytes 8 addr ++ toBytes 4 len ++ toBytes 4 0 ++ data
def ackBody (status flagSeq : Nat) : List Byte := toBytes 1 status ++ toBytes 3 0 ++ toBytes 4 flagSeq ++ toBytes 8 0
def dataBody (status : Nat) (data : List Byte) : List Byte :=
  toBytes 1 status ++ toBytes 3 0 ++ toBytes 4 data.length ++ toBytes 8 0 ++ data
def flagBody (seq base act : Nat) (mask : W64) : List Byte :=
  toBytes 4 seq ++ toBytes 2 base ++ toBytes 1 act ++ toBytes 1 0 ++ toBytes 8 mask.toNat

/-- A packet of this module to a rank. -/
def packetTo (m : Mgt) (port dest tag : Nat) (body : List Byte) : Packet :=
  ⟨.ofNat 4 port, .ofNat 20 dest, m.rank, .ofNat 16 tag, false, body⟩

/-- The answer to a packet, on the port it came by. -/
def answer (m : Mgt) (t : PktType) (q : Packet) (body : List Byte) (c : Chip) : Chip :=
  sendPacket m q.port.toNat t ⟨q.port, q.src, m.rank, q.tag, false, body⟩ c

/-! ### Remote requests (R464) -/

/-- The port of a remote WRITE or READ; 16 where no port is Active. -/
def requestPort (c : Chip) (dest addr : Nat) : Nat :=
  let a := activePorts c
  if a = [] then 16 else a.getD ((dest + addr / 4096) % a.length) 16

/-- The packet of a remote request. -/
def Remote.packet (m : Mgt) (r : Remote) : Packet :=
  packetTo m r.port r.dest r.tag (match r.type with
    | .write => requestBody r.addr r.len r.data
    | .read => requestBody r.addr r.len []
    | _ => r.data)

/-- Sends an outstanding request on its port, where it has one. -/
def sendRemote (m : Mgt) (r : Remote) (c : Chip) : Chip :=
  if r.port < 16 then sendPacket m r.port r.type (r.packet m) c else c

/-- Starts a remote request of an entry. -/
def remoteRequest (m : Mgt) (e : Entry) (t : PktType) (dest addr len : Nat) (data : List Byte) (c : Chip) : Chip :=
  let tag := c.fab.nextTag % 65536
  let port := match t with
    | .flag => (activePorts c).headD 16
    | _ => requestPort c dest addr
  let r : Remote := ⟨tag, e.id, t, dest, addr, len, data, port, false⟩
  let c := { c with fab := { c.fab with remotes := c.fab.remotes ++ [r], nextTag := c.fab.nextTag + 1 } }
  let e := curEntry c e
  sendRemote m r (setEntry { e with acks := e.acks ++ [tag] } c)

/-- Pieces of up to 4 KiB of a range (R464). -/
def pieces (n : Nat) : List (Nat × Nat) := (List.range (cdiv n 4096)).map fun i => (4096 * i, min 4096 (n - 4096 * i))

/-- Address under which an entry keeps a byte read from another module. -/
def remoteKey (a : Nat) : Nat := 2 ^ 52 + a

/-- Forgets the outstanding reads of an entry; its writes go on (R426). -/
def dropRequests (id : Nat) (c : Chip) : Chip :=
  { c with
    fab := { c.fab with remotes := c.fab.remotes.filter fun r => r.entry != id || r.type == .write }
    cxl := { c.cxl with uios := c.cxl.uios.filter fun u => u.entry != id || !u.read } }

/-- Requests remote bytes for an entry. -/
def remoteRead (m : Mgt) (e : Entry) (dest addr n : Nat) (c : Chip) : Chip :=
  (pieces n).foldl (fun c (o, k) => remoteRequest m e .read dest (addr + o) k [] c)
    (setEntry { curEntry c e with asked := true } c)

/-- Writes bytes to another module for an entry. -/
def remoteWrite (m : Mgt) (e : Entry) (dest addr : Nat) (data : List Byte) (c : Chip) : Chip :=
  (pieces data.length).foldl (fun c (o, k) => remoteRequest m e .write dest (addr + o) k ((data.drop o).take k) c) c

/-- A remote flag update of an entry (R464): the next number of its destination. -/
def remoteFlag (m : Mgt) (e : Entry) (dest base act : Nat) (mask : W64) (c : Chip) : Chip :=
  let n := (fget 0 c.fab.flagSeq dest + 1) % 2 ^ 32
  let c := { c with fab := { c.fab with flagSeq := fset 0 c.fab.flagSeq dest n } }
  remoteRequest m e .flag dest 0 0 (flagBody n base act mask) c

/-- Remote bytes that an entry holds. -/
def remoteBytes (e : Entry) (a n : Nat) : List Byte :=
  (List.range n).map fun i => ((e.ext.find? fun x => x.1 = remoteKey (a + i)).map (·.2)).getD 0

/-- Whether a write of the entry through the outbound window is unacknowledged (R496). -/
def uioWritesOpen (c : Chip) (e : Entry) : Bool := c.cxl.uios.any fun u => u.entry = e.id && !u.read

/-- Host base of an aperture entry (R487). -/
def Aper.host (x : Aper) : Nat := bitsOf x.base.toNat 12 40 * 4096

/-- The enabled aperture entry that holds a host range whole (R486). -/
def hostEntry (c : Chip) (h n : Nat) : Option Nat :=
  (List.range 16).find? fun i =>
    let x := fget Aper.reset c.cxl.apers i
    x.base.getLsbD 0 && decide (x.host ≤ h) && decide (h + n ≤ x.host + x.size.toNat)

/-- Whether that entry exists and may hold rings. -/
def hostRing (c : Chip) (h n : Nat) : Bool :=
  (hostEntry c h n).any fun i => (fget Aper.reset c.cxl.apers i).base.getLsbD 3

/-- Device address in the outbound window of a host range (R485). -/
def hostToOuter (c : Chip) (h n : Nat) : Option Nat :=
  (hostEntry c h n).map fun i => 0xC00000000000 + i * 2 ^ 40 + (h - (fget Aper.reset c.cxl.apers i).host)

/-! ### Clearing engine messages (R454) -/

/-- A message as the packets that carry it. -/
def collPackets (m : Mgt) (port dest msg : Nat) (x : CollMsg) : List Packet :=
  let n := max 1 (cdiv x.data.length 4096)
  (List.range n).map fun i =>
    let part := (x.data.drop (4096 * i)).take 4096
    packetTo m port dest 0 (toBytes 1 msg ++ toBytes 1 x.phase ++ toBytes 1 (b2n x.final + 2 * b2n (i + 1 = n)) ++
      toBytes 1 x.op ++ toBytes 4 x.group.toNat ++ toBytes 2 x.epoch ++ toBytes 2 x.sender ++ toBytes 4 x.tranche ++
      toBytes 4 x.members ++ toBytes 4 x.total ++ toBytes 4 (4096 * i) ++ toBytes 4 0 ++ part)

/-- Sends a message of the Clearing engine on its plane's port (R290). -/
def sendColl (m : Mgt) (msg : Nat) (x : CollMsg) (c : Chip) : Chip :=
  (collPackets m x.plane.toNat 0 msg x).foldl (fun c p => sendPacket m x.plane.toNat (.coll msg) p c) c

/-! ### Identity (R467, R525) -/

/-- The 32 bytes of an IDENT_REPLY (R467). -/
def identBody (m : Mgt) (c : Chip) (port : Nat) : List Byte :=
  let x := c.port port
  let st := if m.computeReset then 2 else if m.ready then 1 else if m.failed then 3 else 0
  toBytes 1 0x20 ++ toBytes 1 st ++ toBytes 1 port ++ toBytes 1 (b2n m.rankValid + 2 * b2n x.lane112 + 4 * b2n x.spareUsed) ++
  toBytes 4 m.rank.toNat ++ toBytes 8 m.serial.toNat ++ toBytes 2 2 ++ toBytes 2 0x288 ++ toBytes 2 m.stepping.toNat ++ toBytes 10 0

/-- An unsolicited IDENT_REPLY (R525). -/
def sendIdent (m : Mgt) (port : Nat) (c : Chip) : Chip :=
  sendPacket m port .identReply (packetTo m port 0 0 (identBody m c port)) c

/-- MGT_RANK takes a value: the event where it changes, and an IDENT_REPLY on every Active port (R414, R525). -/
def setRank (valid : Bool) (rank : BitVec 20) (d : Dev) : Dev :=
  let changed := decide (d.mgt.rankValid ≠ valid) || decide (d.mgt.rank ≠ rank)
  let d := { d with mgt := { d.mgt with rankValid := valid, rank := rank } }
  let d := if changed then raiseD .mgt 2 d else d
  d.mapChip fun c => (activePorts c).foldl (fun c p => sendIdent d.mgt p c) c

end Sys2Proof.Machine
end

