-- ==== Sys2Proof/Machine/Codec.lean ====
section
/-! DEFINITION. The block codec and the activation stack (R220 to R252). -/

namespace Sys2Proof.Machine

/-! ### Registers of the tile (R251) -/

/-- Adds to a counter of the codec block; a wrap raises counter_wrapped (R104). -/
def codAdd (e : Entry) (get : Tile → W64) (put : Tile → W64 → Tile) (n : Nat) (c : Chip) : Chip :=
  onPtile e (fun p c =>
    let t := c.tile p
    raiseIf (ctrWraps (get t) n) (.cod p) 4 (c.setTile p (put t (ctrAdd (get t) n)))) c

def codRaise (e : Entry) (i : Nat) (c : Chip) : Chip := onPtile e (fun p => raise (.cod p) i) c
def codActive (e : Entry) (c : Chip) : Chip := onPtile e (fun p c => c.setTile p { c.tile p with codActive := true }) c

/-- Whether another Stack or Codec descriptor runs on the operation's tile. -/
def codOthers (e : Entry) (c : Chip) : Bool :=
  c.ory.entries.any fun x => x.id != e.id && (dClass x.desc = 5 || dClass x.desc = 11) && x.phase == .started && x.tile = e.tile

/-- COD_STATUS once a Stack or Codec descriptor ends. -/
def codRelease (e : Entry) (st : Nat) (c : Chip) : Chip :=
  onPtile e (fun p c => c.setTile p { c.tile p with codLast := .ofNat 8 st, codActive := codOthers e c }) c

/-- Ends a Stack or Codec descriptor. -/
def codEnd (e : Entry) (st : Nat) (c : Chip) : Chip := finish e st (codRelease e st c)

/-- Block errors: the largest since last read, and the limit (R251). -/
def codErrors (e : Entry) (errs : List W32) (c : Chip) : Chip :=
  onPtile e (fun p c =>
    let t := c.tile p
    let beyond := errs.any fun x => f32lt t.codErrLimit x
    raiseIf beyond (.cod p) 0 (c.setTile p { t with codMaxErr := errs.foldl f32max t.codMaxErr })) c

/-! ### Codec blocks (R235 to R238) -/

/-- A stored codec block. -/
structure CodBlock where
  form : Nat
  bytes : List Byte         -- padded to 64
  err : W32
  nonfinite : Bool
  deriving DecidableEq, Repr

def padTo (m : Nat) (l : List Byte) : List Byte := l ++ List.replicate (alignUp l.length m - l.length) 0

/-- Elements of source bytes. -/
def codElems (f : Format) (l : List Byte) : List FVal :=
  (chunksOf (f.bits / 8) l).map fun b => decodeElem f (ofBytes b)

/-- A bounded sub-block as bytes: its code, then its elements (R236). -/
def subBytes (bits : Nat) (code : Nat) (es : List (Bool × Nat)) : List Byte :=
  let q (x : Bool × Nat) : Nat := x.2 + (if x.1 then 2 ^ (bits - 1) else 0)
  .ofNat 8 code :: (if bits = 8 then es.map fun x => .ofNat 8 (q x)
    else (chunksOf 2 es).map fun p => .ofNat 8 (q (p.getD 0 (false, 0)) + 16 * q (p.getD 1 (false, 0))))

/-- Encodes a codec block in a mode. -/
def encBlock (mode : Nat) (rawOnly : Bool) (f : Format) (b : List Byte) : CodBlock :=
  if mode = 1 then
    let z := Config.losslessEnc b
    if !rawOnly && z ≠ [] && Config.losslessDec (padTo 64 z) = b && decide (alignUp z.length 64 < alignUp b.length 64)
    then ⟨1, padTo 64 z, 0, false⟩ else ⟨0, padTo 64 b, 0, false⟩
  else if mode = 0 then ⟨0, padTo 64 b, 0, false⟩
  else
    let bits := if mode = 2 then 8 else 4
    let subs := chunksOf 32 (codElems f b)
    let enc := subs.map (bEncode bits)
    ⟨mode, padTo 64 (enc.flatMap fun x => subBytes bits x.1 x.2), (subs.map (bError bits)).foldl f32max 0,
      enc.any fun x => x.1 = 0xFF⟩

/-- Decodes `n` source bytes of a stored block by its form. -/
def decBlock (form : Nat) (f : Format) (n : Nat) (b : List Byte) : List Byte :=
  if form = 1 then (Config.losslessDec b ++ List.replicate n 0).take n
  else if form = 0 then b.take n
  else
    let bits := if form = 2 then 8 else 4
    let size := 1 + 4 * bits
    let w := f.bits / 8
    ((List.range (cdiv n (32 * w))).flatMap fun i =>
      let s := (b.drop (size * i)).take size
      let code := (s.headD 0).toNat
      let raw := s.drop 1
      let elem (j : Nat) : Nat := if bits = 8 then (raw.getD j 0).toNat else bitsOf (raw.getD (j / 2) 0).toNat (4 * (j % 2)) 4
      (List.range 32).flatMap fun j =>
        let v := bDecode bits code ((elem j).testBit (bits - 1)) (elem j % 2 ^ (bits - 1))
        toBytes w (convElem f .plain v).bits).take n

/-! ### Frames (R225 to R227) -/

structure Frame where
  bytes : List Byte
  errs : List W32
  nonfinite : Bool
  deriving DecidableEq, Repr

/-- The frame's length with every block raw (R229). -/
def rawFrame (count : Nat) : Nat :=
  let n := cdiv count 4096
  alignUp (alignUp (64 + 8 * n) 64 + alignUp count 64) 4096

/-- What a frame header records besides its lengths. -/
structure FrameTag where
  mode : Nat
  format : Nat
  tid : Nat
  layer : Nat
  part : Nat
  step : W64
  id : Nat
  sc : Nat
  lane : Nat
  deriving DecidableEq, Repr

/-- Encodes source bytes as a frame. -/
def encFrame (rawOnly : Bool) (g : FrameTag) (src : List Byte) : Frame :=
  let f := (Format.ofCode g.format).getD .fp32
  let bs := (chunksOf 4096 src).map (encBlock g.mode rawOnly f)
  let dir := bs.flatMap fun b => toBytes 4 b.err.toNat ++ toBytes 1 b.form ++ toBytes 1 (b.bytes.length / 64) ++ toBytes 2 0
  let body := padTo 64 (List.replicate 64 0 ++ dir) ++ bs.flatMap (·.bytes)
  let len := alignUp body.length 4096
  let errs := bs.map (·.err)
  let nf := bs.any (·.nonfinite)
  let head := toBytes 1 0x20 ++ toBytes 1 g.mode ++ toBytes 1 g.format ++ toBytes 1 (b2n nf) ++ toBytes 4 g.tid ++
    toBytes 2 g.layer ++ toBytes 2 g.part ++ toBytes 4 bs.length ++ toBytes 8 src.length ++ toBytes 8 len ++
    toBytes 8 g.step.toNat ++ toBytes 4 (errs.foldl f32max 0).toNat ++ toBytes 4 g.id ++ toBytes 1 g.sc ++
    toBytes 1 g.lane ++ toBytes 14 0
  ⟨head ++ (padTo 4096 body).drop 64, errs, nf⟩

/-- Number at byte `o` of a frame. -/
def frameNat (fr : List Byte) (o n : Nat) : Nat := ofBytes ((fr.drop o).take n)

/-- The source bytes that a frame stands for. -/
def decFrame (fr : List Byte) : List Byte :=
  let f := (Format.ofCode (frameNat fr 2 1)).getD .fp32
  let n := frameNat fr 12 4
  let total := frameNat fr 16 8
  let start := alignUp (64 + 8 * n) 64
  let (out, _) := (List.range n).foldl (fun (acc : List Byte × Nat) j =>
    let sz := 64 * frameNat fr (64 + 8 * j + 5) 1
    let b := decBlock (frameNat fr (64 + 8 * j + 4) 1) f (min 4096 (total - 4096 * j)) ((fr.drop acc.2).take sz)
    (acc.1 ++ b, acc.2 + sz)) ([], start)
  out.take total

/-- The effects of encoding on counters, events and marks (R238, R251). -/
def encEffects (e : Entry) (tid count : Nat) (fr : Frame) (c : Chip) : Chip :=
  let c := codErrors e fr.errs c
  let c := if fr.nonfinite then codRaise e 1 (mark e .conversion tid (dieOf e.tile) c) else c
  codAdd e (·.codBytesIn) (fun t v => { t with codBytesIn := v }) count c

/-- Whether the tile writes form 0 in mode 1 (R251). -/
def rawOnlyOf (c : Chip) (e : Entry) : Bool := (ptileOf c e.tile).any fun p => (c.tile p).codRawOnly

/-! ### The Stack class (R220 to R224, R247) -/

/-- The fields of a Stack descriptor. -/
structure StackD where
  ref : TRef
  area : Nat
  layer : Nat
  part : Nat
  drop : Nat
  mode : Nat
  count : Nat
  deriving DecidableEq, Repr

def stackD (d : Desc) : StackD := ⟨tref d 16, byt d 16 8, byt d 48 2, byt d 50 2, byt d 48 4, fld d 52 0 2, byt d 56 8⟩

/-- The region record (R221). -/
structure Region where
  farEn : Bool
  cxlEn : Bool
  fetchAhead : Nat
  farRank : Nat
  bases : List Nat          -- local, far, CXL
  lanes : List Nat
  fillBase : Nat
  fillLane : Nat
  deriving DecidableEq, Repr

def regionD {n : Nat} (r : BitVec n) : Region :=
  ⟨fld r 1 0 1 = 1, fld r 1 1 1 = 1, byt r 2 1, fld r 4 0 20, [byt r 8 8, byt r 24 8, byt r 40 8],
    [byt r 16 8, byt r 32 8, byt r 48 8], byt r 56 8, byt r 64 8⟩

def laneAddr (area t : Nat) : Nat := area + 256 + 64 * t
def dirAddr (area t i : Nat) : Nat := area + 8192 + 4096 * t + 16 * i

/-- The state of a lane and its top frame (R222). -/
structure Lane where
  tops : List Nat           -- local, far, CXL
  frames : Nat
  owner : Nat
  owned : Bool
  high : Nat
  deriving DecidableEq, Repr

def readLane (c : Chip) (area t : Nat) : Lane :=
  let a := laneAddr area t
  ⟨[readNat c a 8, readNat c (a + 8) 8, readNat c (a + 16) 8], readNat c (a + 24) 2, readNat c (a + 26) 1,
    (readByte c (a + 27)).getLsbD 0, readNat c (a + 32) 8⟩

def Lane.bytes (l : Lane) : List Byte :=
  (l.tops.flatMap fun x => toBytes 8 x) ++ toBytes 2 l.frames ++ toBytes 1 l.owner ++ toBytes 1 (b2n l.owned) ++
  toBytes 4 0 ++ toBytes 8 l.high ++ toBytes 24 0

/-- A directory entry (R222). -/
structure DirEntry where
  offset : Nat
  length : Nat
  tier : Nat
  layer : Nat
  part : Nat
  deriving DecidableEq, Repr

def readDir (c : Chip) (area t i : Nat) : DirEntry :=
  let a := dirAddr area t i
  ⟨readNat c a 4, readNat c (a + 4) 4, readNat c (a + 8) 1, readNat c (a + 12) 2, readNat c (a + 14) 2⟩

def DirEntry.bytes (d : DirEntry) : List Byte :=
  toBytes 4 d.offset ++ toBytes 4 d.length ++ toBytes 1 d.tier ++ toBytes 3 0 ++ toBytes 2 d.layer ++ toBytes 2 d.part

/-- Address of lane `t` of a tier: in local HBM, in far_rank's space, or in host space (R221). -/
def Region.lane (r : Region) (tier t : Nat) : Nat := r.bases.getD tier 0 + t * r.lanes.getD tier 0

/-- The tier that takes a frame of `n` bytes (R229). -/
def Region.place (r : Region) (l : Lane) (n : Nat) : Option Nat :=
  if 256 ≤ l.frames then none
  else [0, 1, 2].find? fun k =>
    (k = 0 || (k = 1 && r.farEn) || (k = 2 && r.cxlEn)) && decide (l.tops.getD k 0 + n ≤ r.lanes.getD k 0)

/-- Writes of plain bytes. -/
def plainWr (a : Nat) (b : List Byte) : Wr := ⟨.plain a b.length, 0, b, false⟩

/-- The write that adds to a u64 of the control area. -/
def bump (c : Chip) (a n : Nat) : Wr := plainWr a (toBytes 8 (readNat c a 8 + n))

/-- The control area's ranges that an operation on a lane uses. -/
def laneAccs (area t : Nat) (write : Bool) : List Acc :=
  [⟨.plain (laneAddr area t) 64, 0, 64, write, false, false⟩, ⟨.plain (area + 128) 128, 0, 128, write, false, false⟩]

/-- OPEN (R220 to R222): every lane empty. -/
def stackOpen (_ : Mgt) (e : Entry) (c : Chip) : Chip :=
  let a := (stackD e.desc).area
  match prepare e [.rd (.plain a 128) 0 128, .wr (.plain a 8192) 128 (8192 - 128)] (fun _ _ => false) (codActive e c) with
  | .wait c => c
  | .stop st c => codEnd e st c
  | .go c =>
    let e := curEntry c e
    let lanes := (List.range 96).map fun t => plainWr (laneAddr a t) (List.replicate 64 0)
    let c := commitAll e (lanes ++ [plainWr (a + 128) [1], plainWr (a + 136) (List.replicate 32 0)]) c
    let s : OpenStack := ⟨a, e.record.setWidth 1024, []⟩
    codEnd e 0 { c with openStacks := fset none c.openStacks (dSc e.desc) (some s) }

/-- The lane after a PUSH of `len` bytes to a tier (R230). -/
def Lane.pushed (l : Lane) (tier len owner : Nat) : Lane :=
  let top := l.tops.getD tier 0
  { l with
    tops := l.tops.set tier (top + len)
    frames := l.frames + 1
    owner := if l.owned then l.owner else owner
    owned := true
    high := if tier = 0 then max l.high (top + len) else l.high }

/-- The writes that commit a PUSH: directory entry, lane, and the counters of the control area (R230). -/
def pushWrites (c : Chip) (e : Entry) (s : OpenStack) (tier len : Nat) : List Wr :=
  let d := stackD e.desc
  let l := readLane c s.area e.tile
  let dir : DirEntry := ⟨l.tops.getD tier 0 / 4096, len / 4096, tier, d.layer, d.part⟩
  [plainWr (dirAddr s.area e.tile l.frames) dir.bytes,
    plainWr (laneAddr s.area e.tile) (l.pushed tier len (dStream e.desc)).bytes, bump c (s.area + 136) 1] ++
  (if tier = 1 then [bump c (s.area + 152) 1] else if tier = 2 then [bump c (s.area + 160) 1] else [])

/-- The commit of a PUSH: directory entry, tier top, frame count (R230). -/
def pushCommit (e0 : Entry) (s : OpenStack) (tier len : Nat) (ws : List Wr) (c : Chip) : Chip :=
  let e := curEntry c e0
  let c := commitAll e (ws ++ pushWrites c e s tier len) c
  let c := codAdd e (·.codFrames) (fun t v => { t with codFrames := v }) 1 c
  let c := if tier = 1 then codAdd e (·.codSpillFar) (fun t v => { t with codSpillFar := v }) 1 (codRaise e 2 c)
    else if tier = 2 then codAdd e (·.codSpillCxl) (fun t v => { t with codSpillCxl := v }) 1 (codRaise e 2 c) else c
  codEnd e 0 c

/-- The seals of a frame held outside local HBM (log entry 17). -/
def farSealsOf (tid : Nat) (fr : List Byte) : List W32 := (chunksOf 4096 fr).zipIdx.map fun (b, i) => sealOf tid i b

/-- The frame of a PUSH (R225 to R229). -/
def pushFrame (c : Chip) (e : Entry) : Frame :=
  let d := stackD e.desc
  encFrame (rawOnlyOf c e) ⟨d.mode, d.ref.format, d.ref.tid, d.layer, d.part, c.run.step, dId e.desc, dSc e.desc, e.tile⟩
    (peekN c e d.ref.addr d.count)

/-- What a PUSH to a tier reads and writes on this module. -/
def pushAccs (c : Chip) (e : Entry) (s : OpenStack) (tier at_ : Nat) : List Acc :=
  let d := stackD e.desc
  laneAccs s.area e.tile true ++ [.rd d.ref 0 d.count, .wr (.plain (dirAddr s.area e.tile (readLane c s.area e.tile).frames) 16) 0 16] ++
  (if tier = 0 then [.wr ⟨at_, rawFrame d.count, 0, 0, 1, d.ref.tid⟩ 0 (rawFrame d.count)] else [])

/-- PUSH (R229, R230): writes the frame to its tier, then commits. -/
def push (m : Mgt) (e : Entry) (c : Chip) : Chip :=
  let sc := dSc e.desc
  match fget none c.openStacks sc with
  | none => codEnd e 0x0E c
  | some s =>
    let r := regionD s.region
    let d := stackD e.desc
    let t := e.tile
    if e.round = 1 then
      -- The frame has been sent: it commits once every write of it is acknowledged.
      if e.acks ≠ [] || uioWritesOpen c e then c else pushCommit e s e.block (4096 * e.groups) [] c
    else
    let l := readLane c s.area t
    match r.place l (rawFrame d.count) with
    | none => codEnd e 0x02 c
    | some tier =>
      let at_ := r.lane tier t + l.tops.getD tier 0
      let outer := if tier = 2 then hostToOuter c at_ (rawFrame d.count) else none
      if tier = 2 && outer.isNone then codEnd e 0x0E c else
      match prepare e (pushAccs c e s tier at_) (fun _ _ => false) (codActive e c) with
      | .wait c => c
      | .stop st c => codEnd e st c
      | .go c =>
        let e := curEntry c e
        let fr := pushFrame c e
        let c := encEffects e d.ref.tid d.count fr c
        let len := fr.bytes.length
        if tier = 0 then pushCommit e s 0 len [⟨⟨at_, len, 0, 0, 1, d.ref.tid⟩, 0, fr.bytes, false⟩] c
        else
          let s' := { s with farSeals := fset [] s.farSeals (256 * t + l.frames) (farSealsOf d.ref.tid fr.bytes) }
          let c := { c with openStacks := fset none c.openStacks sc (some s') }
          let c := setEntry { curEntry c e with round := 1, block := tier, groups := len / 4096 } c
          if tier = 1 then remoteWrite m e r.farRank at_ fr.bytes c
          else (pieces len).foldl (fun c (o, k) => sendUio e (outer.getD 0 + o) k false ((fr.bytes.drop o).take k) c) c

/-- The bytes of a frame outside local HBM, as an entry holds them; none while some are missing. -/
def heldFrame (c : Chip) (e : Entry) (tier at_ n : Nat) : Option (List Byte) :=
  let key (i : Nat) : Nat := if tier = 1 then remoteKey (at_ + i) else (hostToOuter c at_ n).getD 0 + i
  if (List.range n).all fun i => e.ext.any fun x => x.1 = key i then
    some ((List.range n).map fun i => ((e.ext.find? fun x => x.1 = key i).map (·.2)).getD 0)
  else none

/-- Asks for a frame outside local HBM; no aperture entry: ACCESS. -/
def fetchFrame (m : Mgt) (e : Entry) (r : Region) (tier at_ n : Nat) (c : Chip) : Chip :=
  if tier = 1 then remoteRead m e r.farRank at_ n c
  else
    match hostToOuter c at_ n with
    | some a => (pieces n).foldl (fun c (o, k) => sendUio e (a + o) k true [] c) (setEntry { curEntry c e with asked := true } c)
    | none => codEnd e 0x0E c

/-- Removes the frames from index `n` up: tier tops fall to the lowest start among them. -/
def cutLane (c : Chip) (s : OpenStack) (t n : Nat) (l : Lane) : Lane :=
  let gone := (span n l.frames).map (readDir c s.area t)
  { l with
    frames := n
    tops := l.tops.zipIdx.map fun (x, k) => (gone.filter fun d => d.tier = k).foldl (fun m d => min m (4096 * d.offset)) x }

/-- The writes that commit a POP of frame `i`: the decoded bytes, its directory entry, the lane, and the counter (R231). -/
def popWrites (c : Chip) (e : Entry) (s : OpenStack) (i : Nat) (fr : List Byte) : List Wr :=
  [⟨(stackD e.desc).ref, 0, decFrame fr, false⟩, plainWr (dirAddr s.area e.tile i) (List.replicate 16 0),
    plainWr (laneAddr s.area e.tile) (cutLane c s e.tile i (readLane c s.area e.tile)).bytes, bump c (s.area + 144) 1]

/-- What the commit of a POP writes, and the seal blocks that it writes only in part. -/
def popAccs (e : Entry) (s : OpenStack) (i : Nat) : List Acc :=
  let d := stackD e.desc
  laneAccs s.area e.tile true ++ [.wr d.ref 0 d.count, .wr (.plain (dirAddr s.area e.tile i) 16) 0 16]
def popPart (e : Entry) : TRef → Nat → Bool :=
  let d := stackD e.desc
  fun q b => q == d.ref && !coversBlock [(d.ref, 0, d.count)] q b

/-- Copies read ahead for some POPs serve nothing more. -/
def staleWhere (p : Entry → Bool) (c : Chip) : Chip :=
  let go (x : Entry) : Entry :=
    if dClass x.desc = 11 ∧ dOpcode x.desc = 3 ∧ (x.round = 1 ∨ x.round = 3) ∧ p x then { x with round := 4 } else x
  { c with ory := { c.ory with entries := c.ory.entries.map go } }

/-- Frames from index `n` up of an operation's lane are gone: copies of them that wait in the fill lane serve nothing more
(R243). -/
def staleCopies (e : Entry) (n : Nat) (c : Chip) : Chip :=
  staleWhere (fun x => x.id != e.id && x.tile = e.tile && dSc x.desc = dSc e.desc && n ≤ x.block) c

/-- Address of unit `u` of the fill lane of tile `t` (R221). -/
def Region.fillAt (r : Region) (t u : Nat) : Nat := r.fillBase + t * r.fillLane + 4096 * u

/-- A frame read ahead reaches the fill lane once all its bytes have come (R242). While a POP waits, its `round` says what
has been read for it: 1 a copy on its way, 3 a copy in the fill lane, 4 a copy of a frame that is gone, 2 the frame itself. -/
def landAhead (id : Nat) (c : Chip) : Chip :=
  match entryOf c id with
  | none => c
  | some e =>
  match fget none c.openStacks (dSc e.desc) with
  | none => c
  | some s =>
    let r := regionD s.region
    let x := readDir c s.area e.tile e.block
    if dClass e.desc ≠ 11 ∨ dOpcode e.desc ≠ 3 ∨ e.round ≠ 1 then c else
    match heldFrame c e x.tier (r.lane x.tier e.tile + 4096 * x.offset) (4096 * x.length) with
    | none => c
    | some fr =>
      let units := e.fill.map (r.fillAt e.tile)
      let lines := units.flatMap fun a => trackedIn c a 4096
      if lines ≠ [] then sendSnoops lines c else
      setEntry { e with round := 3, ext := [] }
        (commitAll e ((units.zip (chunksOf 4096 fr)).map fun (a, b) => plainWr a b) c)

/-- The checks of a fetched frame and its commit (R231): header, seals, then destination and directory. -/
def popFrame (e : Entry) (s : OpenStack) (i : Nat) (dir : DirEntry) (fr : List Byte) (seals : Option (List W32)) (at_ : Nat)
    (hit : Bool) (c : Chip) : Chip :=
  let d := stackD e.desc
  let t := e.tile
  let tid := frameNat fr 4 4
  let fref : TRef := ⟨at_, fr.length, 0, 0, 1, tid⟩
  if frameNat fr 2 1 ≠ d.ref.format then codEnd e 0x10 c
  else if frameNat fr 16 8 ≠ d.count then codEnd e 0x02 c
  else
  let sealed : Pre := match seals with
    | some x => if x = farSealsOf tid fr then .go c else
        let bad := ((x.zip (farSealsOf tid fr)).findIdx fun p => p.1 ≠ p.2)
        .stop 0x07 (recordMismatch tid bad c)
    | none => (List.range (fr.length / 4096)).foldl (fun p b => p.andThen (checkBlock e (.rd fref 0 fr.length) b)) (.go c)
  match sealed with
  | .wait c => c
  | .stop st c => codEnd e st c
  | .go c =>
    match prepare e (popAccs e s i) (popPart e) c with
    | .wait c => c
    | .stop st c => codEnd e st c
    | .go c =>
      let e := curEntry c e
      let out := decFrame fr
      let c := staleCopies e i (commitAll e (popWrites c e s i fr) (countMoved e d.ref 0 out c))
      let s' := { s with farSeals := fset [] s.farSeals (256 * t + i) [] }
      let c := { c with openStacks := fset none c.openStacks (dSc e.desc) (some s') }
      let c := codAdd e (·.codBytesOut) (fun t v => { t with codBytesOut := v }) out.length c
      let c := codAdd e (·.codPops) (fun t v => { t with codPops := v }) 1 c
      let c := if dir.tier = 0 then c
        else if hit then codAdd e (·.codHits) (fun t v => { t with codHits := v }) 1 c
        else codAdd e (·.codMisses) (fun t v => { t with codMisses := v }) 1 c
      codEnd e 0 c

/-- POP (R231). -/
def pop (m : Mgt) (e : Entry) (c : Chip) : Chip :=
  match fget none c.openStacks (dSc e.desc) with
  | none => codEnd e 0x0E c
  | some s =>
    let r := regionD s.region
    let d := stackD e.desc
    let t := e.tile
    match prepare e (laneAccs s.area t false) (fun _ _ => false) (codActive e c) with
    | .wait c => c
    | .stop st c => codEnd e st c
    | .go c =>
      let e := curEntry c e
      let l := readLane c s.area t
      if l.frames = 0 then codEnd e 0x02 c else
      let i := l.frames - 1
      let dir := readDir c s.area t i
      if dir.layer ≠ d.layer ∨ dir.part ≠ d.part then codEnd e 0x0E c else
      let at_ := r.lane dir.tier t + 4096 * dir.offset
      let n := 4096 * dir.length
      if dir.tier = 0 then
        match prepare e [.rd (.plain at_ n) 0 n] (fun _ _ => false) c with
        | .wait c => c
        | .stop st c => codEnd e st c
        | .go c => popFrame (curEntry c e) s i dir (readBytes c at_ n) none at_ false c
      else
        let seals := some (fget [] s.farSeals (256 * t + i))
        let c := landAhead e.id c
        let e := curEntry c e
        if e.round = 3 ∧ e.block = i then
          match prepare e (e.fill.map fun u => .rd (.plain (r.fillAt t u) 4096) 0 4096) (fun _ _ => false) c with
          | .wait c => c
          | .stop st c => codEnd e st c
          | .go c => popFrame (curEntry c e) s i dir (e.fill.flatMap fun u => readBytes c (r.fillAt t u) 4096) seals at_ true c
        else if e.round = 1 ∧ e.block = i then c
        else if e.round = 2 then
          match heldFrame c e dir.tier at_ n with
          | some fr => popFrame e s i dir fr seals at_ false c
          | none => c
        else
          -- A copy of another frame is discarded (R243).
          let e := { e with round := 2, ext := [], asked := false }
          fetchFrame m e r dir.tier at_ n (dropRequests e.id (setEntry e c))

/-- DROP (R232). -/
def dropFrames (_ : Mgt) (e : Entry) (c : Chip) : Chip :=
  match fget none c.openStacks (dSc e.desc) with
  | none => codEnd e 0x0E c
  | some s =>
    let d := stackD e.desc
    match prepare e (laneAccs s.area e.tile true) (fun _ _ => false) (codActive e c) with
    | .wait c => c
    | .stop st c => codEnd e st c
    | .go c =>
      let e := curEntry c e
      let l := readLane c s.area e.tile
      let n := if d.drop = 0xFFFFFFFF then l.frames else d.drop
      if l.frames < n then codEnd e 0x02 c else
      codEnd e 0 (staleCopies e (l.frames - n)
        (commitAll e [plainWr (laneAddr s.area e.tile) (cutLane c s e.tile (l.frames - n) l).bytes] c))

/-- CLOSE (R232). -/
def stackClose (_ : Mgt) (e : Entry) (c : Chip) : Chip :=
  match fget none c.openStacks (dSc e.desc) with
  | none => codEnd e 0x0E c
  | some s =>
    match prepare e [.wr (.plain s.area 8192) 128 (8192 - 128)] (fun _ _ => false) (codActive e c) with
    | .wait c => c
    | .stop st c => codEnd e st c
    | .go c =>
      let e := curEntry c e
      let lanes := (List.range 96).map fun t => plainWr (laneAddr s.area t) (List.replicate 64 0)
      let c := commitAll e (plainWr (s.area + 128) [0] :: lanes) c
      let c := staleWhere (fun x => dSc x.desc = dSc e.desc) c
      codEnd e 0 { c with openStacks := fset none c.openStacks (dSc e.desc) none }

/-! ### Read-ahead (R242 to R244) -/

/-- Incomplete POPs of a tile, in order of arming. -/
def popsOn (c : Chip) (t : Nat) : List Entry :=
  c.ory.entries.filter fun x =>
    decide (dClass x.desc = 11) && decide (dOpcode x.desc = 3) && decide (x.tile = t) && decide (x.phase ≠ .done)

/-- Units that read-ahead copies hold in the fill lane of tile `t` at this base, over all sequence contexts (R244). -/
def fillTaken (c : Chip) (base t : Nat) : List Nat :=
  ((popsOn c t).filter fun x =>
    (fget none c.openStacks (dSc x.desc)).any fun s => (regionD s.region).fillBase = base).flatMap (·.fill)

/-- The `n` lowest free units of a fill lane, where it has room for so many (log entry 46). -/
def fillFree (taken : List Nat) (lane n : Nat) : Option (List Nat) :=
  let us := ((List.range (taken.length + n)).filter (!taken.contains ·)).take n
  if us.all fun u => decide (4096 * u + 4096 ≤ lane) then some us else none

/-- The frame that a POP claims: the one read ahead for it, else the one nearest the top of its lane that carries its tag
and that no earlier POP claims (R242). -/
def claimOf (c : Chip) (s : OpenStack) (claimed : List Nat) (x : Entry) : Option Nat :=
  if x.round = 1 || x.round = 3 then some x.block else
  let d := stackD x.desc
  (List.range (readLane c s.area x.tile).frames).reverse.find? fun i =>
    let f := readDir c s.area x.tile i
    f.layer = d.layer && f.part = d.part && !claimed.contains i

/-- Reads one armed POP's frame ahead, where R242 has it. -/
def readAheadOne (m : Mgt) (id : Nat) (c : Chip) : Chip :=
  match entryOf c id with
  | none => c
  | some e =>
  match fget none c.openStacks (dSc e.desc) with
  | none => c
  | some s =>
    let r := regionD s.region
    let t := e.tile
    let earlier := (popsOn c t).filter fun x => decide (x.id < id)
    let claimed := (earlier.filter fun x => decide (dSc x.desc = dSc e.desc)).foldl
      (fun cl x => (claimOf c s cl x).toList ++ cl) []
    let found := claimOf c s claimed e
    match found with
    | none => c
    | some i =>
      let x := readDir c s.area t i
      let n := 4096 * x.length
      let at_ := r.lane x.tier t + 4096 * x.offset
      match fillFree (fillTaken c r.fillBase t) r.fillLane x.length with
      | none => c
      | some us =>
        if e.phase ≠ .armed || e.round ≠ 0 || e.asked || r.fetchAhead ≤ earlier.length || x.tier = 0 ||
          (x.tier = 2 && (hostToOuter c at_ n).isNone) then c
        else
          fetchFrame m e r x.tier at_ n (setEntry { e with round := 1, block := i, fill := us } c)

/-- Read-ahead over every armed POP, in order of arming; copies that have come whole are written to their fill lanes. -/
def readAhead (m : Mgt) (c : Chip) : Chip :=
  (c.ory.entries.filter fun x => decide (dClass x.desc = 11) && decide (dOpcode x.desc = 3)).foldl
    (fun c x => landAhead x.id (readAheadOne m x.id c)) c

/-! ### The Codec class (R249) -/

structure CodecD where
  src : TRef
  dest : TRef
  count : Nat
  mode : Nat
  layer : Nat
  part : Nat
  deriving DecidableEq, Repr

def codecD (d : Desc) : CodecD := ⟨tref d 16, tref d 48, byt d 80 8, fld d 88 0 2, byt d 92 2, byt d 94 2⟩

/-- The frame of an ENCODE, its accesses, and the write of the frame under the source's identifier. -/
def encodeFrame (c : Chip) (e : Entry) : Frame :=
  let d := codecD e.desc
  encFrame (rawOnlyOf c e) ⟨d.mode, d.src.format, d.src.tid, d.layer, d.part, c.run.step, dId e.desc, dSc e.desc, e.tile⟩
    (peekN c e d.src.addr d.count)
def encodeAccs (e : Entry) : List Acc :=
  let d := codecD e.desc
  [.rd d.src 0 d.count, .wr { d.dest with policy := 1, tid := d.src.tid } 0 (rawFrame d.count)]
def encodeWrite (e : Entry) (fr : Frame) : Wr :=
  let d := codecD e.desc
  ⟨{ d.dest with policy := 1, tid := d.src.tid, ext := fr.bytes.length }, 0, fr.bytes, false⟩

/-- ENCODE: writes a frame to the destination. -/
def encode (_ : Mgt) (e : Entry) (c : Chip) : Chip :=
  let d := codecD e.desc
  match prepare e (encodeAccs e) (fun _ _ => false) (codActive e c) with
  | .wait c => c
  | .stop st c => codEnd e st c
  | .go c =>
    let e := curEntry c e
    let fr := encodeFrame c e
    let c := encEffects e d.src.tid d.count fr c
    let c := commitAll (curEntry c e) [encodeWrite e fr] c
    codEnd e 0 (codAdd e (·.codFrames) (fun t v => { t with codFrames := v }) 1 c)

/-- DECODE: checks a frame and writes its decoded bytes. -/
def decode (_ : Mgt) (e : Entry) (c : Chip) : Chip :=
  let d := codecD e.desc
  match prepare e [.rd (.plain d.src.addr 64) 0 64] (fun _ _ => false) (codActive e c) with
  | .wait c => c
  | .stop st c => codEnd e st c
  | .go c =>
    let e := curEntry c e
    let g (o n : Nat) : Nat := peekNat c e (d.src.addr + o) n
    let n := min (g 24 8) d.src.ext
    let orig := g 16 8
    let fref : TRef := ⟨d.src.addr, n, 0, 0, 1, g 4 4⟩
    if g 0 1 ≠ 0x20 then codEnd e 0x03 c
    else if g 2 1 ≠ d.dest.format then codEnd e 0x10 c
    else if (d.count ≠ 0 ∧ d.count ≠ orig) ∨ d.dest.ext < orig then codEnd e 0x02 c
    else
    let part := fun (q : TRef) b => q == d.dest && !coversBlock [(d.dest, 0, orig)] q b
    match prepare e [.rd fref 0 n, .wr d.dest 0 orig] part c with
    | .wait c => c
    | .stop st c => codEnd e st c
    | .go c =>
      let e := curEntry c e
      let out := decFrame (peekN c e d.src.addr n)
      let c := commitAll e [⟨d.dest, 0, out, false⟩] (countMoved e d.dest 0 out c)
      codEnd e 0 (codAdd e (·.codBytesOut) (fun t v => { t with codBytesOut := v }) out.length c)

/-! ### Checks at arming (R248, R250) -/

/-- A count of bytes that is not a whole number of elements; block formats carry their scales as bytes. -/
def brokenCount (f : Option Format) (n : Nat) : Bool := f.any fun f => !f.block && 8 * n % f.bits != 0

/-- A bounded mode that its source does not allow (R239): a count is one dimension of elements. -/
def badMode (f : Option Format) (mode n : Nat) : Bool :=
  decide (2 ≤ mode) && (match f with
    | some f => (f != .fp32 && f != .bf16) || 8 * n / f.bits % 32 != 0
    | none => true)

/-- The checks of an armed Stack descriptor (R248); `rec` is the region record that an OPEN names. -/
def checkStack (c : Chip) (e : Entry) (d : Desc) (rec : BitVec 2048) : Option Nat :=
  let x := stackD d
  let op := dOpcode d
  let open_ := fget none c.openStacks (dSc d)
  let r := regionD rec
  let f := x.ref.fmt
  let other := c.openStacks.any fun (_, s) => s.any fun s =>
    let q := regionD s.region
    q.fillBase = r.fillBase && q.fillLane != r.fillLane
  let cxl := r.cxlEn && (hostToOuter c (r.bases.getD 2 0) (96 * r.lanes.getD 2 0)).isNone
  let owner := match open_ with
    | some s => let l := readLane c s.area e.tile; l.owned && l.owner != dStream d
    | none => false
  let moves := op = 2 || op = 3
  let access := (op = 1 && (x.area % 4096 != 0 || addrAccess c x.area 4096 true || open_.isSome || other || cxl)) || (op != 1 && open_.isNone) ||
    (op != 1 && owner) || (moves && refAccess c x.ref (op = 3) false)
  let reserved :=
    if op = 1 then byt d 24 40 != 0 || fld rec 1 2 6 != 0 || byt rec 3 1 != 0 || fld rec 6 4 12 != 0 || byt rec 72 56 != 0
    else if op = 2 then fld d 52 2 6 != 0 || byt d 53 3 != 0 || refReserved d 16
    else if op = 3 then byt d 52 4 != 0 || refReserved d 16
    else if op = 4 then byt d 16 32 != 0 || byt d 52 12 != 0
    else byt d 16 48 != 0
  let format := moves && (f.isNone || 4 < x.ref.layout || (op = 2 && badMode f x.mode x.count))
  let empty := (moves && x.count = 0) || (op = 4 && x.drop = 0)
  let odd (n : Nat) : Bool := n % 4096 != 0
  let extent := (moves && (overExtent x.ref x.count || brokenCount f x.count)) ||
    (op = 1 && (15 < r.fetchAhead || 16383 < r.farRank || r.bases.any odd || r.lanes.any odd || odd r.fillBase || odd r.fillLane))
  if access then some 0x0E
  else if op = 1 ∧ byt rec 0 1 ≠ 0x20 then some 0x03
  else if reserved then some 0x04
  else if format then some 0x10
  else if empty then some 0x01
  else if extent then some 0x02
  else none

/-- The checks of an armed Codec descriptor (R250). -/
def checkCodec (c : Chip) (d : Desc) : Option Nat :=
  let x := codecD d
  let enc := dOpcode d = 1
  let access := overlaps x.dest.addr x.dest.ext x.src.addr x.src.ext || refAccess c x.src false false || refAccess c x.dest true false
  let reserved := refReserved d 16 || refReserved d 48 || byt d 96 32 != 0 ||
    (if enc then fld d 88 2 6 != 0 || byt d 89 3 != 0 else byt d 88 8 != 0)
  let format := x.src.fmt.isNone || x.dest.fmt.isNone || 4 < x.src.layout || 4 < x.dest.layout ||
    (enc && badMode x.src.fmt x.mode x.count)
  let extent := overExtent x.src (if enc then x.count else 64) ||
    (if enc then overExtent x.dest (rawFrame x.count) || brokenCount x.src.fmt x.count else overExtent x.dest x.count)
  if access then some 0x0E
  else if reserved then some 0x04
  else if format then some 0x10
  else if enc ∧ x.count = 0 then some 0x01
  else if extent then some 0x02
  else none

/-- OPEN (R220). -/
def execStackOpen (id : Nat) (s : State) : Host.Outcome State Fault Refusal := onRunning 11 1 id stackOpen s
/-- PUSH (R229, R230). -/
def execPush (id : Nat) (s : State) : Host.Outcome State Fault Refusal := onRunning 11 2 id push s
/-- POP (R231). -/
def execPop (id : Nat) (s : State) : Host.Outcome State Fault Refusal := onRunning 11 3 id pop s
/-- DROP (R232). -/
def execDrop (id : Nat) (s : State) : Host.Outcome State Fault Refusal := onRunning 11 4 id dropFrames s
/-- CLOSE (R232). -/
def execStackClose (id : Nat) (s : State) : Host.Outcome State Fault Refusal := onRunning 11 5 id stackClose s
/-- ENCODE (R249). -/
def execEncode (id : Nat) (s : State) : Host.Outcome State Fault Refusal := onRunning 5 1 id encode s
/-- DECODE (R249). -/
def execDecode (id : Nat) (s : State) : Host.Outcome State Fault Refusal := onRunning 5 2 id decode s

end Sys2Proof.Machine
end

