-- ==== Sys2Proof/Machine/Opening.lean ====
section
/-! DEFINITION. Steps of the run: opening and reopening (R60 to R66, R97, R101, R280), the end of a clearance (R64, R67, R99,
R263, R278, R279, R647), and the Assay (R93 to R100). -/

namespace Sys2Proof.Machine

/-! ### Scale history (R59 to R61) -/

/-- A record of the scale-history table. -/
structure Hist where
  amax : List W32
  newest : W64
  valid : Nat
  exp : Int
  format : Nat
  margin : Nat
  seeded : Bool
  tensor : W32
  deriving DecidableEq, Repr

def readHist (c : Chip) (a : Nat) : Hist :=
  ⟨(List.range 16).map fun i => .ofNat 32 (readNat c (a + 4 * i) 4), .ofNat 64 (readNat c (a + 64) 8),
    readNat c (a + 72) 1, sgn 8 (readNat c (a + 73) 1), readNat c (a + 74) 1, readNat c (a + 75) 1 % 8,
    (readByte c (a + 75)).getLsbD 3, .ofNat 32 (readNat c (a + 76) 4)⟩

/-- a_ref: the largest valid entry; a NaN or a negative value counts as zero (R61). -/
def Hist.aref (h : Hist) : W32 :=
  (List.range (min h.valid 16)).foldl (fun m j =>
    let x := h.amax.getD ((h.newest - BitVec.ofNat 64 j).toNat % 16) 0
    if f32isNan x || x.msb then m else f32max m x) f32zero

/-- The exponent of R61 for a record with valid entries. -/
def Hist.r61 (h : Hist) : Int := expOf h.format h.aref h.margin h.exp

/-- Whether a record is lost at the opening of step `s`, whatever its tensor (R60). -/
def Hist.lost (h : Hist) (s : W64) : Bool := (h.format != 3 && h.format != 4) || (h.valid != 0 && h.newest + 1 != s)

/-- The scale state that a record gives (R61, R65, R66). -/
def Hist.scale (h : Hist) (s : W64) : Scale :=
  if h.lost s then Scale.reset else
  { Scale.reset with
    lost := false
    e := if 1 ≤ h.valid then some h.r61 else if h.seeded then some h.exp else none
    margin := h.margin
    tensor := h.tensor
    format := h.format }

/-- The scale-history table as a sealed tensor (R58). -/
def histRef (cfg : Desc) : TRef := ⟨byt cfg 40 8, 128 * 65536, 0, 0, 1, byt cfg 68 4⟩

/-- The state of the records of one seal block; a failing seal or an uncorrectable word loses all of them (R60). -/
def openBlock (cfg : Desc) (s : W64) (b : Nat) (c : Chip) : FMap Scale × Chip :=
  let r := histRef cfg
  let a := r.addr + 4096 * b
  let c := meet a 4096 c
  match firstPoison c a 4096 with
  | some w => ([], recordUe w c)
  | none =>
    if sealAt c a ≠ some (sealOf r.tid b (readBytes c a 4096)) then ([], recordMismatch r.tid b c)
    else
      (((List.range 32).map fun i => (32 * b + i, (readHist c (a + 128 * i)).scale s)).filter fun x => x.2 ≠ Scale.reset, c)

/-- The scale states at the opening of step `s`. -/
def openScales (cfg : Desc) (s : W64) (c : Chip) : FMap Scale × Chip :=
  (List.range 2048).foldl (fun (m, c) b =>
    let (x, c) := openBlock cfg s b c
    (m ++ x, c)) ([], c)

/-! ### Opening (R97, R101, R280) -/

/-- What the collectors counted since the last opening, merged into the slot's view (The Assay; log entry 45). Either
counter's wrap, or a bin's, sets the one wrapped bit that the slot has (R103, R104; log entry 45). -/
def Slot.merge (s : Slot) : Slot :=
  let n := (s.newChecks.map (·.2)).foldl (· + ·) 0
  { s with
    checks := ctrAdd s.checks n
    saturations := ctrAdd s.saturations s.newSats
    hist := s.newChecks.foldl (fun h (b, k) => fset 0 h b (ctrAdd (fget 0 h b) k)) s.hist
    histWrapped := s.histWrapped || ctrWraps s.checks n || ctrWraps s.saturations s.newSats ||
      s.newChecks.any fun x => ctrWraps (fget 0 s.hist x.1) x.2
    newChecks := []
    newSats := 0 }

/-- A slot's configuration as written takes effect; another tensor clears its record, all but hist_wrapped, which R101 does
not name (log entry 45). -/
def SlotCfg.apply (g : SlotCfg) (s : Slot) : Slot :=
  let s := if g.tensor = s.tensor then s else
    { s with streak := 0, alarmBase := 0, checks := 0, saturations := 0, hist := [] }
  { s with
    tensor := g.tensor
    histEn := g.histEn
    zeroEn := g.zeroEn
    thrBin := g.thrBin
    zeroLimit := g.zeroLimit
    underThr := g.underThr }

/-- The Assay at an opening: the slots' view, the mark count, the step's counts, and configuration writes. A reopening
keeps the step's first mark (R97). -/
def openAssay (reopening : Bool) (c : Chip) : Chip :=
  let a := { c.asy with slots := mapVals Slot.reset Slot.merge c.asy.slots }
  let slots := a.nextCfg.foldl (fun m (i, g) =>
    match g with
    | some g => fset Slot.reset m i (g.apply (fget Slot.reset m i))
    | none => m) a.slots
  let slots := slots.foldl (fun m (i, s) => fset Slot.reset m i { s with nTotal := 0, nZero := 0, nUnder := 0 }) slots
  { c with asy := { a with
    sampleLog2 := a.nextSampleLog2
    zeroEn := a.nextZeroEn
    sampleEn := a.nextSampleEn
    nfCount := 0
    nfSet := reopening && a.nfSet
    slots := slots
    nextCfg := [] } }

/-- Opens, or reopens, the run's current step. -/
def openStep (reopening : Bool) (c : Chip) : Chip :=
  let (m, c) := openScales c.run.cfg c.run.step c
  openAssay reopening { c with run := { c.run with scales := m, copies := [] } }

/-! ### A passed clearance (R278) -/

/-- The record as a passed clearance of step `s` writes it (R64). -/
def Hist.commit (h : Hist) (s : W64) (lost : Bool) (st : Scale) (amax : W32) : Hist :=
  let h1 : Hist := { h with
    amax := h.amax.set (s.toNat % 16) amax
    newest := s
    valid := if lost then 1 else min 16 (h.valid + 1)
    tensor := if st.converted then st.tensor else h.tensor
    format := if st.converted then st.format else h.format }
  { h1 with exp := h1.r61 }

/-- A record's 128 bytes: the reserved ones as they were. -/
def Hist.bytes (h : Hist) (old : List Byte) : List Byte :=
  (h.amax.flatMap fun x => toBytes 4 x.toNat) ++ toBytes 8 h.newest.toNat ++ toBytes 1 h.valid ++ toBytes 1 (unsgn 8 h.exp) ++
  toBytes 1 h.format ++ (old.drop 75).take 1 ++ toBytes 4 h.tensor.toNat ++ old.drop 80

/-- Commits the records of one seal block (R64), and seals it again unless a poisoned word is left in it (R647; log
entry 21). `amax` is the group's maximum of an entry that some member converted. -/
def commitBlock (cfg : Desc) (s : W64) (amax : Nat → Option W32) (b : Nat) (c : Chip) : Chip :=
  let r := histRef cfg
  let a := r.addr + 4096 * b
  let c := meet a 4096 c
  let c' := (List.range 32).foldl (fun c i =>
    let k := 32 * b + i
    let st := fget Scale.reset c.run.scales k
    let h := readHist c (a + 128 * i)
    let write := if (amax k).isSome then st.converted || !st.lost else !st.lost && decide (1 ≤ h.valid)
    if write then
      let bs := (h.commit s st.lost st ((amax k).getD 0)).bytes (readBytes c (a + 128 * i) 128)
      (wordsIn (a + 128 * i) 128).foldl (fun c w => setPoison w false c) (writeBytes (a + 128 * i) bs c)
    else c) c
  if c'.mem = c.mem && c'.poison = c.poison then c' else
  match firstPoison c' a 4096 with
  | some w => recordUe w c'
  | none => setSeal a (some (sealOf r.tid b (readBytes c' a 4096))) c'

/-- Writes the inactive generation's byte of every copy-exponent entry (R263, R647). -/
def commitExps (cfg : Desc) (active : Bool) (c : Chip) : Chip :=
  (List.range 65536).foldl (fun c k =>
    let a := byt cfg 48 8 + 8 * k
    let c := meet a 8 c
    let v := match fget none c.run.copies k with
      | some e => BitVec.ofNat 8 (unsgn 8 e)
      | none => readByte c (a + if active then 5 else 4)
    if poisonedAt c a then recordUe a c else writeByte (a + if active then 4 else 5) v c) c

/-- A slot after a passed clearance (R99), and whether its alarm is raised (R100): where the distance reaches zero_limit,
not where a lowered zero_limit already lies below it (log entry 45). -/
def Slot.passed (s : Slot) : Slot × Bool :=
  if s.nTotal = 0 then (s, false)
  else if s.nZero = s.nTotal || decide (s.underThr.toNat * s.nTotal < s.nUnder * 65536) then
    let n := min 65535 (s.streak.toNat + 1)
    let d := n - s.alarmBase.toNat
    let up := decide (s.streak.toNat - s.alarmBase.toNat < s.zeroLimit.toNat) && decide (s.zeroLimit.toNat ≤ d)
    ({ s with streak := .ofNat 16 n, alarm := s.alarm || up }, up)
  else ({ s with streak := 0, alarmBase := 0 }, false)

/-- Updates one Assay slot at a passed clearance. -/
def passSlot (i : Nat) (c : Chip) : Chip :=
  let (s, up) := (fget Slot.reset c.asy.slots i).passed
  raiseIf up .asy 1 { c with asy := { c.asy with slots := fset Slot.reset c.asy.slots i s } }

/-- Writes a field of the run record that the device maintains; a poisoned word is skipped and recorded. -/
def putRun (o n v : Nat) (c : Chip) : Chip :=
  match c.run.recAddr with
  | none => c
  | some a =>
    let c := meet (a + o) n c
    if poisonedAt c (a + o) then recordUe (a + o) c else writeBytes (a + o) (toBytes n v) c

def getRun (c : Chip) (o n : Nat) : Nat := (c.run.recAddr.map fun a => readNat c (a + o) n).getD 0

/-- The two words that every clearance with a verdict keeps (R279). -/
def keepVerdict (combined own : W32) (status : Nat) (c : Chip) : Chip :=
  putRun 137 1 status (putRun 140 4 combined.toNat (putRun 176 4 own.toNat c))

/-- Parts of steps 1 to 3 of R278: the blocks of the scale history, the copy exponents, and the Assay slots. -/
def passParts : Nat := 2048 + 1 + 4096

/-- One part of steps 1 to 3 of R278; a compute reset can strike between any two of them (R281). -/
def passPart (amax : Nat → Option W32) (i : Nat) (c : Chip) : Chip :=
  if i < 2048 then commitBlock c.run.cfg c.run.step amax i c
  else if i = 2048 then commitExps c.run.cfg c.run.active c
  else passSlot (i - 2049) c

/-- Steps 4 to 6 of R278: the generation flips, the Daybook's records are queued, and the next step opens. -/
def flipStep (m : Mgt) (savePoint : Bool) (own : W32) (c : Chip) : Chip :=
  let r := c.run
  let current := (r.scales.filter fun x => x.2.current).length
  let c := { c with run := { c.run with step := r.step + 1, active := !r.active } }
  let c := putRun 128 8 (r.step + 1).toNat c
  let c := putRun 136 1 (b2n !r.active) c
  let c := putRun 144 8 0 (putRun 152 4 0 c)
  let c := putRun 160 8 (getRun c 160 8 + 1) c
  let c := keepVerdict 0 own 0 c
  let c := if m.reproducible && current ≠ 0 then journal m 0 8 (toBytes 8 r.step.toNat ++ toBytes 4 current) c else c
  let c := if (r.step + 1).toNat % 1000 = 0 || savePoint then
      journal m 0 7 (toBytes 8 (r.step + 1).toNat ++ toBytes 1 (b2n !r.active) ++ toBytes 1 (b2n savePoint) ++ toBytes 6 0 ++
        toBytes 8 (getRun c 160 8) ++ toBytes 8 (getRun c 168 8)) c
    else c
  openStep false c

/-- A failed clearance (R279): the step reopens. -/
def failStep (combined own : W32) (status : Nat) (c : Chip) : Chip :=
  let c := putRun 144 8 0 (putRun 152 4 0 c)
  let c := putRun 168 8 (getRun c 168 8 + 1) c
  openStep true (keepVerdict combined own status c)

/-- The status of a failed clearance (R279). -/
def failStatus (combined : W32) : Nat :=
  if combined.getLsbD 2 then 0x0D else if combined.getLsbD 0 || combined.getLsbD 1 then 0x08 else 0x02

/-! ### Sampled checks (R93 to R96) -/

/-- The error bin of a block's narrow and wide results (R95). -/
def assayBin (n w : List W32) : Nat :=
  let dmax := (List.zipWith f32sub n w).foldl (fun m x => f32max m (f32abs x)) f32zero
  let wmax := w.foldl (fun m x => f32max m (f32abs x)) f32zero
  let e := f32mul dmax (f32recip wmax)
  if n.any (!f32finite ·) || w.any (!f32finite ·) then 15
  else if f32isZero wmax then (if f32isZero dmax then 0 else 15)
  else if f32isNan e then Config.assayBin wmax.toNat % 16
  else if !f32finite e then 15
  else
    match f32v e with
    | .fin _ m x =>
      if m = 0 || topExp m x < -15 then 0 else if -1 ≤ topExp m x then 15 else (topExp m x + 16).toNat
    | _ => 15

/-- A check's result in the slots of its tensor (R95, R96). -/
def landCheck (tid bin : Nat) (c : Chip) : Chip :=
  let err := c.asy.slots.any fun x => decide (x.2.tensor.toNat = tid) && x.2.histEn && x.2.thrBin != 0 && decide (x.2.thrBin.toNat ≤ bin)
  let c := onSlots tid (fun s =>
    if !s.histEn then s else
    { s with
      newChecks := fset 0 s.newChecks bin (fget 0 s.newChecks bin + 1)
      errEvent := s.errEvent || (s.thrBin != 0 && decide (s.thrBin.toNat ≤ bin)) }) c
  let c := raiseIf (ctrWraps c.asy.checks 1) .asy 3 c
  raiseIf err .asy 0 { c with asy := { c.asy with checks := ctrAdd c.asy.checks 1 } }

/-- Runs one due check; no check of this operation and block is due: nothing. -/
def assayCheck (id block : Nat) (c : Chip) : Chip :=
  match c.asy.due.find? fun x => x.op = id && x.block = block with
  | none => c
  | some x => landCheck x.tensor (assayBin x.narrow x.wide) { c with asy := { c.asy with due := c.asy.due.erase x } }

/-- A write to the status byte of the selected slot (R100, R103). -/
def alarmAck (value : BitVec 8) (c : Chip) : Chip :=
  let i := c.asy.slotSel.toNat
  let s := fget Slot.reset c.asy.slots i
  let s := if value.getLsbD 0 then { s with alarm := false, alarmBase := s.streak } else s
  let s := if value.getLsbD 1 then { s with errEvent := false } else s
  { c with asy := { c.asy with slots := fset Slot.reset c.asy.slots i s } }

/-- ASSAY_CHECK (R93 to R96). -/
def execAssayCheck (id block : Nat) (s : State) : Host.Outcome State Fault Refusal :=
  onChip (fun _ c => assayCheck id block c) s
/-- ALARM_ACK (R100). -/
def execAlarmAck (value : BitVec 8) (s : State) : Host.Outcome State Fault Refusal :=
  onChip (fun m c => whenReady m (alarmAck value) c) s

end Sys2Proof.Machine
end

