-- ==== Sys2Proof/Machine/Update.lean ====
section
/-! DEFINITION. The Update class but for its clearance exchange: ADAMW, CARRY and CONFIGURE (R253 to R270, R283 to R287). -/

namespace Sys2Proof.Machine

/-! ### Records and descriptors -/

/-- The parameter record (R285). -/
structure ParD where
  rowEn : Bool
  colEn : Bool
  rowFmt : Nat
  colFmt : Nat
  rowLayout : Nat
  colLayout : Nat
  rowConv : Nat
  colConv : Nat
  nIn : Nat
  nOut : Nat
  master : Nat
  m : Nat
  v : Nat
  row : Nat
  col : Nat
  tids : List Nat           -- master, m, v, row copy, column copy
  deriving DecidableEq, Repr

def parD {n : Nat} (r : BitVec n) : ParD :=
  ⟨fld r 1 0 1 = 1, fld r 1 1 1 = 1, byt r 2 1, byt r 3 1, byt r 4 1, byt r 5 1, fld r 6 0 4, fld r 6 4 4, byt r 8 4, byt r 12 4,
    byt r 16 8, byt r 24 8, byt r 32 8, byt r 40 8, byt r 48 8, (List.range 5).map fun i => byt r (56 + 4 * i) 4⟩

/-- Elements of the matrix. -/
def ParD.n (p : ParD) : Nat := p.nIn * p.nOut
/-- Slices of the matrix (R253). -/
def ParD.slices (p : ParD) : Nat := cdiv p.nIn 256
/-- Input features of slices [j, j + k). -/
def ParD.feats (p : ParD) (j k : Nat) : List Nat := span (256 * j) (min (256 * (j + k)) p.nIn)

/-- A tensor of the generations under seal policy Full. -/
def genRef (addr : Nat) (f : Format) (layout n tid : Nat) : TRef := ⟨addr, spanOf f n, f.code, layout, 1, tid⟩

/-- A generation tensor: its reference, its format, its conversion control, and whether it is laid out over n_out × n_in. -/
structure GenT where
  ref : TRef
  f : Format
  conv : Nat
  flip : Bool
  deriving DecidableEq, Repr

def ParD.masterT (p : ParD) : GenT := ⟨genRef p.master .fp32 0 p.n (p.tids.getD 0 0), .fp32, 0, false⟩
def ParD.mT (p : ParD) : GenT := ⟨genRef p.m .mxE4m3 0 p.n (p.tids.getD 1 0), .mxE4m3, 0, false⟩
def ParD.vT (p : ParD) : GenT := ⟨genRef p.v .ue5m3 0 p.n (p.tids.getD 2 0), .ue5m3, 0, false⟩

/-- The enabled copies. -/
def ParD.copies (p : ParD) : List GenT :=
  (match p.rowEn, Format.ofCode p.rowFmt with
    | true, some f => [⟨genRef p.row f p.rowLayout p.n (p.tids.getD 3 0), f, p.rowConv, true⟩]
    | _, _ => []) ++
  (match p.colEn, Format.ofCode p.colFmt with
    | true, some f => [⟨genRef p.col f p.colLayout p.n (p.tids.getD 4 0), f, p.colConv, false⟩]
    | _, _ => [])

def ParD.all (p : ParD) : List GenT := [p.masterT, p.mT, p.vT] ++ p.copies

/-- Storage and logical index of weight (input feature i, output feature c) in a generation tensor (R265, R56). -/
def GenT.place (g : GenT) (p : ParD) (i c : Nat) : Nat × Nat :=
  if g.flip then (storeIdx g.ref.layout p.nOut p.nIn c i, c * p.nIn + i)
  else (storeIdx g.ref.layout p.nIn p.nOut i c, i * p.nOut + c)

/-- Byte ranges of the features `fs` in a generation tensor. -/
def GenT.ranges (g : GenT) (p : ParD) (fs : List Nat) : List (Nat × Nat) :=
  elemRanges g.f p.n (sortBy id (fs.flatMap fun i => (List.range p.nOut).map fun c => (g.place p i c).1))

/-- Fields of an Update descriptor (R286). -/
structure UpdD where
  op : Nat
  ref : TRef                -- grad or loss
  param : Nat
  first : Nat               -- slice j or slice_first
  count : Nat
  k : AdamK
  gq : Nat
  savePoint : Bool
  veto : Bool
  deriving DecidableEq, Repr

def updD (d : Desc) : UpdD :=
  let f (i : Nat) : W32 := .ofNat 32 (byt d (64 + 4 * i) 4)
  ⟨dOpcode d, tref d 16, byt d 48 8, byt d 56 4, byt d 60 4, ⟨f 0, f 1, f 2, f 3, f 4, f 5, f 6, f 7, f 8⟩, fld d 48 0 6,
    fld d 56 0 1 = 1, fld d 56 1 1 = 1⟩

/-- Whether a copy's format is one that R108 streams. -/
def streamable (code : Nat) : Bool := (Format.ofCode code).any fun f => f.class8 || f.sixteen

/-- The window check of the tensors that a parameter record names (R259; log entry 22). -/
def genOutside (c : Chip) (p : ParD) : Bool :=
  p.all.any fun g => !(decide (windowBase ≤ g.ref.addr) && decide (g.ref.addr + g.ref.ext ≤ windowBase + byt c.run.cfg 24 8))

/-- ADAMW and CARRY at arming (R287); R265 speaks of an ADAMW alone. -/
def checkSlices (c : Chip) (d : Desc) (rec : BitVec 2048) : Option Nat :=
  let u := updD d
  let p := parD rec
  let adam := u.op = 1
  let access := u.param % 128 != 0 || c.run.recAddr.isNone || genOutside c p ||
    (adam && (inWindow u.ref.addr || refAccess c u.ref false true))
  let reserved := byt d 100 28 != 0 || fld rec 1 2 6 != 0 || byt rec 7 1 != 0 || byt rec 76 52 != 0 ||
    p.rowConv.testBit 3 || p.colConv.testBit 3 ||
    (if adam then refReserved d 16 || byt d 60 4 != 0 else byt d 16 32 != 0 || byt d 64 36 != 0)
  let unread (en : Bool) (code layout : Nat) : Bool := en && ((Format.ofCode code).isNone || decide (4 < layout))
  let format := 2 ≤ p.rowConv % 4 || 2 ≤ p.colConv % 4 || unread p.rowEn p.rowFmt p.rowLayout ||
    unread p.colEn p.colFmt p.colLayout ||
    adam && (u.ref.fmt != some .fp32 || u.ref.layout != 0 || (p.all.any fun g => g.ref.addr % 4096 != 0) ||
      (p.rowEn && (!streamable p.rowFmt || p.rowLayout != 2)) ||
      (p.colEn && (!streamable p.colFmt || (p.colLayout != 0 && p.colLayout != 2))))
  let bad (n : Nat) : Bool := n = 0 || n % 128 != 0
  let last := if adam then u.first + 1 else u.first + u.count
  let extent := bad p.nIn || bad p.nOut || p.slices < last ||
    (adam && overExtent u.ref ((p.feats u.first 1).length * p.nOut * 4))
  if access then some 0x0E
  else if byt rec 0 1 != 0x20 then some 0x03
  else if reserved then some 0x04
  else if format then some 0x10
  else if !adam && u.count = 0 then some 0x01
  else if extent then some 0x02
  else none

/-- Whether two regions of `n` bytes, 2 MiB aligned, share a cell: 8 KiB of a stack's view lie within 64 KiB of the
interleaved one (R340). -/
def genOverlap (a b n : Nat) : Bool :=
  if regionOf a = regionOf b then overlap a n b n
  else if regionOf a = 1 then overlap a n (b % 2 ^ 36 * 8) (8 * n)
  else if regionOf b = 1 then overlap (a % 2 ^ 36 * 8) (8 * n) b n
  else false

/-- CONFIGURE at arming (R283, R287; log entry 22). -/
def checkConfigure (d : Desc) (rec : BitVec 2048) : Option Nat :=
  let a := byt rec 8 8
  let b := byt rec 16 8
  let n := byt rec 24 8
  let access := byt d 16 8 % 256 != 0 || a % 0x200000 != 0 || b % 0x200000 != 0 || byt rec 40 8 % 4096 != 0 ||
    byt rec 48 8 % 4096 != 0 || byt rec 56 8 % 32 != 0 || !hbmSpan a n || !hbmSpan b n ||
    genOverlap a b n
  let reserved := byt d 24 104 != 0 || byt rec 1 7 != 0 || byt rec 72 56 != 0 || byt rec 138 2 != 0 || byt rec 180 76 != 0 ||
    1 < byt rec 136 1
  if access then some 0x0E
  else if byt rec 0 1 != 0x20 then some 0x03
  else if reserved then some 0x04
  else if n = 0 || n % 0x200000 != 0 || 0x2400000000 < n || 65536 < byt rec 64 4 then some 0x02
  else none

/-- CLEARANCE at arming (R287, R321). -/
def checkClearance (c : Chip) (d : Desc) : Option Nat :=
  let u := updD d
  let access := c.run.recAddr.isNone || inWindow u.ref.addr || refAccess c u.ref false true ||
    !(fget Gq.reset c.clr.gqs u.gq).bound || fld (fget Gq.reset c.clr.gqs u.gq).record 1 0 1 = 0
  let reserved := refReserved d 16 || fld d 48 6 2 != 0 || byt d 49 7 != 0 || fld d 56 2 6 != 0 || byt d 57 71 != 0
  if access then some 0x0E
  else if reserved then some 0x04
  else if u.ref.fmt != some .fp32 || 4 < u.ref.layout then some 0x10
  else if u.ref.ext < 4 || 1024 < u.ref.ext || overExtent u.ref 0 then some 0x02
  else none

def checkUpdate (c : Chip) (d : Desc) (rec : BitVec 2048) : Option Nat :=
  match dOpcode d with
  | 1 | 2 => checkSlices c d rec
  | 3 => checkConfigure d rec
  | _ => checkClearance c d

/-! ### ADAMW (R260 to R268) -/

/-- Adds a completed slice's master elements to the run record (R270). -/
def countWritten (n : Nat) (c : Chip) : Chip := putRun 144 8 (getRun c 144 8 + n) c

/-- Blocks that an Update operation writes only in part (R266). -/
def updPart (gs : List (GenT × List (Nat × Nat))) : TRef → Nat → Bool :=
  fun q b => !coversBlock (gs.flatMap fun (g, rs) => rs.map fun (o, n) => (g.ref, o, n)) q b

/-- One generation tensor's converted slice, written to the inactive generation; its marks name the master (R97). -/
def genConvert (e : Entry) (g : GenT) (n mtid : Nat) (xs : List (Nat × Nat × FVal)) (c : Chip) : List Wr × Chip :=
  let (k, c) := writeScale g.ref.tid g.f (fun _ => xs.map (·.2.2)) c
  let o := convertOut c.run.step g.ref g.f n g.conv k xs
  let c := markIf o.mark e .conversion mtid (dieOf e.tile) c
  let (ws, c) := convertFor e g.ref g.f n g.conv k (dieOf e.tile) xs c
  let c := if !g.f.scaled then c else
    { c with run := { c.run with copies := fset none c.run.copies (g.ref.tid % 65536) (some k) } }
  (ws.map fun w => { w with inactive := true }, c)

/-- The intermediate values of one weight's update (R88). -/
def adamwParts (w g m v : W32) (k : AdamK) : List W32 :=
  let g2 := f32mul g g
  let m1 := f32add (f32mul k.b1 m) (f32mul k.omb1 g)
  let v1 := f32add (f32mul k.b2 v) (f32mul k.omb2 g2)
  let vc := f32mul v1 k.c2
  let d := f32rsqrt (f32add vc k.eps2)
  let mc := f32mul m1 k.c1
  let u := f32mul mc d
  let r := f32add u (f32mul k.wd w)
  [f32mul k.b1 m, f32mul k.omb1 g, m1, g2, f32mul k.b2 v, f32mul k.omb2 g2, v1, vc, f32add vc k.eps2, d, mc, u, f32mul k.wd w, r,
    f32mul k.lr r, f32sub w (f32mul k.lr r)]

/-- What an ADAMW writes, master first, and the chip with the marks and counts of computing it (R260 to R268).
A mark made while a moment is widened names that moment, as R97's bullet of a conversion's source has it, and not the master
weights, as its bullet of ADAMW could be read (DEDUCED, log entry 44). -/
def adamwPlan (u : UpdD) (p : ParD) (e : Entry) (c : Chip) : List Wr × Chip :=
  let fs := p.feats u.first 1
  let ws := fs.flatMap fun i => (List.range p.nOut).map fun o => (i, o)
  let src (g : GenT) : Src := mkSrc c e g.ref p.n
  let gs : Src := mkSrc c e u.ref (fs.length * p.nOut)
  let idx := ws.map fun (i, o) => i * p.nOut + o
  let mtid := p.masterT.ref.tid
  let die := dieOf e.tile
  let at4 (i o : Nat) : W32 × W32 × W32 × W32 :=
    let x := i * p.nOut + o
    ((src p.masterT).f32 c e x, gs.f32 c e (x - 256 * u.first * p.nOut), (src p.mT).f32 c e x, (src p.vT).f32 c e x)
  let new := ws.map fun (i, o) =>
    let (w, g, m, v) := at4 i o
    ((i, o), adamw w g m v u.k)
  let c1 := markIf (widens32 (src p.mT) c e idx) e .conversion p.mT.ref.tid die c
  let c1 := markIf (widens32 (src p.vT) c e idx) e .conversion p.vT.ref.tid die c1
  let bad := ws.any fun (i, o) =>
    let (w, g, m, v) := at4 i o
    (adamwParts w g m v u.k).any (!f32finite ·)
  let c1 := markIf bad e .vector mtid die c1
  let put (g : GenT) (val : W32 × W32 × W32 → W32) : List (Nat × Nat × FVal) :=
    sortBy (·.1) (new.map fun (x, r) => ((g.place p x.1 x.2).1, (g.place p x.1 x.2).2, f32v (val r)))
  let (w0, c1) := f32For p.masterT.ref (new.map fun (x, r) => (x.1 * p.nOut + x.2, r.1)) c1
  let (w1, c1) := genConvert e p.mT p.n mtid (put p.mT (·.2.1)) c1
  let (w2, c1) := genConvert e p.vT p.n mtid (put p.vT (·.2.2)) c1
  let (w3, c1) := p.copies.foldl (fun (acc, c) g =>
    let (w, c) := genConvert e g p.n mtid (put g (·.1)) c
    (acc ++ w, c)) ([], c1)
  (w0.map (fun w => { w with inactive := true }) ++ w1 ++ w2 ++ w3, c1)

/-- Weights of the slice that an ADAMW updates. -/
def adamwCount (u : UpdD) (p : ParD) : Nat := (p.feats u.first 1).length * p.nOut

/-- The slice that an ADAMW writes, as one commit (R260). -/
def adamwSlice (u : UpdD) (p : ParD) (e : Entry) (c : Chip) : Chip :=
  let (ws, c1) := adamwPlan u p e c
  finish e 0 (countWritten (adamwCount u p) (commitAll (curEntry c1 e) ws c1))

/-- The slices' byte ranges in every tensor of the parameter. -/
def updRanges (p : ParD) (fs : List Nat) : List (GenT × List (Nat × Nat)) := p.all.map fun g => (g, g.ranges p fs)

/-- The accesses of an ADAMW: gradient, active masters and moments, and what it writes in the inactive generation. -/
def adamwAccs (c : Chip) (u : UpdD) (p : ParD) (e : Entry) : List Acc :=
  let fs := p.feats u.first 1
  let rd (g : GenT) := (g.ranges p fs).map fun (o, n) => Acc.rd g.ref o n
  let wr (g : GenT) := (g.ranges p fs).map fun (o, n) => ({ Acc.wr g.ref o n with inactive := true } : Acc)
  Acc.rd u.ref 0 (fs.length * p.nOut * 4) :: ([p.masterT, p.mT, p.vT].flatMap rd ++ p.copies.flatMap (fun g => scaleAccs c e g.ref) ++
    p.all.flatMap wr)

def adamwRun (_ : Mgt) (e0 : Entry) (c : Chip) : Chip :=
  let e := curEntry c e0
  let u := updD e.desc
  let p := parD e.record
  if p.copies.any (fun g => scaleMismatch c e g.ref) then finish e 0x10 c else
  unit e (adamwAccs c u p e) (updPart (updRanges p (p.feats u.first 1))) (fun e c => adamwSlice u p e c) c

/-! ### CARRY (R269) -/

/-- The ranges that a CARRY copies. -/
def carryList (e : Entry) : List (TRef × Nat × Nat) :=
  let u := updD e.desc
  let p := parD e.record
  (updRanges p (p.feats u.first u.count)).flatMap fun (g, rs) => rs.map fun (o, n) => (g.ref, o, n)

/-- What a CARRY reads in the active generation and writes in the inactive one. -/
def carryAccs (e : Entry) : List Acc :=
  ((carryList e).map fun (r, o, n) => Acc.rd r o n) ++
  (carryList e).map fun (r, o, n) => ({ Acc.wr r o n with inactive := true } : Acc)
def carryWrites (c : Chip) (e : Entry) : List Wr :=
  (carryList e).map fun (r, o, n) => ⟨r, o, peekN c e (r.addr + o) n, true⟩

def carryRun (_ : Mgt) (e0 : Entry) (c : Chip) : Chip :=
  let e := curEntry c e0
  let u := updD e.desc
  let p := parD e.record
  let fs := p.feats u.first u.count
  if p.copies.any (fun g => scaleMismatch c e g.ref) then finish e 0x10 c else
  unit e (p.copies.flatMap (fun g => scaleAccs c e g.ref) ++ carryAccs e) (updPart (updRanges p fs)) (fun e c =>
    let c := (carryWrites c e).foldl (fun c w => countMoved e w.ref w.off w.data c) c
    finish e 0 (countWritten (fs.length * p.nOut) (commitAll e (carryWrites c e) c))) c

/-! ### CONFIGURE (R284) -/

/-- Binds the run record read at arming, and opens its step (log entry 23). -/
def configureRun (_ : Mgt) (e : Entry) (c : Chip) : Chip :=
  let r := e.record
  finish e 0 (openStep false { c with run := {
    recAddr := some (byt e.desc 16 8)
    cfg := .ofNat 1024 (byt r 0 128)
    step := .ofNat 64 (byt r 128 8)
    active := byt r 136 1 = 1
    scales := []
    copies := [] } })

/-- ADAMW (R260). -/
def execAdamw (id : Nat) (s : State) : Host.Outcome State Fault Refusal := onRunning 9 1 id adamwRun s
/-- CARRY (R269). -/
def execCarry (id : Nat) (s : State) : Host.Outcome State Fault Refusal := onRunning 9 2 id carryRun s
/-- CONFIGURE (R284). -/
def execConfigure (id : Nat) (s : State) : Host.Outcome State Fault Refusal := onRunning 9 3 id configureRun s

end Sys2Proof.Machine
end

