-- ==== Sys2Proof/Machine/Collective.lean ====
section
/-! DEFINITION. Collectives and the Clearing engine: descriptors and groups, the head exchange, tranches in switch slots and
on the device ring, and what each message does (R289 to R335, R454). -/

namespace Sys2Proof.Machine

/-! ### Groups and descriptors -/

/-- A group record (R291). -/
structure Grp where
  sw : Bool
  wide : Bool
  retry : Nat
  window : Nat
  id : Nat
  m : Nat
  me : Nat
  s : Nat
  shares : Nat
  epoch : Nat
  tb : Nat
  mask : Nat
  backoff : Nat
  list : Nat
  deriving DecidableEq, Repr

def grpOf {n : Nat} (r : BitVec n) : Grp :=
  ⟨fld r 1 0 1 = 1, fld r 1 1 1 = 1, byt r 2 1, byt r 3 1, byt r 4 4, byt r 8 4, byt r 12 4, byt r 16 4, byt r 20 2, byt r 22 2,
    byt r 24 4, byt r 28 2, byt r 30 2, byt r 32 8⟩

/-- Planes of the mask, rising. -/
def Grp.planes (g : Grp) : List Nat := setBits 16 g.mask
/-- Headroom of the group's sums (R294). -/
def Grp.h (g : Grp) : Nat := clog2 g.s

def Chip.gq (c : Chip) (i : Nat) : Gq := fget Gq.reset c.clr.gqs i
def Chip.setGq (c : Chip) (i : Nat) (q : Gq) : Chip := { c with clr := { c.clr with gqs := fset Gq.reset c.clr.gqs i q } }
/-- The group of a group queue. -/
def Chip.grp (c : Chip) (i : Nat) : Grp := grpOf (c.gq i).record
/-- Rank of a member of a group queue's group. -/
def Chip.rankOf (c : Chip) (q i : Nat) : Nat := (c.gq q).members.getD i 0

/-- Fields of a Collective descriptor (R332). -/
structure CollD where
  op : Nat
  src : TRef
  dst : TRef
  gq : Nat
  listed : Bool
  drift : Nat
  red : Nat
  conv : Nat
  count : Nat
  root : Nat
  slot : Nat
  record : Nat
  deriving DecidableEq, Repr

def collD (d : Desc) : CollD :=
  ⟨dOpcode d, tref d 16, tref d 48, fld d 80 0 6, fld d 81 4 1 = 1, fld d 81 2 2, fld d 81 0 2, fld d 82 0 4, byt d 84 4,
    byt d 88 4, byt d 92 4, byt d 96 8⟩

/-- Address under which an entry keeps byte `i` of a list read at arming: a member list, a source list, or the groups of an
adoption. -/
def listKey (i : Nat) : Nat := 2 ^ 53 + i
def listBytes (e : Entry) (o n : Nat) : List Byte :=
  (List.range n).map fun i => ((e.ext.find? fun x => x.1 = listKey (o + i)).map (·.2)).getD 0

/-- The reference at entry `i` of a list of bytes. -/
def trefAt (l : List Byte) (i : Nat) : TRef := tref (BitVec.ofNat 256 (ofBytes ((l.drop (32 * i)).take 32))) 0

def CollD.reduces (x : CollD) : Bool := x.op = 1 || x.op = 2
def CollD.data (x : CollD) : Bool := decide (1 ≤ x.op) && decide (x.op ≤ 7)

/-- The local shares that a collective reads (R301). -/
def CollD.shares (x : CollD) (g : Grp) (l : List Byte) : List TRef :=
  if x.listed then (List.range g.shares).map (trefAt l) else [x.src]
/-- Where its result goes (R301). -/
def CollD.target (x : CollD) (l : List Byte) : TRef := if x.listed then trefAt l 0 else x.dst

/-- Elements of the source and of the destination at a member (R299). -/
def CollD.nSrc (x : CollD) (g : Grp) : Nat := if x.op = 5 then g.m * x.count else x.count
def CollD.nDst (x : CollD) (g : Grp) : Nat :=
  if x.op = 2 then x.count / g.m else if x.op = 3 || x.op = 5 then g.m * x.count else x.count

/-! ### Checks at arming (R333) -/

/-- A group record whose fields lie outside their ranges (R291; log entry 24). -/
def grpRange (g : Grp) : Bool :=
  g.m = 0 || 16384 < g.m || g.m ≤ g.me || g.s = 0 || 2 ^ 20 < g.s || g.shares = 0 || 256 < g.shares || g.tb % 4096 != 0 ||
  g.tb < 4096 || 2 ^ 24 < g.tb || g.window = 0 || 128 < g.window || g.backoff = 0 || 1000 < g.backoff || g.mask = 0

/-- Reserved bits of a group record and of its member list. -/
def grpReserved {n : Nat} (r : BitVec n) (ranks : List Nat) : Bool :=
  fld r 1 2 6 != 0 || byt r 40 24 != 0 || ranks.any fun x => x >>> 20 != 0

/-- The 32-bit words of a byte list. -/
def words32 (l : List Byte) : List Nat := (chunksOf 4 l).map ofBytes
/-- Group record `i` of an adoption's list, which holds its 16-byte entries, then the records, then the member lists (R334). -/
def adoptRec (l : List Byte) (n i : Nat) : BitVec 512 := .ofNat 512 (ofBytes ((l.drop (16 * n + 64 * i)).take 64))

/-- Bytes of a record's member list. -/
def Grp.listBytes (g : Grp) : Nat := 4 * min g.m 16384
/-- The member words of group `i` of an adoption's list. -/
def adoptRanks (l : List Byte) (n i : Nat) : List Nat :=
  let before := ((List.range i).map fun j => (grpOf (adoptRec l n j)).listBytes).foldl (· + ·) 0
  words32 ((l.drop (80 * n + before)).take (grpOf (adoptRec l n i)).listBytes)

/-- The formats of R300, of an operation that moves or reduces data. -/
def collFormat (x : CollD) (fs : List (Option Format)) (dst : Option Format) : Bool :=
  let floats : List Format := [.fp32, .bf16, .fp16]
  let all (ok : List Format) : Bool := fs.all fun f => f.any ok.contains
  if !x.reduces then
    if x.op = 6 then (fs.headD none).isNone else if x.op = 7 then dst.isNone
    else (fs.headD none).isNone || fs.headD none != dst
  else if fs.any (· != fs.headD none) then true
  else if x.red = 0 then
    if all floats then dst.isNone || dst.any (·.int)
    else !all [.int32, .int64] || dst != fs.headD none
  else !all (floats ++ [.int8, .int32, .int64]) || dst != fs.headD none

/-- The checks of an armed Collective descriptor (R333, R645). -/
def checkColl (m : Mgt) (c : Chip) (d : Desc) (rec : BitVec 2048) (l : List Byte) : Option Nat :=
  let x := collD d
  let q := c.gq x.gq
  let g := if x.op = 8 || x.op = 10 then grpOf rec else grpOf q.record
  let n := byt rec 1 1
  let ranks := words32 l
  let sh := x.shares g l
  let tgt := x.target l
  let recs := (List.range n).map (adoptRec l n)
  let same := x.op = 1 && x.src.addr = x.dst.addr && x.src.ext = x.dst.ext
  let access :=
    (x.op != 8 && x.op != 11 && !q.bound) ||
    (x.op = 8 && (q.bound || !m.rankValid || (g.me < g.m && ranks.getD g.me 0 % 2 ^ 20 != m.rank.toNat))) ||
    (x.op = 10 && (let o := grpOf q.record
      g.id != o.id || g.m != o.m || g.me != o.me || ranks.map (· % 2 ^ 20) != q.members)) ||
    (x.op = 11 && c.clr.gqs.any (·.2.bound)) ||
    ((x.op = 8 || x.op = 10 || x.op = 11) && x.record % 64 != 0) ||
    (x.op = 11 && (List.range n).any fun i => ofBytes ((l.drop (16 * i)).take 8) % 64 != 0) ||
    (x.data && (
      (x.listed && (sh.drop 1).any fun r => overlaps tgt.addr tgt.ext r.addr r.ext) ||
      (!x.listed && !same && x.op != 6 && x.op != 7 && overlaps x.src.addr x.src.ext x.dst.addr x.dst.ext) ||
      (x.op != 7 && sh.any fun r => refAccess c r false false) || (x.op != 6 && refAccess c tgt true false)))
  let version := (x.op = 8 || x.op = 10 || x.op = 11) && byt rec 0 1 != 0x20 ||
    (x.op = 11 && recs.any fun r => byt r 0 1 != 0x20)
  let reserved := fld d 80 6 2 != 0 || fld d 81 5 3 != 0 || fld d 82 4 4 != 0 || byt d 83 1 != 0 || byt d 104 24 != 0 ||
    x.conv.testBit 3 || (if x.reduces then x.red = 3 else x.red != 0) || (if x.op = 3 then x.drift = 3 else x.drift != 0) ||
    ((x.op = 8 || x.op = 10) && grpReserved rec ranks) ||
    (x.op = 11 && (byt rec 2 2 != 0 || byt rec 4 4 >>> 20 != 0 || byt rec 24 40 != 0 ||
      (List.range n).any fun i => ofBytes ((l.drop (16 * i + 8)).take 8) >>> 6 != 0 ||
        grpReserved (adoptRec l n i) (adoptRanks l n i))) ||
    (if x.data && x.listed then byt d 24 24 != 0 || byt d 48 32 != 0 ||
        (List.range g.shares).any fun i => refReserved (BitVec.ofNat 256 (ofBytes ((l.drop (32 * i)).take 32))) 0
      else refReserved d 16 || refReserved d 48)
  let fs := sh.map TRef.fmt
  let format := 2 ≤ x.conv % 4 || sh.any (fun r => r.fmt.isNone || 4 < r.layout) || tgt.fmt.isNone || 4 < tgt.layout ||
    x.data && (collFormat x fs tgt.fmt || ((fs.any fun f => f.any (·.block)) || tgt.fmt.any (·.block)) && x.count % 32 != 0)
  let sum := x.reduces && x.red = 0 && (fs.headD none).any fun f => !f.int
  let extent := (x.data && (
      ((x.op = 2 || x.op = 5) && x.count % (g.m * 256) != 0) ||
      ((x.op = 4 || x.op = 6 || x.op = 7) && g.m ≤ x.root) ||
      (sh.any fun r => overExtent r (if x.op != 7 && (x.op != 4 || g.me = x.root) then r.span (x.nSrc g) else 0)) ||
      overExtent tgt (if x.op != 6 then tgt.span (x.nDst g) else 0) ||
      (if x.listed then !x.reduces || g.shares = 1 else sum && g.shares != 1) ||
      (x.op = 3 && x.drift != 0 && (c.run.recAddr.isNone || byt c.run.cfg 64 4 ≤ x.slot)))) ||
    ((x.op = 8 || x.op = 10) && grpRange g) ||
    (x.op = 11 && (n = 0 || 64 < n || 16383 < byt rec 4 4 || recs.any fun r => grpRange (grpOf r)))
  if access then some 0x0E
  else if version then some 0x03
  else if reserved then some 0x04
  else if format then some 0x10
  else if x.data && x.count = 0 then some 0x01
  else if extent then some 0x02
  else none

/-! ### Digests (R305) -/

/-- The digest of a collective. -/
def collDigest (g : Grp) (epoch seq code red srcF dstF count root drift step : Nat) : W64 :=
  collChain [g.id, epoch, seq, code, red, srcF, dstF, b2n g.wide, g.s, count, root, drift, step]

/-- The digest of a group: opcode 0x23 for GROUP_OPEN, and 0x21, without the epoch, for an adoption notice. -/
def groupDigest (code : Nat) {n : Nat} (r : BitVec n) (members : List Nat) : W64 :=
  let g := grpOf r
  collChain ([g.id, code, byt r 0 1, b2n g.wide, g.m, g.s] ++ (if code = 0x21 then [] else [g.epoch]) ++
    [g.tb, g.mask, g.retry, g.window, g.backoff] ++ members)

/-! ### The list of collectives -/

def Coll.tid0 (k : Coll) : Nat := (k.tranches.head?.map (·.tid)).getD 0
/-- Whether two records name one collective. -/
def Coll.same (a b : Coll) : Bool := a.gq = b.gq && a.epoch = b.epoch && a.code = b.code && a.tid0 = b.tid0

def putColl (k : Coll) (c : Chip) : Chip :=
  { c with clr := { c.clr with colls := c.clr.colls.map fun x => if x.same k then k else x } }
def addColl (k : Coll) (c : Chip) : Chip := { c with clr := { c.clr with colls := c.clr.colls ++ [k] } }
def dropColl (k : Coll) (c : Chip) : Chip := { c with clr := { c.clr with colls := c.clr.colls.filter fun x => !x.same k } }
def Coll.putT (k : Coll) (t : Tranche) : Coll := { k with tranches := k.tranches.map fun x => if x.tid = t.tid then t else x }

/-- The name by which commands call a collective: its descriptor's identifier, or its group queue where it has none. -/
def Coll.name (k : Coll) : Nat := (k.ent.map (·.id)).getD k.gq

/-- The collective and tranche that a message names (R312). -/
def findT (c : Chip) (x : CollMsg) : Option (Coll × Tranche) :=
  (c.clr.colls.filter fun k => decide ((c.grp k.gq).id = x.group.toNat) && decide (k.epoch = x.epoch)).findSome? fun k =>
    (k.tranches.find? fun t => t.tid = x.tranche).map (k, ·)

/-- The collective of a started entry. -/
def collOf (c : Chip) (id : Nat) : Option Coll := c.clr.colls.find? fun k => k.ent.any (·.id = id) && k.phase != .kept

/-! ### Events and counters (R335) -/

def clrEvt (i : Nat) (c : Chip) : Chip := raise .clr i c

/-- A collective completes: its counter, its status, and the record of an abort. -/
def clrEnd (st gq seq : Nat) (c : Chip) : Chip :=
  let c := raiseIf (ctrWraps c.clr.collectives 1) .clr 5 c
  let c := { c with clr := { c.clr with collectives := ctrAdd c.clr.collectives 1, lastStatus := .ofNat 8 st } }
  if [0x06, 0x09, 0x0A, 0x0F].contains st then
    { c with clr := { c.clr with lastAbort := .ofNat 64 (st <<< 56 ||| gq <<< 48 ||| seq % 2 ^ 32) } }
  else c

/-- Ends a collective that has no further part to play. -/
def collStop (e : Entry) (st gq seq : Nat) (c : Chip) : Chip := finish e st (clrEnd st gq seq c)

/-- Ends the descriptor of a collective, once. -/
def collEnd (k : Coll) (st : Nat) (c : Chip) : Chip :=
  match k.ent with
  | some e => if k.lost then c else collStop e st k.gq k.seq c
  | none => c

def clrRefused (c : Chip) : Chip :=
  raiseIf (ctrWraps c.clr.refusals 1) .clr 5 { c with clr := { c.clr with refusals := ctrAdd c.clr.refusals 1 } }

def clrTranche (ring : Bool) (c : Chip) : Chip :=
  if ring then
    let c := raiseIf (ctrWraps c.clr.tranRing 1) .clr 5 c
    clrEvt 1 { c with clr := { c.clr with tranRing := ctrAdd c.clr.tranRing 1 } }
  else
    raiseIf (ctrWraps c.clr.tranSwitch 1) .clr 5 { c with clr := { c.clr with tranSwitch := ctrAdd c.clr.tranSwitch 1 } }

def clrLanes (n : Nat) (c : Chip) : Chip :=
  raiseIf (ctrWraps c.clr.laneBytes n) .clr 5 { c with clr := { c.clr with laneBytes := ctrAdd c.clr.laneBytes n } }

/-! ### What a reduction combines (R300, R309, R310, R454) -/

/-- The reduction of a descriptor: floating sum, sum, or maximum or minimum, with the bytes of one unit of its values. -/
structure Red where
  floatSum : Bool
  sum : Bool
  min : Bool
  f : Format
  wide : Bool               -- 64-bit lanes or keys
  unit : Nat                -- bytes of a lane block, a lane or a key
  deriving DecidableEq, Repr

/-- Bytes of a lane block (R71). -/
def laneBlockBytes (wide : Bool) : Nat := if wide then 2064 else 1040

def redOf (c : Chip) (k : Coll) : Red :=
  match k.ent with
  | some e =>
    let x := collD e.desc
    let f := ((x.shares (c.grp k.gq) (listBytes e 0 32)).headD x.src).fmt.getD .fp32
    let sum := x.red = 0
    let wide := if sum && !f.int then (c.grp k.gq).wide else f == .int64
    if k.code = 0x20 then ⟨false, false, false, .fp32, false, 4⟩
    else ⟨sum && !f.int, sum, x.red = 2, f, wide, if sum && !f.int then laneBlockBytes wide else if wide then 8 else 4⟩
  | none => ⟨false, false, false, .fp32, false, 4⟩

/-- The combine code of a phase (R454). -/
def Red.op (r : Red) (ph : TPhase) : Nat :=
  if ph = .exponent then 6
  else if r.sum then b2n r.wide
  else 2 + b2n r.min + 2 * b2n r.wide

def TPhase.code : TPhase → Nat | .exponent => 1 | .values => 2 | _ => 0

/-- Blocks and bytes per block of a tranche's phase, as the ring cuts it (R314). -/
def ringUnits (r : Red) (t : Tranche) : Nat × Nat :=
  if t.head then (1, 32) else (t.hi - t.lo, if t.phase = .exponent then 2 else r.unit)

/-- Blocks of piece `p` (R314). -/
def pieceOf (n m p : Nat) : Nat × Nat := (p * n / m, (p + 1) * n / m)

/-- Combines two contributions of a phase (R454). -/
def combineUnit (r : Red) (ph : TPhase) (a b : List Byte) : List Byte :=
  let n := ofBytes
  if ph = .head then
    let w (l : List Byte) (o k : Nat) : Nat := n ((l.drop o).take k)
    toBytes 8 (max (w a 0 8) (w b 0 8)) ++ toBytes 8 (min (w a 8 8) (w b 8 8)) ++ toBytes 4 (w a 16 4 ||| w b 16 4) ++
    toBytes 4 (w a 20 4 + w b 20 4) ++ toBytes 4 (max (w a 24 4) (w b 24 4)) ++ toBytes 4 (min (w a 28 4) (w b 28 4))
  else if ph = .exponent then toBytes 2 (unsgn 16 (max (sgn 16 (n a)) (sgn 16 (n b))))
  else if r.floatSum then
    let k := if r.wide then 8 else 4
    toBytes 16 (n (a.take 16) ||| n (b.take 16)) ++
      (List.zipWith (fun x y => toBytes k (n x + n y)) (chunksOf k (a.drop 16)) (chunksOf k (b.drop 16))).flatten
  else if r.sum then toBytes r.unit (n a + n b)
  else toBytes r.unit (if r.min then min (n a) (n b) else max (n a) (n b))

def combine (r : Red) (ph : TPhase) (u : Nat) (a b : List Byte) : List Byte :=
  (List.zipWith (combineUnit r ph) (chunksOf u a) (chunksOf u b)).flatten

/-! ### Contributions (R90, R91, R309, R310, R320) -/

/-- Block `b` of a tranche's share, padded with zeros. -/
def shareBlock (sh : List Nat) (b : Nat) : List W32 :=
  let x := ((sh.drop (256 * b)).take 256).map (BitVec.ofNat 32)
  x ++ List.replicate (256 - x.length) f32zero

/-- The order key of a staged value (R454). -/
def keyOf (r : Red) (v : Nat) : Nat :=
  if r.f.int then
    if r.wide then orderKeyI 64 v else orderKeyI 32 (if r.f == .int8 then unsgn 32 (sgn 8 v) else v)
  else orderKeyF (.ofNat 32 v) r.min

/-- The kept clearance exchange of a group queue. -/
def keptFor (c : Chip) (gq : Nat) : Option ClrKept := c.clr.kept.find? fun x => x.gq = gq

/-- Changes the kept exchange of a group queue. -/
def onKept (gq : Nat) (f : ClrKept → ClrKept) (c : Chip) : Chip :=
  { c with clr := { c.clr with kept := c.clr.kept.map fun x => if x.gq = gq then f x else x } }

/-- The verdict word and the amax words that a module contributes to a clearance exchange: those of the result, with the
final bit, where it holds it (R322); zeros where it has no part (R327). -/
def clrContribution (c : Chip) (gq : Nat) : Bool × W32 × FMap W32 :=
  match keptFor c gq with
  | some x => if x.final then (true, x.result, x.resultAmax) else (false, x.verdict, x.amax)
  | none => (false, 0, [])

/-- The data of a module's contribution to the current phase of a tranche. -/
def phaseData (c : Chip) (k : Coll) (t : Tranche) : List Byte :=
  let r := redOf c k
  let g := c.grp k.gq
  if t.head then
    let d := if k.cancelled then 0 else k.digest.toNat
    let w := if k.code = 0x20 then (clrContribution c k.gq).2.1.toNat :: k.words.drop 1 else k.words
    toBytes 8 d ++ toBytes 8 d ++ w.flatMap (toBytes 4 ·)
  else if k.code = 0x20 then (span t.lo t.hi).flatMap fun i => toBytes 4 (fget 0 (clrContribution c k.gq).2.2 i).toNat
  else if t.phase = .exponent then
    (List.range (t.hi - t.lo)).flatMap fun b =>
      toBytes 2 (unsgn 16 (t.staged.foldl (fun m s => max m (blockExp (shareBlock s b))) (-32768)))
  else if r.floatSum then
    let w := if r.wide then 64 else 32
    (List.range (t.hi - t.lo)).flatMap fun b =>
      let E := t.exps.getD b 0
      let bs := t.staged.map fun s => shareBlock s b
      let nf := bs.any fun x => x.any (!f32finite ·)
      toBytes 2 (unsgn 16 E) ++ toBytes 1 g.h ++ toBytes 1 (b2n r.wide + 2 * b2n nf) ++ toBytes 4 (t.lo + b) ++ toBytes 8 0 ++
      (List.range 256).flatMap fun i => toBytes (w / 8) (unsgn w (bs.foldl (fun s x => s + toLane (x.getD i 0) E g.h w) 0))
  else
    (List.range (t.hi - t.lo)).flatMap fun i =>
      let vs := t.staged.map fun s => s.getD i 0
      if r.sum then toBytes r.unit (vs.foldl (· + ·) 0)
      else
        let ks := vs.map (keyOf r)
        toBytes r.unit (ks.foldl (if r.min then min else max) (ks.headD 0))

/-! ### Sending (R312 to R314, R321) -/

/-- A message about a tranche. -/
def msgOf (g : Grp) (k : Coll) (t : Tranche) (members total : Nat) (final : Bool) (op : Nat) (data : List Byte) : CollMsg :=
  ⟨.ofNat 4 t.plane, t.phase.code, final, op, .ofNat 32 g.id, k.epoch, g.me, t.tid, members, total, data⟩

/-- Sends a message to a member through the tranche's plane, or through the lowest Active port. -/
def collTo (m : Mgt) (plane dest msg : Nat) (x : CollMsg) (c : Chip) : Chip :=
  let p := if (c.port plane).state = 3 then plane else (activePorts c).headD plane
  (collPackets m p dest msg x).foldl (fun c q => sendPacket m p (.coll msg) q c) c

def addEarly (x : Early) (c : Chip) : Chip := { c with clr := { c.clr with early := c.clr.early ++ [x] } }

/-- Whether a claim may be made on a plane (R313, R315, R321). -/
def qualifies (c : Chip) (tb p : Nat) : Bool :=
  let s := (fget 0 c.clr.planeSlot p).toNat
  decide (s % 65536 ≠ 0) && decide (tb ≤ s % 65536 * 1024) && !c.clr.planeDown.getLsbD p && (c.port p).state = 3

/-- The leader sends FALLBACK to every member (R313). -/
def sendFallback (m : Mgt) (k : Coll) (t : Tranche) (c : Chip) : Chip :=
  let g := c.grp k.gq
  let x := { msgOf g k t 0 0 false 0 [] with phase := 0 }
  let c := (List.range g.m).foldl (fun c i => if i = g.me then c else collTo m t.plane (c.rankOf k.gq i) 7 x c) c
  addEarly ⟨7, x, 0, 0⟩ c

/-- Bytes of a tranche's largest phase. -/
def largest (r : Red) (t : Tranche) : Nat := if t.head then 32 else (t.hi - t.lo) * r.unit

/-- The leader claims a slot for a tranche, or makes it fall back (R313); a clearance exchange goes on to the next plane
that qualifies, and waits where none does (R321). -/
def claim (m : Mgt) (k : Coll) (t : Tranche) (c : Chip) : Chip :=
  let g := c.grp k.gq
  let r := redOf c k
  let ps := g.planes
  let send (p : Nat) : Chip :=
    let t := { t with phase := .claimed, plane := p }
    sendColl m 1 { msgOf g k t g.m (largest r t) false (r.op .values) [] with phase := 0 } (putColl (k.putT t) c)
  if k.code = 0x20 then
    match ((List.range ps.length).map fun i => ps.getD ((t.start + i) % ps.length) 0).find? (qualifies c g.tb) with
    | some p => send p
    | none => clrEvt 2 (putColl (k.putT { t with phase := .backoff, plane := 16 }) c)
  else if g.sw && c.clr.switchEn && qualifies c g.tb t.plane then send t.plane
  else sendFallback m k t (putColl (k.putT { t with phase := .claimed }) c)

/-- The first phase of a tranche. -/
def firstPhase (c : Chip) (k : Coll) (t : Tranche) : TPhase :=
  if t.head then .head else if (redOf c k).floatSum then .exponent else .values

/-! ### Completion -/

/-- First word of the head of a settle exchange: bit 0, this module holds a clearance result not yet acted on; bit 1, it has
a clearance exchange pending, which one that ended with DIGEST_MISMATCH is not (log entry 25). -/
def pendingBits (c : Chip) (gq : Nat) : Nat :=
  let ended := c.clr.colls.any fun k => k.gq = gq && k.code = 0x20 && k.phase == .mismatch
  match keptFor c gq with
  | some x => if x.acted || ended then 0 else if x.final then 3 else 2
  | none => 0

/-- The step of a kept clearance exchange: one that flipped the generation was the step before. -/
def keptStep (c : Chip) (x : ClrKept) : Nat := if x.acted && x.result = 0 then (c.run.step - 1).toNat else c.run.step.toNat

/-- The words of a settle head: beside the bits, the step of the pending exchange, its low half for the maximum and the
complement of its high half for the minimum (log entry 25). -/
def settleWords (c : Chip) (gq : Nat) : List Nat :=
  let step := if pendingBits c gq = 0 then 0 else ((keptFor c gq).map (keptStep c)).getD 0
  [pendingBits c gq, 0, step % 2 ^ 32, 0xFFFFFFFF - step / 2 ^ 32]

/-- Creates a collective at its turn: its head exchange and `parts` tranches (lo, hi, owner) take the next values of the
tranche counter (R309); its leader claims the head. -/
def openColl (m : Mgt) (ent : Option Entry) (gq code seq epoch : Nat) (digest : W64) (words : List Nat)
    (parts : List (Nat × Nat × Nat)) (cancelled : Bool) (c : Chip) : Chip :=
  let g := c.grp gq
  let q := c.gq gq
  let ps := g.planes
  let tid (i : Nat) : Nat := (q.nextTranche.toNat + i) % 2 ^ 24
  let head : Tranche := ⟨tid 0, true, 0, 1, 0, 0, 0, ps.headD 0, .claimed, false, 0, [], [], []⟩
  let ts := parts.zipIdx.map fun ((lo, hi, o), i) =>
    (⟨tid (i + 1), false, lo, hi, o, i % g.m, i % ps.length, ps.getD (i % ps.length) 0, .waiting, false, 0, [], [], []⟩ : Tranche)
  let k : Coll := ⟨ent, gq, code, seq, epoch, digest, words, .head, cancelled, false, false, head :: ts⟩
  let c := addColl k (c.setGq gq { q with nextTranche := .ofNat 24 (tid (ts.length + 1)) })
  if g.me = 0 then claim m k head c else c

/-- The tranche identifier of a notice head (log entry 25). -/
def noticeTid : Nat := 0xFFFFFF

/-- The group queue of the group that an adoption is at. -/
def adoptQueue (e : Entry) : Nat := ofBytes (listBytes e (16 * e.chunk + 8) 1) % 64

/-- An adopting module takes up group `e.chunk` of its list: it binds the record and claims the notice head (R327). -/
def adoptGroup (m : Mgt) (e0 : Entry) (c : Chip) : Chip :=
  let e := curEntry c e0
  let n := byt e.record 1 1
  let l := (e.ext.filter fun x => listKey 0 ≤ x.1).map (·.2)
  let i := e.chunk
  let gq := adoptQueue e
  let r := adoptRec l n i
  let g := grpOf r
  let ranks := (adoptRanks l n i).map (· % 2 ^ 20)
  let c := c.setGq gq { Gq.reset with bound := true, record := r, members := ranks, epoch := .ofNat 16 g.epoch }
  let e := { e with round := 1 }
  let c := setEntry e c
  let head : Tranche := ⟨noticeTid, true, 0, 1, 0, g.me, 0, g.planes.headD 0, .claimed, false, 0, [], [], []⟩
  let k : Coll := ⟨some e, gq, 0x21, 0, g.epoch, groupDigest 0x21 r ranks, [0, 0, 0, 0xFFFFFFFF], .head, false,
    false, false, [head]⟩
  claim m k head (addColl k c)

/-- Writes the result entry of the group that an adoption has settled, then goes on with the next group or ends (R330); while
the host holds the entry's line, ADOPT takes it up again. -/
def adoptWrite (m : Mgt) (e0 : Entry) (c : Chip) : Chip :=
  let e := curEntry c e0
  let gq := adoptQueue e
  let r := TRef.plain (byt e.record 16 8 + 16 * e.chunk) 16
  let step := if e.kblock = 1 ∨ e.kblock = 2 then e.groups else 0
  let bytes := toBytes 2 (c.gq gq).epoch.toNat ++ toBytes 1 e.kblock ++ toBytes 5 0 ++ toBytes 8 step
  match prepare e [.wr r 0 16] (fun _ _ => false) c with
  | .wait c => c
  | .stop st c => collStop e st gq 1 c
  | .go c =>
    let c := commitAll (curEntry c e) [⟨r, 0, bytes, false⟩] c
    let e := { curEntry c e with chunk := e.chunk + 1, round := 0, kblock := 0, groups := 0 }
    let c := setEntry e c
    if byt e.record 1 1 ≤ e.chunk then collStop e 0 gq 1 c else adoptGroup m e c

/-- An adoption has settled a group: 0 nothing pending, 1 settled and passed, 2 settled and failed, 3 abandoned. -/
def adoptSettled (m : Mgt) (k : Coll) (outcome : Nat) (c : Chip) : Chip :=
  match k.ent with
  | none => c
  | some e0 =>
    let e := { curEntry c e0 with round := 2, kblock := outcome }
    adoptWrite m e (setEntry e c)

/-- The fields of the clearance exchange of a group queue at a module: its parts (R309, R320). -/
def clrParts (g : Grp) : List (Nat × Nat × Nat) :=
  let per := max 1 (g.tb / 4)
  (List.range (cdiv 65536 per)).map fun i => (per * i, min (per * i + per) 65536, 0)

/-- The digest of a clearance exchange of step `step`. -/
def clrDigest (g : Grp) (epoch seq step : Nat) : W64 := collDigest g epoch seq 0x20 0 0 0 65536 0 0 step

/-- Every tranche of a collective is done. -/
def allDone (m : Mgt) (k : Coll) (c : Chip) : Chip :=
  if k.code = 0x20 then
    let c := onKept k.gq (fun x => if x.final then x else { x with final := true, result := .ofNat 32 (k.words.headD 0) }) c
    match k.ent with
    | some e =>
      if dClass e.desc = 6 then adoptSettled m k (if k.words.headD 0 = 0 then 1 else 2) (dropColl k c)
      else putColl { k with phase := if (keptFor c k.gq).any (·.acted) then .kept else .verdict } c
    | none => dropColl k c
  else dropColl k (collEnd k 0 c)

/-- A tranche is over: completed in a slot or on the ring, or `lost`. -/
def trancheOver (m : Mgt) (lost : Bool) (k : Coll) (t : Tranche) (c : Chip) : Chip :=
  let k := k.putT { t with phase := .done, staged := [], pieces := [] }
  let c := putColl k (if t.head || lost then c else clrTranche t.ring c)
  if k.tranches.all fun x => x.phase = .done then allDone m k c else c

/-- A tranche is done. -/
def trancheDone (m : Mgt) : Coll → Tranche → Chip → Chip := trancheOver m false

/-- Sends this module's contribution to the current phase of a tranche (R312, R314). -/
def contribute (m : Mgt) (k : Coll) (t : Tranche) (c : Chip) : Chip :=
  let g := c.grp k.gq
  let r := redOf c k
  let data := phaseData c k t
  let final := k.code = 0x20 && (clrContribution c k.gq).1
  let k := { k.putT t with sent := k.sent || t.head }
  let c := putColl k c
  let c := if r.floatSum && t.phase = .values then clrLanes ((t.hi - t.lo) * (r.unit - 16)) c else c
  let x := msgOf g k t 0 data.length final (r.op t.phase) data
  if t.ring then
    if g.m ≤ 1 then addEarly ⟨5, x, 0, 0⟩ c
    else
      let (n, u) := ringUnits r t
      let (a, b) := pieceOf n g.m g.me
      if a < b then
        emit (.ring (c.rankOf k.gq ((g.me + 1) % g.m)) g.me 1 { x with data := (data.drop (a * u)).take ((b - a) * u) }) c
      else c
  else
    let c := sendColl m 4 x c
    if k.code = 2 && t.phase = .values && t.owner != g.me then trancheDone m k t c else c

/-! ### Results -/

/-- Values of a tranche's result: bytes of the destination in order, and whether any is NaN or Inf. -/
def resultValues (c : Chip) (k : Coll) (data : List Byte) : List Nat :=
  let r := redOf c k
  if r.floatSum then
    let w := if r.wide then 64 else 32
    (chunksOf r.unit data).flatMap fun b =>
      let E := sgn 16 (ofBytes (b.take 2))
      let nf := (b.getD 3 0).getLsbD 1
      (chunksOf (w / 8) (b.drop 16)).map fun x => (fromLane (sgn w (ofBytes x)) E (c.grp k.gq).h w nf).toNat
  else
    (chunksOf r.unit data).map fun b =>
      let v := ofBytes b
      if r.sum then v
      else if r.f.int then v ^^^ 2 ^ (8 * r.unit - 1)
      else (orderUnkeyF v r.min).toNat

/-- Elements of a tranche within the whole reduction. -/
def trancheElems (r : Red) (count : Nat) (t : Tranche) : Nat × Nat :=
  if r.floatSum then (256 * t.lo, min (256 * t.hi) count) else (t.lo, t.hi)

/-- Destination elements of a tranche: in a REDUCE_SCATTER they count from the owner's first. -/
def resultIdx (c : Chip) (k : Coll) (t : Tranche) : List Nat :=
  match k.ent with
  | none => []
  | some e0 =>
    let x := collD (curEntry c e0).desc
    let base := if k.code = 2 then t.owner * x.nDst (c.grp k.gq) else 0
    let (lo, hi) := trancheElems (redOf c k) x.count t
    span (lo - base) (hi - base)

/-- Blocks whose seal waits for another tranche of this member (R351). -/
def resultHold (c : Chip) (k : Coll) (t : Tranche) : TRef → Nat → Bool :=
  match k.ent with
  | none => fun _ _ => false
  | some e0 =>
    let e := curEntry c e0
    let x := collD e.desc
    let ref := x.target (listBytes e 0 32)
    holdOf ref (ref.fmt.getD .fp32) (x.nDst (c.grp k.gq))
      ((k.tranches.filter fun y => !y.head && y.phase != .done && y.tid != t.tid && (k.code != 2 || y.owner = (c.grp k.gq).me)).flatMap
        (resultIdx c k))

/-- Writes a tranche's result to the destination (R311, R639, R640): whether it was applied, or has to wait. A member that
has ended the collective, or that owns another range, writes nothing. A SUM under current scaling sets its exponent from the
tranche that is converted first, whose results are the source of that conversion (R66; log entry 84). -/
def writeResult (m : Mgt) (k : Coll) (t : Tranche) (data : List Byte) (c : Chip) : Bool × Chip :=
  match k.ent with
  | none => (true, trancheDone m k t c)
  | some e0 =>
    let e := curEntry c e0
    let g := c.grp k.gq
    let x := collD e.desc
    if k.lost || (k.code = 2 && t.owner != g.me) then (true, trancheDone m k t c) else
    let r := redOf c k
    let ref := x.target (listBytes e 0 32)
    let f := ref.fmt.getD .fp32
    let n := x.nDst g
    let idx := resultIdx c k t
    match prepare e (wrAccs ref f n idx) (partOf ref f n) c with
    | .wait c => (false, c)
    | .stop st c => (true, trancheDone m { k with lost := true } t (collEnd k st c))
    | .go c =>
      let hold := resultHold c k t
      let vs := (resultValues c k data).take idx.length
      let die := t.plane / 8
      let xs := vs.map (BitVec.ofNat 32)
      let c := markIf (!r.f.int && xs.any (!f32finite ·)) e .clearing ref.tid die c
      let (ws, c) :=
        if f.int then
          let b := f.bits / 8
          (wrsOf ref [(idx.headD 0 * b, vs.flatMap (toBytes b ·))],
            addSilent ref.tid vs.length ((vs.filter fun v => v % 2 ^ f.bits = 0).length) 0 c)
        else if f = .fp32 ∧ !r.sum then f32For ref (idx.zip xs) c
        else
          let ys := (idx.zip xs).map fun (i, v) => (i, i, f32v v)
          let (s, c) := writeScale ref.tid f (fun _ => ys.map (·.2.2)) c
          convertFor e ref f n (if r.sum then x.conv else 4) s die ys c
      (true, trancheDone m k t (commit (curEntry c e) ws hold c))

/-! ### Movement (R299, R271 to R273) -/

/-- Byte ranges of elements [a, a + k) of a tensor of `n` elements: their elements, then their scales. -/
def partRanges (f : Format) (n a k : Nat) : List (Nat × Nat) :=
  (a * f.bits / 8, cdiv ((a + k) * f.bits) 8 - a * f.bits / 8) :: if f.block then [(scaleOff f n a, k / 32)] else []

/-- The bytes of one part. -/
def partBytes (c : Chip) (e : Entry) (r : TRef) (n a k : Nat) : List Byte :=
  (partRanges (r.fmt.getD .fp32) n a k).flatMap fun (o, b) => peekN c e (r.addr + o) b

/-- The writes that put a part's bytes in place. -/
def partWrites (r : TRef) (n a k : Nat) (bs : List Byte) : List Wr :=
  match partRanges (r.fmt.getD .fp32) n a k with
  | [(o, b)] => [⟨r, o, bs.take b, false⟩]
  | [(o, b), (p, q)] => [⟨r, o, bs.take b, false⟩, ⟨r, p, (bs.drop b).take q, false⟩]
  | _ => []

/-- The accesses of a part. -/
def partAccs (r : TRef) (n a k : Nat) (write : Bool) : List Acc :=
  (partRanges (r.fmt.getD .fp32) n a k).map fun (o, b) => if write then .wr r o b else .rd r o b

/-- Silent counts of writes that move bytes (R98). -/
def countWrites (e : Entry) (ws : List Wr) (c : Chip) : Chip := ws.foldl (fun c w => countMoved e w.ref w.off w.data c) c

/-- Sends a member's own parts once the head exchange has agreed; false where it has to wait. -/
def sendParts (e : Entry) (gq : Nat) (c : Chip) : Pre :=
  let g := c.grp gq
  let x := collD e.desc
  let n := x.nSrc g
  if x.op = 4 && x.root != g.me then .go c
  else if scaleMismatch c e x.src then .stop 0x10 c else
  (prepare e (scaleAccs c e x.src ++ partAccs x.src n 0 n false) (fun _ _ => false) c).andThen fun c =>
    let e := curEntry c e
    let gid := BitVec.ofNat 32 g.id
    .go ((List.range g.m).foldl (fun c i =>
      if i = g.me then c
      else emit (.move gid (c.rankOf gq i) (partBytes c e x.src n (if x.op = 5 then i * x.count else 0) x.count)) c) c)

/-- Seals of the destination's blocks, for the drift digest (R271, R348). -/
def gatherSeals (e : Entry) (r : TRef) (len : Nat) (c : Chip) : List (Nat × W32) :=
  (blocksOf 0 len).map fun b => (b, sealOf r.tid b (peekN c e (r.addr + 4096 * b) (blockLen r b)))

/-- The drift role of an ALL_GATHER (R272, R273): the status it completes with. -/
def driftRole (e : Entry) (x : CollD) (g : Grp) (c : Chip) : Nat × Chip :=
  if x.drift = 0 then (0, c) else
  let len := x.dst.span (x.nDst g)
  let ss := gatherSeals e x.dst len c
  let d := driftDigest x.dst.tid ss
  let a := byt c.run.cfg 56 8 + 32 * x.slot
  if x.drift = 1 then
    let bs := toBytes 8 d.toNat ++ toBytes 8 c.run.step.toNat ++ toBytes 4 x.dst.tid ++ toBytes 4 ss.length ++ toBytes 1 1 ++
      toBytes 7 0
    (0, (wordsIn a 32).foldl (fun c w => setPoison w false c) (writeBytes a bs c))
  else
    let c := meet a 32 c
    match firstPoison c a 32 with
    | some w => (0x0B, recordUe w c)
    | none =>
      if (readByte c (a + 24)).getLsbD 0 && readNat c (a + 8) 8 = c.run.step.toNat && readNat c (a + 16) 4 = x.dst.tid &&
          readNat c (a + 20) 4 = ss.length && readNat c a 8 = d.toNat then (0, c)
      else
        let n := getRun c 152 4
        let c := if n = 0 then putRun 156 4 x.dst.tid c else c
        (0x0D, putRun 152 4 (n + 1) c)

/-- Whether a member has a part of its own: not where a BROADCAST's root is another. -/
def CollD.own (x : CollD) (g : Grp) : Bool := x.op != 4 || x.root = g.me

/-- Whether the parts are those that the collective brings: one whole tensor, or one part a member. -/
def partsFit (x : CollD) (g : Grp) (parts : List (List Byte)) : Bool :=
  let len := (partRanges (x.dst.fmt.getD .fp32) (x.nDst g) 0 x.count).foldl (fun s r => s + r.2) 0
  decide (parts.length = if x.op = 4 then 1 else g.m) && parts.all (·.length = len)

/-- The rest of the gathered tensor's last block, which its seal covers too. -/
def sealTail (x : CollD) (g : Grp) : List Acc :=
  let len := x.dst.span (x.nDst g)
  let stop := min x.dst.ext (alignUp len 4096)
  if x.drift = 0 ∨ stop ≤ len then [] else [.rd { x.dst with policy := 0 } len (stop - len)]

/-- What the arrival of the parts reads and writes, the seal blocks written only in part, and the writes. -/
def receiveAccs (x : CollD) (g : Grp) : List Acc :=
  (if x.own g then partAccs x.src (x.nSrc g) 0 (x.nSrc g) false else []) ++ sealTail x g ++
    partAccs x.dst (x.nDst g) 0 (x.nDst g) true

/-- The seals of one part's blocks, as the member that read them sends them along (R271; log entry 83). -/
def partSeals (tid : Nat) (p : List Byte) : List W32 := (chunksOf 4096 p).zipIdx.map fun (b, i) => sealOf tid i b

/-- The first block of some part that does not match the seal that came with it; only an all-gather that reads under policy
Full sends seals along. -/
def badSeal (x : CollD) (parts : List (List Byte)) (seals : List (List W32)) : Option Nat :=
  if x.op ≠ 3 ∨ x.src.policy ≠ 1 then none
  else (parts.zipIdx.flatMap fun (p, j) =>
    (List.zip (partSeals x.src.tid p) (seals.getD j [])).zipIdx.filterMap fun (s, i) => if s.1 = s.2 then none else some i).head?
def receivePart (x : CollD) (g : Grp) : TRef → Nat → Bool :=
  fun q b => q == x.dst && !coversBlock (allRanges x.dst (x.dst.fmt.getD .fp32) (x.nDst g)) q b
def receiveWrites (c : Chip) (e : Entry) (g : Grp) (parts : List (List Byte)) : List Wr :=
  let x := collD e.desc
  let mine := partBytes c e x.src (x.nSrc g) (if x.op = 5 then g.me * x.count else 0) x.count
  parts.zipIdx.flatMap fun (p, i) => partWrites x.dst (x.nDst g) (if x.op = 4 then 0 else i * x.count) x.count
    (if x.own g && (x.op = 4 || i = g.me) then mine else p)

/-- The parts of every member have arrived: their seals are checked, the destination is written and counted (R98), and the
collective completes. -/
def receiveParts (k : Coll) (e0 : Entry) (parts : List (List Byte)) (seals : List (List W32)) (c : Chip) : Chip :=
  let e := curEntry c e0
  let g := c.grp k.gq
  let x := collD e.desc
  if k.lost || !partsFit x g parts then c else
  match prepare e (receiveAccs x g) (receivePart x g) c with
  | .wait c => c
  | .stop st c => dropColl k (collEnd k st c)
  | .go c =>
    let e := curEntry c e
    match badSeal x parts seals with
    | some b => dropColl k (collEnd k 0x07 (recordMismatch x.src.tid b c))
    | none =>
      let ws := receiveWrites c e g parts
      let (st, c) := driftRole e x g (commitAll e ws (countWrites e ws c))
      dropColl k (collEnd k st c)

/-! ### Heads (R292, R306, R307, R317, R320, R327) -/

/-- A settling exchange of a step (R327 step 4): sequence 1 of the new epoch. A pending CLEARANCE goes on in it; the reserve
contributes zeros under the digest of that step (log entry 25). -/
def startSettling (m : Mgt) (ent : Option Entry) (gq step : Nat) (c : Chip) : Chip :=
  let g := c.grp gq
  let q := c.gq gq
  let old := c.clr.colls.find? fun k => k.gq = gq && k.code = 0x20 && k.phase != .mismatch
  let e := match old with
    | some k => if k.phase = .kept then ent else k.ent
    | none => ent
  let c := match old with
    | some k => dropColl k c
    | none => c
  let d := clrDigest g q.epoch.toNat 1 (((keptFor c gq).map (keptStep c)).getD step)
  let c := c.setGq gq { q with nextSeq := 2 }
  openColl m e gq 0x20 1 q.epoch.toNat d [0, 0, 0, 0] (clrParts g) false c

/-- A settle head of the new epoch, sequence 0 (R327 step 3). -/
def startSettle (m : Mgt) (ent : Option Entry) (gq : Nat) (c : Chip) : Chip :=
  let g := c.grp gq
  let q := c.gq gq
  let c := c.setGq gq { q with nextSeq := 1 }
  openColl m ent gq 0x22 0 q.epoch.toNat (collDigest g q.epoch.toNat 0 0x22 0 0 0 0 0 0 0) (settleWords c gq) [] false c

/-- Serial order of epochs: `a` lies after `b`. -/
def epochAfter (a b : Nat) : Bool :=
  let x := (a + 65536 - b % 65536) % 65536
  decide (1 ≤ x) && decide (x < 32768)

/-- The epoch that a notice head finds (R454). -/
def noticeEpoch (mx mn : Nat) : Nat := if mx - mn ≤ 1 then mx else mn

/-- The combined head exchange of a collective has arrived. -/
def headDone (m : Mgt) (k : Coll) (t : Tranche) (data : List Byte) (c : Chip) : Chip :=
  let w (o n : Nat) : Nat := ofBytes ((data.drop o).take n)
  let dmax := w 0 8
  let agree := dmax = w 8 8
  let k := { k.putT { t with phase := .done } with words := [w 16 4, w 20 4, w 24 4, w 28 4] }
  let c := putColl k c
  let bad := fun (c : Chip) => if agree then c else clrEvt 0 c
  let st := if dmax = 0 then 0x06 else 0x09
  match k.code, k.ent with
  | 0x20, e =>
    if k.phase != .head then c
    else if agree then putColl { k with phase := .tranches } c
    else
      let c := bad (onKept k.gq (fun x => { x with result := .ofNat 32 (w 16 4) }) c)
      if e.any (fun e => dClass e.desc = 9) then putColl { k with phase := .mismatch } c else dropColl k (collEnd k 0x09 c)
  | 0x21, some e =>
    if agree then
      let E := (noticeEpoch (w 24 4) (w 28 4) + 1) % 65536
      let g := c.grp k.gq
      let c := c.setGq k.gq { c.gq k.gq with epoch := .ofNat 16 E }
      let x : CollMsg := ⟨0, 0, false, 0, .ofNat 32 g.id, E, g.me, 0, 0, 0, []⟩
      let c := g.planes.foldl (fun c p => sendColl m 9 { x with plane := .ofNat 4 p } c) (dropColl k c)
      startSettle m (some e) k.gq c
    else dropColl k (collEnd k 0x09 (bad (c.setGq k.gq Gq.reset)))
  | 0x21, none => dropColl k c
  | 0x22, e =>
    let c := dropColl k c
    if !agree then
      match e with
      | some _ => collEnd k 0x09 (bad c)
      | none => bad c
    else if (w 16 4).testBit 0 then
      let step := w 24 4 + (0xFFFFFFFF - w 28 4) * 2 ^ 32
      let e := e.map fun e => { curEntry c e with groups := step }
      startSettling m e k.gq step ((e.map setEntry).getD id c)
    else
      let c := { c with clr := { c.clr with colls := c.clr.colls.map fun y =>
        if y.gq = k.gq && y.code = 0x20 && y.phase != .kept && y.phase != .mismatch then { y with phase := .abandoned } else y } }
      adoptSettled m k (if (w 16 4).testBit 1 then 3 else 0) c
  | 0x23, _ =>
    let ok := agree && dmax ≠ 0 && w 20 4 = (c.grp k.gq).s
    let c := if ok then c.setGq k.gq { c.gq k.gq with bound := true } else c.setGq k.gq Gq.reset
    if ok then dropColl k (collEnd k 0 c)
    else if dmax = 0 then dropColl k (collEnd k 0x06 c)
    else dropColl k (collEnd k 0x09 (clrEvt 0 c))
  | 0x0A, some e =>
    if agree && dmax ≠ 0 then
      let q := c.gq k.gq
      let r := BitVec.ofNat 512 (byt e.record 0 64)
      let c := c.setGq k.gq { q with record := r, epoch := .ofNat 16 (grpOf r).epoch, nextSeq := 0, sends := [], recvs := [] }
      dropColl k (collEnd k 0 c)
    else dropColl k (collEnd k st (bad c))
  | code, some e =>
    if !agree || dmax = 0 then dropColl k (collEnd k st (bad c))
    else if code = 1 || code = 2 then
      if k.tranches.length ≤ 1 then allDone m k c else putColl { k with phase := .tranches } c
    else
      match sendParts (curEntry c e) k.gq c with
      | .stop st c => dropColl k (collEnd k st c)
      | .go c => putColl { k with phase := .moving, sent := true } c
      | .wait c => putColl { k with phase := .moving, sent := false } c
  | _, none => dropColl k c

/-- The combined data of a tranche's current phase: from a RESULT, or whole on the ring. Whether it was acted on. -/
def phaseResult (m : Mgt) (k : Coll) (t : Tranche) (data : List Byte) (c : Chip) : Bool × Chip :=
  if t.head then (true, headDone m k t data c)
  else if t.phase = .exponent then
    let t := { t with phase := .values, pieces := [], exps := (chunksOf 2 data).map fun b => sgn 16 (ofBytes b) }
    (true, contribute m k t c)
  else if k.code = 0x20 then
    let ws := (chunksOf 4 data).zipIdx.map fun (b, i) => (t.lo + i, BitVec.ofNat 32 (ofBytes b))
    let c := onKept k.gq (fun x =>
      if x.final then x else { x with resultAmax := ws.foldl (fun a (i, v) => fset 0 a i v) x.resultAmax }) c
    (true, trancheDone m k t c)
  else writeResult m k t data c

/-! ### Messages (R312 to R315, R322, R327, R328) -/

/-- Whether a message names a tranche that this module's group has left behind. -/
def stale (c : Chip) (x : CollMsg) : Bool :=
  (List.range 64).any fun i =>
    let q := c.gq i
    q.bound && decide ((c.grp i).id = x.group.toNat) && (epochAfter q.epoch.toNat x.epoch ||
      (decide (q.epoch.toNat = x.epoch) && (let d := (q.nextTranche.toNat + 2 ^ 24 - x.tranche % 2 ^ 24) % 2 ^ 24
        decide (1 ≤ d) && decide (d < 2 ^ 23))))

/-- GRANT and FALLBACK: this module contributes to the tranche's first phase. -/
def acceptShare (m : Mgt) (ring : Bool) (x : CollMsg) (c : Chip) : Bool × Chip :=
  match findT c x with
  | some (k, t) =>
    if t.phase = .waiting then (false, c)
    else if t.phase = .claimed || t.phase = .backoff then
      let t := { t with ring := ring, plane := if ring then t.plane else x.plane.toNat }
      (true, contribute m k { t with phase := firstPhase c k t } c)
    else (true, c)
  | none =>
    match (List.range 64).find? fun q => (c.gq q).bound && (c.grp q).id = x.group.toNat with
    | some q =>
      if x.tranche = noticeTid then
        let e := (c.gq q).epoch.toNat
        let t : Tranche := ⟨noticeTid, true, 0, 1, 0, 0, 0, x.plane.toNat, .head, ring, 0, [], [], []⟩
        let k : Coll := ⟨none, q, 0x21, 0, x.epoch, groupDigest 0x21 (c.gq q).record (c.gq q).members, [0, 0, e, e], .head, false,
          false, false, [t]⟩
        (true, contribute m k t (addColl k c))
      else (stale c x, c)
    | none => (false, c)

/-- REFUSE (R313): a wait, or FALLBACK after retry_limit retries; a clearance exchange retries without limit (R321). -/
def refused (m : Mgt) (x : CollMsg) (c : Chip) : Chip :=
  match findT c x with
  | some (k, t) =>
    let g := c.grp k.gq
    if t.phase != .claimed || t.leader != g.me && k.code != 0x21 then c else
    let c := clrRefused c
    if k.code != 0x20 && g.retry ≤ t.retries then sendFallback m k t c
    else putColl (k.putT { t with phase := .backoff, retries := t.retries + 1 }) c
  | none => c

/-- RESULT (R311, R312). -/
def onResult (m : Mgt) (x : CollMsg) (c : Chip) : Bool × Chip :=
  match findT c x with
  | some (k, t) =>
    let mine := t.phase = .head || t.phase = .exponent || t.phase = .values
    if !mine then ((t.phase = .done : Bool), c)
    else if t.phase.code < x.phase then (false, c)
    else if x.phase < t.phase.code then (true, c)
    else
      let ack := if t.ring then c else sendColl m 6 { msgOf (c.grp k.gq) k t 0 0 false 0 [] with phase := x.phase } c
      match phaseResult m k t x.data ack with
      | (true, c) => (true, c)
      | (false, _) => (false, (phaseResult m k t x.data c).2)
  | none => (stale c x, c)

/-- A ring piece (R314): combined with this member's own piece on the first M − 1 hops, kept and passed on after that. -/
def onPiece (m : Mgt) (x : CollMsg) (piece hops : Nat) (c : Chip) : Bool × Chip :=
  match findT c x with
  | some (k, t) =>
    let mine := t.phase = .head || t.phase = .exponent || t.phase = .values
    if !mine || !t.ring || t.phase.code < x.phase then ((t.phase = .done : Bool), c)
    else if x.phase < t.phase.code then (true, c)
    else
      let g := c.grp k.gq
      let r := redOf c k
      let (n, u) := ringUnits r t
      let (a, b) := pieceOf n g.m piece
      let own := ((phaseData c k t).drop (a * u)).take ((b - a) * u)
      let data := if hops < g.m then combine r t.phase u x.data own else x.data
      let c0 := c
      let c := if hops < 2 * (g.m - 1) then
          emit (.ring (c.rankOf k.gq ((g.me + 1) % g.m)) piece (hops + 1) { x with sender := g.me, data := data }) c
        else c
      if hops + 1 < g.m then (true, c)
      else
        let t := { t with pieces := fset [] t.pieces piece data }
        let k := k.putT t
        let need := (List.range g.m).filter fun p => (pieceOf n g.m p).1 < (pieceOf n g.m p).2
        if need.all fun p => fget [] t.pieces p ≠ [] then
          let whole := (List.range g.m).flatMap fun p => fget [] t.pieces p
          match phaseResult m k t whole (putColl k c) with
          | (true, c) => (true, c)
          | (false, _) => (false, (phaseResult m k t whole c0).2)
        else (true, putColl k c)
  | none => (stale c x, c)

/-- What the loss of a tranche's slot does to it (R315, R322); before this module reaches the tranche, the loss waits. -/
def slotGone (m : Mgt) (x : CollMsg) (c : Chip) : Bool × Chip :=
  match findT c x with
  | none => (stale c x, c)
  | some (k, t) =>
    let g := c.grp k.gq
    if k.code = 0x20 then
      if t.phase != .claimed && t.phase != .waiting && t.plane != x.plane.toNat then (true, c) else
      let n := max 1 g.planes.length
      let t := { t with phase := .claimed, ring := false, start := (g.planes.idxOf x.plane.toNat + 1) % n }
      let c := putColl (k.putT t) c
      (true, if t.leader = g.me then claim m (k.putT t) t c else c)
    else if t.phase = .done || t.ring then (true, c)
    else if t.head then
      -- A reduction goes on contributing to its later tranches.
      if (k.code = 1 || k.code = 2) && decide (2 ≤ k.tranches.length) then
        (true, putColl { k.putT { t with phase := .done } with lost := true, phase := .tranches } (collEnd k 0x0F c))
      else (true, dropColl k (collEnd k 0x0F c))
    else (true, trancheOver m true { k with lost := true } t (collEnd k 0x0F c))

/-- SLOT_LOST arrives: the plane is down for claims, and a GRANT of the slot that has not been acted on is void. -/
def slotLost (x : CollMsg) (c : Chip) : Chip :=
  let c := clrEvt 2 { c with clr := { c.clr with planeDown := putBit c.clr.planeDown x.plane.toNat true } }
  let void (y : Early) : Bool := y.msg = 2 && y.body.group = x.group && y.body.epoch = x.epoch && y.body.tranche = x.tranche
  addEarly ⟨8, x, 0, 0⟩ { c with clr := { c.clr with early := c.clr.early.filter (!void ·) } }

/-- Whether an arrived result of the group still waits for its destination's lines. -/
def unwritten (c : Chip) (group : W32) : Bool :=
  c.clr.early.any fun y => (y.msg = 5 || y.msg = 0) && y.body.group = group && y.body.phase = 2 &&
    match findT c y.body with
    | some (k, t) => !t.head && t.phase = .values && k.ent.isSome && !k.lost && k.code != 0x20
    | none => false

/-- FENCE (R328): once every arrived result is written, older work of the group ends with TIMEOUT, the epoch rises, and the
settle head starts. -/
def fenced (m : Mgt) (x : CollMsg) (c : Chip) : Bool × Chip :=
  match (List.range 64).find? fun q => (c.gq q).bound && (c.grp q).id = x.group.toNat with
  | none => (true, c)
  | some q =>
    if !epochAfter x.epoch (c.gq q).epoch.toNat then (true, c)
    else if unwritten c x.group then (false, c) else
    let old := c.clr.colls.filter fun k => k.gq = q && k.code != 0x20
    let c := old.foldl (fun c k => dropColl k (collEnd k 0x0F c)) c
    let pairs := c.ory.entries.filter fun e => dClass e.desc = 6 && (dOpcode e.desc = 6 || dOpcode e.desc = 7) &&
      (collD e.desc).gq = q && e.phase = .started && e.round != 0
    let c := pairs.foldl (fun c e => collStop e 0x0F q 0 c) c
    let c := { c with clr := { c.clr with early := c.clr.early.filter fun y => y.body.group != x.group || y.body.epoch = x.epoch } }
    let c := c.setGq q { c.gq q with epoch := .ofNat 16 x.epoch, nextSeq := 0, nextTranche := 0, sends := [], recvs := [] }
    (true, startSettle m none q (clrEvt 3 c))

/-- Acts on a message, or leaves it for later. -/
def deliver (m : Mgt) (y : Early) (c : Chip) : Bool × Chip :=
  match y.msg with
  | 0 => onPiece m y.body y.piece y.hops c
  | 2 => acceptShare m false y.body c
  | 5 => onResult m y.body c
  | 7 => acceptShare m true y.body c
  | 8 => slotGone m y.body c
  | 9 => fenced m y.body c
  | _ => (true, c)

/-- Acts on the first waiting message that can be acted on: whether one was; the others may send snoops and stay. -/
def pumpFirst (m : Mgt) : List Early → List Early → Chip → Bool × Chip
  | _, [], c => (false, c)
  | seen, y :: r, c =>
    let (done, c') := deliver m y { c with clr := { c.clr with early := seen ++ r } }
    if done then (true, c') else pumpFirst m (seen ++ [y]) r { c' with clr := { c'.clr with early := c.clr.early } }

/-- Acts on waiting messages, at most `n` of them. -/
def pumpN (m : Mgt) : Nat → Chip → Chip
  | 0, c => c
  | n + 1, c =>
    match pumpFirst m [] c.clr.early c with
    | (true, c) => pumpN m n c
    | (false, c) => c

/-- Acts on the messages that wait. -/
def pump (m : Mgt) (c : Chip) : Chip := pumpN m (4 * c.clr.early.length + 8) c

/-- A message of the Clearing engine arrives, whole (R454). -/
def collArrive (m : Mgt) (msg : Nat) (x : CollMsg) (c : Chip) : Chip :=
  match msg with
  | 2 | 5 | 7 | 9 => pump m (addEarly ⟨msg, x, 0, 0⟩ c)
  | 3 => pump m (refused m x c)
  | 8 => pump m (slotLost x c)
  | _ => c

/-! ### Turns (R295 to R297, R307, R317, R318, R324) -/

/-- The group queue that a descriptor names. -/
def gqOf (d : Desc) : Option Nat :=
  if dClass d = 6 && dOpcode d != 11 then some (fld d 80 0 6)
  else if dClass d = 9 && dOpcode d = 4 then some (fld d 48 0 6)
  else none

/-- Collectives in flight of a group queue. -/
def inFlight (c : Chip) (gq : Nat) : Nat :=
  (c.clr.colls.filter fun k => decide (k.gq = gq) && k.phase != .kept && !k.lost).length

/-- The die whose resources a group takes (R290): that of its first plane; of a group that is being opened, by its record. -/
def collDie (c : Chip) (gq : Nat) (e? : Option Entry) : Nat :=
  let opening := e?.filter fun e => dClass e.desc = 6 && dOpcode e.desc = 8
  ((opening.map fun e => grpOf e.record).getD (c.grp gq)).planes.headD 0 / 8

/-- Collectives in flight on a die (R289). -/
def inFlightDie (c : Chip) (die : Nat) : Nat :=
  (c.clr.colls.filter fun k => collDie c k.gq k.ent = die && k.phase != .kept && !k.lost).length

/-- Descriptors armed before an entry that have started and wait for their turn to run a collective. -/
def collWaits (c : Chip) (e : Entry) : List Entry :=
  c.ory.entries.filter fun x => decide (x.id < e.id) && x.phase == .started && (gqOf x.desc).isSome && x.round = 0 &&
    !(dClass x.desc = 6 && (dOpcode x.desc = 6 || dOpcode x.desc = 7)) && (collOf c x.id).isNone

/-- Collectives that an entry's start could add to its group and to its die: 4 and 16, less those in flight (R289, R395). -/
def collFree (c : Chip) (e : Entry) (gq : Nat) : Nat × Nat :=
  let die := collDie c gq (some e)
  let w := collWaits c e
  (4 - inFlight c gq - (w.filter fun x => gqOf x.desc = some gq).length,
    16 - inFlightDie c die - (w.filter fun x => collDie c ((gqOf x.desc).getD 0) (some x) = die).length)

/-- Whether it is an entry's turn in its group queue: every earlier descriptor of the queue has taken its own, and a
GROUP_OPEN, GROUP_CLOSE or RESHARD has completed; those two wait for every earlier collective (R298, R317). -/
def myTurn (c : Chip) (e : Entry) (gq : Nat) : Bool :=
  let before := (c.ory.entries.takeWhile fun x => x.id != e.id).filter fun x => gqOf x.desc = some gq && x.phase != .done
  let drains := dClass e.desc = 6 && (dOpcode e.desc = 9 || dOpcode e.desc = 10)
  let blocks (x : Entry) : Bool := dClass x.desc = 6 && [8, 9, 10].contains (dOpcode x.desc)
  let taken (x : Entry) : Bool := (collOf c x.id).isSome || (dClass x.desc = 6 && x.round != 0)
  before.all (fun x => !drains && !blocks x && taken x) &&
  (!drains || decide (inFlight c gq = 0)) && decide (inFlight c gq < 4) &&
  decide (inFlightDie c (collDie c gq (some e)) < 16)

/-- The epoch check of a collective at its turn (R297); `f` runs at the epoch in force. -/
def atTurn (e0 : Entry) (f : Entry → Chip → Chip) (c : Chip) : Chip :=
  let e := curEntry c e0
  let gq := (collD e.desc).gq
  if !myTurn c e gq then c
  else if !(c.gq gq).bound then collStop e 0x0E gq 0 c
  else if byt e.desc 14 2 != (c.gq gq).epoch.toNat then collStop e 0x0A gq 0 (clrEvt 4 c)
  else f e c

/-- The next sequence number of a group queue (R296). -/
def takeSeq (gq : Nat) (c : Chip) : Nat × Chip :=
  let q := c.gq gq
  (q.nextSeq.toNat, c.setGq gq { q with nextSeq := q.nextSeq + 1 })

/-- The tranches of a reduction (R309). -/
def redParts (g : Grp) (x : CollD) (r : Red) : List (Nat × Nat × Nat) :=
  let per := if r.floatSum then g.tb / (if r.wide then 2048 else 1024) else max 1 (g.tb / (r.f.bits / 8))
  let total := if r.floatSum then cdiv x.count 256 else x.count
  let cut (lo hi o : Nat) : List (Nat × Nat × Nat) :=
    (List.range (cdiv (hi - lo) per)).map fun i => (lo + per * i, min (lo + per * i + per) hi, o)
  if x.op = 2 then (List.range g.m).flatMap fun i => cut (i * (total / g.m)) ((i + 1) * (total / g.m)) i
  else cut 0 total 0

/-- A data collective takes its turn: digest, sequence number, head exchange (R305, R309). -/
def beginData (m : Mgt) (e0 : Entry) (c : Chip) : Chip :=
  atTurn e0 (fun e c =>
    let x := collD e.desc
    let g := c.grp x.gq
    let (seq, c) := takeSeq x.gq c
    let ep := (c.gq x.gq).epoch.toNat
    let l := listBytes e 0 32
    let src := (x.shares g l).headD x.src
    let d := collDigest g ep seq x.op x.red src.format (x.target l).format x.count x.root x.drift 0
    let e := bindWindow c e
    let c := setEntry e c
    let k : Coll := ⟨some e, x.gq, x.op, seq, ep, d, [], .head, false, false, false, []⟩
    let parts := if x.reduces then redParts g x (redOf c k) else []
    pump m (openColl m (some e) x.gq x.op seq ep d [0, 0, 0, 0] parts e.cancel c)) c

/-- ALL_REDUCE and REDUCE_SCATTER: the turn; what follows comes with its messages. -/
def reduceRun (m : Mgt) (e : Entry) (c : Chip) : Chip := if (collOf c e.id).isSome then c else beginData m e c

/-- ALL_GATHER, BROADCAST and ALL_TO_ALL: the turn; once the head has agreed, the members' parts. -/
def moveRun (parts : List (List Byte)) (seals : List (List W32)) (m : Mgt) (e : Entry) (c : Chip) : Chip :=
  match collOf c e.id with
  | none => beginData m e c
  | some k =>
    if k.phase != .moving then c
    else if k.sent then receiveParts k e parts seals c
    else
      match sendParts (curEntry c e) k.gq c with
      | .stop st c => dropColl k (collEnd k st c)
      | .go c => putColl { k with sent := true } c
      | .wait c => c

/-- The digest of a SEND or RECV pair: its position among the pair's transfers stands for the sequence number (R303). -/
def pairDigest (g : Grp) (epoch n : Nat) (x : CollD) (send : Bool) : W64 :=
  let f := if send then x.src.format else x.dst.format
  collDigest g epoch n 6 0 f f x.count 0 0 0

/-- The digest that a SEND or RECV of this module has sent to its peer. -/
def ownPair (c : Chip) (e : Entry) : W64 :=
  let x := collD e.desc
  pairDigest (c.grp x.gq) (c.gq x.gq).epoch.toNat e.groups x (x.op = 6)

/-- SEND and RECV: the turn, in which the member sends its digest. -/
def pairTurn (_ : Mgt) (e : Entry) (c : Chip) : Chip :=
  atTurn e (fun e c =>
    let x := collD e.desc
    if e.cancel then collStop e 0x06 x.gq 0 c else
    let q := c.gq x.gq
    let n := fget 0 (if x.op = 6 then q.sends else q.recvs) x.root
    let c := c.setGq x.gq (if x.op = 6 then { q with sends := fset 0 q.sends x.root (n + 1) }
      else { q with recvs := fset 0 q.recvs x.root (n + 1) })
    let e := { e with round := 1, groups := n }
    let c := setEntry e c
    emit (.pairDigest (.ofNat 32 (c.grp x.gq).id) (c.rankOf x.gq x.root) (ownPair c e)) c) c

/-- Ends a pair whose digests differ. -/
def pairMismatch (e : Entry) (c : Chip) : Chip := collStop e 0x09 (collD e.desc).gq 0 (clrEvt 0 c)

/-- SEND (R303): the turn, the peer's digest and then the data, the acknowledgement of the last byte. -/
def sendRun (peer : W64) (m : Mgt) (e : Entry) (c : Chip) : Chip :=
  if e.round = 0 then pairTurn m e c
  else
    let x := collD e.desc
    if e.round = 2 then collStop e 0 x.gq 0 c
    else if peer != ownPair c e then pairMismatch e c
    else if scaleMismatch c e x.src then collStop e 0x10 x.gq 0 c
    else
      match prepare e (scaleAccs c e x.src ++ partAccs x.src x.count 0 x.count false) (fun _ _ => false) c with
      | .wait c => c
      | .stop st c => collStop e st x.gq 0 c
      | .go c =>
        let e := { curEntry c e with round := 2 }
        emit (.move (.ofNat 32 (c.grp x.gq).id) (c.rankOf x.gq x.root) (partBytes c e x.src x.count 0 x.count)) (setEntry e c)

/-- RECV (R303): the turn, then the peer's digest and its bytes. -/
def recvRun (peer : W64) (data : List Byte) (m : Mgt) (e : Entry) (c : Chip) : Chip :=
  if e.round = 0 then pairTurn m e c
  else
    let x := collD e.desc
    let f := x.dst.fmt.getD .fp32
    if peer != ownPair c e then pairMismatch e c
    else if data.length != (partRanges f x.count 0 x.count).foldl (fun s r => s + r.2) 0 then c
    else
      match prepare e (partAccs x.dst x.count 0 x.count true) (partOf x.dst f x.count) c with
      | .wait c => c
      | .stop st c => collStop e st x.gq 0 c
      | .go c =>
        let e := curEntry c e
        let ws := partWrites x.dst x.count 0 x.count data
        collStop e 0 x.gq 0 (commitAll e ws (countWrites e ws c))

/-- GROUP_OPEN (R292): binds the record and starts the head exchange of the group digest. -/
def groupOpen (m : Mgt) (e0 : Entry) (c : Chip) : Chip :=
  let e := curEntry c e0
  let gq := (collD e.desc).gq
  if (collOf c e.id).isSome || !myTurn c e gq then c
  else if (c.gq gq).bound then collStop e 0x0E gq 0 c
  else
    let r := BitVec.ofNat 512 (byt e.record 0 64)
    let g := grpOf r
    let ranks := (words32 (listBytes e 0 (4 * g.m))).map (· % 2 ^ 20)
    let c := c.setGq gq { Gq.reset with record := r, members := ranks, epoch := .ofNat 16 g.epoch }
    pump m (openColl m (some e) gq 0x23 0 g.epoch (groupDigest 0x23 r ranks) [0, g.shares, 0, 0] [] e.cancel c)

/-- GROUP_CLOSE (R298). -/
def groupClose (_ : Mgt) (e : Entry) (c : Chip) : Chip :=
  atTurn e (fun e c =>
    let gq := (collD e.desc).gq
    let (seq, c) := takeSeq gq c
    if e.cancel then collStop e 0x06 gq seq c
    else collStop e 0 gq seq { (c.setGq gq Gq.reset) with clr := { (c.setGq gq Gq.reset).clr with
      colls := c.clr.colls.filter fun k => k.gq != gq } }) c

/-- RESHARD (R317; log entry 25 on where the new epoch stands). -/
def reshardRun (m : Mgt) (e0 : Entry) (c : Chip) : Chip :=
  if (collOf c e0.id).isSome then c else
  atTurn e0 (fun e c =>
    let gq := (collD e.desc).gq
    let g := c.grp gq
    let new := (grpOf e.record).epoch
    let cur := (c.gq gq).epoch.toNat
    if new != (cur + 1) % 65536 then collStop e 0x0A gq 0 (clrEvt 4 c)
    else
      let (seq, c) := takeSeq gq c
      let x := collD e.desc
      let d := collDigest g new seq 0x0A x.red x.src.format x.dst.format x.count x.root x.drift 0
      pump m (openColl m (some e) gq 0x0A seq cur d [0, 0, 0, 0] [] e.cancel c)) c

/-- ADOPT (R327): takes the record's rank and starts with its first group; again, takes up a result entry that had to wait. -/
def adoptRun (id : Nat) (d : Dev) : Dev :=
  match running d.chip id 6 11 with
  | none => d
  | some e =>
    if e.round = 2 then d.mapChip fun c => pump d.mgt (adoptWrite d.mgt e c)
    else if e.round != 0 then d else
    let d := setRank true (.ofNat 20 (byt e.record 4 4)) d
    { d with chip := pump d.mgt (adoptGroup d.mgt e d.chip) }

/-! ### Clearance (R275 to R282, R320 to R324) -/

/-- The poisoned words of a clearance's loss tensor: no element in them is examined, and they stop nothing (R647; log
entry 21). -/
def lossPoison (c : Chip) (e : Entry) : List Nat :=
  let u := updD e.desc
  let a := phys (bindWindow c e) false u.ref.addr
  if isOuter a then [] else (wordsIn a (u.ref.ext / 4 * 4)).filter (poisonedAt c)

/-- The loss elements that a clearance examines, and its reads of them: a block with a poisoned word is not seal-checked. -/
def lossElems (c : Chip) (e : Entry) : List Nat :=
  let u := updD e.desc
  let a := phys (bindWindow c e) false u.ref.addr
  (List.range (u.ref.ext / 4)).filter fun i => !(lossPoison c e).any fun w => decide (w ≤ a + 4 * i) && decide (a + 4 * i < w + 16)
def lossAccs (c : Chip) (e : Entry) : List Acc :=
  let r := (updD e.desc).ref
  if lossPoison c e = [] then [.rd r 0 (r.ext / 4 * 4)]
  else (lossElems c e).map fun i => .rd { r with policy := 0 } (4 * i) 4

/-- CLEARANCE: forms the local verdict at its turn and enters the exchange. -/
def clearanceRun (m : Mgt) (e0 : Entry) (c : Chip) : Chip :=
  let e := curEntry c e0
  let u := updD e.desc
  if (collOf c e.id).isSome || !myTurn c e u.gq then c
  else if !(c.gq u.gq).bound || c.run.recAddr.isNone then collStop e 0x0E u.gq 0 c
  else
    unit e (lossAccs c e) (fun _ _ => false) (fun e c =>
      let loss := (lossElems c e).any fun i => !f32finite (.ofNat 32 (peekNat c e (u.ref.addr + 4 * i) 4))
      let c := (lossPoison c e).foldl (fun c w => recordUe w c) c
      let v := b2n loss + 2 * b2n (c.asy.nfCount ≠ 0) + 4 * b2n (getRun c 152 4 ≠ 0) +
        8 * b2n (getRun c 144 8 ≠ byt c.run.cfg 32 8) + 16 * b2n u.veto
      let amax : FMap W32 := (c.run.scales.filter fun s => s.2.converted).map fun s => (s.1, s.2.amax ||| 0x80000000#32)
      let c := { c with clr := { c.clr with
        kept := c.clr.kept.filter (fun x => !x.acted && x.gq != u.gq) ++ [⟨u.gq, .ofNat 32 v, amax, false, 0, [], false, 0⟩]
        colls := c.clr.colls.filter fun k => k.phase != .kept } }
      let g := c.grp u.gq
      let (seq, c) := takeSeq u.gq c
      let ep := (c.gq u.gq).epoch.toNat
      pump m (openColl m (some e) u.gq 0x20 seq ep (clrDigest g ep seq c.run.step.toNat) [v, 0, 0, 0] (clrParts g) false c)) c

/-- The group's maximum for an entry of the scale history that some member converted (R320). -/
def groupAmax (x : ClrKept) (i : Nat) : Option W32 :=
  let w := fget 0 x.resultAmax i
  if w.msb then some (w &&& 0x7FFFFFFF#32) else none

/-- Steps 1 to 3 of R278 from part `i` up to, but without, part `j`. -/
def passTo (x : ClrKept) (i j : Nat) (c : Chip) : Chip := (span i j).foldl (fun c p => passPart (groupAmax x) p c) c

/-- CLEARANCE_VERDICT: a member acts on the combined verdict once (R278, R279, R323, R329). With `cut`, a passed clearance
gets only that many parts further through steps 1 to 3 of R278, and another CLEARANCE_VERDICT goes on (R281; log entry 52). -/
def verdictRun (cut : Option Nat) (m : Mgt) (e : Entry) (c : Chip) : Chip :=
  match collOf c e.id with
  | none => c
  | some k =>
  match keptFor c k.gq with
  | none => c
  | some x =>
    let act (c : Chip) : Chip := putColl { k with phase := .kept } (onKept k.gq (fun x => { x with acted := true }) c)
    let fail (word : W32) (st : Nat) (c : Chip) : Chip := collStop e st k.gq k.seq (failStep word x.verdict st (act c))
    match k.phase with
    | .verdict =>
      if x.result ≠ 0 then fail x.result (failStatus x.result) c
      else match cut with
      | some n =>
        let upTo := min (x.passed + n) passParts
        onKept k.gq (fun x => { x with passed := upTo }) (passTo x x.passed upTo c)
      | none =>
        collStop e 0 k.gq k.seq (flipStep m (updD e.desc).savePoint x.verdict (passTo x x.passed passParts (act c)))
    | .mismatch => fail x.result 0x09 c
    | .abandoned =>
      let (n, c) := drawFree c
      fail (.ofNat 32 n) 0x0F c
    | _ => c

/-! ### Tranches -/

/-- Staging bytes in use on a die (R289, R311). -/
def stagingUsed (c : Chip) (die : Nat) : Nat :=
  c.clr.colls.foldl (fun s k => k.tranches.foldl (fun s t =>
    if !t.head && t.phase != .waiting && t.phase != .done && t.start < 16 && (c.grp k.gq).planes.getD t.start 0 / 8 = die
    then s + largest (redOf c k) t else s) s) 0

/-- Tranches of a group claimed or in flight (R291). -/
def openTranches (c : Chip) (gq : Nat) : Nat :=
  ((c.clr.colls.filter (·.gq = gq)).flatMap (·.tranches)).countP fun t => !t.head && t.phase != .waiting && t.phase != .done

/-- The collective and tranche that a command names. -/
def namedT (c : Chip) (id tid : Nat) : Option (Coll × Tranche) :=
  (c.clr.colls.filter fun k => k.name = id && k.phase != .kept).findSome? fun k => (k.tranches.find? fun t => t.tid = tid).map (k, ·)

/-- TRANCHE_START (R309 to R313): reads the contribution into staging, and its leader claims. -/
def trancheStart (m : Mgt) (id tid : Nat) (c : Chip) : Chip :=
  match namedT c id tid with
  | none => c
  | some (k, t) =>
    let g := c.grp k.gq
    let r := redOf c k
    if t.phase != .waiting || k.phase != .tranches || g.window ≤ openTranches c k.gq ||
        2 ^ 24 < stagingUsed c (t.plane / 8) + largest r t then c else
    let go := fun (t : Tranche) (c : Chip) =>
      let k := k.putT t
      let c := putColl k c
      pump m (if t.leader = g.me then claim m k t c else c)
    match k.code, k.ent with
    | 0x20, _ => go { t with phase := .claimed } c
    | _, none => c
    | _, some e0 =>
      let e := curEntry c e0
      let x := collD e.desc
      let (lo, hi) := trancheElems r x.count t
      let idx := span lo hi
      let sh := x.shares g (listBytes e 0 (32 * g.shares))
      let src (c : Chip) (e : Entry) (q : TRef) : Src := mkSrc c e q x.count
      if sh.any fun q => scaleMismatch c e q then dropColl k (collEnd k 0x10 c) else
      match prepare e (sh.flatMap fun q => (src c e q).accs c e idx) (fun _ _ => false) c with
      | .wait c => c
      | .stop st c => dropColl k (collEnd k st c)
      | .go c =>
        let e := curEntry c e
        let c := sh.foldl (fun c q => markIf (!r.f.int && widens32 (src c e q) c e idx) e .conversion q.tid (t.plane / 8) c) c
        let vals := sh.map fun q => idx.map fun i => if r.f.int then (src c e q).bits c e i else ((src c e q).f32 c e i).toNat
        go { t with phase := .claimed, staged := vals } c

/-- CLAIM_RETRY (R313). -/
def claimRetry (m : Mgt) (id tid : Nat) (c : Chip) : Chip :=
  match namedT c id tid with
  | some (k, t) => if t.phase = .backoff && t.plane < 16 then pump m (claim m k t c) else c
  | none => c

/-- CLEARANCE_PLANE_RETEST (R321). -/
def planeRetest (m : Mgt) (id : Nat) (c : Chip) : Chip :=
  match c.clr.colls.find? fun k => k.name = id && k.code = 0x20 && k.phase != .kept with
  | some k =>
    let ts := k.tranches.filter fun t => t.phase = .backoff && t.plane = 16
    pump m (ts.foldl (fun c t =>
      match namedT c id t.tid with
      | some (k, t) => claim m k t c
      | none => c) c)
  | none => c

/-- A cancellation reaches an armed or started collective (R307): before the head contribution the collective contributes the
digest 0; later it waits for completion. -/
def collCancel (e : Entry) (c : Chip) : Chip :=
  match collOf c e.id with
  | some k => if k.sent || k.code = 0x20 then c else putColl { k with cancelled := true } c
  | none => setEntry { curEntry c e with cancel := true } c

/-! ### Commands -/

/-- ALL_REDUCE (R299). -/
def execAllReduce (id : Nat) (s : State) : Host.Outcome State Fault Refusal := onRunning 6 1 id reduceRun s
/-- REDUCE_SCATTER (R299). -/
def execReduceScatter (id : Nat) (s : State) : Host.Outcome State Fault Refusal := onRunning 6 2 id reduceRun s
/-- ALL_GATHER (R299, R271 to R273). -/
def execAllGather (id : Nat) (gathered : Gathered) (s : State) : Host.Outcome State Fault Refusal :=
  onRunning 6 3 id (moveRun gathered.parts gathered.seals) s
/-- BROADCAST (R299). -/
def execBroadcast (id : Nat) (data : List Byte) (s : State) : Host.Outcome State Fault Refusal :=
  onRunning 6 4 id (moveRun [data] []) s
/-- ALL_TO_ALL (R299). -/
def execAllToAll (id : Nat) (parts : List (List Byte)) (s : State) : Host.Outcome State Fault Refusal :=
  onRunning 6 5 id (moveRun parts []) s
/-- SEND (R303). -/
def execSend (id : Nat) (peerDigest : W64) (s : State) : Host.Outcome State Fault Refusal := onRunning 6 6 id (sendRun peerDigest) s
/-- RECV (R303). -/
def execRecv (id : Nat) (peerDigest : W64) (data : List Byte) (s : State) : Host.Outcome State Fault Refusal :=
  onRunning 6 7 id (recvRun peerDigest data) s
/-- GROUP_OPEN (R292). -/
def execGroupOpen (id : Nat) (s : State) : Host.Outcome State Fault Refusal := onRunning 6 8 id groupOpen s
/-- GROUP_CLOSE (R298). -/
def execGroupClose (id : Nat) (s : State) : Host.Outcome State Fault Refusal := onRunning 6 9 id groupClose s
/-- RESHARD (R317). -/
def execReshard (id : Nat) (s : State) : Host.Outcome State Fault Refusal := onRunning 6 10 id reshardRun s
/-- ADOPT (R327). -/
def execAdopt (id : Nat) (s : State) : Host.Outcome State Fault Refusal := onDev (adoptRun id) s
/-- TRANCHE_START (R311). -/
def execTrancheStart (id tranche : Nat) (s : State) : Host.Outcome State Fault Refusal := onChip (fun m c => trancheStart m id tranche c) s
/-- GRANT (R313). -/
def execGrant (msg : CollMsg) (s : State) : Host.Outcome State Fault Refusal := onChip (fun m c => collArrive m 2 msg c) s
/-- REFUSE (R313). -/
def execRefuse (msg : CollMsg) (s : State) : Host.Outcome State Fault Refusal := onChip (fun m c => collArrive m 3 msg c) s
/-- CLAIM_RETRY (R313). -/
def execClaimRetry (id tranche : Nat) (s : State) : Host.Outcome State Fault Refusal := onChip (fun m c => claimRetry m id tranche c) s
/-- FALLBACK (R314). -/
def execFallback (msg : CollMsg) (s : State) : Host.Outcome State Fault Refusal := onChip (fun m c => collArrive m 7 msg c) s
/-- RING_HOP (R314). -/
def execRingHop (msg : CollMsg) (piece hops : Nat) (s : State) : Host.Outcome State Fault Refusal :=
  onChip (fun m c => pump m (addEarly ⟨0, msg, piece, hops⟩ c)) s
/-- RESULT (R311). -/
def execResult (msg : CollMsg) (s : State) : Host.Outcome State Fault Refusal := onChip (fun m c => collArrive m 5 msg c) s
/-- SLOT_LOST (R315). -/
def execSlotLost (msg : CollMsg) (s : State) : Host.Outcome State Fault Refusal := onChip (fun m c => collArrive m 8 msg c) s
/-- FENCE (R328). -/
def execFence (msg : CollMsg) (s : State) : Host.Outcome State Fault Refusal := onChip (fun m c => collArrive m 9 msg c) s
/-- CLEARANCE (R275). -/
def execClearance (id : Nat) (s : State) : Host.Outcome State Fault Refusal := onRunning 9 4 id clearanceRun s
/-- CLEARANCE_VERDICT (R278). -/
def execClearanceVerdict (verdict : VerdictOf) (s : State) : Host.Outcome State Fault Refusal :=
  onRunning 9 4 verdict.id (verdictRun verdict.cut) s
/-- CLEARANCE_PLANE_RETEST (R321). -/
def execClearancePlaneRetest (id : Nat) (s : State) : Host.Outcome State Fault Refusal := onChip (fun m c => planeRetest m id c) s

end Sys2Proof.Machine
end

