-- ==== Sys2Proof/Machine/Flags.lean ====
section
/-! DEFINITION. Vesper: flags, overrun and strict marks, the release fence, watches and mailboxes (R418 to R446). -/

namespace Sys2Proof.Machine

/-! ### Flag windows (R419) -/

/-- The 64 flags from a base. -/
def windowGet (x : BitVec 65536) (base : Nat) : W64 := (x >>> base).setWidth 64

/-- The flags with a window replaced. -/
def windowPut (x : BitVec 65536) (base : Nat) (v : W64) : BitVec 65536 :=
  (x &&& ~~~((BitVec.allOnes 64).setWidth 65536 <<< base)) ||| (v.setWidth 65536 <<< base)

def flagSet (c : Chip) (f : Nat) : Bool := c.vsp.flags.getLsbD f

/-! ### Mailboxes (R434, R435) -/

def Chip.mbox (c : Chip) (i : Nat) : Mbox := fget Mbox.reset c.vsp.mboxes i
def Chip.setMbox (c : Chip) (i : Nat) (b : Mbox) : Chip := { c with vsp := { c.vsp with mboxes := fset Mbox.reset c.vsp.mboxes i b } }

/-- Frees a watch slot. -/
def freeSlot (slot : Option Nat) (c : Chip) : Chip :=
  match slot with
  | some s => { c with vsp := { c.vsp with watches := fset none c.vsp.watches s none } }
  | none => c

/-- The 16 bytes of a message written as the ring's message number `n` (R434). -/
def MboxMsg.bytes (x : MboxMsg) (k n : Nat) : List Byte :=
  let phase := 1 - (n >>> k) % 2
  toBytes 4 x.tag.toNat ++ toBytes 2 x.base ++ toBytes 1 (x.cond + 4 * b2n x.clearOnFire + 128 * phase) ++
  toBytes 1 x.reason ++ toBytes 8 x.snapshot.toNat

/-- Writes a message into its ring; none where the write fails (R435). -/
def mboxWrite (b : Mbox) (msg : List Byte) (c : Chip) : Option Chip :=
  let a := b.base.toNat + 16 * (b.tail.toNat % 2 ^ b.log2.toNat)
  if b.host then
    match hostEntry c a 16 with
    | some i => if (fget Aper.reset c.cxl.apers i).base.getLsbD 2 then some (emit (.hostWrite a msg) c) else none
    | none => none
  else if a < hbmTop && !poisonedAt c a then some (writeBytes a msg c) else none

/-- Writes one waiting message, where the ring has room; the event stands whenever the ring is full. -/
def pumpOne (i : Nat) (c : Chip) : Chip :=
  let b := c.mbox i
  match b.waiting with
  | [] => c
  | x :: rest =>
    let held := if b.host then [] else trackedIn c (b.base.toNat + 16 * (b.tail.toNat % 2 ^ b.log2.toNat)) 16
    if 2 ^ b.log2.toNat ≤ (b.tail - b.head).toNat then raise .vsp 3 c
    else if held ≠ [] then sendSnoops held c
    else
      match mboxWrite b (x.bytes b.log2.toNat b.tail.toNat) c with
      | none =>
        let a := b.base.toNat + 16 * (b.tail.toNat % 2 ^ b.log2.toNat)
        let c := if !b.host && poisonedAt c a then recordUe a c else c
        raise .vsp 6 (c.setMbox i { b with stuck := true })
      | some c =>
        let c := freeSlot x.slot (c.setMbox i { b with waiting := rest, tail := b.tail + 1, stuck := false })
        let c := raiseIf (2 ^ b.log2.toNat ≤ (b.tail + 1 - b.head).toNat) .vsp 3 c
        if b.irq then requestVector b.vector.toNat c else c

/-- Writes what waits, until a message must go on waiting. -/
def pumpMbox (i : Nat) : Nat → Chip → Chip
  | 0, c => c
  | n + 1, c =>
    let c' := pumpOne i c
    if (c'.mbox i).waiting.length < (c.mbox i).waiting.length then pumpMbox i n c' else c'

/-- Queues a message and writes what can be written; behind a failed write it waits. -/
def postMsg (i : Nat) (x : MboxMsg) (c : Chip) : Chip :=
  let b := c.mbox i
  let c := c.setMbox i { b with waiting := b.waiting ++ [x] }
  if b.stuck then c else pumpMbox i (b.waiting.length + 1) c

/-! ### Watches (R430 to R433) -/

/-- Whether a condition holds over the masked flags (R430). -/
def condHolds (cond : Nat) (mask v : W64) : Bool :=
  if cond = 0 then v &&& mask == mask else if cond = 1 then v &&& mask != 0 else v &&& mask == 0

/-- Home die of a flag window. -/
def homeOf (base : Nat) : Nat := base / 32768

/-- The lowest free watch slot of a die (log entry 19). -/
def findSlot (c : Chip) (die : Nat) : Option Nat :=
  (List.range 2048).find? (fun i => (fget none c.vsp.watches (2048 * die + i)).isNone) |>.map (2048 * die + ·)

/-- Fires a watch (R431, R432): its message or its WAIT, then its clears. -/
def fireWatch (slot : Nat) (w : Watch) (c : Chip) : Chip :=
  let v := windowGet c.vsp.flags w.base
  let c := raiseIf (ctrWraps c.vsp.firedCnt 1) .vsp 5 c
  let c := { c with vsp := { c.vsp with firedCnt := ctrAdd c.vsp.firedCnt 1 } }
  let c := if w.clearOnFire then { c with vsp := { c.vsp with flags := windowPut c.vsp.flags w.base (v &&& ~~~w.mask) } } else c
  match w.who with
  | .entry id =>
    let c := freeSlot (some slot) c
    match entryOf c id with
    | some e => finish { e with slotW := none } 0 (setEntry { e with slotW := none } c)
    | none => c
  | .mbox i tag =>
    if (c.mbox i).enable then
      let c := { c with vsp := { c.vsp with watches := fset none c.vsp.watches slot (some { w with fired := true }) } }
      postMsg i ⟨tag, w.base, w.cond, w.clearOnFire, 0, v, some slot⟩ c
    else freeSlot (some slot) c

/-- Evaluates the watches of a window after an update, in ascending slot number: each fires if its condition holds after
the clears of those before it (R431, R432; log entry 20). -/
def settle (base : Nat) (c : Chip) : Chip :=
  c.vsp.watches.foldl (fun c (slot, _) =>
    match fget none c.vsp.watches slot with
    | some w =>
      if w.base = base && !w.fired && condHolds w.cond w.mask (windowGet c.vsp.flags base) then fireWatch slot w c else c
    | none => c) c

/-! ### Updates (R418, R419, R423) -/

/-- Sets the masked flags of a window; `rank` is the setter's where another module set them. -/
def setFlags (base : Nat) (mask : W64) (rank : Option Nat) (c : Chip) : Chip :=
  let v := windowGet c.vsp.flags base
  let beyond := v &&& mask
  let sets := popCount 64 (mask &&& ~~~v).toNat
  let overs := popCount 64 beyond.toNat
  let hit := setBits 64 (beyond &&& windowGet c.vsp.strict base).toNat
  let c := raiseIf (ctrWraps c.vsp.sets sets || ctrWraps c.vsp.overruns overs) .vsp 5 c
  let c := { c with vsp := { c.vsp with
    flags := windowPut c.vsp.flags base (v ||| mask)
    overrun := windowPut c.vsp.overrun base (windowGet c.vsp.overrun base ||| beyond)
    sets := ctrAdd c.vsp.sets sets
    overruns := ctrAdd c.vsp.overruns overs
    strictLast := match hit with
      | i :: _ => .ofNat 64 ((base + i) <<< 48 ||| (match rank with | some r => 2 ^ 20 ||| r % 2 ^ 20 | none => 0))
      | [] => c.vsp.strictLast } }
  settle base (raiseIf (hit ≠ []) .vsp 0 c)

/-- Clears the masked flags of a window. -/
def clearFlags (base : Nat) (mask : W64) (c : Chip) : Chip :=
  settle base { c with vsp := { c.vsp with flags := windowPut c.vsp.flags base (windowGet c.vsp.flags base &&& ~~~mask) } }

/-- Sets one flag of this module. -/
def setFlag (f : Nat) (c : Chip) : Chip := setFlags (f / 64 * 64) (1#64 <<< (f % 64)) none c

/-! ### The release fence (R426) -/

/-- Whether the fence of an entry is complete: every earlier descriptor of its stream has retired, and every remote and
CXL write is acknowledged. -/
def fenceDone (c : Chip) (e : Entry) : Bool :=
  !(c.ory.entries.any fun x => decide (x.id < e.id) && !x.apart && decide (dStream x.desc = dStream e.desc)) &&
  !(c.fab.remotes.any fun r => r.type == .write) && c.cxl.uios.all (·.read)

/-! ### The Flag class (R436, R437) -/

structure FlagD where
  base : Nat
  remote : Bool
  cond : Nat
  clearOnFire : Bool
  rank : Nat
  mask : W64
  mbox : Nat
  tag : W32
  release : Bool
  deriving DecidableEq, Repr

def flagD (d : Desc) : FlagD :=
  ⟨byt d 16 2, fld d 18 0 1 = 1, fld d 19 0 2, fld d 19 2 1 = 1, fld d 20 0 20, .ofNat 64 (byt d 24 8), fld d 32 0 3,
    .ofNat 32 (byt d 36 4), fld d 3 2 1 = 1⟩

/-- SET and CLEAR: locally at once, remotely when acknowledged; behind the fence where it is carried. -/
def flagUpdate (act : Nat) (m : Mgt) (e : Entry) (c : Chip) : Chip :=
  let x := flagD e.desc
  if e.round = 1 || (x.release && !fenceDone c e) then c
  else if x.remote then remoteFlag m e x.rank x.base act x.mask (setEntry { e with round := 1, begun := true } c)
  else finish e 0 (if act = 1 then setFlags x.base x.mask none c else clearFlags x.base x.mask c)

/-- Registers a watch in a slot and evaluates it (R431). -/
def register (slot : Nat) (w : Watch) (c : Chip) : Chip :=
  let c := { c with vsp := { c.vsp with watches := fset none c.vsp.watches slot (some w) } }
  if condHolds w.cond w.mask (windowGet c.vsp.flags w.base) then
    let c' := fireWatch slot w c
    if c'.vsp.flags != c.vsp.flags then settle w.base c' else c'
  else c

/-- WATCH (R433, R437). -/
def watch (_ : Mgt) (e : Entry) (c : Chip) : Chip :=
  let x := flagD e.desc
  match findSlot c (homeOf x.base) with
  | none => finish e 0x05 (raise .vsp 2 c)
  | some s => finish e 0 (register s ⟨x.base, x.mask, x.cond, x.clearOnFire, .mbox x.mbox x.tag, false⟩ c)

/-- WAIT (R437): takes a slot, and completes when its condition holds. -/
def wait (_ : Mgt) (e : Entry) (c : Chip) : Chip :=
  let x := flagD e.desc
  if e.slotW.isSome then c else
  match findSlot c (homeOf x.base) with
  | none => c
  | some s => register s ⟨x.base, x.mask, x.cond, x.clearOnFire, .entry e.id, false⟩ (setEntry { e with slotW := some s } c)

/-- UNWATCH (R437): removes the mailbox's watches with this tag, each with a reason-1 message. -/
def unwatch (_ : Mgt) (e : Entry) (c : Chip) : Chip :=
  let x := flagD e.desc
  let c := c.vsp.watches.foldl (fun c (slot, w) =>
    match w with
    | some w =>
      if w.who = .mbox x.mbox x.tag && !w.fired then
        postMsg x.mbox ⟨x.tag, w.base, w.cond, w.clearOnFire, 1, windowGet c.vsp.flags w.base, none⟩ (freeSlot (some slot) c)
      else c
    | none => c) c
  finish e 0 c

/-- The checks of an armed Flag descriptor (R440). -/
def checkFlag (m : Mgt) (c : Chip) (d : Desc) : Option Nat :=
  let x := flagD d
  let op := dOpcode d
  let upd := op = 1 || op = 2
  let usesMbox := op = 4 || op = 5
  let access := (x.remote && (op = 3 || op = 4)) || (usesMbox && !(c.mbox x.mbox).enable) || (upd && x.remote && !m.rankValid)
  let reserved :=
    fld d 18 1 7 != 0 || fld d 20 20 12 != 0 || byt d 33 3 != 0 || byt d 40 24 != 0 ||
    (if upd then byt d 19 1 != 0 || (!x.remote && x.rank != 0) || byt d 32 8 != 0
     else if op = 3 then fld d 19 3 5 != 0 || byt d 20 4 != 0 || byt d 32 8 != 0 || x.cond = 3
     else if op = 4 then fld d 19 3 5 != 0 || byt d 20 4 != 0 || fld d 32 3 5 != 0 || x.cond = 3
     else byt d 16 16 != 0 || fld d 32 3 5 != 0) || (op != 5 && x.base % 64 != 0)
  if access then some 0x0E
  else if reserved then some 0x04
  else if op ≠ 5 ∧ x.mask = 0 then some 0x01
  else if upd && x.remote && decide (16383 < x.rank) then some 0x02
  else none

/-! ### Host and hand updates -/

/-- A manual act (R441, R442) by path 0, BAR0, or 1, the board sideband. -/
def manualAct (m : Mgt) (value : W32) (path : Nat) (c : Chip) : Chip :=
  let key := bitsOf value.toNat 24 8
  let act := bitsOf value.toNat 16 2
  let flag := bitsOf value.toNat 0 16
  let result (r : Nat) (c : Chip) : Chip := { c with vsp := { c.vsp with manualResult := .ofNat 8 r } }
  if key ≠ 0xA5 then result 2 c
  else if act = 0 ∨ act = 3 then c
  else
    let (ok, c) := queueRec m (flag / 32768) 9 (toBytes 2 flag ++ toBytes 1 act ++ toBytes 1 (b2n (flagSet c flag)) ++ toBytes 1 path) c
    if !ok then result 3 c else
    let base := flag / 64 * 64
    let mask := 1#64 <<< (flag % 64)
    let c := if act = 1 then setFlags base mask none c else clearFlags base mask c
    let c := raiseIf (ctrWraps c.vsp.manualActs 1) .vsp 5 c
    result 1 (raise .vsp 4 { c with vsp := { c.vsp with manualActs := ctrAdd c.vsp.manualActs 1 } })

/-- A write of VSP_MBOX_CFG for the selected mailbox (R434). -/
def mboxCfg (value : W32) (c : Chip) : Chip :=
  let i := c.vsp.mboxSel.toNat
  let b := c.mbox i
  let v := value.toNat
  let on := bitOf v 0
  let k := bitsOf v 8 5
  let host := bitOf v 13
  let b' : Mbox := { b with vector := .ofNat 8 (bitsOf v 24 8), host := host, log2 := .ofNat 5 k, irq := bitOf v 1, enable := on }
  let n := 16 * 2 ^ k
  let valid := decide (4 ≤ k) && decide (k ≤ 16) &&
    (if host then hostRing c b.base.toNat n else decide (b.base.toNat + n ≤ hbmTop))
  if on then
    if b.enable || !valid then c else c.setMbox i { b' with head := 0, tail := 0, waiting := [], stuck := false }
  else
    let c := b.waiting.foldl (fun c x => freeSlot x.slot c) c
    c.setMbox i { b' with waiting := [], stuck := false }

/-- A write of VSP_MBOX_PTRS.head: releases messages (R435). -/
def mboxRelease (value : W64) (c : Chip) : Chip :=
  let i := c.vsp.mboxSel.toNat
  let b := c.mbox i
  let c := c.setMbox i { b with head := .ofNat 32 (bitsOf value.toNat 32 32) }
  if b.stuck then c else pumpMbox i (b.waiting.length + 1) c

/-- The 1 ms retry of a failed message write (R435). -/
def mboxRetry (i : Nat) (c : Chip) : Chip :=
  let b := c.mbox i
  if b.stuck && b.enable then pumpMbox i (b.waiting.length + 1) c else c

/-- SET (R437). -/
def execSet (id : Nat) (s : State) : Host.Outcome State Fault Refusal := onRunning 7 1 id (flagUpdate 1) s
/-- CLEAR (R437). -/
def execClear (id : Nat) (s : State) : Host.Outcome State Fault Refusal := onRunning 7 2 id (flagUpdate 2) s
/-- WAIT (R437). -/
def execWait (id : Nat) (s : State) : Host.Outcome State Fault Refusal := onRunning 7 3 id wait s
/-- WATCH (R433, R437). -/
def execWatch (id : Nat) (s : State) : Host.Outcome State Fault Refusal := onRunning 7 4 id watch s
/-- UNWATCH (R437). -/
def execUnwatch (id : Nat) (s : State) : Host.Outcome State Fault Refusal := onRunning 7 5 id unwatch s
/-- VSP_FLAG_SET (R429, R445). -/
def execFlagSetWrite (word : BitVec 10) (value : W64) (s : State) : Host.Outcome State Fault Refusal :=
  onChip (fun m c => whenReady m (setFlags (64 * word.toNat) value none) c) s
/-- VSP_FLAG_CLEAR (R429, R445). -/
def execFlagClearWrite (word : BitVec 10) (value : W64) (s : State) : Host.Outcome State Fault Refusal :=
  onChip (fun m c => whenReady m (clearFlags (64 * word.toNat) value) c) s
/-- VSP_MANUAL (R441). -/
def execManualAct (value : W32) (s : State) : Host.Outcome State Fault Refusal :=
  onChip (fun m c => whenReady m (manualAct m value 0) c) s
/-- VSP_MBOX_CFG (R434). -/
def execMboxCfgWrite (value : W32) (s : State) : Host.Outcome State Fault Refusal :=
  onChip (fun m c => whenReady m (mboxCfg value) c) s
/-- VSP_MBOX_PTRS.head (R435). -/
def execMboxRelease (value : W64) (s : State) : Host.Outcome State Fault Refusal :=
  onChip (fun m c => whenReady m (mboxRelease value) c) s
/-- A mailbox write is tried again (R435). -/
def execMboxWriteRetry (mbox : BitVec 3) (s : State) : Host.Outcome State Fault Refusal :=
  onChip (fun _ c => mboxRetry mbox.toNat c) s

end Sys2Proof.Machine
end

