-- ==== Sys2Proof/Machine/Move.lean ====
section
/-! DEFINITION. The Move class: COPY and FILL (R404), and the memory-side adders (R354 to R360). -/

namespace Sys2Proof.Machine

/-! ### COPY and FILL -/

structure MoveD where
  op : Nat
  src : TRef
  dst : TRef
  count : Nat
  peer : Nat
  srcRemote : Bool
  dstRemote : Bool
  pattern : W32
  deriving DecidableEq, Repr

def moveD (d : Desc) : MoveD :=
  ⟨dOpcode d, tref d 16, tref d 48, byt d 80 8, fld d 88 0 20, fld d 88 30 1 = 1, fld d 88 31 1 = 1, .ofNat 32 (byt d 92 4)⟩

/-- Offset and length of destination block `b` (R407). -/
def MoveD.block (x : MoveD) (b : Nat) : Nat × Nat := (4096 * b, min 4096 (x.count - 4096 * b))
def MoveD.blocks (x : MoveD) : Nat := cdiv x.count 4096

/-- The bytes that a block writes. -/
def MoveD.data (x : MoveD) (c : Chip) (e : Entry) (o n : Nat) : List Byte :=
  if x.op = 2 then
    let p := toBytes 4 x.pattern.toNat
    (List.range n).map fun i => p.getD ((o + i) % 4) 0
  else if x.srcRemote then remoteBytes e (x.src.addr + o) n
  else peekN c e (x.src.addr + o) n

/-- What a block reads and writes on this module. -/
def moveAccs (c : Chip) (e : Entry) : List Acc :=
  let x := moveD e.desc
  let b := x.block e.chunk
  (if x.op = 1 && !x.srcRemote then scaleAccs c e x.src ++ [Acc.rd x.src b.1 b.2] else []) ++ (if x.dstRemote then [] else [Acc.wr x.dst b.1 b.2])

/-- Seal blocks that the operation writes only in part. -/
def movePart (e : Entry) : TRef → Nat → Bool :=
  let x := moveD e.desc
  fun q b => q == x.dst && !coversBlock [(x.dst, 0, x.count)] q b

/-- Whether bytes of a remote source are still to come. -/
def moveMissing (e : Entry) : Bool :=
  let x := moveD e.desc
  let b := x.block e.chunk
  x.op = 1 && x.srcRemote && !((List.range b.2).all fun i => e.ext.any fun y => y.1 = remoteKey (x.src.addr + b.1 + i))

/-- One 4 KiB destination block (R404, R407). -/
def moveBlock (m : Mgt) (e0 : Entry) (c : Chip) : Chip :=
  let e := curEntry c e0
  let x := moveD e.desc
  if x.blocks ≤ e.chunk then
    -- Every block is committed: writes beyond the module are still to be acknowledged.
    if e.acks ≠ [] || uioWritesOpen c e then c else finish e 0 c
  else
  let (o, n) := x.block e.chunk
  if moveMissing e then (if e.asked then c else remoteRead m e x.peer (x.src.addr + o) n c) else
  if x.op = 1 && !x.srcRemote && scaleMismatch c e x.src then finish e 0x10 c else
  unit e (moveAccs c e) (movePart e) (fun e c =>
    let data := x.data c e o n
    let c := setEntry { e with chunk := e.chunk + 1, begun := true } c
    let c := if x.dstRemote then remoteWrite m e x.peer (x.dst.addr + o) data c else
        commitAll (curEntry c e) [⟨x.dst, o, data, false⟩] (countMoved e x.dst o data c)
    let e := curEntry c e
    if x.blocks ≤ e.chunk && e.acks = [] && !uioWritesOpen c e then finish e 0 c else c) c

/-- `n` destination blocks, until the operation ends or waits. -/
def moveBlocks (m : Mgt) (id op : Nat) : Nat → Chip → Chip
  | 0, c => c
  | n + 1, c =>
    match running c id 4 op with
    | some e => moveBlocks m id op n (moveBlock m e c)
    | none => c

def runMove (op id groups : Nat) (s : State) : Host.Outcome State Fault Refusal :=
  onChip (fun m c => moveBlocks m id op groups c) s

/-- The checks of R645 on a reference to a peer's memory; the peer's run record is not known here. -/
def remoteAccess (r : TRef) (write : Bool) : Bool :=
  (write && overlap r.addr (max r.ext 1) windowBase (windowEnd - windowBase)) || ((r.policy = 1 || r.policy = 2) && r.addr % 4096 != 0)

/-- The checks of an armed COPY or FILL (R404, R391, R645). -/
def checkMove (c : Chip) (d : Desc) : Option Nat :=
  let x := moveD d
  let copy := x.op = 1
  let reserved := refReserved d 48 || byt d 96 32 != 0 ||
    (if copy then refReserved d 16 || fld d 88 20 10 != 0 || byt d 92 4 != 0 || (x.srcRemote && x.dstRemote)
     else byt d 16 32 != 0 || byt d 88 4 != 0)
  let format := x.dst.fmt.isNone || 4 < x.dst.layout || (copy && (x.src.format != x.dst.format || 4 < x.src.layout))
  let extent := (copy && overExtent x.src x.count) || overExtent x.dst x.count
  let access := (copy && (if x.srcRemote then remoteAccess x.src false else refAccess c x.src false false)) ||
    (if x.dstRemote then remoteAccess x.dst true else refAccess c x.dst true false)
  if reserved then some 0x04
  else if format then some 0x10
  else if x.count = 0 then some 0x01
  else if extent then some 0x02
  else if access then some 0x0E
  else none

/-- COPY (R404). -/
def execCopy (id groups : Nat) (s : State) : Host.Outcome State Fault Refusal := runMove 1 id groups s
/-- FILL (R404). -/
def execFill (id groups : Nat) (s : State) : Host.Outcome State Fault Refusal := runMove 2 id groups s

/-! ### Memory-side operations (R354) -/

structure MemD where
  op : Nat
  idx : TRef                -- the table, in MS_LANE_OUT
  values : TRef
  table : TRef              -- the destination, in MS_LANE_OUT
  rows : Nat                -- first block, in MS_LANE_INIT and MS_LANE_OUT
  len : Nat                 -- count of blocks there
  wide : Bool
  h : Nat
  deriving DecidableEq, Repr

def memD (d : Desc) : MemD :=
  ⟨dOpcode d, tref d 16, tref d 48, tref d 80, byt d 112 4, byt d 116 4, fld d 120 0 1 = 1, byt d 121 1⟩

def MemD.scatter (x : MemD) : Bool := [0x11, 0x12, 0x14, 0x15].contains x.op

/-- Bytes of a lane block (R71). -/
def laneBytes (wide : Bool) : Nat := if wide then 2064 else 1040
/-- Lane width of a table, from the header of its first block (log entry 18). -/
def tableWide (c : Chip) (e : Entry) (t : TRef) : Bool := (peek c (bindWindow c e) (t.addr + 3)).getLsbD 0

/-- Bytes of the header that names the width. -/
def tableHead (t : TRef) : Nat × Nat := (t.addr, 16)

/-- Bytes of one row of the table. -/
def MemD.rowBytes (x : MemD) (c : Chip) (e : Entry) : Nat :=
  if x.op = 0x11 || x.op = 0x12 then x.len / 256 * laneBytes (tableWide c e x.table)
  else x.len * ((x.table.fmt.getD .fp32).bits / 8)

/-- Rows that the table holds. -/
def MemD.tableRows (x : MemD) (c : Chip) (e : Entry) : Nat := x.table.ext / x.rowBytes c e

/-- Die of the controller that serves a cell's stack (R97). -/
def dieOfCell (a : Nat) : Nat := (canon a).elim 0 fun k => if k < hbmTop then pcOf k / 128 else 0

/-- A memory-side update of whole 16-byte words: words that are poisoned are skipped and recorded; whether one was (R346,
R357). -/
def updateWords (ws : List (Nat × List Byte)) (c : Chip) : Bool × Chip :=
  ws.foldl (fun (bad, c) (a, b) =>
    if poisonedAt c a then (true, recordUe a c)
    else
      let c := raiseIf (ctrWraps c.hbm.adderOps 1) .hbm 7 c
      (bad, writeBytes a b { c with hbm := { c.hbm with adderOps := ctrAdd c.hbm.adderOps 1 } })) (false, c)

/-- Bytes cut at 16-byte word boundaries. -/
def cutWords (a : Nat) : List Byte → List (Nat × List Byte)
  | l => (wordsIn a l.length).map fun w =>
    let lo := max a w
    (lo, (l.drop (lo - a)).take (w + 16 - lo))

/-- A lane block's header (R71). -/
def laneHeader (exp h : Nat) (wide nonfinite : Bool) (index : Nat) : List Byte :=
  toBytes 2 exp ++ toBytes 1 h ++ toBytes 1 (b2n wide + 2 * b2n nonfinite) ++ toBytes 4 index ++ toBytes 8 0

/-- The update of one lane block by 256 FP32 values: an empty list where its header is poisoned (log entry 18). -/
def laneUpdate (op : Nat) (wide : Bool) (a : Nat) (xs : List W32) (c : Chip) : List (Nat × List Byte) :=
  let E := sgn 16 (readNat c a 2)
  if op = 0x11 then
    let e := blockExp xs
    [(a, toBytes 2 (unsgn 16 (max E e)) ++ readBytes c (a + 2) 14)]
  else
    let h := (readByte c (a + 2)).toNat
    let w := if wide then 64 else 32
    let nf := xs.any fun x => !f32finite x || laneTooBig x E
    let flags := (readByte c (a + 3)).toNat ||| (if nf then 2 else 0)
    (a, readBytes c a 3 ++ toBytes 1 flags ++ readBytes c (a + 4) 12) ::
      cutWords (a + 16) ((xs.zipIdx).flatMap fun (x, i) =>
        toBytes (w / 8) (readNat c (a + 16 + i * (w / 8)) (w / 8) + unsgn w (toLane x E h w)))

/-- Bytes of a value, and the offset of value `k` of row `r`, by the layout of the values (R390). -/
def MemD.valueBytes (x : MemD) : Nat := (x.values.fmt.getD .fp32).bits / 8
def MemD.valueOff (x : MemD) (r k : Nat) : Nat := storeIdx x.values.layout x.rows x.len r k * x.valueBytes

/-- Applies value row `r` (R354, R357). -/
def applyRow (x : MemD) (e : Entry) (r : Nat) (c : Chip) : Bool × Chip :=
  let i := peekNat c e (x.idx.addr + 4 * r) 4
  let a := x.table.addr + i * x.rowBytes c e
  let c := meet a (x.rowBytes c e) c
  let f := x.values.fmt.getD .fp32
  let w := f.bits / 8
  let val (k : Nat) : Nat := peekNat c e (x.values.addr + x.valueOff r k) w
  if x.op = 0x11 || x.op = 0x12 then
    let wide := tableWide c e x.table
    (List.range (x.len / 256)).foldl (fun (bad, c) b =>
      let p := a + b * laneBytes wide
      let xs := (List.range 256).map fun k => BitVec.ofNat 32 (val (256 * b + k))
      if poisonedAt c p then (true, recordUe p c)
      else
        let (bad', c) := updateWords (laneUpdate x.op wide p xs c) c
        (bad || bad', c)) (false, c)
  else
    let ws := cutWords a ((List.range x.len).flatMap fun k =>
      let old := readNat c (a + k * w) w
      if x.op = 0x14 then toBytes w (old + val k)
      else toBytes w (f32add (.ofNat 32 old) (.ofNat 32 (val k))).toNat)
    let (bad, c) := updateWords ws c
    (bad, (ws.filter fun p => !poisonedAt c p.1).foldl (fun c p => countMoved e x.table (p.1 - x.table.addr) p.2 c) c)

/-- Addresses of a row's table words, whole (R357: poison in them does not stop the row). -/
def MemD.rowAcc (x : MemD) (c : Chip) (e : Entry) (r : Nat) : Acc :=
  let i := peekNat c e (x.idx.addr + 4 * r) 4
  let a := x.table.addr + i * x.rowBytes c e
  let lo := a / 16 * 16
  .wr (.plain lo (alignUp (a + x.rowBytes c e) 16 - lo)) 0 (alignUp (a + x.rowBytes c e) 16 - lo)

/-- The index list that a scatter reads whole, with the header that names a lane table's width when an attempt begins; and
the value and table words of one row. -/
def scatterIdx (e : Entry) : List Acc :=
  let x := memD e.desc
  (if e.round = 0 && (x.op = 0x11 || x.op = 0x12) then [Acc.rd x.table 0 16] else []) ++ [Acc.rd x.idx 0 (4 * x.rows)]
def scatterAccs (c : Chip) (e : Entry) : List Acc :=
  let x := memD e.desc
  let vb := x.valueBytes
  (if x.values.layout = 0 then [Acc.rd x.values (e.chunk * x.len * vb) (x.len * vb)]
  else (List.range x.len).map fun k => Acc.rd x.values (x.valueOff e.chunk k) vb) ++ [x.rowAcc c e e.chunk]

/-- Whether an index lies beyond the table: tested once by every attempt, before it applies a row (R357). -/
def scatterBeyond (c : Chip) (e : Entry) : Bool :=
  let x := memD e.desc
  e.round = 0 && (List.range x.rows).any fun r => x.tableRows c e ≤ peekNat c e (x.idx.addr + 4 * r) 4

/-- One row of a scatter; its first row reads every index first (R357). -/
def scatterRow (e0 : Entry) (c : Chip) : Chip :=
  let e := curEntry c e0
  let x := memD e.desc
  match prepare e (scatterIdx e) (fun _ _ => false) c with
  | .wait c => c
  | .stop st c => finish e st c
  | .go c =>
    let e := curEntry c e
    if scatterBeyond c e then finish e 0x02 c
    else
      unit e (scatterAccs c e) (fun _ _ => false) (fun e c =>
        let (bad, c) := applyRow x e e.chunk c
        let e := { curEntry c e with chunk := e.chunk + 1, begun := true, round := 1, from_ := if bad then 1 else e.from_ }
        let c := setEntry e c
        if x.rows ≤ e.chunk then finish e (if e.from_ = 1 then 0x0B else 0) c else c) c

/-- `n` rows of a scatter. -/
def scatterRows (id op : Nat) : Nat → Chip → Chip
  | 0, c => c
  | n + 1, c =>
    match running c id 4 op with
    | some e => scatterRows id op n (scatterRow e c)
    | none => c

/-- The bytes of the blocks that MS_LANE_INIT writes: a header each, and lanes of zero (R71, R354). -/
def laneInitBytes (x : MemD) : List Byte :=
  (List.range x.len).flatMap fun b =>
    laneHeader 0x8000 x.h x.wide false (x.rows + b) ++ List.replicate (laneBytes x.wide - 16) 0

/-- MS_LANE_INIT (R354): blocks [first, first + count) of the table. -/
def laneInit (_ : Mgt) (e : Entry) (c : Chip) : Chip :=
  let x := memD e.desc
  let lb := laneBytes x.wide
  unit e [.wr x.table (x.rows * lb) (x.len * lb)] (fun _ _ => false) (fun e c =>
    finish e 0 (commitAll e [⟨x.table, x.rows * lb, laneInitBytes x, false⟩] c)) c

/-- The values of the blocks that MS_LANE_OUT gives (R90). -/
def laneOutValues (c : Chip) (e : Entry) : List W32 :=
  let x := memD e.desc
  let wide := tableWide c e x.idx
  let w := if wide then 64 else 32
  (List.range x.len).flatMap fun b =>
    let a := x.idx.addr + (x.rows + b) * laneBytes wide
    let nf := (peek c e (a + 3)).getLsbD 1
    (List.range 256).map fun i =>
      fromLane (sgn w (peekNat c e (a + 16 + i * (w / 8)) (w / 8))) (sgn 16 (peekNat c e a 2)) (peek c e (a + 2)).toNat w nf

/-- Seal blocks of the destination that MS_LANE_OUT writes only in part. -/
def laneOutPart (e : Entry) : TRef → Nat → Bool :=
  let x := memD e.desc
  fun q b => q == x.table && !coversBlock [(x.table, 0, 1024 * x.len)] q b

/-- MS_LANE_OUT (R90, R354): blocks [first, first + count) as FP32. -/
def laneOut (_ : Mgt) (e : Entry) (c : Chip) : Chip :=
  let x := memD e.desc
  let wide := tableWide c e x.idx
  let lb := laneBytes wide
  unit e [.rd x.idx 0 16, .rd x.idx (x.rows * lb) (x.len * lb), .wr x.table 0 (1024 * x.len)] (laneOutPart e) (fun e c =>
    let vs := laneOutValues c e
    let c := markIf (vs.any (!f32finite ·)) e .conversion x.table.tid (dieOfCell x.idx.addr) c
    let (ws, c) := f32For x.table (vs.zipIdx.map fun (v, i) => (i, v)) c
    finish e 0 (commitAll (curEntry c e) ws c)) c

/-- The checks of an armed memory-side descriptor (R360). -/
def checkMem (m : Mgt) (c : Chip) (e : Entry) : Option Nat :=
  let d := e.desc
  let x := memD d
  let lanes := x.op = 0x11 || x.op = 0x12
  let init := x.op = 0x10
  let out := x.op = 0x13
  let tbl := if out then x.idx else x.table
  let beyond (a b : TRef) : Bool := overlaps a.addr a.ext b.addr b.ext
  let access := tbl.policy != 0 || (x.op = 0x15 && m.reproducible) ||
    (if out then beyond x.table x.idx else if init then false else beyond x.table x.idx || beyond x.table x.values) ||
    refAccess c x.table true false || (!init && refAccess c x.idx false false) ||
    (x.scatter && refAccess c x.values false false)
  let reserved := byt d 122 6 != 0 || fld d 120 1 7 != 0 || refReserved d 80 ||
    (if init then byt d 16 64 != 0 || 20 < x.h else byt d 120 2 != 0) ||
    (if out then refReserved d 16 || byt d 48 32 != 0 else if init then false else refReserved d 16 || refReserved d 48)
  let fmt (r : TRef) (f : Format) : Bool := r.fmt == some f
  let layouts := 4 < x.table.layout || (!init && 4 < x.idx.layout) ||
    (x.scatter && (badShape x.idx x.rows 1 || badShape x.values x.rows x.len || (x.table.layout = 2 && x.len % 128 != 0)))
  let format := layouts ||
    if x.scatter then
      !fmt x.idx .int32 || ((lanes || x.op = 0x15) && !fmt x.values .fp32) || (x.op = 0x15 && !fmt x.table .fp32) ||
      (x.op = 0x14 && (x.values.format != x.table.format || !(fmt x.table .int32 || fmt x.table .int64))) || x.table.fmt.isNone
    else x.table.fmt.isNone || (out && (!fmt x.table .fp32 || x.idx.fmt.isNone))
  let empty := x.len = 0 || (x.scatter && x.rows = 0)
  let extent :=
    if x.scatter then
      (lanes && x.len % 256 != 0) || overExtent x.idx (4 * x.rows) ||
      overExtent x.values (x.rows * x.len * ((x.values.fmt.getD .fp32).bits / 8)) || overExtent x.table 0
    else if init then overExtent x.table ((x.rows + x.len) * laneBytes x.wide)
    else overExtent x.idx ((x.rows + x.len) * laneBytes (tableWide c e x.idx)) || overExtent x.table (1024 * x.len)
  if access then some 0x0E
  else if reserved then some 0x04
  else if format then some 0x10
  else if empty then some 0x01
  else if extent then some 0x02
  else none

def runScatter (op id rows : Nat) (s : State) : Host.Outcome State Fault Refusal :=
  onChip (fun _ c => scatterRows id op rows c) s

/-- MS_LANE_INIT (R354). -/
def execMsLaneInit (id : Nat) (s : State) : Host.Outcome State Fault Refusal := onRunning 4 0x10 id laneInit s
/-- MS_EXP_MAX (R354). -/
def execMsExpMax (id rows : Nat) (s : State) : Host.Outcome State Fault Refusal := runScatter 0x11 id rows s
/-- MS_LANE_ADD (R354, R356). -/
def execMsLaneAdd (id rows : Nat) (s : State) : Host.Outcome State Fault Refusal := runScatter 0x12 id rows s
/-- MS_LANE_OUT (R354). -/
def execMsLaneOut (id : Nat) (s : State) : Host.Outcome State Fault Refusal := onRunning 4 0x13 id laneOut s
/-- MS_INT_ADD (R354). -/
def execMsIntAdd (id rows : Nat) (s : State) : Host.Outcome State Fault Refusal := runScatter 0x14 id rows s
/-- MS_FLOAT_ADD (R354). -/
def execMsFloatAdd (id rows : Nat) (s : State) : Host.Outcome State Fault Refusal := runScatter 0x15 id rows s

end Sys2Proof.Machine
end

