-- ==== Sys2Proof/Machine/Fabric.lean ====
section
/-! DEFINITION. The receiving side of the fabric: frames, remote requests and their answers, and the states of the ports
(R447 to R471). -/

namespace Sys2Proof.Machine

/-! ### Ends of operations that waited for another module -/

/-- Ends an operation from outside its own commands. -/
def endOp (e0 : Entry) (st : Nat) (c : Chip) : Chip :=
  let e := { curEntry c e0 with acks := [], asked := false }
  let c := dropRequests e.id (setEntry e c)
  if e.phase = .done then c else
  match dClass e.desc with
  | 3 => if dOpcode e.desc ≤ 2 then segEnd e st c else attEnd e st c
  | 5 | 11 => codEnd e st c
  | 6 => collStop e st (collD e.desc).gq 0 c
  | _ => finish e st c

/-- Ends an operation whose remote or CXL access failed; a stack access with no answer also sets remote_fail (R245). -/
def failAccess (e : Entry) (st : Nat) (c : Chip) : Chip :=
  endOp e st (if dClass e.desc = 11 && st = 0x0F then codRaise e 3 c else c)

/-- Clears `asked` once no read of the entry is outstanding. -/
def settleAsked (id : Nat) (c : Chip) : Chip :=
  match entryOf c id with
  | some e =>
    let open_ := (c.fab.remotes.any fun r => r.entry = id && r.type == .read) || c.cxl.uios.any fun u => u.entry = id && u.read
    if open_ then c else setEntry { e with asked := false } c
  | none => c

def remoteOf (c : Chip) (tag : Nat) : Option Remote := c.fab.remotes.find? (·.tag = tag)
def dropRemote (tag : Nat) (c : Chip) : Chip := { c with fab := { c.fab with remotes := c.fab.remotes.filter (·.tag != tag) } }

/-- A request has its final answer: the entry waits for one less. -/
def answered (r : Remote) (c : Chip) : Chip :=
  let c := dropRemote r.tag c
  match entryOf c r.entry with
  | some e => setEntry { e with acks := e.acks.erase r.tag } c
  | none => c

/-- Status of a refused request (R466): ACCESS, UNCORRECTABLE, or ACCESS for MISROUTE. -/
def refusalStatus (ack : Nat) : Nat := if ack = 3 then 0x0B else 0x0E

/-- A refusing answer: NOT_READY waits for its resend (R466), any other ends the operation. -/
def refusedAnswer (r : Remote) (status : Nat) (c : Chip) : Chip :=
  if status = 1 then
    { c with fab := { c.fab with remotes := c.fab.remotes.map fun x => if x.tag = r.tag then { x with notReady := true } else x } }
  else
    match entryOf c r.entry with
    | some e => failAccess e (refusalStatus status) (dropRemote r.tag c)
    | none => dropRemote r.tag c

/-- ACK (R466). -/
def onAck (_ : Mgt) (p : Packet) (c : Chip) : Chip :=
  match remoteOf c p.tag.toNat with
  | none => c
  | some r =>
    let st := ofBytes (p.body.take 1)
    if st != 0 then refusedAnswer r st c
    else if r.type == .read then c
    else
      let c := answered r c
      match entryOf c r.entry with
      | some e => if r.type == .flag && dClass e.desc = 7 then finish e 0 c else c
      | none => c

/-- READ_DATA (R464). -/
def onReadData (_ : Mgt) (p : Packet) (c : Chip) : Chip :=
  match remoteOf c p.tag.toNat with
  | none => c
  | some r =>
    let st := ofBytes (p.body.take 1)
    if r.type != .read then c
    else if st != 0 then refusedAnswer r st c
    else if p.poison then refusedAnswer r 3 c
    else
      let c := answered r c
      match entryOf c r.entry with
      | some e =>
        let data := ((p.body.drop 16).take r.len).zipIdx.map fun (b, i) => (remoteKey (r.addr + i), b)
        landAhead e.id (settleAsked e.id (setEntry { e with ext := e.ext ++ data } c))
      | none => c

/-- NOT_READY_RESEND (R466). -/
def resendRequest (m : Mgt) (tag : Nat) (c : Chip) : Chip :=
  match remoteOf c tag with
  | some r =>
    if !r.notReady then c else
    let port := if (c.port r.port).state = 3 then r.port else
      if r.type == .flag then (activePorts c).headD 16 else requestPort c r.dest r.addr
    let r := { r with notReady := false, port := port }
    sendRemote m r { c with fab := { c.fab with remotes := c.fab.remotes.map fun x => if x.tag = tag then r else x } }
  | none => c

/-- A request with no final answer after 5 ms (R438, R466). -/
def requestTimeout (flag : Bool) (tag : Nat) (c : Chip) : Chip :=
  match remoteOf c tag with
  | some r =>
    if (r.type == .flag) != flag then c else
    match entryOf c r.entry with
    | some e => failAccess e 0x0F (dropRemote tag c)
    | none => dropRemote tag c
  | none => c

/-! ### Requests received (R420, R460, R463, R465) -/

def Fab.win (f : Fab) (i : Nat) : FabWin := fget ⟨0, 0, 0, 0, false, false⟩ f.wins i

/-- Whether a window lets a remote access through (R465). -/
def windowLets (c : Chip) (src addr len : Nat) (write : Bool) : Bool :=
  (List.range 16).any fun i =>
    let w := c.fab.win i
    (if write then w.writeEn else w.readEn) && decide (w.base.toNat ≤ addr) && decide (addr + len ≤ w.limit.toNat) &&
      decide (w.rankLo.toNat ≤ src) && decide (src ≤ w.rankHi.toNat)

/-- A packet for another rank is answered MISROUTE and counted (R463). -/
def misroute (m : Mgt) (p : Packet) (c : Chip) : Chip :=
  let c := raiseIf (ctrWraps c.fab.misroute 1) .fab 4 c
  let c := { c with fab := { c.fab with misroute := ctrAdd c.fab.misroute 1 } }
  answer m .ack p (ackBody 4 0) (raise .fab 3 c)

/-- Whether requests are answered NOT_READY: before Ready, after a failed start-up and during a compute reset (R460, R508). -/
def notReady (m : Mgt) : Bool := !m.ready || m.failed || m.computeReset

/-- The module-wide entry of a request to memory: NOT_READY, MISROUTE and ACCESS, then `f` (R460, R463, R465). -/
def admitRequest (m : Mgt) (write : Bool) (p : Packet) (f : Nat → Nat → Chip → Chip) (c : Chip) : Chip :=
  let addr := ofBytes (p.body.take 8)
  let len := ofBytes ((p.body.drop 8).take 4)
  if notReady m then answer m .ack p (ackBody 1 0) c
  else if !m.rankValid || p.dest ≠ m.rank then misroute m p c
  else if !windowLets c p.src.toNat addr len write || len = 0 || 4096 < len || inWindow addr || isOuter addr ||
      !accessible c addr len write then
    answer m .ack p (ackBody 2 0) c
  else if trackedIn c addr len ≠ [] then
    sendSnoops (trackedIn c addr len)
      { c with fab := { c.fab with held := c.fab.held ++ [(if write then .write else .read, p)] } }
  else f addr len c

/-- WRITE (R465): a word that arrives poisoned is delivered poisoned (R451). -/
def onWrite (m : Mgt) (p : Packet) (c : Chip) : Chip :=
  admitRequest m true p (fun addr len c =>
    let part := partWords addr len
    let c := part.foldl (fun c w => meet w 16 c) c
    match part.find? (poisonedAt c) with
    | some w => answer m .ack p (ackBody 3 0) (recordUe w c)
    | none =>
      let c := writeBytes addr ((p.body.drop 16).take len) c
      let c := (wordsIn addr len).foldl (fun c w => setPoison w p.poison c) c
      answer m .ack p (ackBody 0 0) c) c

/-- READ (R465). -/
def onRead (m : Mgt) (p : Packet) (c : Chip) : Chip :=
  admitRequest m false p (fun addr len c =>
    let c := meet addr len c
    match firstPoison c addr len with
    | some w => answer m .readData p (dataBody 3 []) (recordUe w c)
    | none => answer m .readData p (dataBody 0 (readBytes c addr len)) c) c

/-- FLAG (R420, R438, R464): inside VSP_REMOTE_WIN, each number of a source applied at most once. -/
def onFlag (m : Mgt) (p : Packet) (c : Chip) : Chip :=
  let seq := ofBytes (p.body.take 4)
  let base := ofBytes ((p.body.drop 4).take 2)
  let act := ofBytes ((p.body.drop 6).take 1)
  let mask : W64 := .ofNat 64 (ofBytes ((p.body.drop 8).take 8))
  let seen := fget [] c.fab.flagSeen p.src.toNat
  let lo := 64 * c.vsp.base64.toNat
  if notReady m then answer m .ack p (ackBody 1 seq) c
  else if !m.rankValid || p.dest ≠ m.rank then misroute m p c
  else if base % 64 ≠ 0 || (act ≠ 1 && act ≠ 2) || base < lo || lo + 64 * c.vsp.count64.toNat < base + 64 then
    answer m .ack p (ackBody 2 seq) (raise .vsp 1 c)
  else if seen.contains seq then answer m .ack p (ackBody 0 seq) c
  else
    let c := { c with fab := { c.fab with
      flagSeen := fset [] c.fab.flagSeen p.src.toNat ((seen ++ [seq]).drop (seen.length + 1 - 1024)) } }
    let c := if act = 1 then setFlags base mask (some p.src.toNat) c else clearFlags base mask c
    answer m .ack p (ackBody 0 seq) c

/-- IDENT_QUERY (R467). -/
def onIdentQuery (m : Mgt) (p : Packet) (c : Chip) : Chip :=
  if (c.port p.port.toNat).state = 3 then answer m .identReply p (identBody m c p.port.toNat) c else c

/-- SWITCH (R459): the advertisement of the port's own plane. -/
def onSwitch (_ : Mgt) (p : Packet) (c : Chip) : Chip :=
  let b (o n : Nat) : Nat := ofBytes ((p.body.drop o).take n)
  if (c.port p.port.toNat).state = 3 && b 0 1 = 0x20 && b 1 1 = 0 && b 6 1 = p.port.toNat then
    { c with clr := { c.clr with planeSlot := fset 0 c.clr.planeSlot p.port.toNat (.ofNat 32 (b 4 2 <<< 16 ||| b 2 2)) } }
  else c

/-! ### Ports (R458, R459, R461, R464, R471) -/

/-- A port leaves Active: its plane offers no slots, so that its tranches that wait to claim fall back at once, and requests not
yet answered go to other ports (R459, R464). -/
def leaveActive (m : Mgt) (port : Nat) (state : BitVec 4) (c : Chip) : Chip :=
  let was := (c.port port).state = 3
  let moved := (c.port port).waiting.filter fun w => w.1 == .flag
  let c := onPort port (fun x => { x with
    state := state
    waiting := if was then x.waiting.filter fun w => vcOf w.1 != 0 else x.waiting }) c
  if !was then c else
  let c := { c with clr := { c.clr with planeSlot := fset 0 c.clr.planeSlot port 0 } }
  let c := moved.foldl (fun c (t, p) =>
    let q := (activePorts c).headD port
    sendPacket m q t { p with port := .ofNat 4 q } c) c
  let again := c.fab.remotes.filter fun r => r.port = port && (r.type == .write || r.type == .read)
  let c := again.foldl (fun c r =>
    let r := { r with port := requestPort c r.dest r.addr }
    let c := { c with fab := { c.fab with remotes := c.fab.remotes.map fun x => if x.tag = r.tag then r else x } }
    if r.notReady then c else sendRemote m r c) c
  c.clr.colls.foldl (fun c k => k.tranches.foldl (fun c t =>
    if t.phase = .backoff && t.plane = port then claimRetry m k.name t.tid c else c) c) c

/-- A port goes Down with its event; `journalIt` also queues a fault record. -/
def portDown (m : Mgt) (port : Nat) (journalIt : Bool) (c : Chip) : Chip :=
  let c := leaveActive m port 0 c
  let c := onPort port (fun x => { x with retrain := false }) c
  let c := raise .fab 2 c
  if journalIt then journal m (port / 8) 0x0A (toBytes 8 2 ++ toBytes 8 port) c else c

/-- The lane map with logical lane `l` on lane 8. -/
def mapSpare (map : W32) (l : Nat) : W32 := putField map (4 * l) 4 8

/-- Physical lane of a logical lane. -/
def physLane (x : Port) (l : Nat) : Nat := bitsOf x.laneMap.toNat (4 * l) 4

/-- A lane's retirement record (R547). -/
def retireLane (m : Mgt) (port lane reason : Nat) (c : Chip) : Chip :=
  journal m (port / 8) 3 (toBytes 1 port ++ toBytes 1 lane ++ toBytes 1 reason)
    (onPort port (fun x => { x with retired := putBit x.retired lane true }) c)

/-- Both ends carry a logical lane on lane 8 (R461 steps 2 to 4). -/
def doSwap (m : Mgt) (port l : Nat) (c : Chip) : Chip :=
  let x := c.port port
  let old := physLane x l
  let c := c.setPort port { x with laneMap := mapSpare x.laneMap l, spareUsed := true, swapping := none }
  raise .fab 1 (retireLane m port old 1 c)

/-- Whether the spare of a port stands by (R448, R461, R470). -/
def spareReady (x : Port) : Bool := x.state = 3 && !x.lane112 && !x.spareUsed && !x.spareBad && x.swapping.isNone

/-- LANE_FAILING (R461): asks the partner for the swap, or takes the port Down when the spare is in service. -/
def laneFailing (m : Mgt) (port l : Nat) (c : Chip) : Chip :=
  let x := c.port port
  if x.state ≠ 3 then c
  else if x.spareUsed || (x.swapping.isSome && x.swapping ≠ some l) then portDown m port false c
  else if c.fab.swapEn && spareReady x then
    emit (.control port false true false x.rxSeq.toNat l) (c.setPort port { x with swapping := some l })
  else c

/-- RETRAIN (R471). -/
def retrain (m : Mgt) (port : Nat) (c : Chip) : Chip :=
  if (c.port port).state = 3 then onPort port (fun x => { x with retrain := true }) (leaveActive m port 4 c) else c

/-- RETRAIN_DRAIN_END (R471). -/
def drainEnd (port : Nat) (c : Chip) : Chip := if (c.port port).state = 4 then onPort port (fun x => { x with state := 1 }) c else c

/-- A port's qualification (R447, R470, R514, R515): lanes not passed, or held bad, fail; one failing lane moves to lane 8. -/
def qualifyPort (m : Mgt) (port : Nat) (passed : BitVec 9) (enene : Bool) (c : Chip) : Chip :=
  let x := c.port port
  let enene := enene || x.rate
  let fails := (List.range 9).filter fun l => !passed.getLsbD l || x.retired.getLsbD l || c.til.almanac.laneBad.getLsbD (9 * port + l)
  let fresh := fails.filter fun l => passed.getLsbD l = false && !x.retired.getLsbD l && !c.til.almanac.laneBad.getLsbD (9 * port + l)
  let c := fresh.foldl (fun c l => retireLane m port l 0 c) c
  let low := fails.filter (· < 8)
  let down := if enene then low ≠ [] else 1 < fails.length
  if down then portDown m port true c
  else
    let map := match low with
      | l :: _ => mapSpare 0x76543210 l
      | [] => 0x76543210
    let c := onPort port (fun x => { x with
      state := 3, retrain := false, lane112 := enene, laneMap := map, spareUsed := low ≠ [], spareBad := fails.contains 8 }) c
    let c := raise .fab 0 c
    drainPort m port (if m.ready then sendIdent m port c else c)

/-- PORT_ACTIVE (R471, R515). -/
def portActive (m : Mgt) (port : Nat) (passed : BitVec 9) (enene : Bool) (c : Chip) : Chip :=
  let s := (c.port port).state
  if s = 1 || s = 2 then qualifyPort m port passed enene c else c

/-! ### Frames (R449 to R457) -/

/-- A slot header as a number of 96 bits. -/
def slotHeader (f : List Byte) (i : Nat) : Nat := ofBytes ((f.drop (24 + 12 * i)).take 12)
def slotPayload (f : List Byte) (i : Nat) : List Byte := (f.drop (252 + 256 * i)).take 256

/-- Packet type of a header; none for a reserved one. A COLL's message code is the first byte of its body. -/
def typeOf (code : Nat) (body : List Byte) : Option PktType :=
  match code with
  | 0 => some .write | 1 => some .read | 2 => some .readData | 3 => some .ack | 4 => some .flag
  | 5 => some (.coll (ofBytes (body.take 1))) | 6 => some .identQuery | 7 => some .identReply | 8 => some .switch | _ => none

/-- The message of a COLL packet (R454). -/
def collOfPacket (p : Packet) : CollMsg :=
  let b (o n : Nat) : Nat := ofBytes ((p.body.drop o).take n)
  ⟨p.port, b 1 1, (b 2 1).testBit 0, b 3 1, .ofNat 32 (b 4 4), b 8 2, b 10 2, b 12 4 % 2 ^ 24, b 16 4, b 20 4, p.body.drop 32⟩

/-- A COLL packet: joined to what has come before it, and acted on when the message is whole. -/
def onColl (m : Mgt) (msg : Nat) (p : Packet) (c : Chip) : Chip :=
  let x := collOfPacket p
  let port := p.port.toNat
  let off := ofBytes ((p.body.drop 24).take 4)
  let last := (ofBytes ((p.body.drop 2).take 1)).testBit 1
  let x := match (c.port port).rxColl with
    | some y => if off = 0 then x else { x with data := y.data ++ x.data }
    | none => x
  if last || x.total ≤ x.data.length then collArrive m msg x (onPort port (fun q => { q with rxColl := none }) c)
  else onPort port (fun q => { q with rxColl := some x }) c

/-- Acts on a packet received on an Active port. -/
def onPacket (m : Mgt) (t : PktType) (p : Packet) (c : Chip) : Chip :=
  match t with
  | .write => onWrite m p c
  | .read => onRead m p c
  | .readData => onReadData m p c
  | .ack => onAck m p c
  | .flag => onFlag m p c
  | .coll msg => onColl m msg p c
  | .identQuery => onIdentQuery m p c
  | .identReply => c
  | .switch => onSwitch m p c

/-- One slot of a received frame: joins its packet, and acts on the packet at its last slot. -/
def onSlot (m : Mgt) (port : Nat) (f : List Byte) (c : Chip) (i : Nat) : Chip :=
  let h := slotHeader f i
  if h = 0 then c else
  let b (lo w : Nat) : Nat := bitsOf h lo w
  let data := (slotPayload f i).take (4 * (b 44 6 + 1))
  let vc := b 50 2
  let x := c.port port
  let wrap := ctrWraps x.rxBytes data.length
  let c := raiseIf wrap .fab 4 (c.setPort port { x with
    rxBytes := ctrAdd x.rxBytes data.length
    returned := fset 0 x.returned vc ((fget 0 x.returned vc + 1) % 65536) })
  let start : Option (PktType × Packet) :=
    if bitOf h 43 then
      (typeOf (b 52 4) data).map fun t =>
        (t, ⟨.ofNat 4 port, .ofNat 20 (b 76 20), .ofNat 20 (b 56 20), .ofNat 16 (b 0 16), bitOf h 41, data⟩)
    else (c.port port).rxPart.map fun (t, p) => (t, { p with body := p.body ++ data, poison := p.poison || bitOf h 41 })
  match start with
  | none => c
  | some (t, p) =>
    if bitOf h 42 then onPacket m t p (onPort port (fun q => { q with rxPart := none }) c)
    else onPort port (fun q => { q with rxPart := some (t, p) }) c

/-- Adds a frame's eight codewords to a port's counters, its uncorrectable ones, and its corrected symbols lane by lane (R473). -/
def countCodewords (port : Nat) (fec : Fec) (c : Chip) : Chip :=
  let x := c.port port
  let err (l : Nat) : W64 := fget 0 x.laneErr l
  let sum := fec.corrected.foldl (· + ·) 0
  raiseIf (ctrWraps x.cw 8 || ctrWraps x.uncorr fec.uncorrectable || ctrWraps x.corr sum ||
      fec.corrected.zipIdx.any fun (k, l) => ctrWraps (err l) k) .fab 4
    (c.setPort port { x with
      cw := ctrAdd x.cw 8
      uncorr := ctrAdd x.uncorr fec.uncorrectable
      corr := ctrAdd x.corr sum
      laneErr := fec.corrected.zipIdx.foldl (fun m (k, l) => fset 0 m l (ctrAdd (err l) k)) x.laneErr })

/-- The transmitter resends every frame after the acknowledged one; a frame resent 8 times takes the port Down (R456). -/
def replayFrames (m : Mgt) (port : Nat) (c : Chip) : Chip :=
  let x := c.port port
  if x.replay.any fun r => 8 ≤ r.resends then portDown m port false c
  else
    let n := x.replay.length
    let most := (x.replay.map (·.resends + 1)).foldl max x.replaysMax.toNat
    let c := raiseIf (ctrWraps x.replays n) .fab 4 (c.setPort port { x with
      replay := x.replay.map fun r => { r with resends := r.resends + 1 }
      replays := ctrAdd x.replays n
      replaysMax := .ofNat 8 most })
    x.replay.foldl (fun c r => emit (.resend port r.seq) c) c

/-- The partner's acknowledgement and credits (R455, R457). -/
def linkControl (m : Mgt) (port : Nat) (f : List Byte) (c : Chip) : Chip :=
  let x := c.port port
  let b (o n : Nat) : Nat := ofBytes ((f.drop o).take n)
  let ack := b 2 2
  let after (s : Nat) : Bool := let d := (s + 65536 - ack) % 65536; decide (1 ≤ d) && decide (d < 32768)
  let credit := (List.range 4).foldl (fun cr vc =>
    fset 256 cr vc (fget 256 cr vc + (b (8 + 2 * vc) 2 + 65536 - fget 0 x.credRx vc) % 65536)) x.credit
  let credRx := (List.range 4).foldl (fun cr vc => fset 0 cr vc (b (8 + 2 * vc) 2)) x.credRx
  let c := c.setPort port { x with
    acked := .ofNat 16 ack
    replay := x.replay.filter fun r => after r.seq
    credit := credit
    credRx := credRx }
  let flags := b 4 1
  let lane := b 5 1 % 8
  let c := if bitOf flags 0 then replayFrames m port c else c
  let x := c.port port
  let c := if bitOf flags 1 && spareReady { x with swapping := none } then
      emit (.control port false false true x.rxSeq.toNat lane) (doSwap m port lane c)
    else c
  let c := if bitOf flags 2 && (c.port port).swapping.isSome then doSwap m port ((c.port port).swapping.getD 0) c else c
  if bitOf flags 3 then retrain m port c else c

/-- FRAME_RECEIVE (R451, R456): a good frame in order is acted on once and acknowledged, any other answered with nak. -/
def frameReceive (m : Mgt) (port : Nat) (fec : Fec) (f : List Byte) (c : Chip) : Chip :=
  let st := (c.port port).state
  if st ≠ 3 && st ≠ 4 then c else
  let c := countCodewords port fec c
  let x := c.port port
  let seq := ofBytes (f.take 2)
  let crc := ofBytes ((f.drop 5132).take 8) = (crc64 (f.take 5132)).toNat
  if fec.uncorrectable ≠ 0 || !crc || seq ≠ (x.rxSeq + 1).toNat then
    emit (.control port true false false x.rxSeq.toNat 0) c
  else
    let c := linkControl m port f (c.setPort port { x with rxSeq := .ofNat 16 seq })
    let c := (List.range 19).foldl (onSlot m port f) c
    drainPort m port (emit (.control port false false false seq 0) c)

/-! ### Commands -/

/-- FRAME_RECEIVE (R456). -/
def execFrameReceive (port : BitVec 4) (fec : Fec) (frame : List Byte) (s : State) : Host.Outcome State Fault Refusal :=
  onChip (fun m c => frameReceive m port.toNat fec frame c) s
/-- LANE_FAILING (R461). -/
def execLaneFailing (port : BitVec 4) (logical : BitVec 3) (s : State) : Host.Outcome State Fault Refusal :=
  onChip (fun m c => laneFailing m port.toNat logical.toNat c) s
/-- WRITE (R465). -/
def execWrite (pkt : Packet) (s : State) : Host.Outcome State Fault Refusal := onChip (fun m c => onWrite m pkt c) s
/-- READ (R465). -/
def execRead (pkt : Packet) (s : State) : Host.Outcome State Fault Refusal := onChip (fun m c => onRead m pkt c) s
/-- READ_DATA (R464). -/
def execReadData (pkt : Packet) (s : State) : Host.Outcome State Fault Refusal := onChip (fun m c => onReadData m pkt c) s
/-- ACK (R466). -/
def execAck (pkt : Packet) (s : State) : Host.Outcome State Fault Refusal := onChip (fun m c => onAck m pkt c) s
/-- FLAG (R420). -/
def execFlag (pkt : Packet) (s : State) : Host.Outcome State Fault Refusal := onChip (fun m c => onFlag m pkt c) s
/-- IDENT_QUERY (R467). -/
def execIdentQuery (pkt : Packet) (s : State) : Host.Outcome State Fault Refusal := onChip (fun m c => onIdentQuery m pkt c) s
/-- SWITCH (R459). -/
def execSwitch (pkt : Packet) (s : State) : Host.Outcome State Fault Refusal := onChip (fun m c => onSwitch m pkt c) s
/-- NOT_READY_RESEND (R466). -/
def execNotReadyResend (tag : Nat) (s : State) : Host.Outcome State Fault Refusal := onChip (fun m c => resendRequest m tag c) s
/-- REMOTE_REQUEST_TIMEOUT (R466, R245). -/
def execRemoteRequestTimeout (tag : Nat) (s : State) : Host.Outcome State Fault Refusal :=
  onChip (fun _ c => requestTimeout false tag c) s
/-- REMOTE_FLAG_TIMEOUT (R438). -/
def execRemoteFlagTimeout (tag : Nat) (s : State) : Host.Outcome State Fault Refusal :=
  onChip (fun _ c => requestTimeout true tag c) s
/-- RETRAIN (R471). -/
def execRetrain (port : BitVec 4) (s : State) : Host.Outcome State Fault Refusal :=
  onChip (fun m c => whenReady m (retrain m port.toNat) c) s
/-- RETRAIN_DRAIN_END (R471). -/
def execRetrainDrainEnd (port : BitVec 4) (s : State) : Host.Outcome State Fault Refusal := onChip (fun _ c => drainEnd port.toNat c) s
/-- PORT_ACTIVE (R515). -/
def execPortActive (port : BitVec 4) (passed : BitVec 9) (enene : Bool) (s : State) : Host.Outcome State Fault Refusal :=
  onChip (fun m c => portActive m port.toNat passed enene c) s

end Sys2Proof.Machine
end

