-- ==== Sys2Proof/Machine/Crypto.lean ====
section
/-! DEFINITION. SHA-256 and HMAC-SHA-256, which R571 names by their standards FIPS 180-4 and FIPS 198-1 (PRESUMED: the
standards' own text; log entry 4). The standard's constants are computed from their definition: the first 32 bits of the
fractional parts of roots of the first primes. -/

namespace Sys2Proof.Machine

/-- Big-endian bytes of a number. -/
def beBytes (n x : Nat) : List Byte := (toBytes n x).reverse

/-- The largest number whose power `k` is at most `x`, found bit by bit from `below`'s highest bit. -/
def rootBelow (k x : Nat) : Nat → Nat → Nat
  | 0, r => r
  | i + 1, r => rootBelow k x i (if (r + 2 ^ i) ^ k ≤ x then r + 2 ^ i else r)

/-- The first 32 bits of the fractional part of the root of order `k` of `p`. -/
def rootFraction (k p : Nat) : W32 := .ofNat 32 (rootBelow k (p * 2 ^ (32 * k)) 37 0)

/-- The first `n` primes above those in `ps`, newest first: `fuel` candidates from `m` are tried. -/
def primesUpTo : Nat → Nat → List Nat → List Nat
  | 0, _, ps => ps
  | fuel + 1, m, ps => primesUpTo fuel (m + 1) (if ps.any fun p => m % p = 0 then ps else m :: ps)

/-- The 64 primes below 312. -/
def shaPrimes : List Nat := (primesUpTo 310 2 []).reverse

/-- A digest in progress, as eight words: `a` first and `h` last. -/
abbrev Digest := List W32

/-- The digest of no block. -/
def digestStart : Digest := (shaPrimes.take 8).map (rootFraction 2)

/-- Exclusive or of three rotations of a word to the right. -/
def mix3 (x : W32) (i j k : Nat) : W32 := x.rotateRight i ^^^ (x.rotateRight j ^^^ x.rotateRight k)

/-- Two rotations and a shift, combined for the message schedule. -/
def mixShift (x : W32) (i j k : Nat) : W32 := x.rotateRight i ^^^ (x.rotateRight j ^^^ x >>> k)

/-- The schedule word after the 16 words of a window, oldest first. -/
def scheduleWord (win : List W32) : W32 :=
  let at' (i : Nat) : W32 := win.getD i 0
  at' 0 + mixShift (at' 1) 7 18 3 + (at' 9 + mixShift (at' 14) 17 19 10)

/-- One round on the digest with a round constant and the oldest word of the window. -/
def digestRound (v : Digest) (k w : W32) : Digest :=
  let at' (i : Nat) : W32 := v.getD i 0
  let pick := at' 6 ^^^ (at' 4 &&& (at' 5 ^^^ at' 6))
  let vote := (at' 0 &&& at' 1) ||| (at' 2 &&& (at' 0 ||| at' 1))
  let add := at' 7 + (mix3 (at' 4) 6 11 25 + pick) + (k + w)
  let v' := (add + mix3 (at' 0) 2 13 22 + vote) :: v.take 7
  v'.set 4 (at' 3 + add)

/-- The rounds of one block, a constant each; the window slides by one word a round. -/
def digestRounds (v : Digest) : List W32 → List W32 → Digest
  | [], _ => v
  | k :: ks, win => digestRounds (digestRound v k (win.getD 0 0)) ks (win.drop 1 ++ [scheduleWord win])

/-- The 16 big-endian words of a block. -/
def blockWords (block : List Byte) : List W32 :=
  (List.range 16).map fun i => .ofNat 32 (ofBytes ((block.drop (4 * i)).take 4).reverse)

/-- Takes `n` blocks in order into the digest. -/
def digestBlocks (ks : List W32) : Nat → Digest → List Byte → Digest
  | 0, v, _ => v
  | n + 1, v, m => digestBlocks ks n (v.zipWith (· + ·) (digestRounds v ks (blockWords (m.take 64)))) (m.drop 64)

/-- The message padded to whole blocks: a one bit, zero bits, and the message's length in bits. -/
def shaPad (m : List Byte) : List Byte :=
  m ++ 0x80 :: List.replicate ((119 - m.length % 64) % 64) 0 ++ beBytes 8 (8 * m.length)

/-- SHA-256. -/
def sha256 (m : List Byte) : List Byte :=
  let p := shaPad m
  (digestBlocks (shaPrimes.map (rootFraction 3)) (p.length / 64) digestStart p).flatMap fun x => beBytes 4 x.toNat

/-- HMAC-SHA-256 with a key of at most 64 bytes. -/
def hmac256 (key m : List Byte) : List Byte :=
  let k := (key ++ List.replicate 64 0).take 64
  sha256 (k.map (· ^^^ 0x5c) ++ sha256 (k.map (· ^^^ 0x36) ++ m))

end Sys2Proof.Machine
end

