-- ==== Sys2Proof/Machine/Daybook.lean ====
section
/-! DEFINITION. The Daybook: flash rings, records, appending, consolidation, the power-cut flush, recovery and reads
(R540 to R570). -/

namespace Sys2Proof.Machine

/-! ### Flash (R540 to R543) -/

def flashBytes (c : Chip) (a n : Nat) : List Byte := (List.range n).map fun i => fget 0xFF c.flash (a + i)
def flashNat (c : Chip) (a n : Nat) : Nat := ofBytes (flashBytes c a n)
def flashWrite (a : Nat) (b : List Byte) (c : Chip) : Chip := { c with flash := fsetList 0xFF c.flash a b }
def flashErase (a n : Nat) (c : Chip) : Chip := { c with flash := fclear c.flash a (a + n) }

/-- Flash address of slot `k` of a sector, in ring A or B. -/
def slotAt (ring : Bool) (s k : Nat) : Nat := (if ring then 0x5C00000 else 0x3C00000) + 65536 * s + 128 * k

/-- Whether a sector is wholly erased. -/
def sectorBlank (c : Chip) (ring : Bool) (s : Nat) : Bool :=
  !(c.flash.any fun x => decide (slotAt ring s 0 ≤ x.1) && decide (x.1 < slotAt ring s 512))

def bothBlank (c : Chip) (s : Nat) : Bool := sectorBlank c false s && sectorBlank c true s

/-- The seal of a slot: CRC-32C of its first 124 bytes (R543, R546). -/
def slotSealed (b : List Byte) : Bool := decide (ofBytes (b.drop 124) = (crc32c (b.take 124)).toNat)

/-- A valid sector header: first_seq, cons_seq and erase_count. -/
def header? (c : Chip) (ring : Bool) (s : Nat) : Option (Nat × Nat × Nat) :=
  let a := slotAt ring s 0
  if flashNat c a 4 != 0x20 + 256 * b2n ring + 65536 * s then none
  else
    let b := flashBytes c a 128
    if slotSealed b then some (ofBytes ((b.drop 8).take 8), ofBytes ((b.drop 16).take 8), ofBytes ((b.drop 4).take 4)) else none

def headerBytes (ring : Bool) (s erases first cons : Nat) : List Byte :=
  let b := toBytes 1 0x20 ++ toBytes 1 (b2n ring) ++ toBytes 2 s ++ toBytes 4 erases ++ toBytes 8 first ++ toBytes 8 cons ++
    List.replicate 100 0
  b ++ toBytes 4 (crc32c b).toNat

/-! ### Sectors (R542, R545, R560, R562) -/

/-- Key of an erase count. -/
def eraseKey (ring : Bool) (s : Nat) : Nat := 2 * s + b2n ring

/-- DBK_ERASE_MAX of the erase counts. -/
def eraseMaxOf (m : FMap Nat) : W32 :=
  let (k, n) := m.foldl (fun (b : Nat × Nat) x => if b.2 < x.2 then x else b) (0, 0)
  .ofNat 32 (k / 2 * 2 ^ 18 + k % 2 * 2 ^ 17 + min n 0x1FFFF)

/-- Records one more erase of a sector; the warning comes at the configured count. -/
def countErase (ring : Bool) (s : Nat) (c : Chip) : Chip :=
  let n := fget 0 c.dbk.eraseCnt (eraseKey ring s) + 1
  let e := fset 0 c.dbk.eraseCnt (eraseKey ring s) n
  let k := c.dbk.wearWarnK.toNat
  raiseIf (decide (k ≠ 0) && decide (1000 * k ≤ n)) .dbk 4 { c with dbk := { c.dbk with eraseCnt := e, eraseMax := eraseMaxOf e } }

/-- DBK_SEQ_TAIL: the lowest first_seq of a valid header. -/
def seqTailOf (c : Chip) : Option Nat :=
  ((List.range 512).flatMap fun s => [header? c false s, header? c true s]).foldl (fun r h =>
    match h with
    | none => r
    | some x => some (match r with
      | none => x.1
      | some v => min v x.1)) none

def setTail (c : Chip) : Chip := { c with dbk := { c.dbk with seqTail := .ofNat 64 ((seqTailOf c).getD c.dbk.seqTail.toNat) } }

/-- Whether the Daybook takes records at all (R559, R569). -/
def dbkRuns (c : Chip) : Bool := c.dbk.mode = 1 || c.dbk.mode = 3

/-- The head's header is written, ring A first, once the sector is erased in both rings. -/
def openHead (c : Chip) : Chip :=
  let k := c.dbk
  if k.nextSlot != 0 || !bothBlank c k.head then c else
  let put (ring : Bool) (c : Chip) : Chip :=
    flashWrite (slotAt ring k.head 0) (headerBytes ring k.head (fget 0 k.eraseCnt (eraseKey ring k.head)) k.firstSeq k.consSeq) c
  let c := put true (put false c)
  { c with dbk := { c.dbk with nextSlot := 1 } }

/-- Erases not yet asked for, ring A before ring B. -/
def askErase (s : Nat) (c : Chip) : Chip :=
  if c.dbk.erases.any (·.sector = s) then c
  else { c with dbk := { c.dbk with erases := c.dbk.erases ++ [⟨false, s, false⟩, ⟨true, s, false⟩] } }

def askEraseUnless (s : Nat) (c : Chip) : Chip := if bothBlank c s then c else askErase s c

/-- The next sector becomes the head. -/
def moveHeadOn (c : Chip) : Chip :=
  openHead { c with dbk := { c.dbk with head := (c.dbk.head + 1) % 512, firstSeq := c.dbk.firstSeq + 511, nextSlot := 0 } }

/-- The head moves when it is full and the sector after the next one is erased; the move starts the next erase. -/
def advanceHead (c : Chip) : Chip :=
  let k := c.dbk
  let free (i : Nat) : Bool := bothBlank c ((k.head + i) % 512) && !(k.erases.any (·.sector = (k.head + i) % 512))
  if k.nextSlot = 512 && free 1 && free 2 then
    let c := moveHeadOn c
    askErase ((c.dbk.head + 2) % 512) c
  else c

/-- SECTOR_ERASE_DONE (R545): the oldest erase ends. -/
def eraseDone (c : Chip) : Chip :=
  match c.dbk.erases with
  | [] => c
  | e :: rest =>
    if e.suspended then c else
    let c := flashErase (slotAt e.ring e.sector 0) 65536 { c with dbk := { c.dbk with erases := rest } }
    let c := setTail (countErase e.ring e.sector c)
    let c := if c.dbk.flushed && bothBlank c ((c.dbk.head + 1) % 512) then { c with dbk := { c.dbk with flushed := false } } else c
    advanceHead (openHead c)

/-! ### Records (R546 to R548) -/

def recordBytes (seq : Nat) (r : Rec) : List Byte :=
  let b := toBytes 8 seq ++ toBytes 1 0x20 ++ toBytes 1 r.type ++ toBytes 1 (b2n r.restated + 2 * b2n (recKeep r.type)) ++ toBytes 1 0 ++
    toBytes 6 r.stamp.toNat ++ toBytes 1 (b2n r.die) ++ toBytes 1 0 ++ toBytes 8 r.step.toNat ++ payload64 r.payload
  let b := b ++ hmac256 Config.daybookKey b
  b ++ toBytes 4 (crc32c b).toNat

/-- The live state after a state record (R547, R548). -/
def setKey (keys : List (Nat × Nat × List Byte)) (type : Nat) (p : List Byte) : List (Nat × Nat × List Byte) :=
  match recKey type p with
  | none => keys
  | some key =>
    let rest := keys.filter fun x => !(x.1 = type && x.2.1 = key)
    if type = 4 && (p.getD 8 0).toNat = 2 then rest
    else insertBy (fun x => x.1 * 2 ^ 48 + x.2.1) (type, key, p) rest

def stepOf (p : List Byte) : W64 := .ofNat 64 (ofBytes (p.take 8))

/-- Programs a record into the next slot of both rings (R542, R544, R550). -/
def putRecord (r : Rec) (c : Chip) : Chip :=
  let k := c.dbk
  let seq := k.firstSeq + k.nextSlot - 1
  let b := recordBytes seq r
  let c := flashWrite (slotAt true k.head k.nextSlot) b (flashWrite (slotAt false k.head k.nextSlot) b c)
  let c := raiseIf (ctrWraps k.records 1) .dbk 6 c
  { c with dbk := { c.dbk with
    nextSlot := k.nextSlot + 1
    seqHead := .ofNat 64 seq
    records := ctrAdd k.records 1
    keys := setKey k.keys r.type (payload64 r.payload)
    lastStep := if r.type = 7 then stepOf r.payload else k.lastStep } }

/-- Candidates of a quadrant: its physical tiles that are not excluded (R522). -/
def quadTiles (q : Nat) : List Nat := (List.range 14).map fun r => 56 * (q / 4) + q % 4 + 4 * r
def candidates (c : Chip) (q : Nat) : List Nat := (quadTiles q).filter fun p => (c.tile p).role.toNat ≠ 2

/-- The payload of the START record; a value that the module has not determined yet is free. -/
def startPayload (d : Dev) : List Byte × Dev :=
  let known := decide (4 ≤ d.mgt.stage.toNat)
  let (x, c) := if known then (0, d.chip) else drawFree d.chip
  let (y, c) := if d.mgt.ready then (0, c) else drawFree c
  let boot := if known then b2n d.str.bootB else x % 2
  let bv := if known then d.str.bootVersion.toNat else bitsOf x 1 32
  let cv := if known then d.str.cfgVersion.toNat else bitsOf x 33 32
  let cand := if d.mgt.ready then (List.range 8).map fun q => (candidates c q).length else (List.range 8).map fun q => bitsOf y (8 * q) 8
  (toBytes 1 boot ++ toBytes 3 0 ++ toBytes 4 bv ++ toBytes 4 cv ++ cand.flatMap (toBytes 1) ++ toBytes 1 d.chip.dbk.prevStage.toNat,
    { d with chip := c })

/-- A record as it is programmed: START takes its payload now. -/
def fillRecord (r : Rec) (d : Dev) : Rec × Dev :=
  if r.type = 1 then
    let (p, d) := startPayload d
    ({ r with payload := p }, d)
  else (r, d)

/-! ### Appending (R549, R550, R566) -/

/-- The record that goes next: of the consolidation that runs, else of the queue. -/
def nextRecord (c : Chip) : Option (Rec × Chip) :=
  match c.dbk.consol with
  | some x =>
    match x.left with
    | [] => none
    | r :: l =>
      let r := if r.type = 0x0D then { r with payload := toBytes 8 x.beginSeq ++ toBytes 4 x.count } else r
      let seq := c.dbk.firstSeq + c.dbk.nextSlot - 1
      let x := if r.type = 0x0C then { x with left := l, beginSeq := seq, sector := c.dbk.head } else { x with left := l }
      if r.type = 0x0D then
        some (r, { c with dbk := { c.dbk with consol := none, consSeq := x.beginSeq, consSector := x.sector } })
      else some (r, { c with dbk := { c.dbk with consol := some x } })
  | none =>
    match c.dbk.queue with
    | [] => none
    | r :: l => some (r, { c with dbk := { c.dbk with queue := l } })

/-- RECORD_WRITE: one record, for one token; it needs the Strongroom's key. -/
def recordWrite (d : Dev) : Dev :=
  let c := d.chip
  if !(d.mgt.powered && d.str.keysHeld && dbkRuns c && !c.dbk.flushed) then d else
  match nextRecord c with
  | none => d
  | some (r, c') =>
    if c.dbk.tokens = 0 then { d with chip := raise .dbk 3 c }
    else if c.dbk.nextSlot = 0 || 512 ≤ c.dbk.nextSlot then d
    else
      let (r, d) := fillRecord r { d with chip := c' }
      d.mapChip fun c =>
        let c := advanceHead (putRecord r c)
        let c := { c with dbk := { c.dbk with tokens := c.dbk.tokens - 1 } }
        raiseIf (c.dbk.tokens = 0) .dbk 3 c

/-- Several records in turn. -/
def recordWrites : Nat → Dev → Dev
  | 0, d => d
  | n + 1, d => recordWrites n (recordWrite d)

/-- A record of a long stage, which the engine makes room for by writing as the stage goes on (log entry 30). -/
def journalLong (die type : Nat) (p : List Byte) (d : Dev) : Dev :=
  let d := if 191 ≤ d.chip.dbk.queue.length then recordWrites 64 d else d
  d.mapChip (journal d.mgt die type p)

/-- A fault record (R547): source, cause and detail. -/
def faultRec (m : Mgt) (die source cause detail : Nat) (c : Chip) : Chip :=
  journal m die 0x0A (toBytes 1 source ++ toBytes 1 cause ++ toBytes 6 0 ++ toBytes 8 detail) c

/-- TOKEN_REFILL (R566). -/
def tokenRefill (c : Chip) : Chip := { c with dbk := { c.dbk with tokens := min 8192 (c.dbk.tokens + 1) } }

/-! ### Consolidation (R553, R554) -/

def startConsol (m : Mgt) (c : Chip) : Chip :=
  if !dbkRuns c || c.dbk.flushed || c.dbk.consol.isSome then c else
  let mk (type : Nat) (restated : Bool) (p : List Byte) : Rec := ⟨type, restated, .ofNat 48 m.counter0.toNat, false, c.run.step, p⟩
  let n := c.dbk.keys.length
  let l := [mk 0x0C false (toBytes 4 n)] ++ c.dbk.keys.map (fun x => mk x.1 true x.2.2) ++ [mk 0x0D false []]
  { c with dbk := { c.dbk with consol := some ⟨0, 0, l, n⟩, consTick := m.aoCounter } }

/-- CONSOLIDATION_START: 128 sectors back, or 2^46 ticks since the last one began. -/
def consolDue (m : Mgt) (c : Chip) : Bool :=
  decide (128 ≤ (c.dbk.head + 512 - c.dbk.consSector) % 512) || decide (2 ^ 46 ≤ (m.aoCounter - c.dbk.consTick).toNat)

/-! ### Power cuts (R555, R556) -/

/-- A slot for the flush: the head's next one, or the first of the next sector where that is erased. -/
def flushRoom (c : Chip) : Option Chip :=
  if c.dbk.nextSlot = 0 then none
  else if c.dbk.nextSlot < 512 then some c
  else if bothBlank c ((c.dbk.head + 1) % 512) then some (moveHeadOn c) else none

/-- Writes the records that find a slot; what finds none comes back. -/
def flushWrite : List Rec → Dev → List Rec × Dev
  | [], d => ([], d)
  | r :: l, d =>
    match flushRoom d.chip with
    | none => (r :: l, d)
    | some c =>
      let (r, d) := fillRecord r { d with chip := c }
      flushWrite l (d.mapChip (putRecord r))

/-- POWER_CUT_FLUSH. -/
def flush (d : Dev) : Dev :=
  if d.chip.dbk.flushed then d else
  let k := d.chip.dbk
  let d := d.mapChip fun c => { c with dbk := { k with
    erases := k.erases.map fun e => { e with suspended := true }
    consol := none, queue := [], flushed := true } }
  if !dbkRuns d.chip || !d.str.keysHeld then d else
  let order := k.queue.filter (fun r => recKeep r.type) ++ k.queue.filter (fun r => !recKeep r.type)
  let (left, d) := flushWrite (order.take 15) d
  let dropped := left ++ order.drop 15
  let map := dropped.foldl (fun b r => b ||| 2 ^ r.type) 0
  let last : Rec := ⟨0x0B, false, .ofNat 48 d.mgt.counter0.toNat, false, d.chip.run.step, toBytes 2 dropped.length ++ toBytes 2 map⟩
  (flushWrite [last] d).2

/-- The input is back (R556). -/
def unflush (c : Chip) : Chip :=
  let c := { c with dbk := { c.dbk with erases := c.dbk.erases.map fun e => { e with suspended := false } } }
  if bothBlank c ((c.dbk.head + 1) % 512) then { c with dbk := { c.dbk with flushed := false } } else c

/-! ### Recovery (R557 to R561) -/

/-- A record as read back. -/
structure ReadRec where
  seq : Nat
  type : Nat
  restated : Bool
  macOk : Bool
  payload : List Byte
  deriving DecidableEq, Repr

def macHolds (b : List Byte) : Bool := decide ((b.drop 92).take 32 = hmac256 Config.daybookKey (b.take 92))

def readRec (b : List Byte) : ReadRec :=
  ⟨ofBytes (b.take 8), (b.getD 9 0).toNat, (b.getD 10 0).toNat % 2 = 1, macHolds b, (b.drop 28).take 64⟩

/-- The bytes of a slot: ring A's where its seal holds, else ring B's. -/
def slotBytes (c : Chip) (s k : Nat) : Option (List Byte) :=
  let a := flashBytes c (slotAt false s k) 128
  if slotSealed a then some a
  else
    let b := flashBytes c (slotAt true s k) 128
    if slotSealed b then some b else none

/-- Slots of a sector from `k`, until one fails in both rings. -/
def readSector (c : Chip) (s : Nat) : Nat → Nat → List ReadRec
  | 0, _ => []
  | n + 1, k =>
    match slotBytes c s k with
    | some b => readRec b :: readSector c s n (k + 1)
    | none => []

/-- Erase counts as the headers give them (R560). -/
def eraseCounts (c : Chip) : FMap Nat :=
  let top (ring : Bool) : Nat := (List.range 512).foldl (fun m s => max m (((header? c ring s).map (·.2.2)).getD 0)) 0
  let tops := (top false, top true)
  (List.range 512).foldl (fun m s =>
    let a := header? c false s
    let b := header? c true s
    let na := match a, b with
      | some x, _ => x.2.2
      | none, some y => y.2.2 + 1
      | none, none => tops.1 + 1
    let nb := match b, a with
      | some y, _ => y.2.2
      | none, some x => x.2.2 + 1
      | none, none => tops.2 + 1
    m ++ [(2 * s, na), (2 * s + 1, nb)]) []

/-- Whether records of a type have their mac checked (R557 step 4). -/
def macChecked (type : Nat) : Bool := (2 ≤ type && type ≤ 7) || type = 0x0B || type = 0x0C || type = 0x0D

/-- The newest complete consolidation among the records: the sequence numbers of its BEGIN and END. -/
def newestConsol (rs : List ReadRec) : Option (Nat × Nat) :=
  rs.foldl (fun best r =>
    if r.type = 0x0D && r.macOk then
      let b := ofBytes (r.payload.take 8)
      let ok := rs.any fun x => x.type = 0x0C && x.macOk && x.seq = b && ofBytes (x.payload.take 4) = ofBytes ((r.payload.drop 8).take 4)
      if ok && best.all (fun y => decide (y.1 < b)) then some (b, r.seq) else best
    else best) none

/-- State records from the newest complete consolidation on, in ascending order; those of an incomplete one do not count. -/
def liveState (rs : List ReadRec) (b e : Nat) : List (Nat × Nat × List Byte) :=
  (sortBy (·.seq) rs).foldl (fun k r =>
    if r.macOk && decide (b ≤ r.seq) && !(r.restated && decide (e < r.seq)) then setKey k r.type r.payload else k) []

/-- What live state gives the engine: wear, margins and the newest STEP. -/
def useState (k : Dbk) : Dbk :=
  let last := (k.keys.filter fun (x : Nat × Nat × List Byte) => x.1 == 7).map fun x => stepOf x.2.2
  let k := { k with lastStep := last.headD k.lastStep }
  (k.keys.filter fun (x : Nat × Nat × List Byte) => x.1 == 5).foldl (fun (k : Dbk) (x : Nat × Nat × List Byte) =>
    let p := x.2.2
    let n (o w : Nat) : Nat := ofBytes ((p.drop o).take w)
    let ms := (n 16 2 :: (List.range 4).map fun i => n (18 + 2 * i) 2).filter (· ≠ 0)
    { k with
      wear := fset 0 k.wear x.2.1 (n 8 8 * 2 ^ 20)
      wearLast := fset 0 k.wearLast x.2.1 (n 8 8)
      margins := fset [] k.margins x.2.1 ms
      guards := fset 0 k.guards x.2.1 (n 26 1) }) k

/-- The engine begins at a head (R557 step 6): sectors it needs that are not erased are erased first. -/
def beginAt (head first : Nat) (mode : BitVec 2) (c : Chip) : Chip :=
  let c := { c with dbk := { c.dbk with head := head, firstSeq := first, nextSlot := 0, mode := mode, erases := [], consol := none } }
  let c := askEraseUnless ((head + 2) % 512) (askEraseUnless ((head + 1) % 512) (askEraseUnless head c))
  openHead c

/-- A format on erased rings (R558): the header of sector 0 and an empty consolidation. -/
def format (m : Mgt) (c : Chip) : Chip :=
  let c := { c with dbk := { c.dbk with consSeq := 0, consSector := 0, seqTail := 0, keys := [], lastStep := 0xFFFFFFFFFFFFFFFF } }
  let c := beginAt 0 0 3 c
  let mk (type : Nat) (p : List Byte) : Rec := ⟨type, false, .ofNat 48 m.counter0.toNat, false, c.run.step, p⟩
  let c := putRecord (mk 0x0D (toBytes 8 0 ++ toBytes 4 0)) (putRecord (mk 0x0C (toBytes 4 0)) c)
  { c with dbk := { c.dbk with tokens := c.dbk.tokens - 2, consTick := m.aoCounter } }

/-- DAYBOOK_RECOVERY. -/
def recover (m : Mgt) (c : Chip) : Chip :=
  let counts := eraseCounts c
  let c := { c with dbk := { c.dbk with eraseCnt := counts, eraseMax := eraseMaxOf counts } }
  if !(c.flash.any fun x => decide (0x3C00000 ≤ x.1) && decide (x.1 < 0x7C00000)) then journal m 0 1 [] (format m c)
  else
    let hs := (List.range 512).flatMap fun s =>
      ((header? c false s).toList ++ (header? c true s).toList).map fun h => (s, h.1, h.2.1)
    let head := hs.foldl (fun (b : Nat × Nat) h => if b.2 ≤ h.2.1 then (h.1, h.2.1) else b) (0, 0)
    let cons := hs.foldl (fun n h => max n h.2.2) 0
    let from_ := hs.foldl (fun (b : Option (Nat × Nat)) h =>
      if h.2.1 ≤ cons && b.all (fun y => decide (y.2 ≤ h.2.1)) then some (h.1, h.2.1) else b) none
    let rs := match from_ with
      | none => []
      | some (s, _) => (List.range ((head.1 + 512 - s) % 512 + 1)).flatMap fun i => readSector c ((s + i) % 512) 511 1
    match newestConsol rs with
    | none => journal m 0 1 [] (raise .dbk 1 { c with dbk := { c.dbk with mode := 2 } })
    | some (b, e) =>
      let top := rs.foldl (fun n r => max n r.seq) 0
      let keys := liveState rs b e
      let at_ := (hs.filter fun h => h.2.1 ≤ b).foldl (fun (x : Nat × Nat) h => if x.2 ≤ h.2.1 then (h.1, h.2.1) else x) (0, 0)
      let c := { c with dbk := useState { c.dbk with
        keys := keys, consSeq := b, consSector := at_.1, seqHead := .ofNat 64 top, consTick := m.aoCounter } }
      let c := journal m 0 1 [] (setTail (beginAt ((head.1 + 1) % 512) (top + 1) 1 c))
      let bad := rs.filter fun r => macChecked r.type && !r.macOk
      bad.foldl (fun c _ => raise .dbk 5 (faultRec m 0 4 0 0 c)) c

/-! ### Reading a record (R569) -/

/-- The slot that holds a sequence number, by sector and slot. -/
def heldAt (c : Chip) (seq : Nat) : List (Nat × Nat) :=
  (List.range 512).flatMap fun s =>
    match (header? c false s).orElse fun _ => header? c true s with
    | none => []
    | some h => if h.1 ≤ seq && seq < h.1 + 511 then [(s, seq - h.1 + 1)] else []

def readDone (c : Chip) : Chip :=
  if !c.dbk.readBusy then c else
  let at_ := heldAt c c.dbk.readSeq.toNat
  let put (r : Nat) (ok : Bool) (b : List Byte) : Chip :=
    raise .dbk 0 { c with dbk := { c.dbk with readBusy := false, readResult := .ofNat 8 r, readMac := ok, readData := b } }
  match at_.findSome? fun x => slotBytes c x.1 x.2 with
  | some b => put 1 (macHolds b) b
  | none =>
    let empty (x : Nat × Nat) : Bool :=
      flashBytes c (slotAt false x.1 x.2) 128 == List.replicate 128 0xFF && flashBytes c (slotAt true x.1 x.2) 128 == List.replicate 128 0xFF
    put (if at_.all empty then 2 else 3) false c.dbk.readData

/-! ### The commands -/

/-- A write of a register of a block that runs before Ready (R507); a failed PCIe IDE stream discards it (R499). -/
def whenOpen (m : Mgt) (f : Chip → Chip) (c : Chip) : Chip := if m.powered && !c.cxl.ideHaltIo then f c else c

def execRecordWrite (s : State) : Host.Outcome State Fault Refusal := onDev recordWrite s

def execSectorEraseDone (s : State) : Host.Outcome State Fault Refusal :=
  onChip (fun m c => if m.powered then eraseDone c else c) s

def execConsolidationStart (s : State) : Host.Outcome State Fault Refusal :=
  onChip (fun m c => if m.powered && consolDue m c then startConsol m c else c) s

def execConsolidate (s : State) : Host.Outcome State Fault Refusal := onChip (fun m => whenOpen m (startConsol m)) s

def execHostRecord (s : State) : Host.Outcome State Fault Refusal :=
  onChip (fun m => whenOpen m fun c => journal m 0 0x0E c.dbk.hostData c) s

def execDbkReadSeqWrite (seq : W64) (s : State) : Host.Outcome State Fault Refusal :=
  onChip (fun m => whenOpen m fun c => { c with dbk := { c.dbk with readSeq := seq, readBusy := true } }) s

def execDbkReadDone (s : State) : Host.Outcome State Fault Refusal := onChip (fun m c => if m.powered then readDone c else c) s

def execTokenRefill (s : State) : Host.Outcome State Fault Refusal :=
  onChip (fun m c => if m.powered then tokenRefill c else c) s

end Sys2Proof.Machine
end

