-- ==== Sys2Proof/Machine/Window.lean ====
section
/-! DEFINITION. The Window class: convolution and pooling over planar maps (R148 to R166). -/

namespace Sys2Proof.Machine

/-- One axis of the forward operation: input size, kernel, stride, dilation, padding before and after. -/
structure Axis where
  i : Nat
  k : Nat
  s : Nat
  d : Nat
  lo : Nat
  hi : Nat
  deriving DecidableEq, Repr

/-- Output size of an axis (R149). -/
def Axis.out (a : Axis) : Nat :=
  let need := a.d * (a.k - 1) + 1
  if a.i + a.lo + a.hi < need then 0 else (a.i + a.lo + a.hi - need) / a.s + 1

/-- Input index of output `o` and tap `kk` (R152); none outside the map (R151). -/
def Axis.input (a : Axis) (o kk : Nat) : Option Nat :=
  let x : Int := (o * a.s + kk * a.d : Nat) - (a.lo : Int)
  if 0 ≤ x ∧ x < a.i then some x.toNat else none

/-- Output index that input `i` feeds through tap `kk` (R155); none where it is not integral or lies outside. -/
def Axis.output (a : Axis) (i kk : Nat) : Option Nat :=
  let x : Int := (i + a.lo : Nat) - (kk * a.d : Nat)
  if 0 ≤ x ∧ x % a.s = 0 ∧ x / a.s < a.out then some (x / a.s).toNat else none

/-- The fields of a Window descriptor and its geometry record (R164, R165). -/
structure WinD where
  op : Nat
  map : TRef
  second : TRef
  dest : TRef
  kFirst : Nat
  kCount : Nat
  chunk : Nat
  mode : Nat
  conv : Nat
  incPad : Bool
  padKind : Nat
  padValue : Nat
  cFirst : Nat
  cCount : Nat
  nCols : Nat
  ch : Nat
  t : Axis
  h : Axis
  w : Axis
  stripeLines : Nat
  posFirst : Nat
  posCount : Nat
  wgFirst : Nat
  wgRows : Nat
  deriving DecidableEq, Repr

def winD (d : Desc) (g : BitVec 2048) : WinD :=
  let r := tref d 16
  let b (o : Nat) : Nat := byt g o 1
  let h (o : Nat) : Nat := byt g o 2
  let causal := fld g 1 0 1 = 1
  let tAx : Axis :=
    if r.layout = 3 then ⟨1, 1, 1, 1, 0, 0⟩
    else if causal then ⟨h 16, b 24, b 27, b 30, b 30 * (b 24 - 1), 0⟩
    else ⟨h 16, b 24, b 27, b 30, h 34, h 36⟩
  { op := dOpcode d, map := r, second := tref d 48, dest := tref d 80, kFirst := byt d 120 2, kCount := byt d 122 2
    chunk := 16 * (byt d 124 1 + 1), mode := fld d 125 4 2, conv := fld d 125 0 4, incPad := fld g 1 1 1 = 1
    padKind := b 2, padValue := byt g 4 4, cFirst := h 8, cCount := h 10, nCols := byt g 12 4, ch := h 22, t := tAx
    h := ⟨h 18, b 25, b 28, b 31, h 38, h 40⟩, w := ⟨h 20, b 26, b 29, b 32, h 42, h 44⟩, stripeLines := h 46
    posFirst := byt g 48 4, posCount := byt g 52 4, wgFirst := byt g 56 4, wgRows := h 60 }

def WinD.taps (x : WinD) : Nat := x.t.k * x.h.k * x.w.k
def WinD.pool (x : WinD) : Bool := decide (4 ≤ x.op)
def WinD.wgrad (x : WinD) : Bool := x.op = 3
/-- Opcodes whose rows are input positions and whose map is dy (R153, R155). -/
def WinD.back (x : WinD) : Bool := x.op = 2 || x.op = 6 || x.op = 7
def WinD.outs (x : WinD) : Nat := x.t.out * x.h.out * x.w.out
def WinD.ins (x : WinD) : Nat := x.t.i * x.h.i * x.w.i
/-- Elements of the whole map, where a scale array follows it; no convolution reads such a map (R166). -/
def WinD.mapN (x : WinD) : Nat := x.ch * (if x.back then x.outs else x.ins)
/-- Result rows of the whole operation (R153). -/
def WinD.rows (x : WinD) : Nat := if x.wgrad then x.wgRows else if x.back then x.ins else x.outs
/-- Result columns. -/
def WinD.cols (x : WinD) : Nat := if x.pool then x.cCount else x.nCols
/-- Reduced length; of CONV_WGRAD the positions up to this map's end (log entry 14). -/
def WinD.kElems (x : WinD) : Nat :=
  if x.pool then 0 else if x.wgrad then x.posFirst + x.posCount else x.cCount * x.taps
def WinD.kTotal (x : WinD) : Nat := cdiv x.kElems 128
def WinD.cls (x : WinD) : Option Nat :=
  match x.map.fmt, x.second.fmt with
  | some f, some g => rateClass f g
  | _, _ => none
/-- Rows of a position block; pooling takes 256 (log entry 14). -/
def WinD.cap (x : WinD) : Nat := if x.pool then 256 else rowsCap (x.cls.getD 8)

/-- Positions in a raster: (t, h, w) of position p over sizes (_, hs, ws). -/
def raster (hs ws p : Nat) : Nat × Nat × Nat := (p / (hs * ws), p / ws % hs, p % ws)

/-- Coordinates of tap `j` (R152). -/
def WinD.tap (x : WinD) (j : Nat) : Nat × Nat × Nat := (j / (x.h.k * x.w.k), j / x.w.k % x.h.k, j % x.w.k)

/-- Combines three optional coordinates. -/
def coord3 (a b c : Option Nat) : Option (Nat × Nat × Nat) :=
  match a, b, c with
  | some x, some y, some z => some (x, y, z)
  | _, _, _ => none

/-- The input position under tap `j` of output position `p` (R152). -/
def WinD.inputAt (x : WinD) (p j : Nat) : Option (Nat × Nat × Nat) :=
  let (ot, oh, ow) := raster x.h.out x.w.out p
  let (kt, kh, kw) := x.tap j
  coord3 (x.t.input ot kt) (x.h.input oh kh) (x.w.input ow kw)

/-- The output position that input position `p` feeds through tap `j` (R155). -/
def WinD.outputAt (x : WinD) (p j : Nat) : Option (Nat × Nat × Nat) :=
  let (it, ih, iw) := raster x.h.i x.w.i p
  let (kt, kh, kw) := x.tap j
  coord3 (x.t.output it kt) (x.h.output ih kh) (x.w.output iw kw)

/-- Element offset in an x map (R148). -/
def WinD.xOff (x : WinD) (c : Nat) (q : Nat × Nat × Nat) : Nat :=
  ((c * x.t.i + q.1) * x.h.i + q.2.1) * x.w.i + q.2.2

/-- Element offset in a map over the output positions. -/
def WinD.yOff (x : WinD) (c : Nat) (q : Nat × Nat × Nat) : Nat :=
  ((c * x.t.out + q.1) * x.h.out + q.2.1) * x.w.out + q.2.2

/-- Whether reduced index `k` of a CONV_WGRAD is one of this map's positions (R156). -/
def WinD.inMap (x : WinD) (k : Nat) : Bool := decide (x.posFirst ≤ k) && decide (k < x.posFirst + x.posCount)

/-- The map element that result row `row` needs at reduced index `k` (R153): its offset, or none for padding. -/
def WinD.mapElem (x : WinD) (row k : Nat) : Option Nat :=
  if x.wgrad then
    let p := k - x.posFirst
    let r := x.wgFirst + row
    if !x.inMap k then none
    else (x.inputAt p (r % x.taps)).map (x.xOff (x.cFirst + r / x.taps))
  else if x.back then (x.outputAt row (k % x.taps)).map (x.yOff (x.cFirst + k / x.taps))
  else (x.inputAt row (k % x.taps)).map (x.xOff (x.cFirst + k / x.taps))

/-- Whether a missing map element reads the padding value, rather than +0 (R151, R155). -/
def WinD.padded (x : WinD) (k : Nat) : Bool :=
  !x.back && x.padKind = 1 && (!x.wgrad || x.inMap k)

/-- The padding value (R151). -/
def WinD.padVal (x : WinD) (s : Src) : FVal := (decodeElem s.f (x.padValue % 2 ^ s.f.bits)).scale (-s.k)

/-! ### Stripes and blocks (R158 to R161) -/

/-- Taps, as (kt, kh), that the descriptor's rows read: all of them, or those of the CONV_WGRAD slice. -/
def WinD.tapLines (x : WinD) : List (Nat × Nat) :=
  let js := if x.wgrad then (span x.wgFirst (x.wgFirst + min x.wgRows x.taps)).map (· % x.taps) else List.range x.taps
  (js.map fun j => ((x.tap j).1, (x.tap j).2.1)).eraseDups

/-- Map lines, as (t, h), that a line of result positions reads through its taps. -/
def WinD.linesOf (x : WinD) (line : Nat) : List (Nat × Nat) :=
  let hs := if x.back then x.h.i else x.h.out
  let t := line / hs
  let h := line % hs
  x.tapLines.filterMap fun (kt, kh) =>
    let p := if x.back then (x.t.output t kt, x.h.output h kh) else (x.t.input t kt, x.h.input h kh)
    match p with
    | (some a, some b) => some (a, b)
    | _ => none

/-- Result lines that a stripe unit covers: the line itself, or those of a K-block's positions in CONV_WGRAD. -/
def WinD.unitLines (x : WinD) (u : Nat) : List Nat :=
  if x.wgrad then
    let lo := 128 * u - x.posFirst
    let hi := min (128 * u + 128 - x.posFirst) x.posCount
    if lo < hi then span (lo / x.w.out) ((hi - 1) / x.w.out + 1) else []
  else [u]

/-- Bytes of the region of stripe units [lo, hi) (R158). -/
def WinD.region (x : WinD) (lo hi : Nat) : Nat :=
  let lines := ((span lo hi).flatMap fun u => (x.unitLines u).flatMap x.linesOf).eraseDups
  let w := if x.back then x.w.out else x.w.i
  x.cCount * lines.length * w * ((x.map.fmt.getD .fp32).bits / 8)

/-- Bytes of tree state; none for pooling (R159). -/
def WinD.tree (x : WinD) : Nat := if x.pool then 0 else treeState (x.cls.getD 8) x.chunk x.kTotal

/-- Stripe units of the descriptor: K-blocks, or lines of result positions. -/
def WinD.units (x : WinD) : Nat × Nat :=
  if x.wgrad then (x.kFirst, x.kFirst + x.kCount)
  else
    let w := if x.back then x.w.i else x.w.out
    (x.posFirst / w, cdiv (x.posFirst + x.posCount) w)

def WinD.fits (x : WinD) (lo hi : Nat) : Bool := decide (x.region lo hi + x.tree ≤ 3 * 2 ^ 20)

/-- The largest run from `lo` that fits, at least one unit. -/
def WinD.largest (x : WinD) (lo : Nat) : Nat → Nat
  | 0 => lo + 1
  | n + 1 => if x.fits lo (lo + n + 1) then lo + n + 1 else x.largest lo n

/-- Cuts [lo, hi) into stripes. -/
def WinD.cut (x : WinD) (hi : Nat) : Nat → Nat → List (Nat × Nat)
  | 0, _ => []
  | f + 1, lo =>
    if hi ≤ lo then [] else
    let m := min hi (if x.stripeLines = 0 then x.largest lo (hi - lo) else lo + x.stripeLines)
    (lo, m) :: x.cut hi f m

/-- The stripes (R159): one where the whole region fits. -/
def WinD.stripes (x : WinD) : List (Nat × Nat) :=
  let (lo, hi) := x.units
  if x.fits lo hi then [(lo, hi)] else x.cut hi (hi - lo) lo

/-- Result rows of a stripe of lines. -/
def WinD.stripeRows (x : WinD) (s : Nat × Nat) : Nat × Nat :=
  let w := if x.back then x.w.i else x.w.out
  (max x.posFirst (s.1 * w), min (x.posFirst + x.posCount) (s.2 * w))

/-- Position blocks, with the stripe of each (R161). -/
def WinD.blocks (x : WinD) : List (Nat × Nat × Nat) :=
  if x.wgrad then [(0, 0, x.wgRows)]
  else x.stripes.zipIdx.flatMap fun (s, i) =>
    let (lo, hi) := x.stripeRows s
    (List.range (cdiv (hi - lo) x.cap)).map fun b => (i, lo + b * x.cap, min hi (lo + (b + 1) * x.cap))

/-- The stripe of the position in progress; in CONV_WGRAD the one that holds the K-block (R161). -/
def WinD.stripeOf (x : WinD) (e : Entry) : Nat :=
  if x.wgrad then x.stripes.findIdx fun s => decide (e.kblock < s.2) else (x.blocks.getD e.block (0, 0, 0)).1

/-! ### Destination -/

/-- Whether the destination is written column by column: column-major or planar (R148). -/
def WinD.colMajor (x : WinD) : Bool := x.dest.layout = 1 || x.dest.layout = 3 || x.dest.layout = 4

/-- Rows of a node list's planes are the descriptor's own (log entry 14). -/
def WinD.planeRows (x : WinD) : Nat := if x.wgrad then x.wgRows else x.posCount
def WinD.base (x : WinD) : Nat := if x.wgrad then 0 else x.posFirst

def WinD.sidx (x : WinD) (p r n : Nat) : Nat :=
  if x.mode = 2 then p * (x.planeRows * x.cols) + (r - x.base) * x.cols + n
  else if x.colMajor then n * x.rows + r
  else storeIdx x.dest.layout x.rows x.cols r n

def WinD.nDest (x : WinD) : Nat :=
  if x.mode = 2 then planesOf 2 x.kTotal x.kFirst x.kCount * (x.planeRows * x.cols) else x.rows * x.cols

/-- Elements that the descriptor's counts reach in the destination (R391). -/
def WinD.reach (x : WinD) : Nat :=
  if x.mode = 2 then x.nDest
  else if x.colMajor then (x.cols - 1) * x.rows + x.base + x.planeRows
  else if x.dest.layout = 2 then x.nDest else (x.base + x.planeRows) * x.cols

/-! ### Checks (R166) -/

def checkWindow (c : Chip) (d : Desc) (g : BitVec 2048) : Option Nat :=
  let x := winD d g
  let two := x.op = 1 || x.op = 2 || x.op = 3 || x.op = 6
  let geom := byt d 112 8
  let f := x.map.fmt.getD .fp32
  let access := geom % 64 != 0 || overlaps x.dest.addr x.dest.ext x.map.addr x.map.ext ||
    (two && overlaps x.dest.addr x.dest.ext x.second.addr x.second.ext) || refAccess c x.map false false ||
    (two && refAccess c x.second false false) || refAccess c x.dest true false
  let causalPad := fld g 1 0 1 = 1 && byt g 34 4 != 0
  let reserved := fld d 125 6 2 != 0 || byt d 126 2 != 0 || x.conv.testBit 3 || refReserved d 16 || refReserved d 48 ||
    refReserved d 80 || (!two && byt d 48 32 != 0) || fld g 1 2 6 != 0 || byt g 3 1 != 0 || byt g 33 1 != 0 ||
    byt g 62 2 != 0 || (x.padValue >>> f.bits) != 0 || x.mode = 3 || causalPad || (x.padKind = 2 && !x.pool) ||
    2 < x.padKind || (x.pool && (x.mode != 0 || x.kFirst != 0 || x.kCount != 0 || x.nCols != 0)) ||
    (!x.wgrad && (x.wgFirst != 0 || x.wgRows != 0))
  let mx (r : TRef) : Bool := r.fmt.any (·.mx)
  let planar (r : TRef) : Bool := r.layout = 3 || r.layout = 4
  let ue := x.dest.fmt.any (·.block)
  let destBad := x.dest.fmt.isNone || (x.mode != 0 && x.dest.format != 0) || 4 < x.dest.layout ||
    (x.mode = 0 && ue && (!x.colMajor || x.posFirst % 32 != 0 || x.posCount % 32 != 0 || x.rows % 32 != 0)) || (x.dest.layout = 2 && (x.rows % 128 != 0 || x.cols % 128 != 0))
  let secondBad := two && (x.second.fmt.isNone || 4 < x.second.layout ||
    (if x.wgrad || x.op = 6 then !planar x.second else badShape x.second x.nCols x.kElems))
  let poolBad (r : TRef) (w : Nat) : Bool :=
    (r.fmt.map (!·.widens)).getD true || (r.fmt.any (·.block) && w % 32 != 0)
  let format := mx x.map || mx x.dest || (x.wgrad && mx x.second) || x.map.fmt.isNone || !planar x.map || secondBad ||
    (!x.pool && x.cls.isNone) || (x.pool && (poolBad x.map (if x.back then x.w.out else x.w.i) || (x.op = 6 && poolBad x.second x.w.i))) || destBad ||
    2 ≤ x.conv % 4
  let empty := x.outs = 0 || x.posCount = 0 || x.cCount = 0 || (!x.pool && (x.kCount = 0 || x.nCols = 0))
  let axis (a : Axis) : Bool := a.i = 0 || a.k = 0 || a.s = 0 || a.d = 0
  let pads := [34, 36, 38, 40, 42, 44].any fun o => 1023 < byt g o 2
  let whole (r : TRef) : Nat := if r.fmt.any (·.block) then max x.ch (x.cFirst + x.cCount) else x.cFirst + x.cCount
  let mapReach := whole x.map * (if x.back then x.outs else x.ins)
  let secReach := if x.wgrad then x.nCols * x.outs else if x.op = 6 then whole x.second * x.ins
    else x.nCols * x.kElems
  let wg := x.wgrad && (x.wgRows = 0 || x.cap < x.wgRows || x.cCount * x.taps < x.wgFirst + x.wgRows ||
    x.posFirst % 128 != 0 || x.outs < x.posCount)
  let striped := x.stripes.any (fun s => !x.fits s.1 s.2) ||
    (x.wgrad && 1 < x.stripes.length && x.chunk < x.nCols)
  let extent := axis x.t || axis x.h || axis x.w || x.ch = 0 || pads ||
    (x.op != 2 && x.ch < x.cFirst + x.cCount) || (!x.wgrad && x.rows < x.posFirst + x.posCount) ||
    8388480 < x.cCount * x.taps || wg || striped ||
    (!x.pool && (x.kTotal < x.kFirst + x.kCount || (x.mode != 2 && (x.kFirst != 0 || x.kCount != x.kTotal)))) ||
    overExtent x.map (x.map.span mapReach) || (two && overExtent x.second (x.second.span secReach)) ||
    overExtent x.dest (if ue then x.dest.span x.nDest else x.dest.span x.reach)
  if access then some 0x0E
  else if byt g 0 1 != 0x20 && byt g 0 1 != 0x21 then some 0x03
  else if reserved then some 0x04
  else if format then some 0x10
  else if empty then some 0x01
  else if extent then some 0x02
  else none

/-! ### Convolutions -/

/-- Index of a streamed element: weights by vector, or dy by channel and position. -/
def WinD.wIdx (x : WinD) (n k : Nat) : Option Nat :=
  if x.wgrad then (if x.inMap k then some (n * x.outs + (k - x.posFirst)) else none)
  else some (storeIdx x.second.layout x.nCols x.kElems n k)

/-- Place of a K-block result in the tree state, and of a result that waits for its block of 32. -/
def WinD.treeKey (x : WinD) (r n k : Nat) : Nat := (r * x.cols + n) * x.kTotal + k
def WinD.restKey (x : WinD) (r n : Nat) : Nat := r * x.cols + n

/-- A result that waits. -/
def WinD.waits (x : WinD) (e : Entry) (r n : Nat) : Option W32 := (e.rest.find? fun y => y.1 = x.restKey r n).map (·.2)

/-- The operation of one position block as a job: the map as the stripe's region in tile SRAM holds it (R162), the second
operand as it streams, and the tree state of earlier passes. -/
def winJob (c : Chip) (e : Entry) : Job :=
  let x := winD e.desc e.record
  let s := mkSrc c e x.map x.mapN
  let w := mkSrc c e x.second (x.nCols * x.kElems)
  let stream := { e with held := [] }
  { stat := fun r k =>
      match x.mapElem r k with
      | some i => s.val c e i
      | none => if x.padded k then x.padVal s else .zero
    weight := fun n k =>
      match x.wIdx n k with
      | some i => w.val c stream i
      | none => .zero
    held := fun r n k => treeAt e.tree (x.treeKey r n k)
    done := x.waits e
    kElems := x.kElems
    kFirst := x.kFirst
    kCount := x.kCount
    mode := x.mode
    conv := x.conv
    dest := x.dest
    nDest := x.nDest
    sidx := x.sidx
    lidx := fun r n => r * x.cols + n }

/-- Rows of the block in progress. -/
def WinD.blockRows (x : WinD) (b : Nat) : List Nat :=
  let (_, lo, hi) := x.blocks.getD b (0, 0, 0)
  span lo hi

/-- Whether results are written by whole blocks of 32 rows (R639). -/
def WinD.by32 (x : WinD) : Bool := x.mode = 0 && x.dest.fmt.any (·.block)

/-- Rows that a position block [lo, hi) writes: its own, or the blocks of 32 that it completes. -/
def WinD.writeRange (x : WinD) (lo hi : Nat) : List Nat :=
  if x.by32 then span (lo / 32 * 32) (hi / 32 * 32) else span lo hi

def WinD.writeRows (x : WinD) (b : Nat) : List Nat :=
  let (_, lo, hi) := x.blocks.getD b (0, 0, 0)
  x.writeRange lo hi

/-- Rows whose results wait for the next position block. -/
def WinD.waitRows (x : WinD) (b : Nat) : List Nat := (x.blockRows b).filter (!(x.writeRows b).contains ·)

/-! ### Stripe regions (R158, R160) -/

/-- The accesses that read a stripe's region, line after line. -/
def regionAccs (c : Chip) (e : Entry) (stripe : Nat) : List Acc :=
  let x := winD e.desc e.record
  let s := x.stripes.getD stripe (0, 0)
  let lines := ((span s.1 s.2).flatMap fun u => (x.unitLines u).flatMap x.linesOf).eraseDups
  let w := if x.back then x.w.out else x.w.i
  let idx := (span x.cFirst (x.cFirst + x.cCount)).flatMap fun ch => lines.flatMap fun l =>
    (List.range w).map fun i => if x.back then x.yOff ch (l.1, l.2, i) else x.xOff ch (l.1, l.2, i)
  (mkSrc c e x.map x.mapN).accs c e (sortBy id idx)

/-- Moves on from stripe `s`: its region is let go of, and the next one, if it has been read, takes its place. -/
def WinD.shift (x : WinD) (s : Nat) (e : Entry) : Entry :=
  if x.stripeOf e = s then e else { e with held := e.nextHeld, nextHeld := [] }

/-- Columns of group `g` of chunk `ci`. -/
def WinD.groupCols (x : WinD) (ci g : Nat) : List Nat :=
  let lo := ci * x.chunk + 16 * g
  span lo (min (lo + 16) (min ((ci + 1) * x.chunk) x.nCols))

/-- Outputs that blocks after `b` still write, as storage indices. -/
def winRest (x : WinD) (j : Job) (b : Nat) : List Nat :=
  (x.blocks.drop (b + 1)).flatMap fun (_, lo, hi) => j.indices (x.writeRange lo hi) (List.range x.cols)

/-- Ends or moves on after a block; the results that wait stay in tile SRAM. -/
def nextBlock (x : WinD) (e : Entry) (c : Chip) : Chip :=
  let e' := x.shift (x.stripeOf e) { e with
    block := e.block + 1, chunk := 0, kblock := x.kFirst, groups := 0, from_ := 0, tree := [], begun := true }
  let c := setEntry e' c
  if e'.block < x.blocks.length then c else finish e' 0 c

/-- Reduced indices of the pass in progress. -/
def WinD.passIdx (x : WinD) (e : Entry) : List Nat :=
  kIndices x.kElems (passBlocks (x.cls.getD 8) x.kFirst x.kCount e.kblock)

/-- Whether the pass in progress is the last of the range. -/
def WinD.lastPass (x : WinD) (e : Entry) : Bool := Sys2Proof.Machine.lastPass (x.cls.getD 8) x.kFirst x.kCount e.kblock

/-- Map elements and second elements that a group uses. -/
def convMapIdx (e : Entry) : List Nat :=
  let x := winD e.desc e.record
  ((x.blockRows e.block).flatMap fun r => (x.passIdx e).filterMap (x.mapElem r)).eraseDups
def convSecIdx (e : Entry) : List Nat :=
  let x := winD e.desc e.record
  (x.groupCols e.chunk e.groups).flatMap fun n => (x.passIdx e).filterMap (x.wIdx n)

/-- Rows of earlier blocks that a last pass writes and that no result waits for: a restart lost them (R130). -/
def lostRows (e : Entry) : List Nat :=
  let x := winD e.desc e.record
  if !x.lastPass e then [] else
  (x.writeRows e.block).filter fun r => !(x.blockRows e.block).contains r &&
    (x.groupCols e.chunk e.groups).any fun n => (x.waits e r n).isNone

/-- What a group of a convolution reads and writes; the stripe's region makes no access once it is held. -/
def convAccs (c : Chip) (e : Entry) : List Acc :=
  let x := winD e.desc e.record
  let lost := lostRows e
  let ks := if lost = [] then [] else kIndices x.kElems (span x.kFirst (x.kFirst + x.kCount))
  let sec := if lost = [] then convSecIdx e else (x.groupCols e.chunk e.groups).flatMap fun n => ks.filterMap (x.wIdx n)
  let out := (winJob c e).indices (x.writeRows e.block) (x.groupCols e.chunk e.groups)
  let again (l : List Acc) : List Acc := l.map fun x => { x with again := true }
  regionAccs c e (x.stripeOf e) ++
  (mkSrc c e x.map x.mapN).accs c e (sortBy id (lost.flatMap fun r => ks.filterMap (x.mapElem r)).eraseDups) ++
  again ((mkSrc c e x.second (x.nCols * x.kElems)).accs c e sec) ++
  (if x.lastPass e && x.mode = 1 then again ((elemRanges .fp32 x.nDest out).map fun (o, n) => .rd x.dest o n) else []) ++
  (if x.lastPass e then wrAccs x.dest (x.dest.fmt.getD .fp32) x.nDest out else [])

/-- Every result of the operation, for current scaling (R66). -/
def convAll (c : Chip) (e : Entry) : List FVal :=
  let x := winD e.desc e.record
  x.blocks.flatMap fun (_, lo, hi) => (span lo hi).flatMap fun r =>
    (List.range x.nCols).map fun n => f32v (((winJob c e).out r n).headD f32zero)

/-- Blocks whose seal waits for a later group (R351). -/
def convHold (c : Chip) (e : Entry) : TRef → Nat → Bool :=
  let x := winD e.desc e.record
  let j := winJob c e
  let cols := x.groupCols e.chunk e.groups
  holdOf x.dest j.fmt x.nDest
    (j.indices (x.writeRows e.block) (span (cols.headD 0 + cols.length) x.nCols) ++ winRest x j e.block)

/-- What a group of a convolution writes: nothing before the last pass. -/
def convWrites (c : Chip) (e : Entry) : List Wr :=
  let x := winD e.desc e.record
  if x.lastPass e then
    (winJob c e).writes e (x.writeRows e.block) (x.groupCols e.chunk e.groups) (fun _ => convAll c e) c
  else []

/-- Takes the K-block results of a pass into the tree state; the last pass keeps the results that wait (R116, R639). -/
def convKeep (j : Job) (e : Entry) : Entry :=
  let x := winD e.desc e.record
  let cols := x.groupCols e.chunk e.groups
  if x.lastPass e then
    { e with rest := e.rest ++ (x.waitRows e.block).flatMap fun r => cols.map fun n => (x.restKey r n, (j.out r n).headD 0) }
  else
    { e with tree := e.tree ++ (x.blockRows e.block).flatMap fun r => cols.flatMap fun n =>
        (passBlocks (x.cls.getD 8) x.kFirst x.kCount e.kblock).map fun k => (x.treeKey r n k, j.block r n k) }

/-- One commit group of a convolution (R115, R161); it waits for its stripe's region. -/
def convGroup (e0 : Entry) (c : Chip) : Chip :=
  let e := curEntry c e0
  let x := winD e.desc e.record
  if e.round < x.stripeOf e then c else
  if scaleMismatch c e x.map || scaleMismatch c e x.second then finish e 0x10 c else
  let cls := x.cls.getD 8
  unit e (convAccs c e) (partOf x.dest (x.dest.fmt.getD .fp32) x.nDest) (fun e0 c0 =>
    let e := holdReads c0 e0 (regionAccs c0 e0 (x.stripeOf e0))
    let c := setEntry e c0
    let j := winJob c e
    let die := dieOf e.tile
    let cols := x.groupCols e.chunk e.groups
    let c1 := markIf (widensSpecial (mkSrc c e x.map x.mapN) cls c e (convMapIdx e)) e .conversion x.map.tid die c
    let c1 := markIf (widensSpecial (mkSrc c e x.second (x.nCols * x.kElems)) cls c { e with held := [] } (convSecIdx e))
      e .conversion x.second.tid die c1
    let c1 := markIf (j.passMarks (x.blockRows e.block) cols (passBlocks cls x.kFirst x.kCount e.kblock)) e .array
      x.dest.tid die c1
    let c2 := if x.lastPass e then
        j.write e die (x.writeRows e.block) cols (fun _ => convAll c e) (convHold c e) c1
      else c1
    let e2 := convKeep j (curEntry c2 e)
    let e3 := { nextPos cls x.kFirst x.kCount (cdiv (min x.chunk (x.nCols - e.chunk * x.chunk)) 16) e2 with begun := true }
    if e3.chunk * x.chunk < x.nCols then setEntry (x.shift (x.stripeOf e) e3) c2 else nextBlock x { e3 with kblock := e.kblock } c2) c

/-! ### Pooling (R157) -/

/-- Values of the window of output position `p` in channel `ch` (R151). -/
def WinD.window (x : WinD) (s : Src) (c : Chip) (e : Entry) (ch p : Nat) : List (Option W32) :=
  (List.range x.taps).map fun j =>
    match x.inputAt p j with
    | some q => some (s.f32 c e (x.xOff ch q))
    | none => if x.padKind = 2 then none else some (if x.padKind = 1 then rne32 (x.padVal s) else f32zero)

/-- Position number of an output coordinate. -/
def WinD.outPos (x : WinD) (q : Nat × Nat × Nat) : Nat := (q.1 * x.h.out + q.2.1) * x.w.out + q.2.2

/-- Taps counted by an average (R157). -/
def WinD.count (x : WinD) (p : Nat) : Nat :=
  if x.incPad || x.padKind != 2 then x.taps else ((List.range x.taps).filter fun j => (x.inputAt p j).isSome).length

/-- One pooling result, with whether it or an intermediate, a window's maximum among them, is NaN or Inf (R77). -/
def poolOut (x : WinD) (c : Chip) (e : Entry) (row n : Nat) : W32 × Bool :=
  let m := mkSrc c e x.map x.mapN
  let ch := x.cFirst + n
  if x.op = 4 || x.op = 5 then
    let win := x.window m c e ch row
    let v := pool win (x.op = 5) x.incPad
    (v, !f32finite v || (x.op = 5 && !f32finite (rowsum (win.map fun w => w.getD f32zero))))
  else
    let xs := mkSrc c e x.second (x.ch * x.ins)
    let parts := (List.range x.taps).map fun j =>
      match x.outputAt row j with
      | none => f32zero
      | some q =>
        let dy := m.f32 c e (x.yOff ch q)
        let p := x.outPos q
        if x.op = 7 then f32mul dy (f32recip (f32ofNat (x.count p)))
        else
          let win := x.window xs c { e with held := [] } ch p
          let mx := (win.filterMap id).foldl f32max f32negInf
          if f32isNan mx then f32nan else if firstMaxTap win = j then dy else f32zero
    let wide := x.op = 6 && (List.range x.taps).any fun j => (x.outputAt row j).any fun q =>
      !f32finite (((x.window xs c { e with held := [] } ch (x.outPos q)).filterMap id).foldl f32max f32negInf)
    let v := rowsum parts
    (v, wide || parts.any (!f32finite ·) || !f32finite v)

/-- Map and second elements that a pooling result reads. -/
def poolReads (x : WinD) (row n : Nat) : List Nat × List Nat :=
  let ch := x.cFirst + n
  if x.op = 4 || x.op = 5 then ((List.range x.taps).filterMap fun j => (x.inputAt row j).map (x.xOff ch), [])
  else
    let qs := (List.range x.taps).filterMap (x.outputAt row)
    (qs.map (x.yOff ch), if x.op = 6 then
      qs.flatMap fun q => (List.range x.taps).filterMap fun j => (x.inputAt (x.outPos q) j).map (x.xOff ch) else [])

/-- Rows and columns that the block in progress writes, by storage index. -/
def poolPairs (e : Entry) : List (Nat × Nat) :=
  let x := winD e.desc e.record
  sortBy (fun y => x.sidx 0 y.1 y.2) ((List.range x.cols).flatMap fun n => (x.writeRows e.block).map fun r => (r, n))

/-- Outputs that the block computes: its own rows, and earlier ones that a restart lost. -/
def poolOuts (e : Entry) : List (Nat × Nat) :=
  let x := winD e.desc e.record
  ((x.blockRows e.block).flatMap fun r => (List.range x.cols).map fun n => (r, n)) ++
    (poolPairs e).filter fun y => !(x.blockRows e.block).contains y.1 && (x.waits e y.1 y.2).isNone

/-- Map and second elements that a block uses. -/
def poolIdx (e : Entry) : List Nat × List Nat :=
  let x := winD e.desc e.record
  (sortBy id ((poolOuts e).flatMap fun y => (poolReads x y.1 y.2).1).eraseDups,
    sortBy id ((poolOuts e).flatMap fun y => (poolReads x y.1 y.2).2).eraseDups)

/-- What a block of a pooling operation reads and writes; the stripe's region makes no access once it is held. -/
def poolAccs (c : Chip) (e : Entry) : List Acc :=
  let x := winD e.desc e.record
  regionAccs c e (x.stripeOf e) ++ (mkSrc c e x.map x.mapN).accs c e (poolIdx e).1 ++
  (if x.op = 6 then ((mkSrc c e x.second (x.ch * x.ins)).accs c e (poolIdx e).2).map (fun x => { x with again := true })
    else []) ++
  wrAccs x.dest (x.dest.fmt.getD .fp32) x.nDest ((poolPairs e).map fun y => x.sidx 0 y.1 y.2)

/-- One result, from an earlier block where it waited. -/
def poolValue (c : Chip) (e : Entry) (y : Nat × Nat) : W32 :=
  let x := winD e.desc e.record
  (x.waits e y.1 y.2).getD (poolOut x c e y.1 y.2).1

/-- The results that the block in progress writes. -/
def poolResults (c : Chip) (e : Entry) : List ((Nat × Nat) × W32) := (poolPairs e).map fun y => (y, poolValue c e y)

/-- Whether a pooled result is zero while the product that it rounds is not (R98). -/
def poolTiny (c : Chip) (e : Entry) (y : Nat × Nat) : Bool :=
  let x := winD e.desc e.record
  x.op = 5 &&
    let win := x.window (mkSrc c e x.map x.mapN) c e (x.cFirst + y.2) y.1
    mulTiny (rowsum (win.map fun w => w.getD f32zero)) (f32recip (f32ofNat (x.count y.1)))

/-- Every result of the operation, for current scaling (R66). -/
def poolAll (c : Chip) (e : Entry) : List FVal :=
  let x := winD e.desc e.record
  x.blocks.flatMap fun (_, lo, hi) => (span lo hi).flatMap fun r =>
    (List.range x.cols).map fun n => f32v (poolOut x c e r n).1

/-- Blocks whose seal waits for a later position block (R351). -/
def poolHold (c : Chip) (e : Entry) : TRef → Nat → Bool :=
  let x := winD e.desc e.record
  holdOf x.dest (x.dest.fmt.getD .fp32) x.nDest (winRest x (winJob c e) e.block)

/-- What a block of a pooling operation writes. -/
def poolWrites (c : Chip) (e : Entry) : List Wr :=
  let x := winD e.desc e.record
  let f := x.dest.fmt.getD .fp32
  wrsOf x.dest (convertOut c.run.step x.dest f x.nDest x.conv (writeScale x.dest.tid f (fun _ => poolAll c e) c).1
    ((poolResults c e).map fun r => (x.sidx 0 r.1.1 r.1.2, r.1.1 * x.cols + r.1.2, f32v r.2))).bytes

/-- One position block of a pooling operation, committed whole (R163); it waits for its stripe's region. -/
def poolBlock (e0 : Entry) (c : Chip) : Chip :=
  let e := curEntry c e0
  let x := winD e.desc e.record
  if e.round < x.stripeOf e then c else
  if scaleMismatch c e x.map || (x.op = 6 && scaleMismatch c e x.second) then finish e 0x10 c else
  let f := x.dest.fmt.getD .fp32
  unit e (poolAccs c e) (partOf x.dest f x.nDest) (fun e0 c0 =>
    let e := holdReads c0 e0 (regionAccs c0 e0 (x.stripeOf e0))
    let c := setEntry e c0
    let die := dieOf e.tile
    let idx := poolIdx e
    let c1 := markIf (widens32 (mkSrc c e x.map x.mapN) c e idx.1) e .conversion x.map.tid die c
    let c1 := markIf (x.op = 6 && widens32 (mkSrc c e x.second (x.ch * x.ins)) c { e with held := [] } idx.2) e .conversion
      x.second.tid die c1
    let c1 := markIf ((poolOuts e).any fun y => (poolOut x c e y.1 y.2).2) e .vector x.dest.tid die c1
    let (k, c1) := writeScale x.dest.tid f (fun _ => poolAll c e) c1
    let c2 := commitValues e x.dest f x.nDest x.conv k die
      ((poolResults c e).map fun r => (x.sidx 0 r.1.1 r.1.2, r.1.1 * x.cols + r.1.2, f32v r.2)) (poolHold c e) c1
      ((poolPairs e).filter (poolTiny c e)).length
    let e2 := curEntry c2 e
    nextBlock x { e2 with rest := e2.rest ++ (x.waitRows e.block).flatMap fun r =>
      (List.range x.cols).map fun n => (x.restKey r n, (poolOut x c e r n).1) } c2) c

/-! ### Commands -/

/-- `n` commit units of a Window operation. -/
def winUnits (id op : Nat) : Nat → Chip → Chip
  | 0, c => c
  | n + 1, c =>
    match running c id 8 op with
    | some e => winUnits id op n (if op < 4 then convGroup e c else poolBlock e c)
    | none => c

def runWindow (op id groups : Nat) (s : State) : Host.Outcome State Fault Refusal :=
  onChip (fun _ c => winUnits id op groups c) s

/-- CONV_FWD (R153). -/
def execConvFwd (id groups : Nat) (s : State) : Host.Outcome State Fault Refusal := runWindow 1 id groups s
/-- CONV_DGRAD (R153, R155). -/
def execConvDgrad (id groups : Nat) (s : State) : Host.Outcome State Fault Refusal := runWindow 2 id groups s
/-- CONV_WGRAD (R153, R156). -/
def execConvWgrad (id groups : Nat) (s : State) : Host.Outcome State Fault Refusal := runWindow 3 id groups s
/-- POOL_MAX (R157). -/
def execPoolMax (id groups : Nat) (s : State) : Host.Outcome State Fault Refusal := runWindow 4 id groups s
/-- POOL_AVG (R157). -/
def execPoolAvg (id groups : Nat) (s : State) : Host.Outcome State Fault Refusal := runWindow 5 id groups s
/-- POOL_MAX_BWD (R157). -/
def execPoolMaxBwd (id groups : Nat) (s : State) : Host.Outcome State Fault Refusal := runWindow 6 id groups s
/-- POOL_AVG_BWD (R157). -/
def execPoolAvgBwd (id groups : Nat) (s : State) : Host.Outcome State Fault Refusal := runWindow 7 id groups s

/-- Whether the next stripe's region may be read: at once where both regions and the tree state fit together, else after
the current stripe's last commit (R160). The first stripe's region is read with the operation's first unit. -/
def stripeReady (e : Entry) : Bool :=
  let x := winD e.desc e.record
  let cur := x.stripes.getD e.round (0, 0)
  let s := x.stripes.getD (e.round + 1) (0, 0)
  decide (e.round + 1 < x.stripes.length) && decide (e.round ≤ x.stripeOf e) &&
    (decide (x.region cur.1 cur.2 + x.region s.1 s.2 + x.tree ≤ 3 * 2 ^ 20) || decide (e.round < x.stripeOf e))

/-- The accesses that read the next stripe's region: every line again, also those that tile SRAM holds. -/
def stripeAccs (c : Chip) (e : Entry) : List Acc :=
  (regionAccs c e (e.round + 1)).map fun x => { x with again := true }

/-- Reads the next stripe's region whole into tile SRAM: beside the current one, or in its place once it is done. -/
def fetchStripe (e : Entry) (c : Chip) : Chip :=
  if stripeReady e then
    unit e (stripeAccs c e) (fun _ _ => false) (fun e c =>
      let l := copies c e (stripeAccs c e)
      let e' := { e with round := e.round + 1 }
      setEntry (if e.round < (winD e.desc e.record).stripeOf e then { e' with held := l } else { e' with nextHeld := l }) c) c
  else c

/-- STRIPE_REGION_FETCH (R160). -/
def execStripeRegionFetch (id : Nat) (s : State) : Host.Outcome State Fault Refusal :=
  onChip (fun _ c =>
    match entryOf c id with
    | some e => if e.phase = .started ∧ dClass e.desc = 8 then fetchStripe e c else c
    | none => c) s

end Sys2Proof.Machine
end

