-- ==== Sys2Proof/Machine/Retire.lean ====
section
/-! DEFINITION. Queues and streams of the Orrery, completion entries and retirement, stops with their resume records, and
the class rules of cancellation and pre-emption (R370 to R411). -/

namespace Sys2Proof.Machine

/-! ### Queues and streams -/

def Chip.wq (c : Chip) (q : Nat) : Wq := fget Wq.reset c.ory.wqs q
def onWq (q : Nat) (f : Wq → Wq) (c : Chip) : Chip :=
  { c with ory := { c.ory with wqs := fset Wq.reset c.ory.wqs q (f (c.wq q)) } }

def Chip.strm (c : Chip) (s : Nat) : Stream := fget Stream.reset c.ory.streams s
def onStream (s : Nat) (f : Stream → Stream) (c : Chip) : Chip :=
  { c with ory := { c.ory with streams := fset Stream.reset c.ory.streams s (f (c.strm s)) } }

/-- Fields of ORY_WQ_CFG (R415). -/
def Wq.slotsLog (w : Wq) : Nat := bitsOf w.cfg.toNat 0 5
def Wq.ringHost (w : Wq) : Bool := w.cfg.getLsbD 5
def Wq.cplLog (w : Wq) : Nat := bitsOf w.cfg.toNat 8 5
def Wq.cplHost (w : Wq) : Bool := w.cfg.getLsbD 13
def Wq.prio (w : Wq) : Nat := bitsOf w.cfg.toNat 16 2
def Wq.vector (w : Wq) : Nat := bitsOf w.cfg.toNat 24 8
def Wq.slots (w : Wq) : Nat := 2 ^ w.slotsLog

/-- Applies a function to every armed descriptor. -/
def onEntries (f : Entry → Entry) (c : Chip) : Chip := { c with ory := { c.ory with entries := c.ory.entries.map f } }

def prioOf (c : Chip) (e : Entry) : Nat := (c.wq e.wq).prio

/-- Ring index that stands for the direct slot, and for a refused submission to it (R412). -/
def directIndex : Nat := 2 ^ 32
def busyIndex : Nat := 2 ^ 33

/-- Whether index `i` lies below a tail that was written earlier. -/
def belowTail (i t : W32) : Bool := i != t && decide ((t - i).toNat ≤ 2 ^ 31)

/-- Whether a desc_id lies serially from `first` to `last`: neither before the one nor after the other (R405, R413). -/
def inIds (x first last : W32) : Bool := decide ((x - first).toNat < 2 ^ 31) && decide ((last - x).toNat < 2 ^ 31)

/-- Whether a cancellation of a span, or of everything, names a desc_id. -/
def inSpan (x : W32) (r : Option (W32 × W32)) : Bool := r.all fun y => inIds x y.1 y.2

/-- The first 16 bytes of a slot as the device can read them; none: unreadable (R642). -/
def slotHeader? (c : Chip) (q : Nat) (i : W32) : Option Desc :=
  let w := c.wq q
  if w.ringHost then fget none w.hostSlots i.toNat
  else
    let a := w.base.toNat + 128 * (i.toNat % w.slots)
    if poisonedAt c a then none else some (.ofNat 1024 (readNat c a 16))

/-- Whether an unfetched slot is a target of the pending cancellation (R405), and whether of PREEMPT (R409). -/
def slotHit (c : Chip) (q : Nat) (i : W32) (id : Nat) : Hit :=
  let w := c.wq q
  ⟨w.ranges.any fun r => belowTail i r.2 && inSpan (.ofNat 32 id) r.1, w.preAll.any (belowTail i)⟩

/-- Whether a descriptor with these hits is a target, of CLOSE where nothing else (R380, R406). -/
def Wq.hitBy (w : Wq) (h : Hit) : Bool := w.closing || h.cancel || h.pre

/-- The descriptors that wait in the direct slot and its shadow. -/
def Wq.waiting (w : Wq) : List (Desc × Hit) := w.submitted.toList ++ w.shadow.toList

/-- Whether some slot not yet fetched is still a target of the pending cancellation. -/
def cancelAhead (c : Chip) (q : Nat) : Bool :=
  let w := c.wq q
  (List.range (w.tail - w.fetched).toNat).any fun k =>
    let i := w.fetched + .ofNat 32 k
    (slotHeader? c q i).any fun d => (slotHit c q i (dId d)).cancel

/-- Whether an entry with this identifier has not retired. -/
def isLive (c : Chip) (id : Nat) : Bool := (entryOf c id).isSome

/-- Clears cancel_busy and preempt_busy once every target has retired, and ends a CLOSE (R380, R408, R409). -/
def settleQueue (q : Nat) (c : Chip) : Chip :=
  let w := c.wq q
  let c := if w.cancelBusy && !(w.targets.any (isLive c)) && !(w.waiting.any (·.2.cancel)) && !cancelAhead c q then
      onWq q (fun w => { w with cancelBusy := false, targets := [], ranges := [] }) c else c
  let c := if w.preemptBusy && !(w.preTargets.any (isLive c)) && !(w.waiting.any (·.2.pre)) && !(w.preAll.any (belowTail w.fetched)) then
      onWq q (fun w => { w with preemptBusy := false, preTargets := [], preAll := none }) c else c
  if w.closing && w.fetched = w.tail && w.waiting.isEmpty && !(c.ory.entries.any fun e => e.wq = q) then
    let c := onWq q (fun w => { w with isOpen := false, closing := false, hostSlots := [] }) c
    { c with ory := { c.ory with streams := c.ory.streams.foldl (fun l (s, x) =>
      if x.owner = some q then fset Stream.reset l s { x with owner := none } else l) c.ory.streams } }
  else c

/-! ### Retirement (R374, R375, R377, R397) -/

/-- A completion entry (R375). -/
def cplBytes (m : Mgt) (e : Entry) (w : Wq) : List Byte :=
  let phase := 1 - (w.cplTail.toNat >>> w.cplLog) % 2
  let die := dieOf e.tile
  toBytes 4 (dId e.desc) ++ toBytes 1 e.status ++ toBytes 1 (dClass e.desc) ++ toBytes 1 (dOpcode e.desc) ++
  toBytes 1 (dStream e.desc) ++ toBytes 1 (e.tile % 128 + 128 * phase) ++ toBytes 1 die ++ toBytes 6 (m.counter die).toNat

/-- Address of the next completion entry. -/
def Wq.cplAt (w : Wq) : Nat := w.cplBase.toNat + 16 * (w.cplTail.toNat % 2 ^ w.cplLog)

/-- Whether the completion ring has no room (R377). -/
def Wq.cplFull (w : Wq) : Bool := decide (2 ^ w.cplLog ≤ (w.cplTail - w.cplHead).toNat)

/-- Whether retirement sets the signal flag (R397). -/
def signals (e : Entry) : Bool :=
  fld e.desc 3 1 1 = 1 && (e.status = 0 || (e.status = 0x0D && dClass e.desc = 6))

/-- Whether the stream's order lets a descriptor retire (R397, R642, R643). -/
def canRetire (c : Chip) (e : Entry) : Bool :=
  e.phase == .done && (e.apart || !(c.ory.entries.any fun x =>
    decide (x.id < e.id) && !x.apart && decide (dStream x.desc = dStream e.desc)))

/-- Moves the head past what has retired (R374). -/
def moveHead : Nat → W32 → List Nat → W32 × List Nat
  | 0, h, r => (h, r)
  | n + 1, h, r => if r.contains h.toNat then moveHead n (h + 1) (r.erase h.toNat) else (h, r)

/-- Writes the completion entry, where the host does not hold its line; cpl_full rises where it fills the ring (R377). -/
def postEntry (m : Mgt) (e : Entry) (c : Chip) : Chip :=
  let w := c.wq e.wq
  let a := w.cplAt
  let c := if w.cplHost then emit (.hostWrite a (cplBytes m e w)) c
    else setPoison a false (writeBytes a (cplBytes m e w) c)
  let c := raiseIf (ctrWraps w.completed 1) .ory 6 (onWq e.wq (fun w => { w with
    cplTail := w.cplTail + 1
    completed := ctrAdd w.completed 1 }) c)
  let c := raiseIf (c.wq e.wq).cplFull .ory 4 c
  if fld e.desc 3 3 1 = 1 && e.index != busyIndex then requestVector w.vector c else c

/-- What the device remembers of a descriptor that retires PREEMPTED, for the host's restart of it: that its marks have been
counted (R97), and that it skipped a poisoned word (R357). -/
def rememberStop (e : Entry) (c : Chip) : Chip :=
  let x := (e.wq, BitVec.ofNat 32 (dId e.desc))
  let keep (p : Bool) (l : List (Nat × W32)) : List (Nat × W32) :=
    l.filter (· != x) ++ if p && e.status = 0x0C then [x] else []
  { c with
    asy := { c.asy with nfIds := keep e.marked c.asy.nfIds }
    ory := { c.ory with skipped := keep (dClass e.desc = 4 && 0x10 ≤ dOpcode e.desc && e.from_ = 1) c.ory.skipped } }

/-- Takes a retired descriptor out of its queue and stream. -/
def dropEntry (e : Entry) (c : Chip) : Chip :=
  let c := rememberStop e c
  let c := { c with ory := { c.ory with entries := c.ory.entries.filter fun x => x.id != e.id } }
  let c := if e.index = busyIndex then c else
    raiseIf (ctrWraps c.ory.retiredCnt 1) .ory 6 { c with ory := { c.ory with retiredCnt := ctrAdd c.ory.retiredCnt 1 } }
  let c := onWq e.wq (fun w =>
    if e.index < directIndex then
      let (h, r) := moveHead (w.retired.length + 1) w.head (w.retired ++ [e.index])
      { w with head := h, retired := r, hostSlots := fset none w.hostSlots e.index none }
    else if w.direct = some e.id then { w with direct := none } else w) c
  let s := dStream e.desc
  let c := if e.apart || c.ory.entries.any (fun x => !x.apart && decide (dStream x.desc = s)) then c
    else onStream s (fun x => { x with owner := none }) c
  settleQueue e.wq c

/-- DESCRIPTOR_RETIRE up to what it lets arm: the completion entry, then the signal flag, behind its fence (R397, R426). -/
def retireOne (m : Mgt) (id : Nat) (c : Chip) : Chip :=
  match entryOf c id with
  | none => c
  | some e =>
    let w := c.wq e.wq
    let held := if w.cplHost then [] else trackedIn c w.cplAt 16
    if !canRetire c e then c
    else if w.cplFull then raise .ory 4 c
    else if held ≠ [] then sendSnoops held c
    else if signals e && fld e.desc 3 2 1 = 1 && !fenceDone c e then c
    else
      let c := postEntry m e c
      let c := if signals e then setFlag (byt e.desc 10 2) c else c
      dropEntry e c

/-! ### Resume records (R128, R193, R407) -/

/-- Whether a descriptor has resume records (R407). -/
def hasRecord (d : Desc) : Bool :=
  [1, 2, 3, 4, 5, 8, 0x0B].contains (dClass d) || (dClass d = 9 && (dOpcode d = 1 || dOpcode d = 2))

def resumeAddr (c : Chip) (e : Entry) : Nat := (c.wq e.wq).resumeBase.toNat + 32 * e.slot

/-- Whether the pass in progress is the last of the range. -/
def destWritten (e : Entry) : Bool :=
  match dClass e.desc with
  | 1 => let a := arrD e.desc; lastPass (a.cls.getD 8) a.kFirst a.kCount e.kblock
  | 8 => let x := winD e.desc e.record; !x.pool && lastPass (x.cls.getD 8) x.kFirst x.kCount e.kblock
  | _ => false

/-- Whether an operation's position is its end: nothing is left that could be stopped (R128). -/
def atEnd (e : Entry) : Bool :=
  match dClass e.desc with
  | 4 => dOpcode e.desc ≤ 2 && (moveD e.desc).blocks ≤ e.chunk
  | _ => false

/-- Address and tensor of the stationary operand that a resume record names (R128, R163, R193). -/
def stationaryOf (e : Entry) : Nat × Nat :=
  match dClass e.desc with
  | 1 =>
    let a := arrD e.desc
    (a.stat.addr + storeIdx a.stat.layout a.rows a.kElems 0 (128 * e.kblock) * ((a.stat.fmt.map (·.bits)).getD 0) / 8, a.stat.tid)
  | 8 => let x := winD e.desc e.record; (x.map.addr, x.map.tid)
  | 3 => if dOpcode e.desc ≤ 2 then let a := attD e.desc e.record; (a.query.addr, a.query.tid) else (0, 0)
  | _ => (0, 0)

/-- The resume record of a stopped operation; `sram` where the tile keeps its contents (R128, R163, R193, R233, R268, R358). -/
def stopRecord (e : Entry) (sram fault : Bool) : List Byte :=
  let flags (d : Bool) : Nat := b2n sram + 2 * b2n d + 4 * b2n e.lead.isSome
  let cause := b2n fault
  let (at_, tid) := stationaryOf e
  match dClass e.desc with
  | 1 => resumeBytes e e.chunk e.kblock e.groups (flags (destWritten e)) cause at_ tid 0
  | 8 =>
    let x := winD e.desc e.record
    if x.pool then resumeBytes e 0 0 0 (b2n sram) cause at_ tid e.block
    else resumeBytes e e.chunk e.kblock e.groups (flags (destWritten e)) cause at_ tid e.block
  | 3 =>
    if dOpcode e.desc ≤ 2 then
      let a := attD e.desc e.record
      resumeBytes e (a.kbHi - 16 * e.groups - 1) 0 e.groups (flags false) cause at_ tid 0
    else resumeBytes e 0 0 0 0 cause 0 0 0
  | 2 => resumeBytes e e.chunk 0 e.groups 0 cause 0 0 0
  | 4 => resumeBytes e e.chunk 0 0 0 cause 0 0 0
  | _ => resumeBytes e 0 0 0 0 cause 0 0 0

/-- Writes an operation's resume record into its queue's resume area (R411). -/
def writeRecord (e : Entry) (sram fault : Bool) (c : Chip) : Chip :=
  let a := resumeAddr c e
  let c := writeBytes a (stopRecord e sram fault) (sendSnoops (trackedIn c a 32) c)
  setPoison (a + 16) false (setPoison a false c)

/-- Adds to ORY_PREEMPTIONS (R415). -/
def countPreempt (c : Chip) : Chip :=
  raiseIf (ctrWraps c.ory.preemptions 1) .ory 6 { c with ory := { c.ory with preemptions := ctrAdd c.ory.preemptions 1 } }

/-- Takes a descriptor out of its multicast stream; the others go on (R125). -/
def leaveMulticast (id : Nat) (c : Chip) : Chip :=
  onEntries (fun x => if x.id = id then { x with mcast := [] } else { x with mcast := x.mcast.erase id }) c

/-- What a stopped operation lets go of on its tile. -/
def releaseTile (e : Entry) (c : Chip) : Chip :=
  match dClass e.desc with
  | 3 =>
    let c := if e.round = 2 && dOpcode e.desc ≤ 2 then (attD e.desc e.record).setBusy false c else c
    onPtile e (fun p c => c.setTile p { c.tile p with attActive := othersRun e c }) c
  | 5 | 11 => onPtile e (fun p c => c.setTile p { c.tile p with codActive := codOthers e c }) c
  | _ => c

/-- An entry whose tile no longer holds anything of it (R129). -/
def forget (e : Entry) : Entry := { e with kept := false, held := [], nextHeld := [], tree := [], wide := [] }

/-- Whether a class keeps its SRAM and array over a pre-emption. -/
def keepsSram (e : Entry) : Bool := dClass e.desc = 1 || dClass e.desc = 8 || (dClass e.desc = 3 && dOpcode e.desc ≤ 2)

/-- Leaves in its tile what a pre-empted operation had there, for the host's restart of it (R129, R163, R194). -/
def keepInPlace (e : Entry) (c : Chip) : Chip :=
  let (at_, tid) := stationaryOf e
  onPtile e (fun p c => c.setTile p { c.tile p with
    inPlace := (c.tile p).inPlace ++ [⟨at_, tid, e.held, e.tree, e.wide⟩] }) c

/-- Stops a started operation for the device's own restart (R410): the group in progress is discarded, the record written,
and what the fetch engine had brought in released (R398). -/
def stopOne (sram fault : Bool) (e0 : Entry) (c : Chip) : Chip :=
  let e := curEntry c e0
  if e.phase != .started || !hasRecord e.desc || atEnd e then c else
  let c := releaseTile e (writeRecord e sram fault c)
  let keeps := sram && keepsSram e
  let e' := { (if keeps then e else forget e) with
    phase := .stopped
    kept := keeps
    written := destWritten e
    round := if dClass e.desc = 3 then min e.round 1 else if dClass e.desc = 8 || dClass e.desc = 1 then e.round else 0
    acks := if dClass e.desc = 4 then e.acks else []
    ext := []
    fill := []
    asked := false }
  leaveMulticast e.id (dropRequests e.id (setEntry e' c))

/-- Stops an operation, or the whole batch that it runs in (R136). -/
def stopEntry (sram fault : Bool) (e : Entry) (c : Chip) : Chip :=
  (if e.lead.isSome && e.round != 0 then membersOf c e else [e]).foldl (fun c x => stopOne sram fault x c) c

/-- Ends a started or stopped operation with PREEMPTED, its record written (R409). -/
def preemptOne (sram fault : Bool) (e0 : Entry) (c : Chip) : Chip :=
  let e := curEntry c e0
  if atEnd e then c
  else
    let keeps := if e.phase = .started then sram && keepsSram e else e.kept
    let c := if e.phase = .started then writeRecord e sram fault c else c
    let c := if keeps then keepInPlace e c else c
    countPreempt (endOp e 0x0C (leaveMulticast e.id c))

def preemptEntry (sram fault : Bool) (e : Entry) (c : Chip) : Chip :=
  (if e.lead.isSome && e.round != 0 && e.phase = .started then membersOf c e else [e]).foldl
    (fun c x => preemptOne sram fault x c) c

/-! ### Cancellation (R131, R137, R195, R233, R268, R282, R307, R358, R406, R407, R439) -/

/-- Ends an unstarted descriptor with CANCELLED: its entry and its band request are returned (R406). -/
def cancelUnstarted (e : Entry) (c : Chip) : Chip :=
  dropRequests e.id (setEntry { e with phase := .done, status := 0x06, tile := 127, holds := false, asked := false } c)

/-- Whether an Array descriptor's destination is still unwritten: no group of a last pass has been committed. -/
def destClean (e : Entry) : Bool :=
  e.chunk = 0 && e.from_ = 0 && !(destWritten e && 0 < e.groups)

/-- A cancellation reaches a started, or stopped, descriptor. A batch member's destination is left unwritten where it still
is, although groups of earlier passes are committed (R137). -/
def cancelStarted (e : Entry) (c : Chip) : Chip :=
  let stop (c : Chip) : Chip := endOp e 0x06 (leaveMulticast e.id c)
  match dClass e.desc with
  | 1 => if e.begun && !(e.lead.isSome && destClean e) then c else stop c
  | 2 | 8 => if e.begun then c else stop c
  | 4 => if e.begun then c else stop c
  | 3 | 5 | 11 => stop c
  | 6 => collCancel e c
  | 7 => if dOpcode e.desc = 3 then freeSlot e.slotW (stop c) else c
  | 9 => if dOpcode e.desc ≤ 2 || (dOpcode e.desc = 4 && (collOf c e.id).isNone) then stop c else c
  | _ => c

/-- A cancellation reaches a descriptor (R406). -/
def cancelEntry (e0 : Entry) (c : Chip) : Chip :=
  let e := curEntry c e0
  match e.phase with
  | .done => c
  | .arming | .armed => cancelUnstarted e c
  | .started | .stopped => cancelStarted e c

end Sys2Proof.Machine
end

