-- ==== Sys2Proof/Machine/Orrery.lean ====
section
/-! DEFINITION. The Orrery: doorbells and queues, arming with its checks, starts, batches, multicast, barriers,
cancellation and pre-emption (R370 to R412, R642 to R645). -/

namespace Sys2Proof.Machine

/-! ### What a descriptor is -/

/-- Opcodes of each class. -/
def opcodeOk (cls op : Nat) : Bool :=
  match cls with
  | 1 => op = 1
  | 2 => 1 ≤ op && op ≤ 0x12
  | 3 | 7 | 11 => 1 ≤ op && op ≤ 5
  | 4 => op = 1 || op = 2 || (0x10 ≤ op && op ≤ 0x15)
  | 5 | 10 => op = 1 || op = 2
  | 6 => 1 ≤ op && op ≤ 11
  | 8 => 1 ≤ op && op ≤ 7
  | 9 => 1 ≤ op && op ≤ 4
  | _ => false

/-- Classes read in the 64-byte form (R386). -/
def shortForm (d : Desc) : Bool := [7, 10, 11].contains (dClass d)

/-- Whether a descriptor runs on its stream's tile (R383). -/
def onTileClass (d : Desc) : Bool :=
  [1, 2, 3, 4, 5, 8, 11].contains (dClass d) || (dClass d = 9 && (dOpcode d = 1 || dOpcode d = 2))

/-- The subset accepted at major 1 (R380). -/
def enene (d : Desc) : Bool :=
  match dClass d with
  | 1 => let a := arrD d; dOpcode d = 1 && a.mode ≤ 1 && (a.cls = some 8 || a.cls = some 16)
  | 2 => 1 ≤ dOpcode d && dOpcode d ≤ 0x0A
  | 4 => dOpcode d = 1 || dOpcode d = 2
  | 7 => opcodeOk 7 (dOpcode d)
  | 10 => dOpcode d = 1
  | _ => false

/-- Whether the queue was opened with the additions of minor 1 (R380). -/
def Wq.minor1 (w : Wq) : Bool := w.major = 2 && w.minor ≠ 0

def dResume (d : Desc) : Bool := fld d 3 4 1 = 1

/-- Microseconds of batching that a descriptor asks for; 0 for none, and for a segment where its tile's batch_en is clear
(R135, R213, R218). -/
def deadlineOf (c : Chip) (e : Entry) : Nat :=
  let d := e.desc
  if dClass d = 1 then (arrD d).deadline
  else if dClass d = 3 && dOpcode d = 1 && (ptileOf c e.tile).all fun p => (c.tile p).attBatchEn then fld d 116 22 10 else 0

/-! ### The header's checks (R387) -/

/-- Rows VERSION and RESERVED_NONZERO. -/
def headEarly (w : Wq) (d : Desc) : Option Nat :=
  let major := fld d 0 4 4
  let off (bit o : Nat) : Bool := fld d 3 bit 1 = 0 && byt d o 2 != 0
  if major ≠ w.major.toNat ∨ w.minor.toNat < fld d 0 0 4 ∨ (major = 1 ∧ !enene d) then some 0x03
  else if !opcodeOk (dClass d) (dOpcode d) || (dClass d = 10 && dOpcode d = 2 && !w.minor1) || fld d 3 5 3 != 0 || off 0 8 ||
    off 1 10 || (dClass d != 6 && byt d 14 2 != 0) || (major = 1 && byt d 13 3 != 0) || (dResume d && !hasRecord d) then some 0x04
  else none

/-- Whether a stream belongs to another queue (R382). -/
def foreignStream (c : Chip) (q : Nat) (d : Desc) : Bool := (c.strm (dStream d)).owner.any (· != q)

/-- Whether a desc_id is out of order (R388). -/
def outOfOrder (w : Wq) (d : Desc) : Bool :=
  !dResume d && w.prevDesc.any fun p => !after32 (dId d) p.toNat

/-- The tile a descriptor would run on; 127 for none (R383, R534). -/
def placeTile (c : Chip) (d : Desc) : Nat :=
  let t := (c.strm (dStream d)).tile.toNat
  if !onTileClass d then 127
  else if t ≠ 127 then t
  else
    let used (t : Nat) : Nat := (c.ory.entries.filter fun e => e.holds && e.tile = t).length
    let ts := (List.range 96).filter fun t => !c.til.unbacked.contains t
    ts.foldl (fun b t => if b = 127 || used t < used b then t else b) 127

/-- The ACCESS row but for R382 and the resume record: placement and order (R383, R388, R534). -/
def misplaced (c : Chip) (d : Desc) : Bool :=
  (dClass d = 11 && (c.strm (dStream d)).tile = 127) || (onTileClass d && c.til.unbacked.contains (placeTile c d))

/-! ### What arming reads besides the descriptor -/

/-- The record a descriptor names. -/
def recordSpan (d : Desc) : Nat × Nat :=
  match dClass d, dOpcode d with
  | 3, 1 | 3, 2 => (byt d 80 8, 256)
  | 3, _ => (byt d 88 8, 128)
  | 8, _ => (byt d 112 8, 64)
  | 11, 1 => (byt d 16 8, 128)
  | 9, 1 | 9, 2 => (byt d 48 8, 128)
  | 9, 3 => (byt d 16 8, 256)
  | 6, 8 | 6, 10 | 6, 11 => (byt d 96 8, 64)
  | _, _ => (0, 0)

/-- What the record names in turn: lists, headers and the pool. -/
def listSpans (c : Chip) (d : Desc) (r : BitVec 2048) : List (Nat × Nat) :=
  match dClass d, dOpcode d with
  | 3, 1 | 3, 2 =>
    let a := attD d r
    (if a.globals = 0 then [] else [(a.globals, 1024)]) ++
    (if a.source = 2 then [(a.pool, 128)] else [])
  | 6, op =>
    let x := collD d
    if op = 8 || op = 10 then [((grpOf r).list, (grpOf r).listBytes)]
    else if op = 11 then [(byt r 8 8, 16 * byt r 1 1)]
    else if x.data && x.listed then [(x.src.addr, 32 * (c.grp x.gq).shares)] else []
  | 4, 0x11 | 4, 0x12 => [tableHead (memD d).table]
  | 4, 0x13 => [tableHead (memD d).idx]
  | _, _ => []

/-- The groups that an adoption's list names. -/
def adoptSpans (d : Desc) (l : List Byte) : List (Nat × Nat) :=
  if dClass d = 6 && dOpcode d = 11 then (chunksOf 16 l).map fun e => (ofBytes (e.take 8), 64) else []

/-- The member lists of those groups' records. -/
def adoptLists (l : List Byte) : List (Nat × Nat) :=
  (chunksOf 64 l).map fun r =>
    let g := grpOf (BitVec.ofNat 512 (ofBytes r))
    (g.list, g.listBytes)

/-- Bytes of spans, as an entry sees them: a window address resolves to the generation active as it is armed (R258; log
entry 80). -/
def spanBytes (c : Chip) (e : Entry) (ss : List (Nat × Nat)) : List Byte := ss.flatMap fun s => peekN c (bindWindow c e) s.1 s.2

/-- What reading some spans at arming finds. -/
def readSpans (e : Entry) (ss0 : List (Nat × Nat)) (c : Chip) : Pre :=
  let w := bindWindow c e
  let ss := ss0.map fun s => (phys w false s.1, s.2)
  let here := ss.filter fun s => !isOuter s.1
  if (ss.any fun s => !accessible c s.1 s.2 false) || (ss0.any fun s => !windowHolds w s.1 s.2) then .stop 0x0E c else
  let lines := here.flatMap fun s => trackedIn c s.1 s.2
  if lines ≠ [] then .wait (sendSnoops lines c) else
  let outer := ss.filter fun s => isOuter s.1 && extMissing e s.1 s.2
  if outer ≠ [] then
    if e.asked then .wait c
    else .wait (outer.foldl (fun c s => sendUio e s.1 s.2 true [] c) (setEntry { e with asked := true } c))
  else
    let c := here.foldl (fun c s => meet s.1 s.2 c) c
    match here.findSome? fun s => firstPoison c s.1 s.2 with
    | some w => .stop 0x0B (recordUe w c)
    | none => .go c

/-! ### The resume record at arming (R411) -/

/-- Whether the recorded position lies at or beyond the end of the operation. -/
def positionBad (e : Entry) (r : BitVec 256) : Bool :=
  let chunk := byt r 4 4
  let k := byt r 8 2
  let g := byt r 10 2
  let d := e.desc
  let moved := chunk != 0 || k != 0 || g != 0
  match dClass d with
  | 1 =>
    let a := arrD d
    let n := cdiv a.nCols a.chunk
    decide (n ≤ chunk) || (chunk + 1 = n && (a.kFirst + a.kCount ≤ k ||
      (lastPass (a.cls.getD 8) a.kFirst a.kCount k && chunkGroups a chunk ≤ g)))
  | 2 =>
    let v := vecD d
    decide (v.unitRows ≤ chunk) || (!v.byRows && !v.rowOp && chunk + 1 = v.unitRows && v.unitLen ≤ 16384 * g)
  | 8 =>
    let x := winD d e.record
    let b := byt r 28 4
    let n := cdiv x.nCols x.chunk
    decide (x.blocks.length ≤ b) || (!x.pool && (n ≤ chunk || (b + 1 = x.blocks.length && chunk + 1 = n &&
      (x.kFirst + x.kCount ≤ k || (lastPass (x.cls.getD 8) x.kFirst x.kCount k &&
        cdiv (min x.chunk (x.nCols - chunk * x.chunk)) 16 ≤ g)))))
  | 3 => if dOpcode d ≤ 2 then let a := attD d e.record; chunk < a.kbLo || a.kbHi ≤ 16 * g + a.kbLo else moved
  | 4 =>
    if dOpcode d ≤ 2 then (moveD d).blocks ≤ chunk
    else let x := memD d; if x.scatter then x.rows ≤ chunk else moved
  | _ => moved

/-- Whether the record names another descriptor or holds reserved bits (R411). -/
def resumeBad (e : Entry) (r : BitVec 256) : Bool :=
  byt r 0 4 != dId e.desc || byt r 14 2 != 0 || fld r 12 3 5 != 0 || (dClass e.desc != 8 && byt r 28 4 != 0)

/-- First K-block of an operation's range. -/
def firstK (e : Entry) : Nat :=
  match dClass e.desc with
  | 1 => (arrD e.desc).kFirst
  | 8 => let x := winD e.desc e.record; if x.pool then 0 else x.kFirst
  | _ => 0

/-- An entry at the position of its record, as it stopped; what it can continue is settled when it starts (R129, R130, R194).
Its marks count once over all its attempts (R97), and a word that an earlier one skipped is not forgotten (R357). -/
def resumeAt (c : Chip) (e0 : Entry) (r : BitVec 256) : Entry :=
  let g := byt r 10 2
  let written := fld r 12 1 1 = 1
  let begun := byt r 4 4 != 0 || byt r 8 2 > firstK e0 || g != 0 || byt r 28 4 != 0
  let me := (e0.wq, BitVec.ofNat 32 (dId e0.desc))
  let e := { e0 with
    marked := c.asy.nfIds.contains me
    want := if fld r 12 0 1 = 1 then some (byt r 16 8, byt r 24 4) else none }
  let at' (e : Entry) : Entry := { e with
    chunk := byt r 4 4, kblock := byt r 8 2, groups := g, written := written, from_ := if written then g else 0, begun := begun }
  match dClass e.desc with
  | 1 => at' e
  | 8 => let e := { e with block := byt r 28 4 }; if (winD e.desc e.record).pool then { e with begun := begun } else at' e
  | 3 => { e with groups := g }
  | 2 => { e with chunk := byt r 4 4, groups := g, begun := begun }
  | 4 => { e with chunk := byt r 4 4, begun := byt r 4 4 != 0, from_ := b2n (c.ory.skipped.contains me) }
  | _ => e

/-! ### Class checks -/

/-- The Barrier class at arming (R401 to R403). -/
def checkBarrier (c : Chip) (d : Desc) : Option Nat :=
  let group := dOpcode d = 2
  let reserved := byt d 48 16 != 0 ||
    (group && (fld d 16 6 2 != 0 || fld d 17 1 7 != 0 || byt d 20 28 != 0))
  if group && !(c.gq (fld d 16 0 6)).bound then some 0x0E
  else if reserved then some 0x04
  else if !group && byt d 16 32 = 0 then some 0x01
  else if group && byt d 18 2 % 32 != 0 then some 0x02
  else none

/-- The checks of a descriptor's class, with its record and lists read. -/
def classCheck (m : Mgt) (c : Chip) (e : Entry) (l : List Byte) : Option Nat :=
  let d := e.desc
  let deadlines := (c.wq e.wq).minor1
  match dClass d with
  | 1 => checkArray c d deadlines
  | 2 => checkVector c d
  | 3 => if dOpcode d ≤ 2 then checkAttention c e d e.record deadlines else checkCache c e d
  | 4 => if dOpcode d ≤ 2 then checkMove c d else checkMem m c e
  | 5 => checkCodec c d
  | 6 => checkColl m c d e.record l
  | 7 => checkFlag m c d
  | 8 => checkWindow c d e.record
  | 9 => checkUpdate c d e.record
  | 10 => checkBarrier c d
  | _ => checkStack c e d e.record

/-! ### Arming -/

/-- ORY_LAST_REFUSAL and the refusal event; EMPTY is no refusal (R392). -/
def noteRefusal (q st cls op id : Nat) (c : Chip) : Chip :=
  if st = 0x01 then c else
  raise .ory 0 { c with ory := { c.ory with
    lastRefusal := .ofNat 64 (st <<< 56 ||| q <<< 50 ||| cls <<< 40 ||| op <<< 32 ||| id) } }

/-- Completes a descriptor as it is armed (R643). -/
def refuseArm (e : Entry) (st : Nat) (c : Chip) : Chip :=
  noteRefusal e.wq st (dClass e.desc) (dOpcode e.desc) (dId e.desc)
    (setEntry { e with phase := .done, status := st, tile := 127, holds := false, asked := false } c)

/-- Goes on arming an entry: its resume record, its record and lists, then the checks that need them. -/
def armAdvance (m : Mgt) (id : Nat) (c : Chip) : Chip :=
  match entryOf c id with
  | none => c
  | some e =>
    if e.phase != .arming then c else
    let rs := recordSpan e.desc
    let resume := dResume e.desc
    match readSpans e (if resume then [(resumeAddr c e, 32)] else []) c with
    | .wait c => c
    | .stop st c => refuseArm e st c
    | .go c =>
    let r : BitVec 256 := if resume then .ofNat 256 (peekNat c e (resumeAddr c e) 32) else 0
    if resume && resumeBad (curEntry c e) r then refuseArm e 0x0E c else
    -- The rows of R387 come before what the class's record shows.
    match readSpans (curEntry c e) (if rs.2 = 0 then [] else [rs]) c with
    | .wait c => c
    | .stop st c' => if 31 < dSc e.desc then refuseArm e 0x02 c else refuseArm e st c'
    | .go c =>
      let e := curEntry c e
      let e := { e with record := if rs.2 = 0 then 0 else .ofNat 2048 (ofBytes (spanBytes c e [rs])) }
      if resume && positionBad e r then refuseArm e 0x0E c
      else if 31 < dSc e.desc then refuseArm e 0x02 c else
      let ls := listSpans c e.desc e.record
      match readSpans e ls c with
      | .wait c => c
      | .stop st c => refuseArm e st c
      | .go c =>
        let l1 := spanBytes c e ls
        let as := adoptSpans e.desc l1
        match readSpans e as c with
        | .wait c => c
        | .stop st c => refuseArm e st c
        | .go c =>
        let ms := adoptLists (spanBytes c e as)
        match readSpans e ms c with
        | .wait c => c
        | .stop st c => refuseArm e st c
        | .go c =>
          let l := l1 ++ spanBytes c e as ++ spanBytes c e ms
          match classCheck m c (bindWindow c e) l with
          | some st => refuseArm e st c
          | none =>
            let keep := if dClass e.desc = 6 then l.zipIdx.map fun (b, i) => (listKey i, b) else []
            let e := { e with phase := .armed, asked := false, kblock := firstK e, ext := e.ext ++ keep }
            setEntry (if resume then resumeAt c e r else e) c

/-- A new entry. -/
def newEntry (c : Chip) (q idx slot : Nat) (d : Desc) (tile : Nat) : Entry :=
  { Entry.reset with id := c.ory.nextId, wq := q, index := idx, slot := slot, desc := d, tile := tile }

/-- Adds an entry to the armed descriptors. -/
def addEntry (e : Entry) (c : Chip) : Chip :=
  { c with ory := { c.ory with entries := c.ory.entries ++ [e], nextId := c.ory.nextId + 1 } }

/-- Whether an entry for a tile, or a module entry, is free (R393). -/
def roomFor (c : Chip) (tile : Nat) : Bool :=
  decide ((c.ory.entries.filter fun e => e.holds && e.tile = tile).length < if tile = 127 then 512 else 48)

/-- Arms one descriptor, or ends it as it is armed; none where no entry is free, which stops every descriptor but a target
(R387, R388, R393, R406, R643). -/
def armDesc (m : Mgt) (q idx slot : Nat) (d0 : Desc) (hit : Hit) (c : Chip) : Option Chip :=
  let d := if shortForm d0 then .ofNat 1024 (byt d0 0 64) else d0
  let w := c.wq q
  let target := w.hitBy hit
  let early := if target then none else headEarly w d
  let apart := !target && foreignStream c q d && early.isNone
  let byOrder := !target && early.isNone && !apart && !misplaced c d && outOfOrder w d
  let st : Option Nat :=
    if target then some 0x06
    else if early.isSome then early
    else if apart || misplaced c d || outOfOrder w d then some 0x0E else none
  let tile := placeTile c d
  if !target && !roomFor c tile then none else
  let e := newEntry c q idx slot d (if st.isNone then tile else 127)
  let e := match st with
    | some s => { e with phase := .done, status := s, apart := apart }
    | none => { e with holds := true }
  let c := raiseIf (ctrWraps c.ory.armedCnt 1) .ory 6 (addEntry e { c with ory := { c.ory with armedCnt := ctrAdd c.ory.armedCnt 1 } })
  let c := onWq q (fun w => { w with
    prevDesc := if byOrder then w.prevDesc else some (.ofNat 32 (dId d))
    direct := if idx = directIndex then some e.id else w.direct
    targets := if hit.cancel then w.targets ++ [e.id] else w.targets
    preTargets := if hit.pre then w.preTargets ++ [e.id] else w.preTargets }) c
  let c := if apart then c else onStream (dStream d) (fun x => if x.owner.isNone then { x with owner := some q } else x) c
  some (match st with
    | some s =>
      let c := if target then c else noteRefusal q s (dClass d) (dOpcode d) (dId d) c
      if apart then retireOne m e.id c else c
    | none => armAdvance m e.id c)

/-- A slot that cannot be read (R642). -/
def armUnreadable (m : Mgt) (q idx slot : Nat) (c : Chip) : Chip :=
  let e := { newEntry c q idx slot 0 127 with phase := .done, status := 0x0B, apart := true }
  retireOne m e.id (noteRefusal q 0x0B 0 0 0 (addEntry e c))

/-- Index of the oldest descriptor of a queue's ring that has not started. -/
def oldestUnstarted (c : Chip) (q : Nat) : W32 :=
  let e? := c.ory.entries.find? fun e => e.wq = q && decide (e.index < directIndex) && (e.phase == .armed || e.phase == .arming)
  (e?.map fun e => BitVec.ofNat 32 e.index).getD (c.wq q).fetched

/-- Whether the look-ahead lets a queue arm index `i` (R393). -/
def withinLook (c : Chip) (q : Nat) (i : W32) : Bool := decide ((i - oldestUnstarted c q).toNat ≤ c.ory.lookahead.toNat)

/-- Fetches and arms the next slot of a queue's ring; none where arming stops. -/
def armNext (m : Mgt) (q : Nat) (c : Chip) : Option Chip :=
  let w := c.wq q
  let i := w.fetched
  let k := i.toNat % w.slots
  let a := w.base.toNat + 128 * k
  let c := if w.ringHost then c else meet a 16 c
  if !w.isOpen || i = w.tail || (c.ory.entries.any fun e => e.wq = q && e.phase == .arming) then none else
  let moveOn (c : Chip) : Chip := onWq q (fun w => { w with fetched := w.fetched + 1 }) c
  match slotHeader? c q i with
  | none =>
    if !withinLook c q i then none
    else some (armUnreadable m q i.toNat k (moveOn (if w.ringHost then c else recordUe a c)))
  | some h =>
    let hit := slotHit c q i (dId h)
    let target := w.hitBy hit
    let n := if shortForm h then 64 else 128
    let c := if target || w.ringHost then c else meet a n c
    if !target && !withinLook c q i then none
    else if !target && w.ringHost = false && (firstPoison c a n).isSome then
      some (armUnreadable m q i.toNat k (moveOn (recordUe ((firstPoison c a n).getD a) c)))
    else
      let d : Desc := if target then .ofNat 1024 (byt h 0 16) else if w.ringHost then h else .ofNat 1024 (readNat c a n)
      (armDesc m q i.toNat k d hit c).map moveOn

/-- Arms what a queue's ring lets; the lines of a slot that the host may hold are snooped first (R493). -/
def armQueue (m : Mgt) (q : Nat) : Nat → Chip → Chip
  | 0, c => c
  | n + 1, c =>
    let w := c.wq q
    let held := if w.ringHost || !w.isOpen || w.fetched = w.tail then []
      else trackedIn c (w.base.toNat + 128 * (w.fetched.toNat % w.slots)) 128
    if held ≠ [] then sendSnoops held c else
    match armNext m q c with
    | some c => armQueue m q n c
    | none => c

/-- Arms the direct slot's descriptor, or its shadow once the current one has retired (R412); without a free entry it waits
in the slot (R393). -/
def armDirect (m : Mgt) (q : Nat) (c : Chip) : Chip :=
  if (c.wq q).direct.isSome then c else
  let c := onWq q (fun w => if w.submitted.isNone then { w with submitted := w.shadow, shadow := none } else w) c
  let w := c.wq q
  match w.submitted with
  | some (d, hit) => ((armDesc m q directIndex w.slots d hit c).map (onWq q fun w => { w with submitted := none })).getD c
  | none => c

/-- Everything that may be armed now, in every queue, with the read-ahead that follows armed POPs. -/
def armAll (m : Mgt) (c : Chip) : Chip :=
  readAhead m (c.ory.wqs.foldl (fun c (q, _) =>
    settleQueue q (armQueue m q ((c.wq q).tail - (c.wq q).fetched).toNat (armDirect m q c))) c)

/-! ### Doorbells, direct submission and queue commands -/

/-- A tail doorbell write (R373); `slots` are the new slots of a ring in host memory. -/
def tailWrite (m : Mgt) (q : Nat) (t : W32) (slots : List (Option Desc)) (c : Chip) : Chip :=
  let w := c.wq q
  if !w.isOpen || w.closing || w.slots < (t - w.head).toNat || 2 ^ 31 ≤ (t - w.tail).toNat then raise .ory 1 c
  else
    let fresh := (List.range (t - w.tail).toNat).map fun k => ((w.tail + .ofNat 32 k).toNat, slots.getD k none)
    armAll m (onWq q (fun w => { w with
      tail := t
      hostSlots := if w.ringHost then fresh.foldl (fun l x => fset none l x.1 x.2) w.hostSlots else w.hostSlots }) c)

/-- A completion head doorbell write (R373). -/
def cplHeadWrite (q : Nat) (h : W32) (c : Chip) : Chip :=
  let w := c.wq q
  if !w.isOpen || w.closing || (w.cplTail - w.cplHead).toNat < (h - w.cplHead).toNat then raise .ory 1 c
  else onWq q (fun w => { w with cplHead := h }) c

/-- The shadow line read again: changed values act as doorbells (R491). -/
def shadowLine (m : Mgt) (q : Nat) (t h : W32) (slots : List (Option Desc)) (c : Chip) : Chip :=
  let w := c.wq q
  if !w.isOpen || !w.ringHost then c else
  let c := onWq q (fun w => { w with lineTail := t, lineHead := h }) c
  let c := if t = w.lineTail then c else tailWrite m q t slots c
  if h = w.lineHead then c else cplHeadWrite q h c

/-- A submission to the direct slot (R412). -/
def directSubmit (m : Mgt) (q : Nat) (d : Desc) (c : Chip) : Chip :=
  let w := c.wq q
  if !w.isOpen || w.closing then c
  else if w.shadow.isSome then
    let e := { newEntry c q busyIndex w.slots d 127 with phase := .done, status := 0x05, apart := true }
    retireOne m e.id (raise .ory 3 (addEntry e c))
  else
    let x : Option (Desc × Hit) := some (d, ⟨false, false⟩)
    armAll m (onWq q (fun w =>
      if w.direct.isNone && w.submitted.isNone then { w with submitted := x } else { w with shadow := x }) c)

/-- The highest version of an offer (R378): major and minor. -/
def pickVersion (offer : W64) : Option (Nat × Nat) :=
  let ours (j : Nat) : Nat := if j = 2 then 3 else if j = 1 then 1 else 0
  [4, 3, 2, 1].findSome? fun j =>
    let both := bitsOf offer.toNat (16 * (j - 1)) 16 &&& ours j
    if both = 0 then none else some (j, both.log2)

/-- The outcome of OPEN (R378). -/
def openResult (c : Chip) (w : Wq) : Nat :=
  let ring := 128 * w.slots
  let cpl := 16 * 2 ^ w.cplLog
  let range := w.slotsLog < 4 || 16 < w.slotsLog || w.cplLog < 4 || 16 < w.cplLog ||
    (!w.ringHost && !hbmSpan w.base.toNat ring) || (!w.cplHost && !hbmSpan w.cplBase.toNat cpl) ||
    !hbmSpan w.resumeBase.toNat (32 * (w.slots + 1))
  let host (a n : Nat) : Bool := hostRing c a n && c.cxl.link ≠ some .pcie
  if w.isOpen then 5
  else if range then 3
  else if (w.ringHost && !host w.base.toNat (ring + 64)) || (w.cplHost && !host w.cplBase.toNat cpl) then 4
  else if (pickVersion w.offer).isNone then 2 else 1

/-- OPEN (R378). -/
def wqOpen (c : Chip) : Chip :=
  let q := c.ory.wqSel.toNat
  let r := openResult c (c.wq q)
  onWq q (fun w =>
    let w := { w with openResult := .ofNat 3 r }
    if r ≠ 1 then w else
    let v := (pickVersion w.offer).getD (0, 0)
    { w with isOpen := true, major := .ofNat 4 v.1, minor := .ofNat 4 v.2, tail := 0, head := 0, cplHead := 0, cplTail := 0
             fetched := 0, prevDesc := none, retired := [], hostSlots := [], direct := none, submitted := none, shadow := none, lineTail := 0
             lineHead := 0, cancelBusy := false, preemptBusy := false, targets := [], ranges := []
             preTargets := [], preAll := none }) c

/-- Unretired descriptors of a queue that hold a slot; a refused submission is none. -/
def ownEntries (c : Chip) (q : Nat) : List Entry := c.ory.entries.filter fun e => e.wq = q && e.index != busyIndex

/-- CLOSE (R380). -/
def wqClose (m : Mgt) (c : Chip) : Chip :=
  let q := c.ory.wqSel.toNat
  let w := c.wq q
  if !w.isOpen || w.closing then c else
  let c := onWq q (fun w => { w with closing := true }) c
  armAll m ((ownEntries c q).foldl (fun c e => cancelEntry e c) c)

/-- Marks the descriptors that wait in the direct slot. -/
def Wq.markWaiting (f : Desc → Hit → Hit) (w : Wq) : Wq :=
  { w with submitted := w.submitted.map fun x => (x.1, f x.1 x.2), shadow := w.shadow.map fun x => (x.1, f x.1 x.2) }

/-- A cancellation of the desc_ids of a span, or of all (R405, R408). -/
def cancelIds (m : Mgt) (ids : Option (W32 × W32)) (c : Chip) : Chip :=
  let q := c.ory.wqSel.toNat
  let w := c.wq q
  if !w.isOpen then c
  else if w.cancelBusy then raise .ory 2 c
  else
    let hits := (ownEntries c q).filter fun e => inSpan (.ofNat 32 (dId e.desc)) ids
    let c := onWq q (fun w => { w.markWaiting fun d h => { h with cancel := h.cancel || inSpan (.ofNat 32 (dId d)) ids } with
      cancelBusy := true
      targets := hits.map (·.id)
      ranges := [(ids, w.tail)] }) c
    armAll m (hits.foldl (fun c e => cancelEntry e c) c)

/-- PREEMPT (R409). -/
def wqPreempt (m : Mgt) (c : Chip) : Chip :=
  let q := c.ory.wqSel.toNat
  if !(c.wq q).isOpen then c else
  let own := ownEntries c q
  let c := onWq q (fun w => { w.markWaiting fun _ h => { h with pre := true } with
    preemptBusy := true
    preTargets := w.preTargets ++ own.map (·.id)
    preAll := some w.tail }) c
  armAll m (own.foldl (fun c e0 =>
    let e := curEntry c e0
    if e.phase = .started || e.phase = .stopped then (if hasRecord e.desc then preemptEntry true false e c else c)
    else cancelEntry e c) c)

/-- A write of ORY_STREAM_CFG (R381). -/
def streamCfg (v : W32) (c : Chip) : Chip :=
  let s := c.ory.streamSel.toNat
  let t := bitsOf v.toNat 0 7
  let used := c.ory.entries.any fun e => !e.apart && decide (dStream e.desc = s)
  if used || (96 ≤ t && t ≤ 126) then raise .ory 5 c
  else onStream s (fun x => { x with tile := .ofNat 7 t, mcast := .ofNat 6 (bitsOf v.toNat 8 6) }) c

/-! ### Hazards, units and starts (R395, R396, R410) -/

/-- The ranges of a descriptor's own references: address, length, whether written (R396). -/
def ownRanges (d : Desc) : List (Nat × Nat × Bool) :=
  let r (o : Nat) (w : Bool) : Nat × Nat × Bool := ((tref d o).addr, (tref d o).ext, w)
  match dClass d, dOpcode d with
  | 1, _ | 8, _ => [r 16 false, r 48 false, r 80 true]
  | 2, _ => [r 16 false, r 48 false, r 80 true]
  | 3, 1 | 3, 2 => [r 16 false, r 48 true]
  | 3, 3 => [r 16 false, r 48 false]
  | 3, 4 => [r 16 false]
  | 4, 1 => [r 16 false, r 48 true]
  | 4, 2 => [r 48 true]
  | 4, 0x10 => [r 80 true]
  | 4, 0x13 => [r 16 false, r 80 true]
  | 4, _ => [r 16 false, r 48 false, r 80 true]
  | 5, _ => [r 16 false, r 48 true]
  | 6, op => if op ≤ 7 && !(collD d).listed then (if op = 7 then [] else [r 16 false]) ++ (if op = 6 then [] else [r 48 true]) else []
  | 9, 1 | 9, 4 => [r 16 false]
  | 11, 2 => [r 16 false]
  | 11, 3 => [r 16 true]
  | _, _ => []

/-- Whether descriptor `x` blocks the later descriptor `d` of its stream (R396). -/
def hazard (x d : Desc) : Bool :=
  (ownRanges x).any fun a => (ownRanges d).any fun b => (a.2.2 || b.2.2) && overlaps a.1 a.2.1 b.1 b.2.1

/-- Units of the tile that a descriptor holds while it runs (R410): 1 array, 2 vector unit, 3 attention sequencer, 4 address
generator, 5 codec, 6 fetch engine. -/
def unitsOf (d : Desc) : List Nat :=
  match dClass d with
  | 1 => [1]
  | 2 => [2]
  | 3 => if dOpcode d ≤ 2 then [1, 2, 3] else [3]
  | 4 => [6]
  | 5 | 11 => [5]
  | 8 => [1, 4]
  | 9 => if dOpcode d ≤ 2 then [2] else []
  | _ => []

/-- A member of a batch that is still gathering: its rows wait in the buffer and hold no unit (R134). -/
def gathering (e : Entry) : Bool := e.lead.isSome && e.round = 0

/-- Started entries that hold a unit of a tile. -/
def holders (c : Chip) (t u : Nat) : List Entry :=
  c.ory.entries.filter fun e => e.phase == .started && e.tile = t && !gathering e && (unitsOf e.desc).contains u

/-- Whether a descriptor is a WAIT on a flag of a die. -/
def waitsOn (die : Nat) (e : Entry) : Bool :=
  dClass e.desc = 7 && dOpcode e.desc = 3 && decide (homeOf (flagD e.desc).base = die)

/-- Watch slots of a die that nothing holds and no started WAIT is about to take (R433). -/
def freeSlots (c : Chip) (die : Nat) : Nat :=
  2048 - (c.vsp.watches.filter fun w => w.1 / 2048 = die && w.2.isSome).length -
    (c.ory.entries.filter fun x => x.phase == .started && waitsOn die x && x.slotW.isNone).length

/-- Condition 4 of R395: room in the units; a WAIT needs a watch slot, a collective a place on its die and in its group
(R289). -/
def hasRoom (c : Chip) (e : Entry) : Bool :=
  if dClass e.desc = 7 && dOpcode e.desc = 3 then decide (0 < freeSlots c (homeOf (flagD e.desc).base))
  else if (e.phase == .armed && dClass e.desc = 6) || (dClass e.desc = 9 && dOpcode e.desc = 4) then
    (gqOf e.desc).all fun gq => let f := collFree c e gq; 0 < f.1 && 0 < f.2
  else (deadlineOf c e != 0 && e.phase == .armed) || (unitsOf e.desc).all fun u => (holders c e.tile u).isEmpty

def Dev.band (d : Dev) (b : Nat) : Band := fget Band.reset d.tel.bands b
def Dev.setBand (d : Dev) (b : Nat) (x : Band) : Dev := { d with tel := { d.tel with bands := fset Band.reset d.tel.bands b x } }

/-- Whether a physical tile has a fault that waits for its remap (R528, R530). -/
def faulted (c : Chip) (p : Nat) : Bool := c.til.pending0.contains p || c.til.pending1.contains p

/-- Condition 5 of R395: the tile serves, its band is in Run, and a partner runs this number (R533). -/
def bandRuns (d : Dev) (e : Entry) : Bool :=
  e.tile = 127 || (ptileOf d.chip e.tile).any fun p =>
    let x := d.chip.tile p
    decide ((d.band (bandOf p)).state = 3) && !faulted d.chip p && (x.second = 127 || x.running.toNat = e.tile)

/-- Conditions 1, 2 and 3 of R395; a stopped descriptor waits only for its tile. -/
def readyOff (c : Chip) (e : Entry) : Bool :=
  let earlier := c.ory.entries.filter fun x => decide (x.id < e.id) && !x.apart && decide (dStream x.desc = dStream e.desc)
  let cls := dClass e.desc
  e.phase == .stopped || (e.phase == .armed &&
    (fld e.desc 3 0 1 = 0 || flagSet c (byt e.desc 8 2)) && !(earlier.any fun x => hazard x.desc e.desc) &&
    !((cls = 9 || cls = 11) && earlier.any fun x => dClass x.desc = cls))

/-- Conditions 1, 2, 3 and 5 of R395. -/
def readyBut (d : Dev) (e : Entry) : Bool := bandRuns d e && readyOff d.chip e

/-- Whether `x` goes before `e` where both need one unit: priority, then order of arming (R395). -/
def goesFirst (c : Chip) (x e : Entry) : Bool :=
  decide (prioOf c e < prioOf c x) || (prioOf c e = prioOf c x && x.id < e.id)

/-- Whether ready WAITs that go first take every watch slot that is free (R395). -/
def slotsTaken (d : Dev) (e : Entry) : Bool :=
  let c := d.chip
  let die := homeOf (flagD e.desc).base
  waitsOn die e && decide (freeSlots c die ≤
    (c.ory.entries.filter fun x => x.id != e.id && waitsOn die x && goesFirst c x e && readyBut d x).length)

/-- Whether ready collectives that go first take every place that is free in an entry's group or on its die (R289, R395). -/
def placesTaken (d : Dev) (e : Entry) : Bool :=
  let c := d.chip
  (gqOf e.desc).any fun gq =>
    let f := collFree c e gq
    let die := collDie c gq (some e)
    let first := c.ory.entries.filter fun x => x.id != e.id && (gqOf x.desc).isSome && goesFirst c x e && readyBut d x && hasRoom c x
    f.1 ≤ (first.filter fun x => gqOf x.desc = some gq).length ||
      f.2 ≤ (first.filter fun x => collDie c ((gqOf x.desc).getD 0) (some x) = die).length

/-- Whether a descriptor may start now (R395). -/
def canStart (d : Dev) (e : Entry) : Bool :=
  let c := d.chip
  readyBut d e && hasRoom c e && !slotsTaken d e && !placesTaken d e && !(c.ory.entries.any fun x =>
    x.id != e.id && x.tile = e.tile && e.tile != 127 && (unitsOf x.desc).any (unitsOf e.desc).contains && goesFirst c x e &&
    deadlineOf c e = 0 && deadlineOf c x = 0 && readyBut d x && hasRoom c x)

/-! ### Batches (R133 to R137, R213) -/

/-- Rows of a batchable descriptor, and the most that one block holds. -/
def batchRows (e : Entry) : Nat := if dClass e.desc = 1 then (arrD e.desc).rows else (attD e.desc e.record).rows
def batchCap (c : Chip) (e : Entry) : Nat :=
  if dClass e.desc = 1 then rowsCap ((arrD e.desc).cls.getD 8)
  else
    let a := attD e.desc e.record
    match a.query.fmt, Format.ofCode (a.kvFormats c e).1 with
    | some q, some k => rowsCap (((scoreClass q k).map (·.1)).getD 8)
    | _, _ => 256

/-- What others kept in the array of a tile is gone once an operation takes it (R129). -/
def takeArray (t : Nat) (c : Chip) : Chip :=
  let c := onEntries (fun x => if x.phase == .stopped && x.tile = t then forget x else x) c
  match ptileOf c t with
  | some p => c.setTile p { c.tile p with inPlace := [] }
  | none => c

/-- What the tile still holds for a descriptor that the host restarts: the record's stationary operand is in place (R129). -/
def inPlaceOf (c : Chip) (e : Entry) : Option InPlace :=
  match e.want, ptileOf c e.tile with
  | some w, some p => (c.tile p).inPlace.find? fun x => x.addr = w.1 && x.tensor = w.2
  | _, _ => none

/-- The position of a restart: where it stopped if the tile kept its contents, else as R130, R163 and R194 have it. -/
def restartAt (e0 : Entry) : Entry :=
  if e0.kept then e0 else
  let e := forget e0
  let g := if e.written then e.groups else e.from_
  match dClass e.desc with
  | 1 => { e with kblock := firstK e, groups := g, from_ := g }
  | 8 =>
    let e := { e with kblock := firstK e, groups := g, from_ := g }
    { e with round := (winD e.desc e.record).stripeOf e }
  | 3 => { e with groups := 0 }
  | _ => e

/-- Where a starting descriptor takes up: the device's own restart as it stopped, the host's in what the tile holds for it. -/
def takeUp (c : Chip) (x : Entry) : Entry :=
  if x.phase = .stopped then restartAt x
  else if !dResume x.desc then x
  else
    match inPlaceOf c x with
    | some p =>
      let x := { x with kept := true, held := p.held, tree := p.tree, wide := p.wide }
      if dClass x.desc = 8 then { x with round := (winD x.desc x.record).stripeOf x } else x
    | none => restartAt { x with kept := false }

/-- ATT_STATUS.active and COD_STATUS.active of a descriptor that runs (R218, R251). -/
def showActive (e : Entry) (c : Chip) : Chip :=
  if dClass e.desc = 3 then attActive e true c
  else if dClass e.desc = 5 || dClass e.desc = 11 then codActive e c
  else c

/-- The members of a batch that gathers. -/
def gatheringOf (c : Chip) (l : Nat) : List Entry :=
  c.ory.entries.filter fun y => y.lead = some l && y.phase == .started && y.round = 0

/-- Issues a gathering batch (R134). A batch that the host restarts continues where the tile still holds all of it, with
the rows that it gathered (R136). -/
def issueBatch (l : Nat) (c : Chip) : Chip :=
  let ms := gatheringOf c l
  let all := ms.all fun x => (inPlaceOf c x).isSome
  let go (x : Entry) : Entry :=
    if !dResume x.desc then x
    else if all then takeUp c { x with phase := .armed }
    else { restartAt { x with kept := false } with held := x.held }
  let c' := onEntries (fun x =>
    if ms.contains x then { go x with phase := .started, kept := false, want := none, round := 1 } else x) c
  match ms with
  | [] => c
  | x :: _ => showActive x (takeArray x.tile c')

/-- A started batchable descriptor joins the batch that gathers on its tile and that fits it, or opens one; its rows are
gathered behind those of the members before it (R133, R134, R213). -/
def joinBatch (e : Entry) (c : Chip) : Chip :=
  let fits (x : Entry) : Bool := x.phase == .started && x.tile = e.tile && x.id != e.id && gathering x &&
    (gatheringOf c (x.lead.getD 0)).all fun y =>
      dClass y.desc = dClass e.desc && (if dClass e.desc = 1 then batchable y e else attBatchable c y e)
  let cap := batchCap c e
  let gather (x : Entry) (c : Chip) : Chip :=
    gatherRows (if dClass e.desc = 1 then statAccs else queryAccs) x (setEntry x c)
  let start (c : Chip) : Chip :=
    let c := gather { e with lead := some e.id } c
    if cap ≤ batchRows e then issueBatch e.id c else c
  match c.ory.entries.find? fits with
  | none => start c
  | some x =>
    let l := x.lead.getD 0
    let ms := gatheringOf c l
    let rows := (ms.map batchRows).foldl (· + ·) 0
    if cap < rows + batchRows e then start (issueBatch l c)
    else
      let seat := ms.foldl (fun m y => max m (y.seat + batchRows y)) 0
      let c := gather { e with lead := some l, seat := seat, win := ms.findSome? (·.win) } c
      if rows + batchRows e = cap then issueBatch l c else c

/-! ### Start and restart -/

/-- A descriptor starts, with its batch where a stopped one restarts (R136); a batchable one starts to gather. -/
def startEntry (mc : List Nat) (e : Entry) (c : Chip) : Chip :=
  if deadlineOf c e != 0 && e.phase == .armed then joinBatch { e with phase := .started, kept := false, mcast := mc } c
  else
    let c0 := c
    let go (x : Entry) : Entry := { takeUp c0 x with phase := .started, kept := false, want := none, mcast := mc }
    let c := onEntries (fun x =>
      if x.id = e.id || (e.phase == .stopped && x.phase == .stopped && e.lead.isSome && x.lead = e.lead) then go x else x) c
    showActive e (if (unitsOf e.desc).contains 1 then takeArray e.tile c else c)

/-- Whether two descriptors agree in class and streamed operand (R187, R399). -/
def sameStreamed (c : Chip) (x y : Entry) : Bool :=
  let same (o n : Nat) : Bool := byt x.desc o n == byt y.desc o n
  dClass x.desc = dClass y.desc &&
  match dClass x.desc with
  | 1 =>
    let a := arrD x.desc
    let b := arrD y.desc
    same 48 32 && a.kElems == b.kElems && a.kFirst == b.kFirst && a.kCount == b.kCount && a.nCols == b.nCols &&
      a.chunk == b.chunk && a.cls == b.cls
  | 8 =>
    let a := winD x.desc x.record
    let b := winD y.desc y.record
    !a.pool && !b.pool && same 48 32 && x.record == y.record && a.kFirst == b.kFirst &&
      a.kCount == b.kCount && a.nCols == b.nCols && a.chunk == b.chunk
  | 3 =>
    let a := attD x.desc x.record
    let b := attD y.desc y.record
    let p := readPool c x a.pool
    let page (z : Entry) (i : Nat) : Nat := ptRef c z p (dSc z.desc) i
    dOpcode x.desc ≤ 2 && dOpcode y.desc ≤ 2 && a.source == b.source && a.keys == b.keys && a.values == b.values &&
      a.keyBase == b.keyBase && a.pool == b.pool &&
      (a.source != 2 || (span a.kbLo a.kbHi).all fun i => page x i == page y i) && a.kbLo == b.kbLo && a.kbHi == b.kbHi && a.head == b.head &&
      a.query.format == b.query.format && a.out.format == b.out.format && a.pfmt == b.pfmt
  | _ => false

/-- The multicast set of a descriptor's stream (R381). -/
def setOf (c : Chip) (e : Entry) : Nat := (c.strm (dStream e.desc)).mcast.toNat

/-- Whether a descriptor may share a stream: it stands first in a stream of a multicast set, and is not the restart of one
that was stopped, which runs on a stream of its own (R125, R399). -/
def candidate (c : Chip) (e : Entry) : Bool :=
  e.phase == .armed && !dResume e.desc && setOf c e != 0 &&
  !(c.ory.entries.any fun x => decide (x.id < e.id) && !x.apart && decide (dStream x.desc = dStream e.desc)) &&
  sameStreamed c e e

/-- The candidates that are present and ready, and agree with one of them (R399, R400). -/
def present (d : Dev) (e : Entry) : List Entry :=
  let c := d.chip
  c.ory.entries.filter fun x => candidate c x && setOf c x = setOf c e && canStart d x && sameStreamed c x e

/-- MULTICAST_JOIN (R399, R400): join_window has expired, or every stream of the set is ready; the candidates present, and
all of them, start as one multicast stream over their tiles. -/
def multicastJoin (ids : List Nat) (d : Dev) : Dev :=
  match ids.filterMap (entryOf d.chip) with
  | [] => d
  | e :: es =>
    let ps := present d e
    if candidate d.chip e && ids.Nodup && es.length + 1 = ids.length && ps.length = ids.length && ps.all (ids.contains ·.id) then
      d.mapChip fun c => armAll d.mgt (ps.foldl (fun c e => startEntry ids (curEntry c e) c) c)
    else d

/-- DESCRIPTOR_START (R395, R410). A candidate for a multicast stream waits for MULTICAST_JOIN, but where join_window is 0 or
its set has no other stream, and no other candidate is present (R400). -/
def descriptorStart (id : Nat) (d : Dev) : Dev :=
  match entryOf d.chip id with
  | some e =>
    let c := d.chip
    let lone := c.ory.joinWindow = 0 || (c.ory.streams.filter fun s => s.2.mcast.toNat = setOf c e).length ≤ 1
    let held := candidate c e && !(lone && (present d e).length ≤ 1)
    if canStart d e && !held then d.mapChip fun c => armAll d.mgt (startEntry [] e c) else d
  | none => d

/-- ORRERY_PREEMPT (R410). -/
def orreryPreempt (victim wanting : Nat) (d : Dev) : Dev :=
  let c := d.chip
  match entryOf c victim, entryOf c wanting with
  | some v, some w =>
    let missing := (unitsOf w.desc).filter fun u => !(holders c w.tile u).isEmpty
    let lower (x : Entry) : Bool := decide (prioOf c x < prioOf c w)
    let may (x : Entry) : Bool := lower x && hasRecord x.desc
    let worst (u : Nat) : Bool := (holders c w.tile u).all fun x =>
      !may x || prioOf c v < prioOf c x || (prioOf c v = prioOf c x && x.id ≤ v.id) || x.lead.isSome && x.lead = v.lead
    let ok := c.ory.preemptEn && w.phase == .armed && readyBut d w && v.phase == .started && may v && v.tile = w.tile &&
      missing.all (fun u => (holders c w.tile u).all may) && missing.any fun u => (unitsOf v.desc).contains u && worst u
    if ok && !gathering v then d.mapChip fun c => countPreempt (stopEntry true false v c) else d
  | _, _ => d

/-! ### Barriers (R402, R403) -/

/-- STREAM_BARRIER: completes once every descriptor armed before it on the streams of its mask has retired. -/
def streamBarrier (_ : Mgt) (e : Entry) (c : Chip) : Chip :=
  if c.ory.entries.any fun x => decide (x.id < e.id) && !x.apart && e.desc.getLsbD (128 + dStream x.desc) then c
  else finish e 0 c

/-- GROUP_BARRIER: one half-round, the set or the wait; the barrier completes after the last round. -/
def groupBarrier (m : Mgt) (e : Entry) (c : Chip) : Chip :=
  let gq := fld e.desc 16 0 6
  let g := c.grp gq
  let base := byt e.desc 18 2 + 16 * fld e.desc 17 0 1
  let rounds := clog2 g.m
  let r := e.round / 2
  let f := base + r
  if rounds ≤ r then (if e.acks = [] then finish e 0 c else c)
  else if e.round % 2 = 0 then
    if !fenceDone c e then c
    else remoteFlag m e (c.rankOf gq ((g.me + 2 ^ r) % g.m)) (f / 64 * 64) 1 (1#64 <<< (f % 64)) (setEntry { e with round := e.round + 1 } c)
  else if flagSet c f = true then
    let c := clearFlags (f / 64 * 64) (1#64 <<< (f % 64)) (setEntry { e with round := e.round + 1 } c)
    if rounds ≤ r + 1 && e.acks = [] then finish e 0 c else c
  else c

/-! ### Commands -/

/-- TAIL_DOORBELL (R373). -/
def execTailDoorbell (wq : BitVec 6) (tail : W32) (slots : List (Option Desc)) (s : State) : Host.Outcome State Fault Refusal :=
  onChip (fun m c => whenReady m (tailWrite m wq.toNat tail slots) c) s
/-- COMPLETION_HEAD_DOORBELL (R373). -/
def execCompletionHeadDoorbell (wq : BitVec 6) (head : W32) (s : State) : Host.Outcome State Fault Refusal :=
  onChip (fun m c => whenReady m (cplHeadWrite wq.toNat head) c) s
/-- SHADOW_LINE_SNOOP (R491). -/
def execShadowLineSnoop (wq : BitVec 6) (tail cplHead : W32) (slots : List (Option Desc)) (s : State) :
    Host.Outcome State Fault Refusal :=
  onChip (fun m c => shadowLine m wq.toNat tail cplHead slots c) s
/-- DIRECT_SUBMISSION (R412). -/
def execDirectSubmission (wq : BitVec 6) (desc : Desc) (s : State) : Host.Outcome State Fault Refusal :=
  onChip (fun m c => whenReady m (directSubmit m wq.toNat desc) c) s
/-- WQ_OPEN (R378). -/
def execWqOpen (s : State) : Host.Outcome State Fault Refusal := onChip (fun m c => whenReady m wqOpen c) s
/-- WQ_CLOSE (R380). -/
def execWqClose (s : State) : Host.Outcome State Fault Refusal := onChip (fun m c => whenReady m (wqClose m) c) s
/-- PREEMPT (R409). -/
def execPreempt (s : State) : Host.Outcome State Fault Refusal := onChip (fun m c => whenReady m (wqPreempt m) c) s
/-- CANCEL_ALL (R405). -/
def execCancelAll (s : State) : Host.Outcome State Fault Refusal :=
  onChip (fun m c => whenReady m (cancelIds m none) c) s
/-- CANCEL (R405). -/
def execCancel (last first : W32) (s : State) : Host.Outcome State Fault Refusal :=
  onChip (fun m c => whenReady m (cancelIds m (some (first, last))) c) s
/-- STREAM_CFG_WRITE (R381). -/
def execStreamCfgWrite (value : W32) (s : State) : Host.Outcome State Fault Refusal :=
  onChip (fun m c => whenReady m (streamCfg value) c) s
/-- DESCRIPTOR_START (R395). -/
def execDescriptorStart (id : Nat) (s : State) : Host.Outcome State Fault Refusal := onDev (descriptorStart id) s
/-- DESCRIPTOR_RETIRE (R397): the retirement, then what it lets arm. -/
def execDescriptorRetire (id : Nat) (s : State) : Host.Outcome State Fault Refusal :=
  onChip (fun m c => armAll m (retireOne m id c)) s
/-- ORRERY_PREEMPT (R410). -/
def execOrreryPreempt (victim wanting : Nat) (s : State) : Host.Outcome State Fault Refusal := onDev (orreryPreempt victim wanting) s
/-- MULTICAST_JOIN (R400). -/
def execMulticastJoin (ids : List Nat) (s : State) : Host.Outcome State Fault Refusal := onDev (multicastJoin ids) s
/-- BATCH_DEADLINE (R134). -/
def execBatchDeadline (first : Nat) (s : State) : Host.Outcome State Fault Refusal := onChip (fun _ c => issueBatch first c) s
/-- STREAM_BARRIER (R402). -/
def execStreamBarrier (id : Nat) (s : State) : Host.Outcome State Fault Refusal := onRunning 10 1 id streamBarrier s
/-- GROUP_BARRIER (R403). -/
def execGroupBarrier (id : Nat) (s : State) : Host.Outcome State Fault Refusal := onRunning 10 2 id groupBarrier s

end Sys2Proof.Machine
end

