-- ==== Sys2Proof/Machine/Repair.lean ====
section
/-! DEFINITION. Repair in service: tile faults, spares, partners and unbacked numbers (R527 to R535). -/

namespace Sys2Proof.Machine

/-! ### Numbers and tiles -/

/-- Row of a physical tile in its quadrant (R522). -/
def rowOfTile (p : Nat) : Nat := p % 56 / 4

/-- Numbers that a tile carries: first the one that runs nothing but itself, then the one carried as partner. -/
def Tile.numbers (x : Tile) : List Nat := [x.logical.toNat, x.second.toNat].filter (· ≠ 127)

/-- Descriptors placed on a number. -/
def placedOn (c : Chip) (t : Nat) : List Entry := c.ory.entries.filter fun e => e.tile = t

/-- The SRAM window of a number (R106). -/
def sramOf (t : Nat) : Nat := sramBase + 0x400000 * t

/-- Takes the cells of [a, a + n) out of a map and puts those of [b, b + n) there. -/
def copyCells {α : Type} [DecidableEq α] (z : α) (b a n : Nat) (m : FMap α) : FMap α :=
  (m.filter fun x => decide (b ≤ x.1) && decide (x.1 < b + n)).foldl (fun r x => fset z r (a + (x.1 - b)) x.2) (fclear m a (a + n))

/-- Copies bytes and poison between two ranges of cells; poisoned HBM words that it reads are recorded, and flipped bits
corrected (R344, R346). -/
def copyRange (b a n : Nat) (c0 : Chip) : Chip :=
  let here (k : Nat) : Bool := decide (b / 16 ≤ k) && decide (k < (b + n) / 16)
  let c := ((c0.upsets.map (·.1)).filter here).foldl (fun c k => meet (16 * k) 16 c) c0
  let c := ((c.poison.map (·.1)).filter here).foldl (fun c k => recordUe (16 * k) c) c
  { c with mem := copyCells 0 b a n c.mem, poison := copyCells false (b / 16) (a / 16) (n / 16) c.poison
           upsets := fclear c.upsets (a / 16) ((a + n) / 16) }

/-- Clears a range of cells to zero, with valid check bits and no seals. -/
def clearRange (a n : Nat) (c : Chip) : Chip :=
  { c with
    mem := fclear c.mem a (a + n)
    poison := fclear c.poison (a / 16) ((a + n) / 16)
    upsets := fclear c.upsets (a / 16) ((a + n) / 16)
    seals := fclear c.seals (a / 256) ((a + n) / 256) }

def clearSram (t : Nat) (c : Chip) : Chip := clearRange (sramOf t) 0x400000 c

/-- TIL_SAVE_BASE: base and enable. -/
def saveAt (c : Chip) : Nat := bitsOf c.til.saveBase.toNat 22 26 * 2 ^ 22
def saveEn (c : Chip) : Bool := c.til.saveBase.getLsbD 0

/-- A number's save slot (R532). -/
def saveSlot (c : Chip) (t : Nat) : Nat := saveAt c + 0x400000 * t

/-- A partner saves its SRAM to a number's slot, or loads it. -/
def saveSram (t : Nat) (c : Chip) : Chip := copyRange (sramOf t) (saveSlot c t) 0x400000 c
def loadSram (t : Nat) (c : Chip) : Chip := copyRange (saveSlot c t) (sramOf t) 0x400000 c

/-! ### Faults (R527) -/

/-- Shows a fault in TIL_FAULT. -/
def showFault (m : Mgt) (p cause : Nat) (c : Chip) : Chip :=
  c.setTile p { c.tile p with faultCause := .ofNat 8 cause, faultStamp := .ofNat 48 (m.counter (p / 56)).toNat }

/-- Nothing of a stopped operation is left in a tile's SRAM and array. -/
def clearInPlace (p : Nat) (c : Chip) : Chip := c.setTile p { c.tile p with inPlace := [] }

/-- R528 step 1 for a number: its started descriptors stop with their records, cause 1; those that wait to restart get the
cause as well. -/
def stopNumber (t : Nat) (c : Chip) : Chip :=
  (placedOn c t).foldl (fun c e0 =>
    let e := curEntry c e0
    match e.phase with
    | .started => stopEntry false true e c
    | .stopped => setEntry (forget e) (writeRecord e false true c)
    | _ => c) c

/-- Whether causes retire a tile for good (R527). -/
def permanentCause (cause : Nat) : Bool := cause = 6 || cause = 7

/-- A tile leaves service: its retirement record is queued where the cause is permanent (R528 step 6). -/
def retireTile (m : Mgt) (p cause : Nat) (c : Chip) : Chip :=
  let x := c.tile p
  let c := c.setTile p { x with logical := 127, second := 127, running := 127, role := 2, cause := .ofNat 8 cause }
  if permanentCause cause then
    let (ok, c) := queueRec m (p / 56) 2 (toBytes 1 p ++ toBytes 1 cause) c
    c.setTile p { c.tile p with permanent := ok }
  else c

/-- A fault that takes a tile out of service: a spare leaves at once, a tile with numbers waits for its remap (R530). -/
def tileFault (m : Mgt) (p cause : Nat) (c : Chip) : Chip :=
  let x := c.tile p
  if x.role.toNat = 2 || faulted c p then c else
  let c := clearInPlace p (showFault m p cause c)
  if x.role.toNat = 1 then retireTile m p cause c
  else
    let c := x.numbers.foldl (fun c t => stopNumber t c) c
    if p < 56 then { c with til := { c.til with pending0 := c.til.pending0 ++ [p] } }
    else { c with til := { c.til with pending1 := c.til.pending1 ++ [p] } }

/-- Whether the tiles serve: Ready was reached and power has not been lost. -/
def inService (m : Mgt) : Bool := m.ready && !m.failed

/-- The eight physical tiles of a band, rising. -/
def tilesOfBand (b : Nat) : List Nat := (List.range 112).filter fun p => bandOf p = b

/-- A band fault (R527): every tile of the band, serving and spare. -/
def bandFault (m : Mgt) (b : Nat) (c : Chip) : Chip := (tilesOfBand b).foldl (fun c p => tileFault m p 8 c) c

/-- 144-bit words of a tile's SRAM, and words that may prove uncorrectable in all: behind the SRAM's come those of the two
halves of the stationary register, of 32 KiB each, and of the weight FIFO's 64 vectors (R107, R112, R124; log entry 81). -/
def sramWords : Nat := 0x40000
def tileWords : Nat := sramWords + 4096 + 1024

/-- TILE_UNCORRECTABLE (R527): the first word of a power cycle is rewritten as zero and its operation restarts on the tile;
the second retires the tile. What the register and the FIFO hold is loaded again by the restart. -/
def tileUncorrectable (m : Mgt) (p word : Nat) (c : Chip) : Chip :=
  let x := c.tile p
  if x.role.toNat = 2 || faulted c p then c
  else if x.ueSeen then tileFault m p 7 c
  else
    let c := clearInPlace p (showFault m p 9 (c.setTile p { x with ueSeen := true }))
    let t := if x.role.toNat = 3 then x.running.toNat else x.logical.toNat
    let c := if t = 127 then c else
      let c := stopNumber t c
      let a := sramOf t + 16 * word
      if word < sramWords then setPoison a false (writeBytes a (List.replicate 16 0) c) else c
    faultRec m (p / 56) 0 9 p c

/-! ### Remap (R528, R530, R531, R534) -/

/-- TIL_REMAP_GEN counts one more. -/
def countRemap (c : Chip) : Chip := { c with til := { c.til with remapGen := ctrAdd c.til.remapGen 1 } }

/-- The spare of a number's quadrant with the lowest row. -/
def spareFor (c : Chip) (t : Nat) : Option Nat := (quadTiles (t / 12)).find? fun p => (c.tile p).role.toNat = 1

/-- The partner of a number that lacks backing: of the tiles of its quadrant that carry one number, the nearest to row `r`,
the lower of two that are equally near (R531). -/
def partnerFor (c : Chip) (t r : Nat) : Option Nat :=
  let near (p : Nat) : Nat := if rowOfTile p < r then r - rowOfTile p else rowOfTile p - r
  ((quadTiles (t / 12)).filter fun p => (c.tile p).role.toNat = 0 && !faulted c p).foldl (fun best p =>
    match best with
    | none => some p
    | some q => if near p < near q then some p else some q) none

/-- A spare takes a number, its SRAM cleared; its band is asked to run. -/
def adoptSpare (t s : Nat) (d : Dev) : Dev :=
  let d := d.mapChip fun c =>
    let c := clearSram t c
    countRemap (c.setTile s { c.tile s with logical := .ofNat 7 t, running := .ofNat 7 t, role := 0, inPlace := [] })
  let b := bandOf s
  if (d.band b).state = 3 then d else d.setBand b { d.band b with waking := true }

/-- A partner takes a second number: it stops its own, saves its SRAM and clears it (R531). -/
def adoptPartner (t p : Nat) (c : Chip) : Chip :=
  let own := (c.tile p).logical.toNat
  let c := (placedOn c own).foldl (fun c e => let e := curEntry c e; if e.phase = .started then stopEntry false false e c else c) c
  let c := clearInPlace p (clearSram t (saveSram own c))
  countRemap (c.setTile p { c.tile p with second := .ofNat 7 t, running := .ofNat 7 t, role := 3 })

/-- A number without backing: what had started ends with PREEMPTED and what had not with ACCESS (R534). -/
def unback (t : Nat) (c : Chip) : Chip :=
  let c := (placedOn c t).foldl (fun c e0 =>
    let e := curEntry c e0
    match e.phase with
    | .started | .stopped => preemptEntry false true e c
    | .arming | .armed => dropRequests e.id (setEntry { e with phase := .done, status := 0x0E, tile := 127, holds := false, asked := false } c)
    | .done => c) c
  { c with til := { c.til with unbacked := sortBy id (c.til.unbacked ++ [t]) } }

/-- A number that has lost row `r` finds a spare, a partner, or none. -/
def rebackNumber (r : Nat) (d : Dev) (t : Nat) : Dev :=
  match spareFor d.chip t with
  | some s => adoptSpare t s d
  | none =>
    match (if saveEn d.chip then partnerFor d.chip t r else none) with
    | some p => d.mapChip (adoptPartner t p)
    | none => d.mapChip (unback t)

/-- TILE_REMAP of a faulted tile. -/
def remapTile (p : Nat) (d : Dev) : Dev :=
  let x := d.chip.tile p
  let cause := x.faultCause.toNat
  let d := d.mapChip fun c => c.setTile p { c.tile p with logical := 127, second := 127, running := 127, role := 2, cause := .ofNat 8 cause }
  let d := x.numbers.foldl (rebackNumber (rowOfTile p)) d
  d.mapChip (retireTile d.mgt p cause)

/-- The oldest remap of a die (R530). -/
def tileRemap (die : Nat) (d : Dev) : Dev :=
  let til := d.chip.til
  match if die = 0 then til.pending0 else til.pending1 with
  | [] => d
  | p :: rest =>
    let til := if die = 0 then { til with pending0 := rest } else { til with pending1 := rest }
    remapTile p { d with chip := { d.chip with til := til } }

/-- Every remap that waits on a die, in its order. -/
def remapAll (die : Nat) : Nat → Dev → Dev
  | 0, d => d
  | n + 1, d => remapAll die n (tileRemap die d)

/-! ### Partners (R533, R535) -/

/-- PARTNER_SWITCH: to the other number, when it has a descriptor ready or the current one has none. -/
def partnerSwitch (p : Nat) (c : Chip) : Chip :=
  let x := c.tile p
  let cur := x.running.toNat
  let other := if cur = x.logical.toNat then x.second.toNat else x.logical.toNat
  let ready (t : Nat) : Bool := (placedOn c t).any (readyOff c)
  let busy := (placedOn c cur).any fun e => e.phase == .started
  if x.role.toNat ≠ 3 || faulted c p || !(ready other || !(ready cur || busy)) then c else
  let c := (placedOn c cur).foldl (fun c e => let e := curEntry c e; if e.phase = .started then stopEntry false false e c else c) c
  if (placedOn c cur).any fun e => e.phase == .started then c
  else
    let c := loadSram other (saveSram cur c)
    c.setTile p { c.tile p with running := .ofNat 7 other, inPlace := [] }

/-- TIL_SAVE_BASE_WRITE (R534, R535): with enable, unbacked numbers get partners in ascending order. -/
def saveBaseWrite (v : W64) (c : Chip) : Chip :=
  let base := bitsOf v.toNat 22 26 * 2 ^ 22
  let en := v.getLsbD 0
  if (List.range 112).any (fun p => (c.tile p).role.toNat = 3) || (en && decide (hbmTop < base + 0x18000000)) then c else
  let c := { c with til := { c.til with saveBase := .ofNat 64 (base + b2n en) } }
  if !en then c else
  c.til.unbacked.foldl (fun c t =>
    match partnerFor c t (t % 12) with
    | some p =>
      let c := adoptPartner t p c
      { c with til := { c.til with unbacked := c.til.unbacked.erase t } }
    | none => c) c

/-! ### The commands -/

/-- CORE_WATCHDOG (R527). -/
def execCoreWatchdog (ptile : Nat) (s : State) : Host.Outcome State Fault Refusal :=
  onTile ptile (fun d => if inService d.mgt then d.mapChip (tileFault d.mgt ptile 6) else d) s

/-- BAND_WATCHDOG (R527). -/
def execBandWatchdog (band : Nat) (s : State) : Host.Outcome State Fault Refusal :=
  onBand band (fun d => if inService d.mgt then d.mapChip (bandFault d.mgt band) else d) s

/-- RAIL_OUT_OF_REGULATION (R608). -/
def execRailOutOfRegulation (band : Nat) (s : State) : Host.Outcome State Fault Refusal :=
  onBand band (fun d => if inService d.mgt then d.mapChip (bandFault d.mgt band) else d) s

def execTileUncorrectable (ptile word : Nat) (s : State) : Host.Outcome State Fault Refusal :=
  onTile ptile (fun d => if inService d.mgt && word < tileWords then d.mapChip (tileUncorrectable d.mgt ptile word) else d) s

def execTileRemap (die : BitVec 1) (s : State) : Host.Outcome State Fault Refusal :=
  onDev (fun d => if inService d.mgt then tileRemap die.toNat d else d) s

def execPartnerSwitch (ptile : Nat) (s : State) : Host.Outcome State Fault Refusal :=
  onTile ptile (fun d => if inService d.mgt then d.mapChip (partnerSwitch ptile) else d) s

def execTilSaveBaseWrite (value : W64) (s : State) : Host.Outcome State Fault Refusal :=
  onChip (fun m => whenReady m (saveBaseWrite value)) s

end Sys2Proof.Machine
end

