-- ==== Sys2Proof/Machine/Wear.lean ====
section
/-! DEFINITION. Stress units, margins, guard bands and the WEAR records (R547, R548, R552, R563, R564). -/

namespace Sys2Proof.Machine

/-- Account of the live state: kind 0 rail, 1 fabric lane, 2 pseudo-channel. -/
def account (kind i : Nat) : Nat := 65536 * kind + i

/-- Rails, in the order of R608's table: band logic and band SRAM, HBM VDD, VDDQ and VPP of each die, SerDes of each die, hub,
always-on. -/
def railCount : Nat := 38

/-- The largest m below 2^n with (60 m)^160 ≤ r, by bits. -/
def rootBits : Nat → Nat → Nat → Nat
  | 0, m, _ => m
  | n + 1, m, r => rootBits n (if (60 * (m + 2 ^ n)) ^ 160 ≤ r then m + 2 ^ n else m) r

/-- Stress units of one minute at a temperature in 1/16 °C, in 2^-20 of a unit: 16 ÷ 60 weighted by 2^((T − 85) ÷ 10), never
below 2^-4. -/
def stressStep (t : Int) : Nat :=
  let n := max (-640) (t - 85 * 16)
  if n < 0 then rootBits 40 0 ((2 ^ 24) ^ 160 / 2 ^ n.natAbs) else rootBits 40 0 ((2 ^ 24) ^ 160 * 2 ^ n.natAbs)

/-- An account's WEAR payload. -/
def wearPayload (k : Dbk) (kind i : Nat) : List Byte :=
  let a := account kind i
  let ms := fget [] k.margins a
  toBytes 1 kind ++ toBytes 1 0 ++ toBytes 2 i ++ toBytes 4 0 ++ toBytes 8 (fget 0 k.wear a / 2 ^ 20) ++ toBytes 2 (ms.headD 0) ++
    ((List.range 4).flatMap fun j => toBytes 2 (ms.getD (j + 1) 0)) ++ toBytes 1 (fget 0 k.guards a)

/-- Queues an account's WEAR record. -/
def wearRecord (kind i : Nat) (d : Dev) : Dev :=
  let a := account kind i
  let k := d.chip.dbk
  let d := d.mapChip fun c => { c with dbk := { k with wearLast := fset 0 k.wearLast a (fget 0 k.wear a / 2 ^ 20) } }
  journalLong 0 5 (wearPayload d.chip.dbk kind i) d

/-- A margin beside an account's earlier ones: the first stays, and the last four are held newest first. -/
def addMargin (ms : List Nat) (margin : Nat) : List Nat :=
  match ms with
  | [] => [margin, margin]
  | f :: l => f :: (margin :: l).take 4

/-- Margins measured at one training or qualification, in one record: of a lane one, of a pseudo-channel its four windows in the
order of their kinds (R366, R552; log entry 62). -/
def recordMargins (kind i : Nat) (margins : List Nat) (d : Dev) : Dev :=
  let a := account kind i
  let k := d.chip.dbk
  wearRecord kind i (d.mapChip fun c => { c with dbk := { k with margins := fset [] k.margins a (margins.foldl addMargin (fget [] k.margins a)) } })

/-- Whether an account's newest margin is below half its first (R564). -/
def marginLow (k : Dbk) (kind i : Nat) : Bool :=
  match fget [] k.margins (account kind i) with
  | f :: n :: _ => decide (2 * n < f)
  | _ => false

/-- Guard band of a rail in mV, which stops at the locked rail maximum (R563, R581). -/
def guardMv (k : Dbk) (rail : Nat) : Nat :=
  min (min 30 (5 + fget 0 k.wear (account 0 rail) / 2 ^ 20 / 64000)) (Config.railHeadroomMv rail)

/-- Hottest sensor of a rail, lane or pseudo-channel's stack. -/
def hottest (d : Dev) (kind i : Nat) : Int :=
  let die (n : Nat) : Int := if n = 0 then d.tel.tempDie0 else d.tel.tempDie1
  let stack (s : Nat) : Int := fget 0 d.chip.hbm.temps s
  match kind with
  | 0 =>
    if i < 28 then (fget Band.reset d.tel.bands (i % 14)).temp
    else if i < 34 then (List.range 4).foldl (fun (m : Int) s => max m (stack (4 * ((i - 28) / 3) + s))) (stack (4 * ((i - 28) / 3)))
    else if i < 36 then die (i - 34)
    else d.tel.tempHub
  | 1 => die (i / 16 / 8)
  | _ => stack (i / 32)

/-- Every account: rails, lanes (16 × port + lane) and pseudo-channels. -/
def accounts : List (Nat × Nat) :=
  (List.range railCount).map (0, ·) ++ (List.range 144).map (fun n => (1, 16 * (n / 9) + n % 9)) ++ (List.range 256).map (2, ·)

/-- One account's minute: its record is due after 384 more units (R552). -/
def stressAccount (d : Dev) (x : Nat × Nat) : Dev :=
  let a := account x.1 x.2
  let k := d.chip.dbk
  let w := fget 0 k.wear a + stressStep (hottest d x.1 x.2)
  let d := d.mapChip fun c => { c with dbk := { k with wear := fset 0 k.wear a w } }
  if fget 0 k.wearLast a + 384 ≤ w / 2 ^ 20 then wearRecord x.1 x.2 d else d

/-- STRESS_SAMPLE (R548), once the Daybook has been read. -/
def stressSample (d : Dev) : Dev :=
  if d.mgt.powered && d.chip.dbk.mode ≠ 0 then accounts.foldl stressAccount d else d

def execStressSample (s : State) : Host.Outcome State Fault Refusal := onDev stressSample s

end Sys2Proof.Machine
end

