-- ==== Sys2Proof/Machine/Boot.lean ====
section
/-! DEFINITION. From insertion to Ready: cold start, the stages, image verification, the remap table and start-up failure
(R504 to R525, R561, R563, R575 to R579, R601). -/

namespace Sys2Proof.Machine

/-! ### Cold start -/

/-- The state that a cold reset leaves: every register at its reset value, the flash, the fuses and the device's identity
kept, and what is latched at the input (R504, R606, R624, R626). -/
def coldReset (d : Dev) : Dev where
  mgt := { Mgt.reset with
    powered := d.mgt.powered, pwrGood := d.mgt.pwrGood, resetHeld := d.mgt.resetHeld, modId := d.mgt.modId
    serial := d.mgt.serial, stepping := d.mgt.stepping }
  tel := { Tel.reset with switchOpen := d.tel.switchOpen, tripLatch := d.tel.tripLatch }
  str := Str.reset
  chip := { Chip.reset with
    til := { Til.reset with almanac := d.chip.til.almanac }
    dbk := { Dbk.reset with prevStage := if d.mgt.stage = 0 then d.chip.dbk.prevStage else d.mgt.stage }
    flash := d.chip.flash
    out := d.chip.out
    fresh := d.chip.fresh }

/-- Start-up begins at the later of PWR_GOOD and the release of RESET_N, while the input switch is closed. -/
def tryStart (d : Dev) : Dev :=
  if d.mgt.powered && d.mgt.pwrGood && !d.mgt.resetHeld && !d.tel.switchOpen && d.mgt.stage = 0 then
    { d with mgt := { d.mgt with stage := 1 } }
  else d

/-- INSERTION (R601, R626): the hub powers into stage 0x00 and reads the strap. -/
def insertion (modId : BitVec 6) (mv : Nat) (d : Dev) : Dev :=
  if d.mgt.powered then d else
  let d := coldReset { d with mgt := { d.mgt with powered := true, pwrGood := false, modId := modId } }
  { d with tel := { d.tel with vin := .ofNat 16 mv } }

/-- PWR_GOOD_ASSERT (R504, R611): a cold start. -/
def pwrGoodAssert (d : Dev) : Dev :=
  if !d.mgt.powered || d.mgt.pwrGood then d
  else tryStart (coldReset { d with mgt := { d.mgt with pwrGood := true } })

/-- RESET_N (R504): its assertion resets everything but the flash, its release starts again. -/
def resetN (asserted : Bool) (d : Dev) : Dev :=
  if asserted then coldReset { d with mgt := { d.mgt with resetHeld := true } }
  else tryStart { d with mgt := { d.mgt with resetHeld := false } }

/-- Whether the stage with this code is running. -/
def inStage (n : Nat) (d : Dev) : Bool :=
  d.mgt.powered && d.mgt.pwrGood && !d.mgt.resetHeld && !d.mgt.failed && decide (d.mgt.stage.toNat = n)

def toStage (n : Nat) (d : Dev) : Dev := { d with mgt := { d.mgt with stage := .ofNat 8 n } }

/-- Every band Off. -/
def bandsOff (d : Dev) : Dev := { d with tel := { d.tel with bands := (List.range 14).foldl (fun m b =>
  fset Band.reset m b { fget Band.reset m b with state := 0, waking := false }) d.tel.bands } }

/-- STARTUP_FAILURE (R524): the stage stays, a fault record is queued once stage 0x02 is complete. -/
def startupFailure (d : Dev) : Dev :=
  let d := { d with mgt := { d.mgt with failed := true } }
  let d := if 2 < d.mgt.stage.toNat then d.mapChip (faultRec d.mgt 0 3 0 d.mgt.stage.toNat) else d
  bandsOff d

/-! ### Stages 0x01 and 0x02 -/

/-- ALWAYS_ON (R572); a Strongroom that has halted (R593) passes no test. -/
def alwaysOn (selfTests : Bool) (d : Dev) : Dev :=
  if !inStage 1 d then d
  else if selfTests && !d.str.halted then toStage 2 { d with str := { d.str with selftestOk := true, drbgOk := true, keysHeld := true } }
  else startupFailure d

/-- A tile is excluded with a cause, where it is not already. -/
def exclude (p cause : Nat) (c : Chip) : Chip :=
  if (c.tile p).role.toNat = 2 then c else c.setTile p { c.tile p with role := 2, cause := .ofNat 8 cause }

/-- Payload of a live state key, if there is one. -/
def liveKey (c : Chip) (type key : Nat) : Option (List Byte) :=
  (c.dbk.keys.find? fun x => x.1 == type && x.2.1 == key).map (·.2.2)

/-- What start-up takes from the fuse map and the recovered state (R509, R561, R564). -/
def takeState (m : Mgt) (c : Chip) : Chip :=
  let c := (List.range 112).foldl (fun c p =>
    let kept := (liveKey c 2 p).isSome
    let c := if c.til.almanac.tileBad.getLsbD p then exclude p 1 c else if kept then exclude p 2 c else c
    if kept then c.setTile p { c.tile p with permanent := true } else c) c
  let c := (List.range 144).foldl (fun c n =>
    let p := n / 9
    let l := n % 9
    if (liveKey c 3 (256 * p + l)).isSome then onPort p (fun x => { x with retired := putBit x.retired l true }) c
    else if marginLow c.dbk 1 (16 * p + l) then retireLane m p l 2 c
    else c) c
  let rows := c.dbk.keys.filter fun x => x.1 == 4 && (x.2.2.getD 8 0).toNat == 1
  rows.foldl (fun c x =>
    let pc := x.2.1 / 2 ^ 32
    { c with hbm := { c.hbm with redirects := fset [] c.hbm.redirects pc (fget [] c.hbm.redirects pc ++ [x.2.1 % 2 ^ 32]) } }) c

/-- Daybook minimum of an image kind; 0 where the Daybook has none (R576). -/
def minVersion (c : Chip) (kind : Nat) : Nat := ((liveKey c 6 kind).map fun p => ofBytes ((p.drop 4).take 4)).getD 0

/-- ALMANAC: the fuse map, DAYBOOK_RECOVERY, and what is taken from both. -/
def almanac (d : Dev) : Dev :=
  if !inStage 2 d then d else
  let c := takeState d.mgt (recover d.mgt d.chip)
  toStage 3 { d with chip := c, str := { d.str with minBoot := minVersion c 0, minCfg := minVersion c 1 } }

/-! ### Stage 0x03: images (R510, R575 to R579) -/

/-- An image's header (R575). -/
structure ImageHdr where
  raw : List Byte
  magic : Nat
  version : Nat
  kind : Nat
  keySlot : Nat
  revoke : Bool
  imageVersion : Nat
  svn : Nat
  bodyBytes : Nat
  serial : Nat
  digest : List Byte
  reservedZero : Bool
  deriving DecidableEq, Repr

def imageHdr (b : List Byte) : ImageHdr :=
  let n (o w : Nat) : Nat := ofBytes ((b.drop o).take w)
  let zero (o w : Nat) : Bool := ((b.drop o).take w).all (· == 0)
  { raw := b.take 256, magic := n 0 4, version := n 4 1, kind := n 5 1, keySlot := n 6 1, revoke := (n 7 1).testBit 0
    imageVersion := n 8 4, svn := n 12 1, bodyBytes := n 16 8, serial := n 24 8, digest := (b.drop 32).take 32
    reservedZero := decide (n 7 1 ≤ 1) && zero 13 3 && zero 64 192 && !((n 7 1).testBit 0 && (n 5 1 != 0 || n 6 1 != 1)) }

/-- Fuse floor of an image kind (R582). -/
def fuseFloor (c : Chip) (kind : Nat) : Nat :=
  if kind = 0 then popCount 48 c.til.almanac.thermo.toNat else popCount 16 (c.til.almanac.thermo.toNat / 2 ^ 48)

/-- Verifies an image of a kind (R576): 0, or the result that R598 gives the first condition that fails. -/
def verifyImage (d : Dev) (kind : Nat) (h : ImageHdr) (body sig : List Byte) : Nat :=
  let a := d.chip.til.almanac
  let key := if h.keySlot = 2 then a.owner.getD [] else Config.fusedKey h.keySlot
  let slotOk := if kind = 0 then h.keySlot = 1 || (h.keySlot = 0 && !a.revoked)
    else if a.owner.isSome then h.keySlot = 2 else h.keySlot = 1 || (h.keySlot = 0 && !a.revoked)
  if h.magic ≠ 0x5A42494D ∨ h.version ≠ 0x20 ∨ h.kind ≠ kind ∨ 2 < h.keySlot ∨ (if kind = 0 then 48 else 16) < h.svn then 3
  else if !h.reservedZero then 2
  else if !Config.slhVerify key h.raw sig then 3
  else if !slotOk then 3
  else if h.serial ≠ 0 ∧ h.serial ≠ d.mgt.serial.toNat then 5
  else if body.length ≠ h.bodyBytes ∨ sha256 body ≠ h.digest then 3
  else if h.svn < fuseFloor d.chip kind ∨ h.imageVersion < (if kind = 0 then d.str.minBoot else d.str.minCfg) then 4
  else 0

/-- Place of a boot partition or configuration slot, and its size. -/
def imagePlace (kind slot : Nat) : Nat × Nat :=
  if kind = 0 then (if slot = 0 then 0 else 0x1C00000, 0x1C00000) else (0x3800000 + 0x200000 * slot, 0x200000)

def flashHdr (c : Chip) (kind slot : Nat) : ImageHdr := imageHdr (flashBytes c (imagePlace kind slot).1 256)

/-- The body of an image in the flash; nothing where it would not fit its partition. -/
def flashBody (c : Chip) (kind slot : Nat) : List Byte :=
  let h := flashHdr c kind slot
  if 256 + h.bodyBytes + 7856 ≤ (imagePlace kind slot).2 then flashBytes c ((imagePlace kind slot).1 + 256) h.bodyBytes else []

def verifyFlash (d : Dev) (kind slot : Nat) : Nat :=
  let h := flashHdr d.chip kind slot
  let a := (imagePlace kind slot).1
  if (imagePlace kind slot).2 < 256 + h.bodyBytes + 7856 then 3
  else verifyImage d kind h (flashBody d.chip kind slot) (flashBytes d.chip (a + 256 + h.bodyBytes) 7856)

/-- Slots of a kind, the higher image_version first. -/
def offerOrder (c : Chip) (kind : Nat) : List Nat :=
  if (flashHdr c kind 0).imageVersion < (flashHdr c kind 1).imageVersion then [1, 0] else [0, 1]

/-- Offers slots in turn; each that is refused is recorded (R592). -/
def offer (kind : Nat) : List Nat → Dev → Option Nat × Dev
  | [], d => (none, d)
  | s :: r, d =>
    if verifyFlash d kind s = 0 then (some s, d)
    else offer kind r (d.mapChip (faultRec d.mgt 0 4 3 (kind + 256 * s)))

/-- LOCKED_LIMITS (R469, R579): the caps come from the configuration image, whose body no rule lays out. -/
def lockLimits (d : Dev) : Dev :=
  let c := (List.range 16).foldl (fun c p =>
    let (n, c) := drawFree c
    onPort p (fun x => { x with lockedGbps := .ofNat 8 (n % 201) }) c) d.chip
  { d with chip := c, str := { d.str with locks := 0x7F } }

/-- The measurements that stage 0x03 fixes (R578). -/
def measure (boot cfg : Nat) (d : Dev) : List (List Byte) :=
  let c := d.chip
  let a := c.til.almanac
  [Config.romDigest, sha256 (flashHdr c 0 boot).raw, sha256 (flashHdr c 1 cfg).raw, Config.manifestDigest (flashHdr c 0 boot).digest,
    List.replicate 32 0, Config.almanacDigest a.tileBad.toNat a.laneBad.toNat a.stackBad.toNat]

/-- IMAGES. -/
def images (d : Dev) : Dev :=
  if !inStage 3 d then d else
  let (boot, d) := offer 0 (offerOrder d.chip 0) d
  match boot with
  | none => startupFailure d
  | some b =>
    let (cfg, d) := offer 1 (offerOrder d.chip 1) d
    match cfg with
    | none => startupFailure d
    | some g =>
      let hb := flashHdr d.chip 0 b
      let hg := flashHdr d.chip 1 g
      toStage 4 (lockLimits { d with
        chip := { d.chip with til := { d.chip.til with
          manifest := (Config.fwManifest hb.digest).map fun x => ⟨x.1, x.2.1, x.2.2⟩ } }
        str := { d.str with
        bootB := decide (b = 1), bootVersion := .ofNat 32 hb.imageVersion, bootSvn := hb.svn
        bootSlot1Revoke := decide (hb.keySlot = 1) && hb.revoke
        cfgSlot1 := decide (g = 1), cfgVersion := .ofNat 32 hg.imageVersion, cfgSvn := hg.svn
        measurements := measure b g d } })

/-! ### Stages 0x04 and 0x05 -/

/-- BAND_WAVE (R511): the next wave energises its band; a band that does not load is faulted for this boot. -/
def bandWave (loaded : Bool) (d : Dev) : Dev :=
  if !inStage 4 d || 14 ≤ d.mgt.waves then d else
  let w := d.mgt.waves
  let b := 7 * (w % 2) + w / 2
  let d := d.setBand b { d.band b with state := 2 }
  let d := { d with mgt := { d.mgt with waves := w + 1, bandBad := putBit d.mgt.bandBad b (!loaded) } }
  if loaded then d else d.mapChip fun c => (tilesOfBand b).foldl (fun c p => exclude p 8 c) c

/-- BANDS: after the last wave; each rail has its guard band (R563). -/
def bands (d : Dev) : Dev :=
  if !inStage 4 d || d.mgt.waves < 14 then d else
  let k := d.chip.dbk
  let g := (List.range railCount).foldl (fun m r => fset 0 m (account 0 r) (guardMv k r)) k.guards
  toStage 5 (d.mapChip fun c => { c with dbk := { k with guards := g } })

/-- Windows that R366 requires of a pseudo-channel: two timing kinds and two reference-voltage kinds. -/
def windowsOk (ws : List Nat) (pc : Nat) : Bool :=
  decide (20 ≤ ws.getD (5 * pc) 0) && decide (20 ≤ ws.getD (5 * pc + 1) 0) && decide (10 ≤ ws.getD (5 * pc + 2) 0) &&
    decide (10 ≤ ws.getD (5 * pc + 3) 0)

/-- The repair that training completes for a redirected row (R363, R512). -/
def trainRepair (m : Mgt) (pc row : Nat) (c : Chip) : Chip :=
  let (n, c) := drawFree c
  let rest := (fget [] c.hbm.redirects pc).erase row
  if n.testBit 0 then
    let k := fget 0 c.hbm.pprDone pc
    let c := { c with hbm := { c.hbm with
      redirects := fset [] c.hbm.redirects pc rest, pprDone := fset 0 c.hbm.pprDone pc (if k = 255 then k else k + 1), lastResult := 2 } }
    raise .hbm 3 (journal m (pc / 128) 4 (toBytes 1 pc ++ toBytes 3 0 ++ toBytes 4 row ++ toBytes 1 2) c)
  else
    let c := { c with hbm := { c.hbm with lastResult := 4 } }
    raise .hbm 4 (journal m (pc / 128) 4 (toBytes 1 pc ++ toBytes 3 0 ++ toBytes 4 row ++ toBytes 1 3) c)

/-- HBM (R512): `first` and `second` say which stacks train at the first and at the second attempt, and `windows` holds the
five windows of each pseudo-channel at the last attempt. -/
def hbmStage (first second : BitVec 8) (windows : List Nat) (d : Dev) : Dev :=
  if !inStage 5 d then d else
  let ok (s : Nat) : Bool := (first.getLsbD s || second.getLsbD s) && !d.chip.til.almanac.stackBad.getLsbD s &&
    (List.range 32).all fun i => windowsOk windows (32 * s + i)
  let trained : BitVec 8 := (List.range 8).foldl (fun t s => putBit t s (ok s)) 0
  let d := d.mapChip fun c => { c with hbm := { c.hbm with
    trained := trained
    pprLeft := (List.range 256).foldl (fun m p => fset 0 m p (Config.pprResources p)) c.hbm.pprLeft } }
  if trained ≠ 0xFF then startupFailure d
  else
    let d := d.mapChip fun c => c.hbm.redirects.foldl (fun c x => x.2.foldl (fun c row => trainRepair d.mgt x.1 row c) c) c
    toStage 6 ((List.range 256).foldl (fun d p => recordMargins 2 p ((windows.drop (5 * p)).take 4) d) d)

/-! ### Stages 0x06 to 0x09 -/

/-- PORT_TRAINING (R514): a port that trains is qualified next, at the rate its partner offers. -/
def portTraining (trained enene : BitVec 16) (d : Dev) : Dev :=
  if !inStage 6 d then d else
  toStage 7 (d.mapChip fun c => (List.range 16).foldl (fun c p => onPort p (fun x =>
    if x.disable then { x with state := 5 }
    else if trained.getLsbD p then { x with state := 2, lane112 := enene.getLsbD p || x.rate }
    else { x with state := 0 }) c) c)

/-- QUALIFICATION (R515, R516): margins are recorded, a lane with less than half its first margin is retired, and every port
ends Active or Down. -/
def qualification (passed : List (BitVec 9)) (margins : List Nat) (d : Dev) : Dev :=
  if !inStage 7 d then d else
  let d := (List.range 144).foldl (fun d n =>
    let p := n / 9
    let l := n % 9
    if (d.chip.port p).state.toNat ≠ 2 then d else
    let d := recordMargins 1 (16 * p + l) [margins.getD n 0] d
    if marginLow d.chip.dbk 1 (16 * p + l) && !(d.chip.port p).retired.getLsbD l then d.mapChip (retireLane d.mgt p l 2) else d) d
  toStage 8 (d.mapChip fun c => (List.range 16).foldl (fun c p =>
    let x := c.port p
    if x.state = 2 then qualifyPort d.mgt p (passed.getD p 0) x.lane112 c
    else if x.state = 0 then portDown d.mgt p true c
    else c) c)

/-- Whether a block of the manifest is one for a core: the tile core's, or the engine sequencers' (R517). -/
def FwBlock.takes (b : FwBlock) (core : Nat) : Bool := b.engine == (core != 0)

/-- Whether a core accepts an arrived block: its digest is the manifest's (R517). -/
def accepts (man : List FwBlock) (core : Nat) (a : FwArrival) : Bool :=
  man.any fun b => b.index = a.index && b.takes core && b.digest = sha256 a.data

/-- The bitmap of the blocks that a core has accepted. -/
def acceptedBy (man : List FwBlock) (l : List FwArrival) (p core : Nat) : Nat :=
  l.foldl (fun m a => if a.cores.contains (p, core) && accepts man core a then m ||| 2 ^ a.index else m) 0

/-- Whether a tile's cores hold every block that the manifest gives them. -/
def fwWhole (man : List FwBlock) (l : List FwArrival) (p : Nat) : Bool :=
  (List.range 9).all fun core => man.all fun b => !b.takes core || (acceptedBy man l p core).testBit b.index

/-- FIRMWARE (R517, R518): broadcast passes, and every block as it reached cores, by broadcast or by unicast; tiles with an
incomplete core are excluded. -/
def firmware (passes : Nat) (broadcast unicast : List FwArrival) (d : Dev) : Dev :=
  if !inStage 8 d then d else
  let man := d.chip.til.manifest
  let arrivals := broadcast ++ unicast
  toStage 9 (d.mapChip fun c => (List.range 112).foldl (fun c p =>
    if c.til.almanac.tileBad.getLsbD p || d.mgt.bandBad.getLsbD (bandOf p) then c else
    let bad := !fwWhole man arrivals p
    let sent := (unicast.flatMap fun a => a.cores.filter fun x => x.1 = p).length
    let c := c.setTile p { c.tile p with
      fwComplete := !bad, fwPasses := .ofNat 4 passes, fwUnicast := .ofNat 12 (min 4095 sent)
      accepted := (List.range 9).foldl (fun m core => fset 0 m core (acceptedBy man arrivals p core)) [] }
    if bad then faultRec d.mgt (p / 56) 0 3 p (exclude p 3 c) else c) c)

/-- OVERLAYS (R519). -/
def overlays (failed : List Nat) (d : Dev) : Dev :=
  if !inStage 9 d then d else
  toStage 10 (d.mapChip fun c => failed.foldl (fun c p => if p < 112 then exclude p 4 c else c) c)

/-! ### Stage 0x0A -/

/-- Self-test of one tile (R520). -/
def testTile (m : Mgt) (units : List (BitVec 8)) (c : Chip) (p : Nat) : Chip :=
  let x := c.tile p
  if x.role.toNat = 2 then c else
  let u := units.getD p 0
  let c := c.setTile p { x with units := u, selftest := if u = 0 then 1 else 2 }
  if u = 0 then c else
  let c := faultRec m (p / 56) 0 5 p (exclude p 5 c)
  if c.til.almanac.failedLast.getLsbD p then
    let (ok, c) := queueRec m (p / 56) 2 (toBytes 1 p ++ toBytes 1 5) c
    c.setTile p { c.tile p with permanent := ok }
  else c

/-- REMAP_TABLE_ASSIGN (R522): candidates take the quadrant's indices in row order; further ones are spares; numbers left over
lack backing. -/
def assignQuad (c : Chip) (q : Nat) : Chip :=
  let l := candidates c q
  let c := l.zipIdx.foldl (fun c x =>
    c.setTile x.1 (if x.2 < 12 then { c.tile x.1 with role := 0, logical := .ofNat 7 (12 * q + x.2), running := .ofNat 7 (12 * q + x.2) }
      else { c.tile x.1 with role := 1 })) c
  { c with til := { c.til with unbacked := c.til.unbacked ++ span (12 * q + min 12 l.length) (12 * q + 12) } }

/-- READY (R525). -/
def ready (d : Dev) : Dev :=
  let d := raiseD .mgt 0 (toStage 11 { d with mgt := { d.mgt with ready := true } })
  d.mapChip fun c => (activePorts c).foldl (fun c p => sendIdent d.mgt p c) { c with vsp := { c.vsp with ready := true } }

/-- SELF_TEST: the tests, the HBM clear (R513), the remap table, then Ready; with fewer than six candidates in a quadrant
start-up fails (R523). -/
def selfTest (units : List (BitVec 8)) (d : Dev) : Dev :=
  if !inStage 10 d then d else
  let d := d.mapChip fun c => (List.range 112).foldl (testTile d.mgt units) c
  let failed : BitVec 112 := (List.range 112).foldl (fun f p => putBit f p (decide ((d.chip.tile p).selftest.toNat = 2))) 0
  let d := d.mapChip fun c => clearRange 0 hbmTop { c with til := { c.til with almanac := { c.til.almanac with failedLast := failed } } }
  if (List.range 8).any fun q => (candidates d.chip q).length < 6 then startupFailure d
  else ready (d.mapChip fun c => (List.range 8).foldl assignQuad c)

/-! ### The commands -/

def execInsertion (modId : BitVec 6) (mv : Nat) (s : State) : Host.Outcome State Fault Refusal := onDev (insertion modId mv) s
def execPwrGoodAssert (s : State) : Host.Outcome State Fault Refusal := onDev pwrGoodAssert s
def execResetN (asserted : Bool) (s : State) : Host.Outcome State Fault Refusal := onDev (resetN asserted) s
def execAlwaysOn (selfTests : Bool) (s : State) : Host.Outcome State Fault Refusal := onDev (alwaysOn selfTests) s
def execAlmanac (s : State) : Host.Outcome State Fault Refusal := onDev almanac s
def execImages (s : State) : Host.Outcome State Fault Refusal := onDev images s
def execBandWave (loaded : Bool) (s : State) : Host.Outcome State Fault Refusal := onDev (bandWave loaded) s
def execBands (s : State) : Host.Outcome State Fault Refusal := onDev bands s
def execHbm (first second : BitVec 8) (windows : List Nat) (s : State) : Host.Outcome State Fault Refusal :=
  onDev (hbmStage first second windows) s
def execPortTraining (trained enene : BitVec 16) (s : State) : Host.Outcome State Fault Refusal := onDev (portTraining trained enene) s
def execQualification (passed : List (BitVec 9)) (margins : List Nat) (s : State) : Host.Outcome State Fault Refusal :=
  onDev (qualification passed margins) s
def execFirmware (passes : Nat) (broadcast unicast : List FwArrival) (s : State) : Host.Outcome State Fault Refusal :=
  onDev (firmware passes broadcast unicast) s
def execOverlays (failed : List Nat) (s : State) : Host.Outcome State Fault Refusal := onDev (overlays failed) s
def execSelfTest (units : List (BitVec 8)) (s : State) : Host.Outcome State Fault Refusal := onDev (selfTest units) s

end Sys2Proof.Machine
end

