-- ==== Sys2Proof/Machine/Cxl.lean ====
section
/-! DEFINITION. The CXL port: configuration space, the aperture table, HDM windows, the snoop filter, unordered I/O, MSI-X
and the DOE instances that the Strongroom does not answer (R475 to R499). -/

namespace Sys2Proof.Machine

/-! ### The link (R475, R477) -/

/-- CXL_LINK_UP: the link completes training in a mode. -/
def linkUp (mode : LinkMode) (d : Dev) : Dev :=
  if d.mgt.pwrGood && !d.mgt.resetHeld then
    d.mapChip fun c => { c with cxl := { c.cxl with link := some mode, refclk := true } }
  else d

/-- Whether CXL.cache and CXL.mem run: a CXL mode, and no failed IDE stream (R477, R499). -/
def cxlOpen (c : Chip) : Bool := c.cxl.link.any (· != .pcie) && !c.cxl.ideHalt

/-! ### The aperture table (R487, R488) -/

def Chip.aper (c : Chip) (i : Nat) : Aper := fget Aper.reset c.cxl.apers i

/-- Whether aperture entry `i` holds a ring of an open queue, a ring of an enabled mailbox, or the CXL lanes of an open
stack (R487). -/
def inUse (c : Chip) (i : Nat) : Bool :=
  let at_ (h n : Nat) : Bool := hostEntry c h n = some i
  (c.ory.wqs.any fun (_, w) => w.isOpen &&
    ((w.ringHost && at_ w.base.toNat (128 * w.slots + 64)) || (w.cplHost && at_ w.cplBase.toNat (16 * 2 ^ w.cplLog)))) ||
  (c.vsp.mboxes.any fun (_, b) => b.enable && b.host && at_ b.base.toNat (16 * 2 ^ b.log2.toNat)) ||
  (c.openStacks.any fun (_, s) => s.any fun s =>
    let r := regionD s.region
    r.cxlEn && at_ (r.bases.getD 2 0) (96 * r.lanes.getD 2 0))

/-- Bits of an entry's base and size that hold fields. -/
def aperBaseMask : Nat := 0x000FFFFFFFFFF00F
def aperSizeMask : Nat := 0x000001FFFFFFF000

/-- A write of one dword of an aperture entry (R487, R488). -/
def aperWrite (i dword : Nat) (v : W32) (c : Chip) : Chip :=
  let a := c.aper i
  let set (x : W64) (hi : Bool) (mask : Nat) : W64 :=
    .ofNat 64 ((if hi then v.toNat * 2 ^ 32 + x.toNat % 2 ^ 32 else x.toNat / 2 ^ 32 * 2 ^ 32 + v.toNat) &&& mask)
  let put (x : Aper) : Chip := { c with cxl := { c.cxl with apers := fset Aper.reset c.cxl.apers i x } }
  if c.cxl.lock then c
  else if a.base.getLsbD 0 then
    if dword = 0 && !v.getLsbD 0 && !inUse c i then put { a with base := a.base &&& ~~~1#64 } else c
  else
    match dword with
    | 0 =>
      let b := set a.base false aperBaseMask
      let bad := b.getLsbD 0 && (a.size = 0 || 2 ^ 52 < Aper.host ⟨b, a.size⟩ + a.size.toNat)
      if bad then c else put { a with base := b }
    | 1 => put { a with base := set a.base true aperBaseMask }
    | 2 => put { a with size := set a.size false aperSizeMask }
    | _ => put { a with size := set a.size true aperSizeMask }

def aperLock (c : Chip) : Chip := { c with cxl := { c.cxl with lock := true } }

/-! ### Configuration space (R478, R479, R487, R503) -/

/-- A dword of bytes that no rule lays out. -/
def cfgWord (o : Nat) : Nat := ofBytes ((List.range 4).map fun i => Config.cfgByte (o + i))

/-- The Salrus DVSEC by its own offset (R487). -/
def dvsecRead (c : Chip) (o : Nat) : Nat :=
  if o = 0 then cfgWord Config.dvsecAt
  else if o = 4 then cfgWord 0 % 65536 + 0x120 * 2 ^ 20
  else if o = 8 then 1
  else if o = 0x0C then b2n c.cxl.keepHbm + 2 * b2n c.cxl.lock
  else if o = 0x10 then c.cxl.lastReset.toNat * 65536 + ((List.range 16).map fun i => b2n (inUse c i) * 2 ^ i).foldl (· + ·) 0
  else if o < 0x20 then 0
  else
    let a := c.aper ((o - 0x20) / 16)
    bitsOf (if (o - 0x20) % 16 < 8 then a.base.toNat else a.size.toNat) (32 * ((o - 0x20) / 4 % 2)) 32

/-- The dword that a configuration read returns. -/
def configRead (c : Chip) (o : Nat) : W32 :=
  .ofNat 32 (
    if Config.dvsecAt ≤ o ∧ o < Config.dvsecAt + 0x120 then dvsecRead c (o - Config.dvsecAt)
    else if o = 0 then cfgWord 0 % 65536 + 0x0288 * 65536
    else if o = 8 then cfgWord 8 % 256 + 0x120000 * 256
    else cfgWord o)

/-- A configuration write: the Salrus DVSEC holds the registers that the spec lays out. -/
def configWrite (o : Nat) (v : W32) (c : Chip) : Chip :=
  let r := o - Config.dvsecAt
  if o < Config.dvsecAt ∨ Config.dvsecAt + 0x120 ≤ o then c
  else if r = 0x0C then
    let c := { c with cxl := { c.cxl with keepHbm := v.getLsbD 0 } }
    if v.getLsbD 1 then aperLock c else c
  else if 0x20 ≤ r then aperWrite ((r - 0x20) / 16) ((r - 0x20) / 4 % 4) v c
  else c

/-- CONFIGURATION_REQUEST (R503): answered at any time after PWR_GOOD. -/
def configRequest (o : Nat) (data : Option W32) (d : Dev) : Dev :=
  if d.mgt.pwrGood && !d.mgt.resetHeld then
    d.mapChip fun c => match data with
      | none => emit (.config o (configRead c o)) c
      | some v => emit (.config o v) (configWrite o v c)
  else d

/-! ### HDM windows and the snoop filter (R492 to R495) -/

/-- HDM_DECODER_COMMIT (R492): a write of BAR4, which a discarding PCIe stream does not let through (R499). -/
def hdmCommit (i base size target ways : Nat) (c : Chip) : Chip :=
  let unit := 2 ^ 28
  let bad := ways ≠ 1 || size = 0 || base % unit != 0 || size % unit != 0 || hbmTop < target + size
  let x : HdmDec := if bad then ⟨false, true, base, size, target⟩ else ⟨true, false, base, size, target⟩
  if c.cxl.link = some .pcie ∨ c.cxl.ideHaltIo then c else { c with cxl := { c.cxl with hdms := fset HdmDec.reset c.cxl.hdms i x } }

/-- Whether a committed decoder maps a line of HBM. -/
def hdmMaps (c : Chip) (line : Nat) : Bool :=
  c.cxl.hdms.any fun (_, x) => x.committed && decide (x.target ≤ line) && decide (line + 64 ≤ x.target + x.size)

def filterSize : Nat := 262144

/-- HOST_HDM_READ (R493, R495): the line, its poison, and its place in the filter; where the filter is full the oldest line
is snooped first, and the read waits. -/
def hdmRead (line : Nat) (c : Chip) : Chip :=
  if !cxlOpen c || !hdmMaps c line then c
  else if !c.cxl.filter.contains line && filterSize ≤ c.cxl.filter.length then
    sendSnoops (c.cxl.filter.take 1) { c with cxl := { c.cxl with heldReads := c.cxl.heldReads ++ [line] } }
  else
    let c := if c.cxl.filter.contains line then c else { c with cxl := { c.cxl with filter := c.cxl.filter ++ [line] } }
    let c := meet line 64 c
    match firstPoison c line 64 with
    | some w => recordUe w (emit (.hdmData line (readBytes c line 64) true) c)
    | none => emit (.hdmData line (readBytes c line 64) false) c

/-- Writes the enabled bytes of a line and clears the poison of the words they cover whole. -/
def lineWrite (line : Nat) (data : BitVec 512) (en : W64) (c : Chip) : Chip :=
  let c := (List.range 64).foldl (fun c i => if en.getLsbD i then writeByte (line + i) (.ofNat 8 (byt data i 1)) c else c) c
  (List.range 4).foldl (fun c k => if bitsOf en.toNat (16 * k) 16 = 0xFFFF then setPoison (line + 16 * k) false c else c) c

/-- HOST_HDM_WRITE (R494, R495): no seal changes; a write of part of a poisoned word is dropped. -/
def hdmWrite (line : Nat) (data : BitVec 512) (en : W64) (c : Chip) : Chip :=
  if !cxlOpen c || !hdmMaps c line then c else
  let part (k : Nat) : Bool := bitsOf en.toNat (16 * k) 16 != 0 && bitsOf en.toNat (16 * k) 16 != 0xFFFF
  let c := (List.range 4).foldl (fun c k => if part k then meet (line + 16 * k) 16 c else c) c
  match (List.range 4).find? fun k => part k && poisonedAt c (line + 16 * k) with
  | some k =>
    let c := { c with cxl := { c.cxl with ras := true } }
    recordUe (line + 16 * k) (emit .rasError c)
  | none => lineWrite line data en c

/-- BACK_INVALIDATE_COMPLETION (R493): the host's bytes come back where it held the line modified, and what waited for the
line is taken up again. -/
def backInvalidated (m : Mgt) (line : Nat) (data : Option (BitVec 512)) (c : Chip) : Chip :=
  if !c.cxl.snoops.contains line || c.cxl.ideHalt then c else
  let c := { c with cxl := { c.cxl with snoops := c.cxl.snoops.erase line, filter := c.cxl.filter.filter (· != line) } }
  let c := match data with
    | some v => lineWrite line v (BitVec.allOnes 64) c
    | none => c
  let reads := c.cxl.heldReads
  let c := reads.foldl (fun c l => hdmRead l c) { c with cxl := { c.cxl with heldReads := [] } }
  let held := c.fab.held
  let c := { c with fab := { c.fab with held := [] } }
  let c := held.foldl (fun c (t, p) => if t == .write then onWrite m p c else onRead m p c) c
  let c := c.ory.entries.foldl (fun c e => armAdvance m e.id c) c
  let c := (List.range 8).foldl (fun c i => pumpMbox i (c.mbox i).waiting.length c) c
  armAll m (pump m c)

/-! ### Unordered I/O (R496) -/

/-- UIO_COMPLETION: a write is acknowledged, or a read brings its bytes. -/
def uioComplete (m : Mgt) (tag : Nat) (data : List Byte) (c : Chip) : Chip :=
  match c.cxl.uios.find? (·.tag = tag) with
  | none => c
  | some u =>
    if c.cxl.ideHaltIo then c else
    let c := { c with cxl := { c.cxl with uios := c.cxl.uios.filter (·.tag != tag) } }
    match entryOf c u.entry with
    | some e =>
      if !u.read then c
      else
        let new := (data.take u.len).zipIdx.map fun (b, i) => (u.addr + i, b)
        armAll m (armAdvance m e.id (settleAsked e.id (setEntry { e with ext := e.ext ++ new } c)))
    | none => c

/-- UIO_TIMEOUT: 5 ms without a completion end the operation (R245, R496). -/
def uioTimeout (m : Mgt) (tag : Nat) (c : Chip) : Chip :=
  match c.cxl.uios.find? (·.tag = tag) with
  | none => c
  | some u =>
    let c := { c with cxl := { c.cxl with uios := c.cxl.uios.filter (·.tag != tag) } }
    match entryOf c u.entry with
    | some e => if e.phase == .arming then armAll m (refuseArm e 0x0F (dropRequests e.id c)) else failAccess e 0x0F c
    | none => c

/-! ### MSI-X, IDE failure and DOE (R481, R483, R484, R499) -/

/-- MSIX_UNMASK (R481): a pending vector sends one message; a write of BAR4, as HDM_DECODER_COMMIT is. -/
def msixUnmask (v : Nat) (c : Chip) : Chip :=
  if c.cxl.ideHaltIo then c else
  let pend := c.cxl.vecPend.getLsbD v
  let c := { c with cxl := { c.cxl with vecMask := putBit c.cxl.vecMask v false, vecPend := putBit c.cxl.vecPend v false } }
  if pend then emit (.msix v) c else c

/-- IDE_INTEGRITY_FAILURE (R499), where the stream has keys. -/
def ideFailure (st : IdeStream) (c : Chip) : Chip :=
  let x := c.cxl
  match st with
  | .cxl => if x.ideKeys.isNone then c else { c with cxl := { x with ideHalt := true, aer := true, ras := true } }
  | .pcie => if x.ideKeysIo.isNone then c else { c with cxl := { x with ideHaltIo := true, aer := true, ras := true } }

/-- Protocols of a DOE instance (R483) as (vendor, type), with the DMTF and CXL numbers (log entry 5). -/
def doeProtocols : DoeInst → List (Nat × Nat)
  | .inst0 => [(1, 0), (0x1E98, 2)]
  | .inst1 => [(1, 0), (1, 1)]
  | .inst2 => [(1, 0), (1, 2)]

/-- DOE_DISCOVERY (R483). -/
def doeDiscovery (inst : DoeInst) (index : Nat) (c : Chip) : Chip :=
  let ps := doeProtocols inst
  let p := ps.getD index (0xFFFF, 0)
  emit (.doe inst 0 (toBytes 2 p.1 ++ toBytes 1 p.2 ++ toBytes 1 (if index + 1 < ps.length then index + 1 else 0))) c

/-- Payload rate of the trained mode in GB/s (R475); none as a PCIe endpoint or without a link. -/
def payloadRate : Option LinkMode → Option Nat
  | some .native => some 60
  | some .rateFallback | some .widthFallback => some 30
  | some .both => some 15
  | _ => none

/-- CDAT_TABLE_ACCESS (R484): structure `index`, as (kind, value): the last address of the range, nanoseconds, or GB/s. -/
def cdatAccess (index : Nat) (c : Chip) : Chip :=
  match index with
  | 0 => emit (.cdat 0 (hbmTop - 1)) c
  | 1 => emit (.cdat 1 600) c
  | 2 => emit (.cdat 2 600) c
  | 3 | 4 =>
    match payloadRate c.cxl.link with
    | some r => emit (.cdat index r) c
    | none =>
      let (v, c) := drawFree c
      emit (.cdat index v) c
  | _ => c

/-! ### Commands -/

/-- CONFIGURATION_REQUEST (R503). -/
def execConfigurationRequest (offset : Nat) (data : Option W32) (s : State) : Host.Outcome State Fault Refusal :=
  onDev (configRequest offset data) s
/-- CXL_LINK_UP (R475). -/
def execCxlLinkUp (mode : LinkMode) (s : State) : Host.Outcome State Fault Refusal := onDev (linkUp mode) s
/-- APERTURE_ENTRY_WRITE (R488). -/
def execApertureEntryWrite (entry : BitVec 4) (dword : BitVec 2) (value : W32) (s : State) : Host.Outcome State Fault Refusal :=
  onChip (fun _ c => aperWrite entry.toNat dword.toNat value c) s
/-- APERTURE_LOCK (R487). -/
def execApertureLock (s : State) : Host.Outcome State Fault Refusal := onChip (fun _ c => aperLock c) s
/-- HDM_DECODER_COMMIT (R492). -/
def execHdmDecoderCommit (decoder : BitVec 2) (base size target ways : Nat) (s : State) : Host.Outcome State Fault Refusal :=
  onChip (fun _ c => hdmCommit decoder.toNat base size target ways c) s
/-- HOST_HDM_READ (R495). -/
def execHostHdmRead (line : Nat) (s : State) : Host.Outcome State Fault Refusal := onChip (fun _ c => hdmRead line c) s
/-- HOST_HDM_WRITE (R494). -/
def execHostHdmWrite (line : Nat) (data : BitVec 512) (enables : W64) (s : State) : Host.Outcome State Fault Refusal :=
  onChip (fun _ c => hdmWrite line data enables c) s
/-- MSIX_UNMASK (R481). -/
def execMsixUnmask (vector : BitVec 8) (s : State) : Host.Outcome State Fault Refusal :=
  onChip (fun _ c => msixUnmask vector.toNat c) s
/-- IDE_INTEGRITY_FAILURE (R499). -/
def execIdeIntegrityFailure (stream : IdeStream) (s : State) : Host.Outcome State Fault Refusal :=
  onChip (fun _ c => ideFailure stream c) s
/-- DOE_DISCOVERY (R483). -/
def execDoeDiscovery (inst : DoeInst) (index : Nat) (s : State) : Host.Outcome State Fault Refusal :=
  onChip (fun _ c => doeDiscovery inst index c) s
/-- CDAT_TABLE_ACCESS (R484). -/
def execCdatTableAccess (index : Nat) (s : State) : Host.Outcome State Fault Refusal := onChip (fun _ c => cdatAccess index c) s
/-- UIO_TIMEOUT (R496). -/
def execUioTimeout (tag : Nat) (s : State) : Host.Outcome State Fault Refusal := onChip (fun m c => uioTimeout m tag c) s
/-- UIO_COMPLETION (R496). -/
def execUioCompletion (tag : Nat) (data : List Byte) (s : State) : Host.Outcome State Fault Refusal :=
  onChip (fun m c => uioComplete m tag data c) s
/-- BACK_INVALIDATE_COMPLETION (R493). -/
def execBackInvalidateCompletion (line : Nat) (data : Option (BitVec 512)) (s : State) : Host.Outcome State Fault Refusal :=
  onChip (fun m c => backInvalidated m line data c) s

end Sys2Proof.Machine
end

