-- ==== Sys2Proof/Machine/HbmRepair.lean ====
section
/-! DEFINITION. Scrub, refresh, the merge of a partial write into a sealed block, row repair and margining of the HBM
(R343 to R347, R351, R361 to R366). -/

namespace Sys2Proof.Machine

/-! ### Refresh and temperature (R361) -/

/-- The bandwidth hold of a stack: begun above 95 °C, ended at 92 °C or less. -/
def stackThrottle (s : Nat) (c : Chip) : Chip :=
  let t := fget 0 c.hbm.temps s
  let was := c.hbm.throttled.getLsbD s
  let now := if was then decide (92 * 16 < t) else decide (95 * 16 < t)
  raiseIf (now && !was) .hbm 5 { c with hbm := { c.hbm with throttled := putBit c.hbm.throttled s now } }

/-! ### Scrub (R344 to R347) -/

/-- Sixteen bytes that no rule fixes. -/
def freeWord (k : Nat) (c : Chip) : Chip :=
  let (v, c) := drawFree c
  writeBytes k (toBytes 16 v) c

/-- Bits of an HBM word flip. What the code detects, every access reports until the word is written whole (R345), so the word
is poisoned at once; of a pattern without a guarantee a free value says whether it is detected, corrected to other data, or
not noticed (R343). -/
def strike (c : Chip) (x : WordError) : Chip :=
  let k := 16 * x.word
  let new := (x.bits.filter (· < 144)).eraseDups
  let old := fget [] c.upsets x.word
  let bits := old.filter (!new.contains ·) ++ new.filter (!old.contains ·)
  let flip (b : List Nat) (c : Chip) : Chip := { c with upsets := fset [] c.upsets x.word b }
  if hbmTop ≤ k || fget false c.poison x.word then c else
  match eccOf bits with
  | .clean => flip [] c
  | .corrected => flip bits c
  | .uncorrectable => setPoison k true c
  | .unknown =>
    let (v, c) := drawFree c
    if v % 3 = 0 then setPoison k true c
    else if v % 3 = 1 then flip [0] (freeWord k c)
    else flip [] (freeWord k c)

/-- Adds a granule that lies in none of some rising ranges. -/
def addGranule (g : Nat) : List (Nat × Nat) → List (Nat × Nat)
  | [] => [(g, g + 1)]
  | (a, b) :: r =>
    if g + 1 < a then (g, g + 1) :: (a, b) :: r
    else if g + 1 = a then (g, b) :: r
    else if g = b then
      match r with
      | (a', b') :: r' => if a' = g + 1 then (a, b') :: r' else (a, g + 1) :: (a', b') :: r'
      | [] => [(a, g + 1)]
    else (a, b) :: addGranule g r

/-- Granules of the module. -/
def granules : Nat := 0x48000000

/-- SCRUB_READ (R347): the granule is read, with the bits that have flipped by then, and counts once in the period; the
period ends with the last of the module's granules. -/
def scrubRead (g : Nat) (errors : List WordError) (c : Chip) : Chip :=
  let c := errors.foldl strike c
  if c.hbm.scrubbed.any fun r => r.1 ≤ g && g < r.2 then c else
  let c := ((wordsIn (256 * g) 256).filter (poisonedAt (meet (256 * g) 256 c))).foldl (fun c w => recordUe w c)
    (meet (256 * g) 256 c)
  if c.hbm.scrubPos + 1 < granules then
    { c with hbm := { c.hbm with scrubPos := c.hbm.scrubPos + 1, scrubbed := addGranule g c.hbm.scrubbed } }
  else
    let c := raiseIf (ctrWraps c.hbm.scrubPasses 1) .hbm 7 c
    { c with hbm := { c.hbm with scrubPos := 0, scrubbed := [], rowCe := [], scrubPasses := ctrAdd c.hbm.scrubPasses 1 } }

/-! ### Merge of a partial write (R351) -/

/-- An entry that stands for the seal owner itself. -/
def ownerEntry : Entry := { Entry.reset with phase := .started }

/-- SEAL_MERGE: the owner checks what it merges, applies the bytes and writes the new seal; a word that cannot be read or a
seal that does not match leaves the block as it was. -/
def sealMerge (addr : Nat) (data : List Byte) (tensor policy base extent : Nat) (c : Chip) : Chip :=
  let r : TRef := ⟨base, extent, 0, 0, policy, tensor⟩
  let x := Acc.wr r (addr - base) data.length
  let ok := decide (base % 4096 = 0) && r.sealed base && data ≠ [] && decide (base ≤ addr) &&
    decide (addr + data.length ≤ base + extent) && accessible c base extent true && !isOuter base &&
    decide ((blocksOf x.off x.len).length = 1)
  if !ok then c else
  let b := x.off / 4096
  let lines := trackedIn c (base + 4096 * b) (blockLen r b)
  if lines ≠ [] then sendSnoops lines c else
  let c := meet (base + 4096 * b) (blockLen r b) c
  match (checkWrite ownerEntry x c).andThen (checkMerge ownerEntry [x] x b) with
  | .stop _ c => c
  | .wait c => c
  | .go c => commitAll ownerEntry [⟨r, x.off, data, false⟩] c

/-! ### Row repair (R362 to R364) -/

/-- A repair record (R547): 1 redirected, 2 repaired, 3 exhausted. -/
def rowRecord (m : Mgt) (pc row status : Nat) (c : Chip) : Chip :=
  journal m (pc / 128) 4 (toBytes 1 pc ++ toBytes 3 0 ++ toBytes 4 row ++ toBytes 1 status) c

/-- Ends a repair that asked or did not ask for steps 2 to 4. -/
def endRepair (host : Bool) (result : Nat) (c : Chip) : Chip :=
  { c with hbm := { c.hbm with
    lastResult := .ofNat 8 result
    repairRow := none
    repairAsk := if host then none else c.hbm.repairAsk
    repairCtrl := if host then putBit c.hbm.repairCtrl 0 false else c.hbm.repairCtrl } }

/-- Step 1, and the way on: post-package repair where it is asked and allowed, else the row stays redirected. -/
def startRepair (m : Mgt) (pc row : Nat) (all host : Bool) (c : Chip) : Chip :=
  let c := { c with hbm := { c.hbm with candidates := c.hbm.candidates.erase (pc, row) } }
  let rows := fget [] c.hbm.redirects pc
  if !rows.contains row && decide (8 ≤ rows.length) then
    rowRecord m pc row 3 (raise .hbm 4 (endRepair host 3 c))
  else
    let c := if rows.contains row then c
      else rowRecord m pc row 1 { c with hbm := { c.hbm with redirects := fset [] c.hbm.redirects pc (rows ++ [row]) } }
    if all && c.hbm.pprEn then { c with hbm := { c.hbm with repairRow := some (pc, row, host) } }
    else raiseIf all .hbm 3 (endRepair host 1 c)

/-- Whether a repair or a sweep runs (R368 repair_busy). -/
def repairBusy (c : Chip) : Bool := c.hbm.repairRow.isSome || c.hbm.sweeping

/-- The repair that HBM_REPAIR_CTRL asks for, once no other runs. -/
def hostRepair (m : Mgt) (c : Chip) : Chip :=
  match c.hbm.repairAsk with
  | none => c
  | some (a, hppr) =>
    if c.hbm.repairRow.isSome then c
    else if c.hbm.sweeping then endRepair true 5 c
    else startRepair m (pcOf a) (Config.rowOfSlot (a >>> 16)) hppr true c

/-- REPAIR_GO: a write of HBM_REPAIR_CTRL, which always takes its fields; go stays 1 until the repair that it started ends,
and a repair of an address beyond the HBM does not start. -/
def repairGo (m : Mgt) (v : W64) (c : Chip) : Chip :=
  let a := bitsOf v.toNat 8 40 * 256
  let hppr := v.getLsbD 1
  let was := c.hbm.repairCtrl.getLsbD 0
  let go := v.getLsbD 0 && decide (a < hbmTop)
  let c := { c with hbm := { c.hbm with repairCtrl := .ofNat 64 (a + 2 * b2n hppr + b2n (was || go)) } }
  if was || !go then c else hostRepair m { c with hbm := { c.hbm with repairAsk := some (a, hppr) } }

/-- ROW_REPAIR: the device takes up a candidate itself (R362). -/
def rowRepair (m : Mgt) (pc row : Nat) (c : Chip) : Chip :=
  if m.ready && c.hbm.autoRepair && c.hbm.candidates.contains (pc, row) && !repairBusy c then startRepair m pc row true false c
  else c

/-- POST_PACKAGE_REPAIR_DONE: steps 3 and 4, or no repair resource in the bank; then the request that waited. -/
def repairDone (m : Mgt) (resource : Bool) (c : Chip) : Chip :=
  match c.hbm.repairRow with
  | none => c
  | some (pc, row, host) =>
    let c := if resource then
        let n := fget 0 c.hbm.pprDone pc
        let c := { c with hbm := { c.hbm with
          redirects := fset [] c.hbm.redirects pc ((fget [] c.hbm.redirects pc).erase row)
          pprDone := fset 0 c.hbm.pprDone pc (if n = 255 then n else n + 1) } }
        raise .hbm 3 (rowRecord m pc row 2 (endRepair host 2 c))
      else rowRecord m pc row 3 (raise .hbm 4 (endRepair host 4 c))
    hostRepair m c

/-! ### Margining (R365) -/

/-- HBM_MARGIN_RESULT. -/
def marginResult (status : Nat) (atLimit : Bool) (low high : Int) : W64 :=
  .ofNat 64 (2 ^ 63 + status * 2 ^ 48 + b2n atLimit * 2 ^ 32 + unsgn 16 low * 2 ^ 16 + unsgn 16 high)

/-- MARGIN_GO: a write of HBM_MARGIN_CTRL, which always takes its fields; go stays 1 while a sweep runs. Outside a compute
reset, while a repair runs, or with a reserved kind or count the request completes with status 1. -/
def marginGo (m : Mgt) (v : W32) (c : Chip) : Chip :=
  let run := c.hbm.sweeping
  let go := v.getLsbD 31
  let pc := bitsOf v.toNat 16 8
  let kind := bitsOf v.toNat 8 4
  let bursts := bitsOf v.toNat 0 8
  let ok := m.computeReset && c.hbm.repairRow.isNone && decide (kind ≤ 4) && decide (bursts ≠ 0)
  let c := { c with hbm := { c.hbm with
    marginCtrl := .ofNat 32 (b2n (run || (go && ok)) * 2 ^ 31 + pc * 2 ^ 16 + kind * 2 ^ 8 + bursts) } }
  if !go || run then c
  else if ok then { c with hbm := { c.hbm with sweeping := true, sweepCtrl := c.hbm.marginCtrl, marginResult := 0 } }
  else { c with hbm := { c.hbm with marginResult := marginResult 1 false 0 0 } }

/-- Ends a sweep with its result. -/
def endSweep (r : W64) (c : Chip) : Chip :=
  { c with hbm := { c.hbm with sweeping := false, marginCtrl := putBit c.hbm.marginCtrl 31 false, marginResult := r } }

/-- MARGIN_SWEEP_DONE: the edges are the device's own measurement, at or below and at or above nominal; only a sweep of
VDDQ meets the locked rail maximum. -/
def marginDone (c : Chip) : Chip :=
  if !c.hbm.sweeping then c else
  let (lo, c) := drawFree c
  let (hi, c) := drawFree c
  let (lim, c) := drawFree c
  let limit := decide (bitsOf c.hbm.sweepCtrl.toNat 8 4 = 4) && lim.testBit 0
  raise .hbm 6 (endSweep (marginResult 0 limit (-((lo % 2 ^ 15 : Nat) : Int)) ((hi % 2 ^ 15 : Nat) : Int)) c)

/-! ### The commands -/

def execScrubRead (granule : Nat) (errors : List WordError) (s : State) : Host.Outcome State Fault Refusal :=
  onChip (fun m c => if m.ready && !m.failed && c.hbm.scrubHours ≠ 0 && granule < granules then scrubRead granule errors c else c) s

/-- HBM_REFRESH (R361): a refreshed stack keeps its contents; its temperature sets what bandwidth it has. -/
def execHbmRefresh (stack : BitVec 3) (s : State) : Host.Outcome State Fault Refusal :=
  onChip (fun m c => if c.hbm.trained.getLsbD stack.toNat && !m.failed then stackThrottle stack.toNat c else c) s

def execSealMerge (addr : Nat) (data : List Byte) (tensor policy base extent : Nat) (s : State) : Host.Outcome State Fault Refusal :=
  onChip (fun m c => if m.ready then sealMerge addr data tensor policy base extent c else c) s

def execRowRepair (pc : BitVec 8) (row : Nat) (s : State) : Host.Outcome State Fault Refusal :=
  onChip (fun m c => rowRepair m pc.toNat row c) s

def execRepairGo (value : W64) (s : State) : Host.Outcome State Fault Refusal :=
  onChip (fun m => whenReady m (repairGo m value)) s

def execPostPackageRepairDone (resource : Bool) (s : State) : Host.Outcome State Fault Refusal :=
  onChip (fun m c => repairDone m resource c) s

def execMarginGo (value : W32) (s : State) : Host.Outcome State Fault Refusal :=
  onChip (fun m => whenReady m (marginGo m value)) s

def execMarginSweepDone (s : State) : Host.Outcome State Fault Refusal := onChip (fun _ c => marginDone c) s

end Sys2Proof.Machine
end

