-- ==== Sys2Proof/Machine/Reset.lean ====
section
/-! DEFINITION. Compute resets and the reset types that lead to one (R500 to R503, R526, R616, R641). -/

namespace Sys2Proof.Machine

/-- A queue as never opened, with the registers that keep their values (R641). -/
def Wq.closed (w : Wq) : Wq :=
  { Wq.reset with cfg := w.cfg, base := w.base, cplBase := w.cplBase, resumeBase := w.resumeBase, offer := w.offer, completed := w.completed }

/-- What a compute reset ends of the queues, streams and descriptors. -/
def Ory.ended (o : Ory) : Ory :=
  { o with
    wqs := mapVals Wq.reset Wq.closed o.wqs
    streams := mapVals Stream.reset (fun x => { x with owner := none }) o.streams
    skipped := []
    entries := [] }

/-- What it ends of the flags (R443): the strict marks and the configuration stay. -/
def Vsp.ended (v : Vsp) : Vsp :=
  { v with
    ready := false
    flags := 0
    overrun := 0
    watches := []
    mboxes := mapVals Mbox.reset (fun b => { b with waiting := [], stuck := false }) v.mboxes }

/-- What it ends of the collectives (R298); the kept clearance stays (R323). -/
def Clr.ended (x : Clr) : Clr := { x with gqs := [], colls := [], early := [] }

/-- A tile with nothing running. -/
def Tile.idle (x : Tile) : Tile := { x with attActive := false, codActive := false, inPlace := [] }

/-- Everything that a compute reset ends or clears on the chip but the HBM (R501). -/
def endWork (c : Chip) : Chip :=
  { c with
    ory := c.ory.ended
    vsp := c.vsp.ended
    clr := c.clr.ended
    asy := { c.asy with nfCount := 0, nfSet := false, nfIds := [], due := [] }
    run := Run.reset
    til := { c.til with tiles := mapVals Tile.reset Tile.idle c.til.tiles }
    openStacks := []
    fab := { c.fab with remotes := [], held := [] }
    cxl := { c.cxl with uios := [] }
    mem := fclear c.mem hbmTop (sramBase + 0x18000000)
    poison := fclear c.poison (hbmTop / 16) ((sramBase + 0x18000000) / 16)
    seals := fclear c.seals (hbmTop / 256) ((sramBase + 0x18000000) / 256) }

/-- Clears the HBM: zero, valid check bits, no seals. -/
def clearHbm (c : Chip) : Chip := clearRange 0 hbmTop c

/-- The partner save slots are discarded (R526). -/
def dropSlots (c : Chip) : Chip :=
  (List.range 112).foldl (fun c p =>
    let x := c.tile p
    if x.role.toNat = 3 then x.numbers.foldl (fun c t => clearRange (saveSlot c t) 0x400000 c) c else c) c

/-- Bands in Run go to Gated (R616). -/
def gateBands (d : Dev) : Dev :=
  (List.range 14).foldl (fun d b => if (d.band b).state = 3 then d.setBand b { d.band b with state := 2 } else d) d

/-- A compute reset begins, or a request joins the one that runs; before Ready it changes nothing (R502). A remap in progress
completes first (R526). -/
def startReset (code : Nat) (d : Dev) : Dev :=
  if !inService d.mgt then d else
  let d := d.mapChip fun c => { c with cxl := { c.cxl with lastReset := .ofNat 8 code } }
  if d.mgt.computeReset then { d with mgt := { d.mgt with resetGo := d.mgt.resetGo || decide (code = 4) } } else
  let d := remapAll 1 d.chip.til.pending1.length (remapAll 0 d.chip.til.pending0.length d)
  let d := gateBands { d with mgt := { d.mgt with computeReset := true, resetGo := decide (code = 4) } }
  d.mapChip fun c =>
    let c := dropSlots (endWork c)
    if c.cxl.keepHbm then c else clearHbm c

/-- The CXL port and configuration space return to their reset values; mailboxes with host rings are disabled (R500). -/
def resetConfig (c : Chip) : Chip :=
  { c with
    cxl := { Cxl.reset with lastReset := c.cxl.lastReset, refclk := c.cxl.refclk, uios := c.cxl.uios, nextTag := c.cxl.nextTag
                            sessions := c.cxl.sessions, nextSession := c.cxl.nextSession }
    vsp := { c.vsp with mboxes := mapVals Mbox.reset (fun b => if b.host then { b with enable := false } else b) c.vsp.mboxes } }

/-- A conventional or hot reset: the compute reset follows the keep_hbm that was in force. -/
def fullReset (code : Nat) (d : Dev) : Dev :=
  if d.mgt.pwrGood && !d.mgt.resetHeld then (startReset code d).mapChip resetConfig else d

/-- A function-level reset keeps the link and configuration; the standard resets the function's MSI-X state. -/
def functionReset (d : Dev) : Dev :=
  if d.mgt.pwrGood && !d.mgt.resetHeld then
    (startReset 3 d).mapChip fun c => { c with cxl := { c.cxl with vecMask := BitVec.allOnes 256, vecPend := 0, vecTable := [] } }
  else d

/-- A write of MGT_COMPUTE_RESET. -/
def computeReset (v : W32) (d : Dev) : Dev :=
  if d.mgt.powered && !d.chip.cxl.ideHaltIo && v.getLsbD 0 then startReset 4 d else d

/-- COMPUTE_RESET_DONE (R503): a sweep that still runs is aborted (R365). -/
def computeResetDone (d : Dev) : Dev :=
  if !d.mgt.computeReset then d else
  let d := { d with mgt := { d.mgt with computeReset := false, resetGo := false } }
  let d := d.mapChip fun c =>
    let c := { c with vsp := { c.vsp with ready := true } }
    if c.hbm.sweeping then endSweep (marginResult 2 false 0 0) c else c
  raiseD .mgt 1 d

def execConventionalReset (s : State) : Host.Outcome State Fault Refusal := onDev (fullReset 1) s
def execHotReset (s : State) : Host.Outcome State Fault Refusal := onDev (fullReset 2) s
def execFunctionLevelReset (s : State) : Host.Outcome State Fault Refusal := onDev functionReset s
def execComputeReset (value : W32) (s : State) : Host.Outcome State Fault Refusal := onDev (computeReset value) s
def execComputeResetDone (s : State) : Host.Outcome State Fault Refusal := onDev computeResetDone s

end Sys2Proof.Machine
end

