-- ==== Sys2Proof/Machine/Registers.lean ====
section
/-! DEFINITION. The register map: reads and writes of BAR0 and of the MSI-X table, by access type (R11, R12, R102, R103, R218,
R251, R335, R368, R414, R415, R445, R473, R480, R538, R569, R600, R636). -/

namespace Sys2Proof.Machine

/-- The 64 bits at a register after a write of the masked bits of `w`. -/
def merge (old w mask : Nat) : Nat := (old &&& (2 ^ 64 - 1 - mask)) ||| (w &&& mask)

/-- A field of several parts: (value, lowest bit) pairs, added up. -/
def fields (l : List (Nat × Nat)) : Nat := (l.map fun x => x.1 * 2 ^ x.2).foldl (· + ·) 0

/-- A bit per index below `n`. -/
def bitsFrom (n : Nat) (f : Nat → Bool) : Nat := ((List.range n).map fun i => b2n (f i) * 2 ^ i).foldl (· + ·) 0

/-! ### Reads -/

def mgtState (m : Mgt) : Nat := fields [(m.stage.toNat, 8), (b2n m.failed, 2), (b2n m.computeReset, 1), (b2n m.ready, 0)]

def readMgt (d : Dev) (o : Nat) : Nat :=
  let m := d.mgt
  if o = 0x00 then fields [(2, 48), (0x288, 32), (m.stepping.toNat, 0)]
  else if o = 0x08 then m.serial.toNat
  else if o = 0x10 then mgtState m
  else if o = 0x18 then b2n m.reproducible
  else if o = 0x20 then fields [(b2n m.rankValid, 31), (m.rank.toNat, 0)]
  else if o = 0x28 then b2n m.resetGo
  else if o = 0x30 then m.counter0.toNat
  else if o = 0x38 then m.counter1.toNat
  else if o = 0x40 then m.evt.toNat
  else if o = 0x48 then m.evtEn.toNat
  else 0

def readOry (c : Chip) (o : Nat) : Nat :=
  let x := c.ory
  let w := c.wq x.wqSel.toNat
  if o = 0x00 then fields [(x.lookahead.toNat, 24), (x.idleGate.toNat, 16), (x.joinWindow.toNat, 8), (b2n x.preemptEn, 0)]
  else if o = 0x08 then (x.wqs.filter fun q => q.2.isOpen).length
  else if o = 0x10 then x.evt.toNat
  else if o = 0x18 then x.evtEn.toNat
  else if o = 0x20 then 0x30001
  else if o = 0x28 then x.armedCnt.toNat
  else if o = 0x30 then x.retiredCnt.toNat
  else if o = 0x38 then x.preemptions.toNat
  else if o = 0x40 then x.lastRefusal.toNat
  else if o = 0x80 then x.streamSel.toNat
  else if o = 0x88 then
    let s := c.strm x.streamSel.toNat
    fields [(b2n s.owner.isSome, 23), (s.owner.getD 0, 16), (s.mcast.toNat, 8), (s.tile.toNat, 0)]
  else if o = 0x100 then x.wqSel.toNat
  else if o = 0x108 then w.cfg.toNat
  else if o = 0x110 then w.base.toNat
  else if o = 0x118 then w.cplBase.toNat
  else if o = 0x120 then w.resumeBase.toNat
  else if o = 0x128 then w.offer.toNat
  else if o = 0x138 then fields [(w.major.toNat, 20), (w.minor.toNat, 16), (w.openResult.toNat, 8), (b2n w.cancelBusy, 3),
    (b2n w.preemptBusy, 2), (b2n w.closing, 1), (b2n w.isOpen, 0)]
  else if o = 0x140 then fields [(w.tail.toNat, 32), (w.head.toNat, 0)]
  else if o = 0x148 then fields [(w.cplHead.toNat, 32), (w.cplTail.toNat, 0)]
  else if o = 0x158 then w.completed.toNat
  else 0

/-- A 64-bit word of a bit array of flags. -/
def wordOf (x : BitVec 65536) (w : Nat) : Nat := (windowGet x (64 * w)).toNat

def readVsp (c : Chip) (o : Nat) : Nat :=
  let x := c.vsp
  let b := c.mbox x.mboxSel.toNat
  let used (die : Nat) : Nat := (x.watches.filter fun w => w.1 / 2048 = die && w.2.isSome).length
  if o = 0x00 then b2n x.ready
  else if o = 0x10 then x.evt.toNat
  else if o = 0x18 then x.evtEn.toNat
  else if o = 0x20 then fields [(x.count64.toNat, 16), (x.base64.toNat, 6)]
  else if o = 0x28 then x.strictLast.toNat
  else if o = 0x38 then x.manualResult.toNat * 256
  else if o = 0x40 then x.sets.toNat
  else if o = 0x48 then x.firedCnt.toNat
  else if o = 0x50 then x.overruns.toNat
  else if o = 0x58 then x.manualActs.toNat
  else if o = 0x60 then fields [(used 1, 16), (used 0, 0)]
  else if o = 0x80 then x.mboxSel.toNat
  else if o = 0x88 then fields [(b.vector.toNat, 24), (b2n b.host, 13), (b.log2.toNat, 8), (b2n b.irq, 1), (b2n b.enable, 0)]
  else if o = 0x90 then b.base.toNat
  else if o = 0x98 then fields [(b.head.toNat, 32), (b.tail.toNat, 0)]
  else if 0x10000 ≤ o ∧ o < 0x12000 then wordOf x.flags ((o - 0x10000) / 8)
  else if 0x12000 ≤ o ∧ o < 0x16000 then wordOf x.flags (o % 0x2000 / 8)
  else if 0x16000 ≤ o ∧ o < 0x18000 then wordOf x.overrun ((o - 0x16000) / 8)
  else if 0x18000 ≤ o ∧ o < 0x1A000 then wordOf x.strict ((o - 0x18000) / 8)
  else 0

def readClr (c : Chip) (o : Nat) : Nat :=
  let x := c.clr
  let gq := x.gqSel.toNat
  let g := c.gq gq
  if o = 0x00 then b2n x.switchEn
  else if o = 0x08 then fields [(x.lastStatus.toNat, 8), (((List.range 64).map (inFlight c)).foldl (· + ·) 0 % 64, 0)]
  else if o = 0x10 then x.evt.toNat
  else if o = 0x18 then x.evtEn.toNat
  else if o = 0x20 then gq
  else if o = 0x28 then fields [(g.nextTranche.toNat, 16), (g.epoch.toNat, 0)]
  else if o = 0x30 then byt g.record 4 4 * b2n g.bound
  else if o = 0x38 then fields [(b2n g.bound, 63), (inFlight c gq % 8, 32), (g.nextSeq.toNat, 0)]
  else if 0x40 ≤ o ∧ o < 0xC0 then (fget 0 x.planeSlot ((o - 0x40) / 8)).toNat
  else if o = 0xC0 then x.planeDown.toNat
  else if o = 0xC8 then x.collectives.toNat
  else if o = 0xD0 then x.tranSwitch.toNat
  else if o = 0xD8 then x.tranRing.toNat
  else if o = 0xE0 then x.refusals.toNat
  else if o = 0xE8 then x.laneBytes.toNat
  else if o = 0xF0 then x.lastAbort.toNat
  else 0

/-- A temperature in 1/16 °C as whole °C, unsigned. -/
def wholeDegrees (t : Int) : Nat := min 255 ((t / 16).toNat)

def readHbm (c : Chip) (o : Nat) : Nat :=
  let x := c.hbm
  let p := x.sel.toNat
  if o = 0x00 then fields [(x.scrubHours.toNat, 16), (x.ceThreshold.toNat, 8), (b2n x.autoRepair, 1), (b2n x.pprEn, 0)]
  else if o = 0x08 then fields [(x.throttled.toNat, 24), (x.trained.toNat, 16), (b2n (repairBusy c), 0)]
  else if o = 0x10 then x.evt.toNat
  else if o = 0x18 then x.evtEn.toNat
  else if o = 0x20 then p
  else if o = 0x28 then (fget 0 x.pcCe p).toNat
  else if o = 0x30 then (fget 0 x.pcUe p).toNat
  else if o = 0x38 then fields [((fget 0 x.pprLeft p).toNat, 16), ((fget [] x.redirects p).length % 256, 8), ((fget 0 x.pprDone p).toNat, 0)]
  else if o = 0x40 then fields ((List.range 8).map fun s => (wholeDegrees (fget 0 x.temps s), 8 * s))
  else if o = 0x48 then x.ueAddr.toNat
  else if o = 0x50 then x.sealLast.toNat
  else if o = 0x58 then x.sealCount.toNat
  else if o = 0x60 then x.repairCtrl.toNat
  else if o = 0x68 then fields [(x.lastResult.toNat, 8), (b2n x.repairRow.isSome, 0)]
  else if o = 0x70 then x.marginCtrl.toNat
  else if o = 0x78 then x.marginResult.toNat
  else if o = 0x80 then x.adderOps.toNat
  else if o = 0x88 then x.scrubPasses.toNat
  else 0

def readFab (c : Chip) (o : Nat) : Nat :=
  let x := c.fab
  let w := fget FabWin.reset x.wins x.winSel.toNat
  let p := c.port x.portSel.toNat
  if o = 0x00 then fields [(x.swapThr.toNat, 1), (b2n x.swapEn, 0)]
  else if o = 0x08 then fields [(bitsFrom 16 fun i => (c.port i).spareUsed, 16), (bitsFrom 16 fun i => decide ((c.port i).state = 3), 0)]
  else if o = 0x10 then x.evt.toNat
  else if o = 0x18 then x.evtEn.toNat
  else if o = 0x20 then x.winSel.toNat
  else if o = 0x28 then w.base.toNat
  else if o = 0x30 then w.limit.toNat
  else if o = 0x38 then fields [(w.rankHi.toNat, 44), (w.rankLo.toNat, 24), (b2n w.writeEn, 1), (b2n w.readEn, 0)]
  else if o = 0x40 then x.misroute.toNat
  else if o = 0x80 then fields [(x.laneSel.toNat, 8), (x.portSel.toNat, 0)]
  else if o = 0x88 then fields [(b2n p.retrain, 2), (b2n p.disable, 1), (b2n p.rate, 0)]
  else if o = 0x90 then fields [(p.replaysMax.toNat, 8), (b2n p.lane112, 4), (p.state.toNat, 0)]
  else if o = 0x98 then p.laneMap.toNat
  else if o = 0xA0 then fields [(p.lockedGbps.toNat, 8), (p.softGbps.toNat, 0)]
  else if o = 0xA8 then p.cw.toNat
  else if o = 0xB0 then p.corr.toNat
  else if o = 0xB8 then p.uncorr.toNat
  else if o = 0xC0 then p.replays.toNat
  else if o = 0xC8 then p.txBytes.toNat
  else if o = 0xD0 then p.rxBytes.toNat
  else if o = 0xD8 then (fget 0 p.laneErr x.laneSel.toNat).toNat
  else 0

/-- The 256 bytes of a tracking slot (R103), as a number. -/
def slotView (s : Slot) : Nat :=
  fields ([(s.tensor.toNat, 0), (b2n s.histEn, 32), (b2n s.zeroEn, 33), (s.thrBin.toNat, 40), (s.zeroLimit.toNat, 48),
    (s.underThr.toNat, 64), (s.streak.toNat, 80), (s.alarmBase.toNat, 96), (b2n s.alarm, 112), (b2n s.errEvent, 113),
    (b2n s.histWrapped, 115), (s.checks.toNat, 128), (s.saturations.toNat, 192)] ++
    (List.range 16).map fun b => ((fget 0 s.hist b).toNat, 256 + 64 * b))

/-- The Assay's registers (R102, R103); ASY_CTRL shows the values in effect, not those written for the next step (log entry 45). -/
def readAsy (c : Chip) (o : Nat) : Nat :=
  let x := c.asy
  if o = 0x00 then fields [(x.sampleLog2.toNat, 16), (b2n x.zeroEn, 1), (b2n x.sampleEn, 0)]
  else if o = 0x08 then x.evt.toNat
  else if o = 0x10 then x.evtEn.toNat
  else if o = 0x18 then x.nfCount.toNat
  else if o = 0x20 then x.nfTensor.toNat
  else if o = 0x28 then x.nfFirst.toNat
  else if o = 0x30 then x.checks.toNat
  else if o = 0x40 then x.slotSel.toNat
  else if 0x1000 ≤ o ∧ o < 0x1100 then bitsOf (slotView (fget Slot.reset x.slots x.slotSel.toNat)) (8 * (o - 0x1000)) 64
  else if 0x2000 ≤ o ∧ o < 0x2200 then bitsFrom 64 fun i => (fget Slot.reset x.slots (8 * (o - 0x2000) + i)).alarm
  else 0

def readDbk (c : Chip) (o : Nat) : Nat :=
  let k := c.dbk
  if o = 0x00 then k.wearWarnK.toNat * 256
  else if o = 0x08 then fields [(k.queue.length, 16), (k.head, 7), (b2n k.flushed, 4), (b2n k.consol.isSome, 3), (b2n k.stateFull, 2),
    (k.mode.toNat, 0)]
  else if o = 0x10 then k.evt.toNat
  else if o = 0x18 then k.evtEn.toNat
  else if o = 0x20 then k.seqHead.toNat
  else if o = 0x28 then k.seqTail.toNat
  else if o = 0x30 then k.tokens
  else if o = 0x38 then k.eraseMax.toNat
  else if o = 0x40 then k.records.toNat
  else if o = 0x48 then k.lost.toNat
  else if o = 0x50 then k.readSeq.toNat
  else if o = 0x58 then fields [(k.readResult.toNat, 8), (b2n k.readMac, 1), (b2n k.readBusy, 0)]
  else if o = 0x68 then k.lastStep.toNat
  else if 0x100 ≤ o ∧ o < 0x180 then ofBytes ((k.readData.drop (o - 0x100)).take 8)
  else 0

def readStr (d : Dev) (o : Nat) : Nat :=
  let x := d.str
  let a := d.chip.til.almanac
  if o = 0x00 then fields [(b2n a.owner.isSome, 6), (b2n x.debug, 5), (b2n x.drbgOk, 4), (b2n x.bootB, 3), (b2n x.cfgSlot1, 2),
    (b2n x.halted, 1), (b2n x.selftestOk, 0)]
  else if o = 0x10 then x.evt.toNat
  else if o = 0x18 then x.evtEn.toNat
  else if o = 0x20 then fields [(b2n x.go, 31), (x.opcode.toNat, 0)]
  else if o = 0x28 then fields [(x.result.toNat, 8), (b2n x.go, 0)]
  else if o = 0x30 then x.buf.toNat
  else if o = 0x38 then x.bufLen.toNat
  else if o = 0x40 then x.respLen.toNat
  else if o = 0x48 then fields [(b2n a.revoked, 16), (fuseFloor d.chip 1, 8), (fuseFloor d.chip 0, 0)]
  else if o = 0x50 then fields [(x.cfgVersion.toNat, 32), (x.bootVersion.toNat, 0)]
  else if o = 0x58 then x.locks.toNat
  else if o = 0x60 then x.lockWrites.toNat
  else 0

/-- The throttle step that a band applies: the largest that a loop requests (R606, R607, R622, R623). -/
def throttle (d : Dev) (b : Nat) : Nat :=
  let x := d.band b
  let hold := bitsOf d.tel.stackHold.toNat (4 * (b / 7)) 4
  max (max x.thermalStep.toNat x.capStep.toNat) (max (if hold = 0 then 0 else 8) (if x.overcurrent then 15 else 0))

def readTel (d : Dev) (o : Nat) : Nat :=
  let x := d.tel
  let b := d.band x.bandSel.toNat
  let thermal := (List.range 14).any fun b => (d.band b).held
  if o = 0x00 then fields [(x.retainIdle.toNat, 24), (x.capW.toNat, 8), (b2n x.offSpares, 0)]
  else if o = 0x08 then fields [(b2n x.powerLost, 7), (b2n x.ref25Lost, 6), (b2n x.vinLow, 5), (b2n thermal, 4),
    (b2n (x.stackHold != 0), 3), (b2n x.cap, 2), (b2n x.currentLimit, 1)]
  else if o = 0x10 then x.evt.toNat
  else if o = 0x18 then x.evtEn.toNat
  else if o = 0x20 then x.vin.toNat
  else if o = 0x28 then x.iin.toNat
  else if o = 0x30 then x.pin.toNat
  else if o = 0x38 then x.peak.toNat
  else if o = 0x40 then fields [(unsgn 16 x.tempHbm, 48), (unsgn 16 x.tempHub, 32), (unsgn 16 x.tempDie1, 16), (unsgn 16 x.tempDie0, 0)]
  else if o = 0x48 then x.bandSel.toNat
  else if o = 0x50 then fields [(wholeDegrees b.temp, 24), (throttle d x.bandSel.toNat, 16), (b.state.toNat, 0)]
  else if o = 0x58 then x.energy.toNat
  else if o = 0x60 then x.throttleUs.toNat
  else if o = 0x68 then d.mgt.aoCounter.toNat
  else 0

/-- A register in the window of a physical tile: TIL_, ATT_ and COD_. -/
def readTile (c : Chip) (p o : Nat) : Nat :=
  let x := c.tile p
  if o = 0x00 then fields [(x.second.toNat, 24), (x.cause.toNat, 16), (b2n x.permanent, 15), (x.role.toNat, 8), (x.logical.toNat, 0)]
  else if o = 0x08 then fields [(x.selftest.toNat, 8), (x.units.toNat, 0)]
  else if o = 0x10 then fields [(b2n x.fwComplete, 31), (x.fwPasses.toNat, 12), (x.fwUnicast.toNat, 0)]
  else if o = 0x18 then fields [(x.faultCause.toNat, 56), (x.faultStamp.toNat, 0)]
  else if o = 0x20 then c.til.remapGen.toNat
  else if o = 0x28 then c.til.saveBase.toNat
  else if o = 0x10000 then b2n x.attBatchEn
  else if o = 0x10008 then fields [(x.attLast.toNat, 8), (b2n x.attActive, 0)]
  else if o = 0x10010 then x.attEvt.toNat
  else if o = 0x10018 then x.attEvtEn.toNat
  else if o = 0x10020 then x.attSegments.toNat
  else if o = 0x10028 then x.attKeyBlocks.toNat
  else if o = 0x10030 then x.attSkipped.toNat
  else if o = 0x10038 then x.attLastDrop.toNat
  else if o = 0x10040 then x.attCacheOps.toNat
  else if o = 0x18000 then b2n x.codRawOnly
  else if o = 0x18008 then fields [(x.codLast.toNat, 8), (b2n x.codActive, 0)]
  else if o = 0x18010 then x.codEvt.toNat
  else if o = 0x18018 then x.codEvtEn.toNat
  else if o = 0x18020 then x.codErrLimit.toNat
  else if o = 0x18028 then x.codMaxErr.toNat
  else if o = 0x18030 then x.codBytesIn.toNat
  else if o = 0x18038 then x.codBytesOut.toNat
  else if o = 0x18040 then x.codFrames.toNat
  else if o = 0x18048 then x.codPops.toNat
  else if o = 0x18050 then x.codSpillFar.toNat
  else if o = 0x18058 then x.codSpillCxl.toNat
  else if o = 0x18060 then x.codHits.toNat
  else if o = 0x18068 then x.codMisses.toNat
  else 0

/-- Whether an offset of BAR0 lies in a block that runs before Ready (R507). -/
def earlyBlock (o : Nat) : Bool := [0x00, 0x08, 0x09, 0x0A].contains (o / 0x100000)

/-- The 64 bits at an 8-byte aligned offset of BAR0; zero before Ready but for the MGT_, STR_, DBK_ and TEL_ blocks. -/
def readBar0 (d : Dev) (o : Nat) : Nat :=
  let c := d.chip
  let b := o / 0x100000
  let r := o % 0x100000
  if !earlyBlock o && !d.mgt.ready then 0
  else if b = 0 then readMgt d r
  else if b = 1 then readOry c r
  else if b = 2 then readVsp c r
  else if b = 4 then readClr c r
  else if b = 5 then readHbm c r
  else if b = 6 then readFab c r
  else if b = 7 then readAsy c r
  else if b = 8 then readDbk c r
  else if b = 9 then readStr d r
  else if b = 10 then readTel d r
  else if 0x1000000 ≤ o ∧ o < 0x1000000 + 112 * 0x20000 then readTile c ((o - 0x1000000) / 0x20000) ((o - 0x1000000) % 0x20000)
  else 0

/-- Clears the RC fields of a register that has been read: replays_max, TEL_PEAK_PIN and COD_MAX_ERR. -/
def clearRead (o : Nat) (d : Dev) : Dev :=
  if o = 0x600090 then d.mapChip fun c => onPort c.fab.portSel.toNat (fun p => { p with replaysMax := 0 }) c
  else if o = 0xA00038 then { d with tel := { d.tel with peak := 0 } }
  else if 0x1000000 ≤ o ∧ o < 0x1000000 + 112 * 0x20000 ∧ o % 0x20000 = 0x18028 then
    d.mapChip fun c =>
      let p := (o - 0x1000000) / 0x20000
      c.setTile p { c.tile p with codMaxErr := 0 }
  else d

/-- A dword of the MSI-X table or of the pending-bit array (R478, R481). -/
def readMsix (o : Nat) (c : Chip) : Nat :=
  let word := (o - 0x20000) / 4
  if 0x30000 ≤ o then bitsOf c.cxl.vecPend.toNat (8 * (o - 0x30000)) 32
  else if word % 4 = 3 then b2n (c.cxl.vecMask.getLsbD (word / 4))
  else (fget 0 c.cxl.vecTable word).toNat

/-- The 64 bits at an offset of BAR4: no rule lays out the component and device registers, whose read answers a free value (log
entry 27). -/
def readBar4 (o : Nat) (c : Chip) : Nat × Chip :=
  if o < 0x20000 then drawFree c
  else if o < 0x21000 ∨ 0x30000 ≤ o ∧ o < 0x30020 then (readMsix o c + readMsix (o + 4) c * 2 ^ 32, c)
  else (0, c)

/-- READ_CLEAR (R11): the read's answer, then its RC fields are cleared. BAR2 reads as zero (R372). -/
def readClear (bar : Bar) (o : Nat) (d : Dev) : Dev :=
  if !d.mgt.powered || d.chip.cxl.ideHaltIo || o % 8 ≠ 0 then d
  else match bar with
  | .bar0 =>
    let v := readBar0 d o
    let d := d.mapChip (emit (.regRead .bar0 o (.ofNat 64 v)))
    if earlyBlock o || d.mgt.ready then clearRead o d else d
  | .bar2 => d.mapChip (emit (.regRead .bar2 o 0))
  | .bar4 =>
    let (v, c) := readBar4 o d.chip
    { d with chip := emit (.regRead .bar4 o (.ofNat 64 v)) c }

/-! ### Writes -/

/-- MGT_RANK_WRITE (R414, R525). -/
def rankWrite (v : W32) (d : Dev) : Dev :=
  if d.chip.clr.gqs.any fun g => g.2.bound then d else setRank (v.getLsbD 31) (v.setWidth 20) d

def writeMgt (o w mask : Nat) (d : Dev) : Dev :=
  if o = 0x18 then
    if d.chip.ory.wqs.any (fun q => q.2.isOpen) || !mask.testBit 0 then d
    else { d with mgt := { d.mgt with reproducible := w.testBit 0 } }
  else if o = 0x20 then (if mask.testBit 0 then rankWrite (.ofNat 32 w) d else d)
  else if o = 0x28 then computeReset (.ofNat 32 (w &&& mask)) d
  else if o = 0x40 then evtW1cD .mgt (w &&& mask) d
  else if o = 0x48 then evtEnableD .mgt (merge d.mgt.evtEn.toNat w mask) d
  else d

/-- ORY_WQ_CMD (R378, R380, R405, R409). -/
def wqCmd (m : Mgt) (cmd : Nat) (c : Chip) : Chip :=
  if cmd = 1 then wqOpen c else if cmd = 2 then wqClose m c else if cmd = 3 then wqPreempt m c
  else if cmd = 4 then cancelIds m none c else c

def writeOry (m : Mgt) (o w mask : Nat) (c : Chip) : Chip :=
  let x := c.ory
  let q := x.wqSel.toNat
  let wq := c.wq q
  let v := merge (readOry c o) w mask
  let idle (f : Wq → Wq) : Chip := if wq.isOpen then c else onWq q f c
  if o = 0x00 then
    { c with ory := { x with
      lookahead := if bitsOf v 24 8 = 0 then x.lookahead else .ofNat 8 (bitsOf v 24 8)
      idleGate := .ofNat 8 (bitsOf v 16 8), joinWindow := .ofNat 8 (bitsOf v 8 8), preemptEn := v.testBit 0 } }
  else if o = 0x10 then evtW1c .ory (w &&& mask) c
  else if o = 0x18 then evtEnableW .ory v c
  else if o = 0x80 then { c with ory := { x with streamSel := .ofNat 8 v } }
  else if o = 0x88 then streamCfg (.ofNat 32 v) c
  else if o = 0x100 then { c with ory := { x with wqSel := .ofNat 6 v } }
  else if o = 0x108 then idle (fun y => { y with cfg := .ofNat 32 (v &&& 0xFF033F3F) })
  else if o = 0x110 then idle (fun y => { y with base := .ofNat 64 (v / 4096 * 4096) })
  else if o = 0x118 then idle (fun y => { y with cplBase := .ofNat 64 (v / 4096 * 4096) })
  else if o = 0x120 then idle (fun y => { y with resumeBase := .ofNat 64 (v / 256 * 256) })
  else if o = 0x128 then idle (fun y => { y with offer := .ofNat 64 v })
  else if o = 0x130 then wqCmd m (bitsOf (w &&& mask) 0 3) c
  else if o = 0x150 then cancelIds m (some (.ofNat 32 (w &&& mask), .ofNat 32 ((w &&& mask) / 2 ^ 32))) c
  else c

def writeVsp (m : Mgt) (o w mask : Nat) (c : Chip) : Chip :=
  let x := c.vsp
  let i := x.mboxSel.toNat
  let b := c.mbox i
  let v := merge (readVsp c o) w mask
  let set : W64 := .ofNat 64 (w &&& mask)
  if o = 0x10 then evtW1c .vsp (w &&& mask) c
  else if o = 0x18 then evtEnableW .vsp v c
  else if o = 0x20 then
    { c with vsp := { x with
      count64 := if 1024 < bitsOf v 16 11 then x.count64 else .ofNat 11 (bitsOf v 16 11), base64 := .ofNat 10 (bitsOf v 6 10) } }
  else if o = 0x30 then manualAct m (.ofNat 32 (w &&& mask)) 0 c
  else if o = 0x80 then { c with vsp := { x with mboxSel := .ofNat 3 v } }
  else if o = 0x88 then mboxCfg (.ofNat 32 v) c
  else if o = 0x90 then (if b.enable then c else c.setMbox i { b with base := .ofNat 64 (v / 4096 * 4096) })
  else if o = 0x98 then mboxRelease (.ofNat 64 v) c
  else if 0x12000 ≤ o ∧ o < 0x14000 then setFlags ((o - 0x12000) * 8) set none c
  else if 0x14000 ≤ o ∧ o < 0x16000 then clearFlags ((o - 0x14000) * 8) set c
  else if 0x16000 ≤ o ∧ o < 0x18000 then
    { c with vsp := { x with overrun := windowPut x.overrun ((o - 0x16000) * 8) (windowGet x.overrun ((o - 0x16000) * 8) &&& ~~~set) } }
  else if 0x18000 ≤ o ∧ o < 0x1A000 then { c with vsp := { x with strict := windowPut x.strict ((o - 0x18000) * 8) (.ofNat 64 v) } }
  else c

def writeClr (o w mask : Nat) (c : Chip) : Chip :=
  let x := c.clr
  let v := merge (readClr c o) w mask
  if o = 0x00 then { c with clr := { x with switchEn := v.testBit 0 } }
  else if o = 0x10 then evtW1c .clr (w &&& mask) c
  else if o = 0x18 then evtEnableW .clr v c
  else if o = 0x20 then { c with clr := { x with gqSel := .ofNat 6 v } }
  else if o = 0xC0 then { c with clr := { x with planeDown := x.planeDown &&& ~~~(BitVec.ofNat 16 (w &&& mask)) } }
  else c

def writeHbm (m : Mgt) (o w mask : Nat) (c : Chip) : Chip :=
  let x := c.hbm
  let v := merge (readHbm c o) w mask
  if o = 0x00 then
    { c with hbm := { x with
      scrubHours := .ofNat 8 (bitsOf v 16 8), ceThreshold := .ofNat 8 (bitsOf v 8 8), autoRepair := v.testBit 1, pprEn := v.testBit 0 } }
  else if o = 0x10 then evtW1c .hbm (w &&& mask) c
  else if o = 0x18 then evtEnableW .hbm v c
  else if o = 0x20 then { c with hbm := { x with sel := .ofNat 8 v } }
  else if o = 0x48 then (if (w &&& mask).testBit 63 then { c with hbm := { x with ueAddr := putBit x.ueAddr 63 false } } else c)
  else if o = 0x60 then repairGo m (.ofNat 64 v) c
  else if o = 0x70 then marginGo m (.ofNat 32 v) c
  else c

/-- FAB_PORT_CTRL (R458, R470, R471). -/
def portCtrl (m : Mgt) (p v : Nat) (go : Bool) (c : Chip) : Chip :=
  let was := (c.port p).disable
  let c := onPort p (fun x => { x with rate := v.testBit 0, disable := v.testBit 1 }) c
  let c := if v.testBit 1 && !was then onPort p (fun x => { x with retrain := false }) (leaveActive m p 5 c)
    else if !v.testBit 1 && was then onPort p (fun x => { x with state := if x.state = 5 then 1 else x.state }) c
    else c
  if go then retrain m p c else c

def writeFab (m : Mgt) (o w mask : Nat) (c : Chip) : Chip :=
  let x := c.fab
  let i := x.winSel.toNat
  let p := x.portSel.toNat
  let win (f : FabWin → FabWin) : Chip := { c with fab := { x with wins := fset FabWin.reset x.wins i (f (fget FabWin.reset x.wins i)) } }
  let v := merge (readFab c o) w mask
  if o = 0x00 then { c with fab := { x with swapThr := .ofNat 8 (bitsOf v 1 8), swapEn := v.testBit 0 } }
  else if o = 0x10 then evtW1c .fab (w &&& mask) c
  else if o = 0x18 then evtEnableW .fab v c
  else if o = 0x20 then { c with fab := { x with winSel := .ofNat 4 v } }
  else if o = 0x28 then win (fun y => { y with base := .ofNat 64 (v % 2 ^ 48 / 4096 * 4096) })
  else if o = 0x30 then win (fun y => { y with limit := .ofNat 64 (v % 2 ^ 48 / 4096 * 4096) })
  else if o = 0x38 then win (fun y => { y with
    rankHi := .ofNat 20 (bitsOf v 44 20), rankLo := .ofNat 20 (bitsOf v 24 20), writeEn := v.testBit 1, readEn := v.testBit 0 })
  else if o = 0x80 then { c with fab := { x with
    laneSel := if 8 < bitsOf v 8 4 then x.laneSel else .ofNat 4 (bitsOf v 8 4), portSel := .ofNat 4 v } }
  else if o = 0x88 then portCtrl m p v ((w &&& mask).testBit 2) c
  else if o = 0xA0 then (if 200 < bitsOf v 0 8 then c else onPort p (fun y => { y with softGbps := .ofNat 8 v }) c)
  else c

/-- The configuration bytes that a slot has, or will have at the next opening. -/
def slotCfgOf (x : Asy) (i : Nat) : SlotCfg :=
  let s := fget Slot.reset x.slots i
  (fget none x.nextCfg i).getD ⟨s.tensor, s.histEn, s.zeroEn, s.thrBin, s.zeroLimit, s.underThr⟩

/-- A write of 64 bits of ASY_SLOT_DATA at byte `b`: configuration bytes wait for the next opening (R101), the status byte acts
at once (R100), all ones clear a bin. -/
def slotWrite (b w mask : Nat) (c : Chip) : Chip :=
  let x := c.asy
  let i := x.slotSel.toNat
  let g := slotCfgOf x i
  let put (g : SlotCfg) : Chip := { c with asy := { x with nextCfg := fset none x.nextCfg i (some g) } }
  if b = 0 then
    let v := merge (fields [(g.tensor.toNat, 0), (b2n g.histEn, 32), (b2n g.zeroEn, 33), (g.thrBin.toNat, 40), (g.zeroLimit.toNat, 48)]) w mask
    put { g with tensor := .ofNat 32 v, histEn := v.testBit 32, zeroEn := v.testBit 33, thrBin := .ofNat 4 (bitsOf v 40 4)
                 zeroLimit := if bitsOf v 48 16 = 0 then g.zeroLimit else .ofNat 16 (bitsOf v 48 16) }
  else if b = 8 then
    let c := if mask.testBit 0 then put { g with underThr := .ofNat 16 w } else c
    alarmAck (.ofNat 8 (bitsOf (w &&& mask) 48 8)) c
  else if 32 ≤ b ∧ b < 160 ∧ w &&& mask = 2 ^ 64 - 1 then
    let s := fget Slot.reset x.slots i
    { c with asy := { x with slots := fset Slot.reset x.slots i { s with hist := fset 0 s.hist ((b - 32) / 8) 0 } } }
  else c

def writeAsy (o w mask : Nat) (c : Chip) : Chip :=
  let x := c.asy
  if o = 0x00 then
    let v := merge (fields [(x.nextSampleLog2.toNat, 16), (b2n x.nextZeroEn, 1), (b2n x.nextSampleEn, 0)]) w mask
    let k := bitsOf v 16 5
    { c with asy := { x with
      nextSampleLog2 := if k < 6 ∨ 16 < k then x.nextSampleLog2 else .ofNat 5 k, nextZeroEn := v.testBit 1, nextSampleEn := v.testBit 0 } }
  else if o = 0x08 then evtW1c .asy (w &&& mask) c
  else if o = 0x10 then evtEnableW .asy (merge x.evtEn.toNat w mask) c
  else if o = 0x40 then { c with asy := { x with slotSel := .ofNat 12 (merge x.slotSel.toNat w mask) } }
  else if 0x1000 ≤ o ∧ o < 0x1100 then slotWrite (o - 0x1000) w mask c
  else c

def writeDbk (m : Mgt) (o w mask : Nat) (c : Chip) : Chip :=
  let k := c.dbk
  let v := merge (readDbk c o) w mask
  if o = 0x00 then { c with dbk := { k with wearWarnK := .ofNat 8 (bitsOf v 8 8) } }
  else if o = 0x10 then evtW1c .dbk (w &&& mask) c
  else if o = 0x18 then evtEnableW .dbk v c
  else if o = 0x50 then { c with dbk := { k with readSeq := .ofNat 64 v, readBusy := true } }
  else if o = 0x60 then
    let cmd := bitsOf (w &&& mask) 0 2
    if cmd = 1 then journal m 0 0x0E k.hostData c else if cmd = 2 then startConsol m c else c
  else if 0x200 ≤ o ∧ o < 0x240 then
    let i := o - 0x200
    let h := payload64 k.hostData
    let b := merge (ofBytes ((h.drop i).take 8)) w mask
    { c with dbk := { k with hostData := h.take i ++ toBytes 8 b ++ h.drop (i + 8) } }
  else c

/-- A command of the mailbox ends (R598, R600). -/
def endCmd (result : Nat) (d : Dev) : Dev :=
  raiseD .str 0 { d with str := { d.str with go := false, result := .ofNat 8 result } }

/-- STR_CMD (R595): go starts the command of the opcode written; a reserved opcode completes at once. While a command runs the
opcode field is written all the same (R11), and the command that runs is kept apart. -/
def strCmd (w mask : Nat) (d : Dev) : Dev :=
  let go := (w &&& mask).testBit 31
  let op := bitsOf (merge d.str.opcode.toNat w mask) 0 8
  let busy := d.str.go
  let d := { d with str := { d.str with opcode := .ofNat 8 op } }
  if !go then d
  else if busy then raiseD .str 1 d
  else
    let d := { d with str := { d.str with running := .ofNat 8 op, go := true } }
    if d.str.halted then endCmd 8 d
    else if op = 0 ∨ 10 < op then endCmd 2 d
    else d

def writeStr (o w mask : Nat) (d : Dev) : Dev :=
  let v := merge (readStr d o) w mask
  if o = 0x10 then evtW1cD .str (w &&& mask) d
  else if o = 0x18 then evtEnableD .str v d
  else if o = 0x20 then strCmd w mask d
  else if o = 0x30 then { d with str := { d.str with buf := .ofNat 64 (v % 2 ^ 48 / 4096 * 4096) } }
  else if o = 0x38 then { d with str := { d.str with bufLen := .ofNat 26 v } }
  else d

/-- A write of cap_w (R629): a value outside 500 to 2,000 W leaves the field. -/
def setCap (n : Nat) (d : Dev) : Dev := if 500 ≤ n ∧ n ≤ 2000 then { d with tel := { d.tel with capW := .ofNat 11 n } } else d

def writeTel (o w mask : Nat) (d : Dev) : Dev :=
  let v := merge (readTel d o) w mask
  if o = 0x00 then
    setCap (bitsOf v 8 11) { d with tel := { d.tel with retainIdle := .ofNat 8 (bitsOf v 24 8), offSpares := v.testBit 0 } }
  else if o = 0x10 then evtW1cD .tel (w &&& mask) d
  else if o = 0x18 then evtEnableD .tel v d
  else if o = 0x48 then (if 13 < bitsOf v 0 4 then d else { d with tel := { d.tel with bandSel := .ofNat 4 v } })
  else d

def writeTile (p o w mask : Nat) (c : Chip) : Chip :=
  let v := merge (readTile c p o) w mask
  let x := c.tile p
  if o = 0x28 then saveBaseWrite (.ofNat 64 v) c
  else if o = 0x10000 then c.setTile p { x with attBatchEn := v.testBit 0 }
  else if o = 0x10010 then evtW1c (.att p) (w &&& mask) c
  else if o = 0x10018 then evtEnableW (.att p) v c
  else if o = 0x18000 then c.setTile p { x with codRawOnly := v.testBit 0 }
  else if o = 0x18010 then evtW1c (.cod p) (w &&& mask) c
  else if o = 0x18018 then evtEnableW (.cod p) v c
  else if o = 0x18020 then c.setTile p { x with codErrLimit := .ofNat 32 v }
  else c

/-- Counts a write to a locked limit (R580). -/
def lockWrite (d : Dev) : Dev :=
  let d' := { d with str := { d.str with lockWrites := ctrAdd d.str.lockWrites 1 } }
  raiseD .str 2 (if ctrWraps d.str.lockWrites 1 then raiseD .str 4 d' else d')

/-- Whether a write to FAB_PORT_INJ tries to set the locked cap to another value. -/
def capWrite (o w mask : Nat) (d : Dev) : Bool :=
  let n := bitsOf (w &&& mask) 8 8
  decide (o = 0x6000A0) && d.str.locks.getLsbD 2 && decide (n ≠ 0) && decide (n ≠ ((d.chip.port d.chip.fab.portSel.toNat).lockedGbps).toNat)

/-- The registers of BAR0 that fill their 64 bits; the upper dword of any other is reserved. -/
def wideRegister (o : Nat) : Bool :=
  let b := o / 0x100000
  let r := o % 0x100000
  if b = 1 then [0x110, 0x118, 0x120, 0x128, 0x150].contains r
  else if b = 2 then decide (r = 0x90 ∨ r = 0x98 ∨ 0x10000 ≤ r)
  else if b = 5 then decide (r = 0x48 ∨ r = 0x60)
  else if b = 6 then [0x28, 0x30, 0x38].contains r
  else if b = 7 then decide (0x1000 ≤ r)
  else if b = 8 then decide (r = 0x50 ∨ 0x200 ≤ r)
  else if b = 9 then decide (r = 0x30)
  else decide (0x1000000 ≤ o ∧ (o - 0x1000000) % 0x20000 = 0x28)

/-- A write of the masked bits of the 64 at an 8-byte aligned offset of BAR0 (R507, R11). -/
def writeBar0 (o w mask : Nat) (d : Dev) : Dev :=
  let b := o / 0x100000
  let r := o % 0x100000
  if !earlyBlock o && !d.mgt.ready then d
  else
    let d := if capWrite o w mask d then lockWrite d else d
    let m := d.mgt
    if b = 0 then writeMgt r w mask d
    else if b = 1 then d.mapChip (writeOry m r w mask)
    else if b = 2 then d.mapChip (writeVsp m r w mask)
    else if b = 4 then d.mapChip (writeClr r w mask)
    else if b = 5 then d.mapChip (writeHbm m r w mask)
    else if b = 6 then d.mapChip (writeFab m r w mask)
    else if b = 7 then d.mapChip (writeAsy r w mask)
    else if b = 8 then d.mapChip (writeDbk m r w mask)
    else if b = 9 then writeStr r w mask d
    else if b = 10 then writeTel r w mask d
    else if 0x1000000 ≤ o ∧ o < 0x1000000 + 112 * 0x20000 then
      d.mapChip (writeTile ((o - 0x1000000) / 0x20000) ((o - 0x1000000) % 0x20000) w mask)
    else d

/-- A write of one word of the MSI-X table: address, upper address, data, and the mask bit (R478, R481). -/
def writeMsix (word v : Nat) (c : Chip) : Chip :=
  let n := word / 4
  if word % 4 = 3 then
    if v.testBit 0 then { c with cxl := { c.cxl with vecMask := putBit c.cxl.vecMask n true } } else msixUnmask n c
  else { c with cxl := { c.cxl with vecTable := fset 0 c.cxl.vecTable word (.ofNat 32 v) } }

/-- The slots that a tail doorbell of the register map announces in a ring of host memory: what host memory holds is free. -/
def hostDescs (n : Nat) (c : Chip) : List (Option Desc) × Chip :=
  (List.range n).foldl (fun (l, c) _ =>
    let (v, c) := drawFree c
    (l ++ [some (.ofNat 1024 v)], c)) ([], c)

/-- A write to the doorbell page (R372, R412): the write of bytes 0–7 of a direct slot submits the 128 bytes written there. -/
def writeBar2 (m : Mgt) (o : Nat) (wide : Bool) (v : Nat) (c : Chip) : Chip :=
  let q := o / 0x1000
  let r := o % 0x1000
  let w := c.wq q
  if 0x40000 ≤ o then c
  else if r = 0 then
    let n := if w.ringHost then min w.slots ((.ofNat 32 v : W32) - w.tail).toNat else 0
    let (l, c) := hostDescs n c
    tailWrite m q (.ofNat 32 v) l c
  else if r = 8 then cplHeadWrite q (.ofNat 32 v) c
  else if 0x100 ≤ r ∧ r < 0x180 then
    let c := onWq q (fun w => { w with slotBytes := putField w.slotBytes (8 * (r - 0x100)) (if wide then 64 else 32) v }) c
    if r = 0x100 ∧ wide then directSubmit m q (c.wq q).slotBytes c else c
  else c

/-- REGISTER_WRITE: 32 or 64 bits at an aligned offset; no rule lays out the component registers of BAR4 (log entry 27). -/
def registerWrite (bar : Bar) (o : Nat) (wide : Bool) (v : W64) (d : Dev) : Dev :=
  if !d.mgt.powered || d.chip.cxl.ideHaltIo || o % (if wide then 8 else 4) ≠ 0 then d else
  match bar with
  | .bar0 =>
    if wide then writeBar0 o v.toNat (2 ^ 64 - 1) d
    else
      let sh := 2 ^ (8 * (o % 8))
      if o % 8 = 4 && !wideRegister (o - 4) then d
      else writeBar0 (o / 8 * 8) (v.toNat % 2 ^ 32 * sh) ((2 ^ 32 - 1) * sh) d
  | .bar2 => d.mapChip (whenReady d.mgt (writeBar2 d.mgt o wide v.toNat))
  | .bar4 =>
    if 0x20000 ≤ o ∧ o < 0x21000 then
      let word := (o - 0x20000) / 4
      let d := d.mapChip (writeMsix word (v.toNat % 2 ^ 32))
      if wide then d.mapChip (writeMsix (word + 1) (v.toNat / 2 ^ 32)) else d
    else d

/-! ### The commands -/

def execReadClear (offset : Bar × Nat) (s : State) : Host.Outcome State Fault Refusal := onDev (readClear offset.1 offset.2) s

def execRegisterWrite (bar : Bar) (offset : Nat) (wide : Bool) (value : W64) (s : State) : Host.Outcome State Fault Refusal :=
  onDev (registerWrite bar offset wide value) s

def execMgtRankWrite (value : W32) (s : State) : Host.Outcome State Fault Refusal :=
  onDev (fun d => if d.mgt.powered && !d.chip.cxl.ideHaltIo then rankWrite value d else d) s

/-- LOCK_WRITE (R580): a limit whose lock is in force. -/
def execLockWrite (lock : BitVec 3) (s : State) : Host.Outcome State Fault Refusal :=
  onDev (fun d => if d.str.locks.getLsbD lock.toNat then lockWrite d else d) s

end Sys2Proof.Machine
end

