-- ==== Sys2Proof/Machine/Power.lean ====
section
/-! DEFINITION. The input, its limits, loss of power, the sensors and thermal loops, the references and the band power states
(R394, R601 to R624, R627, R636). -/

namespace Sys2Proof.Machine

/-! ### Status bits (R627, R628) -/

/-- Hottest compute-die or hub sensor. -/
def Tel.junction (t : Tel) : Int := max (max t.tempDie0 t.tempDie1) t.tempHub

/-- The conditions of STATUS_INPUT [7:0] and of STATUS_TEMPERATURE [15:8] as they stand. -/
def Tel.conditions (t : Tel) : BitVec 16 :=
  .ofNat 16 (fields [(b2n (decide (98 * 16 ≤ t.junction)), 14), (b2n (decide (100 * 16 < t.tempHbm)), 13), (b2n t.overVoltage, 7),
    (b2n t.vinLow, 5), (b2n t.currentLimit, 1), (b2n t.powerLost, 0)])

/-- Latches the conditions that hold; a bit that is newly set has not been reported. -/
def latch (d : Dev) : Dev :=
  let t := d.tel
  let now := t.conditions
  { d with tel := { t with latched := t.latched ||| now, reported := t.reported &&& ~~~(now &&& ~~~t.latched) } }

/-- ALERT_N is asserted (R628). -/
def Tel.alert (t : Tel) : Bool := t.latched &&& ~~~t.reported != 0

/-! ### Input voltage and current (R604 to R606) -/

/-- The input voltage as measured. -/
def setVin (mv : Nat) (d : Dev) : Dev :=
  let low := decide (38000 ≤ mv) && decide (mv < 40000)
  let was := d.tel.vinLow
  let d := { d with tel := { d.tel with vin := .ofNat 16 mv, vinLow := low, overVoltage := decide (52000 < mv) } }
  if low && !was then raiseD .tel 3 d else d

/-- Applies a function to every band. -/
def mapBands (f : Nat → Band → Band) (d : Dev) : Dev :=
  (List.range 14).foldl (fun d b => d.setBand b (f b (d.band b))) d

/-- The input current as measured: above 57 A every band runs at its lowest step. -/
def setIin (ma : Nat) (d : Dev) : Dev :=
  let beyond := decide (57000 < ma)
  let was := d.tel.currentLimit
  let d := mapBands (fun _ x => { x with overcurrent := beyond })
    { d with tel := { d.tel with iin := .ofNat 17 ma, currentLimit := beyond } }
  if beyond && !was then raiseD .tel 0 d else d

/-! ### Loss of power (R609, R611) -/

/-- Every port that has a link goes Down. -/
def portsDown (m : Mgt) (ports : List Nat) (c : Chip) : Chip :=
  ports.foldl (fun c p =>
    let x := c.port p
    if x.state.toNat = 0 ∨ x.state.toNat = 5 then c
    else portDown m p false (onPort p (fun x => { x with waiting := [] }) c)) c

/-- Bands, stacks and SerDes go Off, work in progress ends, and the queue of the Daybook is flushed. -/
def powerLoss (d : Dev) : Dev :=
  let m := { d.mgt with failed := true, computeReset := false, resetGo := false }
  let c := endWork (portsDown m (List.range 16) d.chip)
  let c := clearHbm { c with
    hbm := { c.hbm with trained := 0, sweeping := false, repairAsk := none, repairRow := none, scrubbed := [], scrubPos := 0 }
    til := { c.til with pending0 := [], pending1 := [] } }
  flush (bandsOff { d with mgt := m, tel := { d.tel with powerLost := true }, chip := c })

/-- A loss of power, or a deassertion of PWR_GOOD after one; the switch of the current limiter closes again with PWR_GOOD. -/
def lossOfPower (pwrGood : Bool) (d : Dev) : Dev :=
  if !d.mgt.powered then d else
  let d := if pwrGood then d
    else { d with mgt := { d.mgt with pwrGood := false }, tel := { d.tel with switchOpen := d.tel.tripLatch } }
  latch (if d.tel.powerLost then flush d else powerLoss d)

/-- INPUT_RESTORED (R556): power_lost and failed stay. -/
def inputRestored (mv : Nat) (d : Dev) : Dev :=
  if d.mgt.powered && d.mgt.pwrGood && d.tel.powerLost && decide (40000 ≤ mv) && !d.tel.switchOpen then
    latch ((setVin mv d).mapChip unflush)
  else d

def vinLow (mv : Nat) (d : Dev) : Dev :=
  if d.mgt.powered && decide (38000 ≤ mv) && decide (mv < 40000) then latch (setVin mv d) else d

def overVoltage (mv : Nat) (d : Dev) : Dev := if d.mgt.powered && decide (52000 < mv) then latch (setVin mv d) else d

def inputOvercurrent (ma : Nat) (d : Dev) : Dev := if d.mgt.powered && decide (57000 < ma) then latch (setIin ma d) else d

/-- The input switch opens, and the module loses power. -/
def openSwitch (d : Dev) : Dev :=
  let d := { d with tel := { d.tel with switchOpen := true } }
  latch (if d.tel.powerLost then d else powerLoss d)

def currentLimitTimeout (d : Dev) : Dev := if d.mgt.powered && d.tel.currentLimit then openSwitch d else d

/-- THERMAL_TRIP (R624). -/
def thermalTrip (d : Dev) : Dev :=
  if d.mgt.powered then openSwitch { d with tel := { d.tel with tripLatch := true } } else d

/-- TRIP_LATCH_CLEAR (R624): an input below 10 V no longer feeds the hub. -/
def tripLatchClear (d : Dev) : Dev :=
  let d := if d.mgt.powered && !d.tel.powerLost then powerLoss d else d
  let d := coldReset { d with tel := { d.tel with switchOpen := false, tripLatch := false } }
  { d with mgt := { d.mgt with powered := false, pwrGood := false } }

/-! ### Power samples (R605, R636) -/

/-- Energy in mJ, and the throttled microseconds. -/
def accountPower (mw : Nat) (d : Dev) : Dev :=
  let f := d.tel.energyFrac + mw
  let mj := f / 1000000
  let us := b2n ((List.range 14).any fun b => decide (0 < throttle d b))
  let wraps := ctrWraps d.tel.energy mj || ctrWraps d.tel.throttleUs us
  let d := { d with tel := { d.tel with
    energy := ctrAdd d.tel.energy mj, energyFrac := f % 1000000, throttleUs := ctrAdd d.tel.throttleUs us } }
  if wraps then raiseD .tel 5 d else d

/-- The averages over 10 µs and 1 ms. -/
def averagePower (mw : Nat) (t : Tel) : Tel :=
  let recent := (mw :: t.recent).take 10
  let peak := if recent.length = 10 then max t.peak.toNat (recent.foldl (· + ·) 0 / 10) else t.peak.toNat
  let sum := t.pinSum + mw
  let full := decide (999 ≤ t.pinCount)
  { t with
    recent := recent
    peak := .ofNat 22 peak
    pin := if full then .ofNat 22 (sum / 1000) else t.pin
    pinSum := if full then 0 else sum
    pinCount := if full then 0 else t.pinCount + 1
    overCapUs := if t.capW.toNat * 1000 < mw then t.overCapUs + 1 else 0 }

/-- The power cap loop: it holds a step of its own choice while the power is above cap_w, and may keep one afterwards. -/
def capLoop (mw : Nat) (d : Dev) : Dev :=
  let beyond := decide (d.tel.capW.toNat * 1000 < mw)
  let held := (List.range 14).any fun b => (d.band b).capStep != 0
  if !beyond && !held then { d with tel := { d.tel with cap := false } } else
  let (n, c) := drawFree d.chip
  let d := mapBands (fun b x =>
    let s := (n >>> (4 * b)) % 16
    { x with capStep := .ofNat 4 (if beyond then max 1 s else s) }) { d with chip := c }
  let now := (List.range 14).any fun b => (d.band b).capStep != 0
  let d' := { d with tel := { d.tel with cap := now } }
  if now && !d.tel.cap then raiseD .tel 1 d' else d'

/-- POWER_SAMPLE: input voltage, current and power, each microsecond. -/
def powerSample (mv ma mw : Nat) (d : Dev) : Dev :=
  if !d.mgt.powered then d else
  let d := accountPower mw (setIin ma (setVin mv d))
  latch (capLoop mw { d with tel := averagePower mw d.tel })

/-! ### Sensors (R621 to R623) -/

/-- Largest of some readings. -/
def hottestOf (l : List Int) : Int :=
  match l with
  | [] => 0
  | x :: r => r.foldl max x

/-- R622: the band is held from 98 °C until its loop has let go of every step. -/
def Band.hold (x : Band) : Band := { x with held := decide (98 * 16 ≤ x.temp) || (x.held && x.thermalStep != 0) }

/-- R623: the stacks that hold the bands of their die. -/
def stackHolds (was : BitVec 8) (temps : List Int) : BitVec 8 :=
  (List.range 8).foldl (fun h s =>
    let t := temps.getD s 0
    putBit h s (if was.getLsbD s then decide (97 * 16 < t) else decide (100 * 16 < t))) 0

/-- SENSOR_SAMPLE: one sensor per physical tile, two per hub and one per stack, in 1/16 °C. -/
def sensorSample (tiles hubs hbm : List Int) (d : Dev) : Dev :=
  if !d.mgt.powered then d else
  let heldNow (d : Dev) (b : Nat) : Bool := (d.band b).held
  let was := d
  let d := mapBands (fun b x => { x with temp := hottestOf ((tilesOfBand b).map fun p => tiles.getD p 0) }.hold) d
  let holds := stackHolds d.tel.stackHold hbm
  let began := ((List.range 14).any fun b => heldNow d b && !heldNow was b) || (holds &&& ~~~was.tel.stackHold != 0)
  let d := { d with tel := { d.tel with
    stackHold := holds
    tempDie0 := hottestOf ((List.range 56).map fun p => tiles.getD p 0)
    tempDie1 := hottestOf ((List.range 56).map fun p => tiles.getD (56 + p) 0)
    tempHub := hottestOf hubs
    tempHbm := hottestOf ((List.range 8).map fun s => hbm.getD s 0) } }
  let d := d.mapChip fun c => (List.range 8).foldl (fun c s =>
    stackThrottle s { c with hbm := { c.hbm with temps := fset 0 c.hbm.temps s (hbm.getD s 0) } }) c
  latch (if began then raiseD .tel 2 d else d)

/-- THERMAL_THROTTLE_STEP (R622): up each 100 µs at 98 °C or more, down each millisecond at 95 °C or less. -/
def thermalThrottleStep (b : Nat) (d : Dev) : Dev :=
  if !d.mgt.powered then d else
  let x := d.band b
  let t := x.thermalStep.toNat
  let t' := if 98 * 16 ≤ x.temp then min 15 (t + 1) else if x.temp ≤ 95 * 16 then t - 1 else t
  let d := d.setBand b { x with thermalStep := .ofNat 4 t', held := decide (0 < t') || decide (98 * 16 ≤ x.temp) }
  if (d.band b).held && !x.held then raiseD .tel 2 d else d

/-! ### References (R620) -/

def ref25Lost (d : Dev) : Dev :=
  if d.mgt.powered && !d.tel.ref25Lost then raiseD .tel 4 { d with tel := { d.tel with ref25Lost := true } } else d

def ref25Return (d : Dev) : Dev := if d.mgt.powered then { d with tel := { d.tel with ref25Lost := false } } else d

/-- FAB_REF_LOST: the ports of the connector, eight per die, go Down. -/
def fabRefLost (die : BitVec 1) (d : Dev) : Dev :=
  if !d.mgt.powered then d else
  raiseD .tel 4 (d.mapChip (portsDown d.mgt (span (8 * die.toNat) (8 * die.toNat + 8))))

def cxlRefclkLost (d : Dev) : Dev :=
  if !d.mgt.powered then d else
  raiseD .tel 4 (d.mapChip fun c => { c with cxl := { c.cxl with refclk := false, link := none } })

/-! ### Band states (R394, R612, R613, R615) -/

/-- Descriptors placed on a band: on a number that one of its physical tiles backs. -/
def onBandNow (c : Chip) (b : Nat) : List Entry :=
  c.ory.entries.filter fun e => (ptileOf c e.tile).any fun p => bandOf p = b

/-- An armed descriptor is placed on the band. -/
def wanted (c : Chip) (b : Nat) : Bool := (onBandNow c b).any (·.holds)

/-- BAND_IDLE_GATE: idle_gate_us have passed with nothing armed on the band. -/
def bandIdleGate (b : Nat) (d : Dev) : Dev :=
  let x := d.band b
  if inService d.mgt && decide (x.state = 3) && decide (d.chip.ory.idleGate ≠ 0) && !wanted d.chip b then
    d.setBand b { x with state := 2 }
  else d

/-- A band whose logic loses its supply (R612): what its tiles kept for a restart is gone. -/
def unpowered (b state : Nat) (d : Dev) : Dev :=
  let d := d.mapChip fun c => (tilesOfBand b).foldl (fun c p => c.setTile p { c.tile p with inPlace := [] }) c
  d.setBand b { d.band b with state := .ofNat 2 state }

/-- BAND_RETAIN_IDLE: retain_idle has passed with nothing armed on the band and every operation retired. -/
def bandRetainIdle (b : Nat) (d : Dev) : Dev :=
  let x := d.band b
  if inService d.mgt && decide (x.state = 2) && decide (d.tel.retainIdle ≠ 0) && (onBandNow d.chip b).isEmpty && !x.waking then
    unpowered b 1 d
  else d

/-- BAND_OFF: off_spares is set and no tile of the band backs a number. -/
def bandOff (b : Nat) (d : Dev) : Dev :=
  let x := d.band b
  let backs := (tilesOfBand b).any fun p => let r := (d.chip.tile p).role.toNat; r = 0 || r = 3
  if inService d.mgt && d.tel.offSpares && !backs && !x.waking then unpowered b 0 d else d

/-- BAND_WAKE_COMPLETE: a band that the Orrery or a repair asked for reaches Run. -/
def bandWakeComplete (b : Nat) (d : Dev) : Dev :=
  let x := d.band b
  if inService d.mgt && !d.mgt.computeReset && decide (x.state ≠ 3) && (x.waking || wanted d.chip b) then
    d.setBand b { x with state := 3, waking := false }
  else d

/-! ### The commands -/

def execLossOfPower (pwrGood : Bool) (s : State) : Host.Outcome State Fault Refusal := onDev (lossOfPower pwrGood) s
def execInputRestored (mv : Nat) (s : State) : Host.Outcome State Fault Refusal := onDev (inputRestored mv) s
def execVinLow (mv : Nat) (s : State) : Host.Outcome State Fault Refusal := onDev (vinLow mv) s
def execOverVoltage (mv : Nat) (s : State) : Host.Outcome State Fault Refusal := onDev (overVoltage mv) s
def execInputOvercurrent (ma : Nat) (s : State) : Host.Outcome State Fault Refusal := onDev (inputOvercurrent ma) s
def execCurrentLimitTimeout (s : State) : Host.Outcome State Fault Refusal := onDev currentLimitTimeout s
def execThermalTrip (s : State) : Host.Outcome State Fault Refusal := onDev thermalTrip s
def execTripLatchClear (s : State) : Host.Outcome State Fault Refusal := onDev tripLatchClear s
def execPowerSample (mv ma mw : Nat) (s : State) : Host.Outcome State Fault Refusal := onDev (powerSample mv ma mw) s
def execSensorSample (tiles hubs hbm : List Int) (s : State) : Host.Outcome State Fault Refusal := onDev (sensorSample tiles hubs hbm) s
def execThermalThrottleStep (band : Nat) (s : State) : Host.Outcome State Fault Refusal := onBand band (thermalThrottleStep band) s
def execRef25Lost (s : State) : Host.Outcome State Fault Refusal := onDev ref25Lost s
def execRef25Return (s : State) : Host.Outcome State Fault Refusal := onDev ref25Return s
def execFabRefLost (die : BitVec 1) (s : State) : Host.Outcome State Fault Refusal := onDev (fabRefLost die) s
def execCxlRefclkLost (s : State) : Host.Outcome State Fault Refusal := onDev cxlRefclkLost s
def execBandIdleGate (band : Nat) (s : State) : Host.Outcome State Fault Refusal := onBand band (bandIdleGate band) s
def execBandRetainIdle (band : Nat) (s : State) : Host.Outcome State Fault Refusal := onBand band (bandRetainIdle band) s
def execBandOff (band : Nat) (s : State) : Host.Outcome State Fault Refusal := onBand band (bandOff band) s
def execBandWakeComplete (band : Nat) (s : State) : Host.Outcome State Fault Refusal := onBand band (bandWakeComplete band) s

end Sys2Proof.Machine
end

