-- ==== Sys2Proof/Machine/Pmbus.lean ====
section
/-! DEFINITION. The sideband: PMBus commands and the SMBus alert response (R626 to R629, R441). -/

namespace Sys2Proof.Machine

/-- PMBus answers from the start of stage 0x01. -/
def pmbusOn (d : Dev) : Bool := d.mgt.powered && decide (1 ≤ d.mgt.stage.toNat)

/-- A PMBus command. -/
def onPmbus (f : Dev → Dev) (d : Dev) : Dev := if pmbusOn d then f d else d

/-- A read: its data bytes, the word's low byte first. -/
def reply (f : Dev → List Byte) : Dev → Dev := onPmbus fun d => d.mapChip (emit (.pmbus (f d)))

/-- A block read: the byte count, then the block. -/
def block (b : List Byte) : List Byte := toBytes 1 b.length ++ b

/-- ASCII bytes. -/
def ascii (s : String) : List Byte := s.toList.map fun x => .ofNat 8 x.toNat

/-! ### LINEAR11 -/

/-- Whether `num / den` has an 11-bit mantissa at exponent `e`, truncated toward zero. -/
def mantissa (num : Int) (den : Nat) (e : Int) : Int :=
  if 0 ≤ e then num.tdiv (den * 2 ^ e.toNat) else (num * 2 ^ (-e).toNat).tdiv den

def fitsMantissa (num : Int) (den : Nat) (e : Int) : Bool := decide (-1024 ≤ mantissa num den e) && decide (mantissa num den e ≤ 1023)

/-- Exponents, −16 to 15, at which a value fits. -/
def linear11Exps (num : Int) (den : Nat) : List Int :=
  ((List.range 32).map fun (n : Nat) => (n : Int) - 16).filter (fitsMantissa num den)

/-- A measured value num ÷ den as LINEAR11: exponent [15:11], mantissa [10:0], both signed. Among the exponents at which the
value fits, the device's choice is free. -/
def linear11 (num : Int) (den : Nat) : Nat :=
  let es := linear11Exps num den
  let e := if es.contains (Config.linear11Exp num) then Config.linear11Exp num else es.headD 15
  unsgn 5 e * 2048 + unsgn 11 (mantissa num den e)

/-! ### Status -/

/-- STATUS_WORD: INPUT [13], TEMPERATURE [2] and the communication bit [1], in the standard's places. -/
def statusWord (t : Tel) : Nat :=
  fields [(b2n (bitsOf t.latched.toNat 0 8 != 0), 13), (b2n (bitsOf t.latched.toNat 8 8 != 0), 2), (b2n t.comm, 1)]

/-- CLEAR_FAULTS: bits whose conditions have ended clear; ALERT_N is released. -/
def clearFaults (d : Dev) : Dev :=
  let l := d.tel.latched &&& d.tel.conditions
  { d with tel := { d.tel with latched := l, reported := l, comm := false } }

/-- ALERT_RESPONSE: ALERT_N is released. -/
def alertResponse (d : Dev) : Dev := { d with tel := { d.tel with reported := d.tel.latched } }

/-- A command outside the table: the communication bit, and no data. -/
def unsupported (d : Dev) : Dev := ({ d with tel := { d.tel with comm := true } }).mapChip (emit (.pmbus []))

/-- MFR_FLAG_ACT: path 1 of R441. -/
def flagAct (v : W32) (d : Dev) : Dev := if d.mgt.ready then d.mapChip (manualAct d.mgt v 1) else d

/-- MFR_POWER_CAP: reads cap_w, or writes it within R629. -/
def powerCap (w : Option (BitVec 16)) (d : Dev) : Dev :=
  match w with
  | some v => setCap v.toNat d
  | none => d.mapChip (emit (.pmbus (toBytes 2 d.tel.capW.toNat)))

/-- A number as `w` hexadecimal digits in upper case, the highest first. -/
def hexDigits (w n : Nat) : List Byte :=
  (List.range w).map fun i => let x := n / 16 ^ (w - 1 - i) % 16; .ofNat 8 (if x < 10 then 48 + x else 55 + x)

/-! ### The commands -/

def execClearFaults (s : State) : Host.Outcome State Fault Refusal := onDev (onPmbus clearFaults) s
def execAlertResponse (s : State) : Host.Outcome State Fault Refusal := onDev (onPmbus alertResponse) s
def execCapability (s : State) : Host.Outcome State Fault Refusal := onDev (reply fun _ => [0xD0]) s
def execStatusWord (s : State) : Host.Outcome State Fault Refusal := onDev (reply fun d => toBytes 2 (statusWord d.tel)) s
def execStatusInput (s : State) : Host.Outcome State Fault Refusal :=
  onDev (reply fun d => toBytes 1 (bitsOf d.tel.latched.toNat 0 8)) s
def execStatusTemperature (s : State) : Host.Outcome State Fault Refusal :=
  onDev (reply fun d => toBytes 1 (bitsOf d.tel.latched.toNat 8 8)) s
def execReadVin (s : State) : Host.Outcome State Fault Refusal :=
  onDev (reply fun d => toBytes 2 (linear11 d.tel.vin.toNat 1000)) s
def execReadIin (s : State) : Host.Outcome State Fault Refusal :=
  onDev (reply fun d => toBytes 2 (linear11 d.tel.iin.toNat 1000)) s
def execReadTemperature1 (s : State) : Host.Outcome State Fault Refusal :=
  onDev (reply fun d => toBytes 2 (linear11 (max d.tel.tempDie0 d.tel.tempDie1) 16)) s
def execReadTemperature2 (s : State) : Host.Outcome State Fault Refusal :=
  onDev (reply fun d => toBytes 2 (linear11 d.tel.tempHbm 16)) s
def execReadTemperature3 (s : State) : Host.Outcome State Fault Refusal :=
  onDev (reply fun d => toBytes 2 (linear11 d.tel.tempHub 16)) s
def execReadPin (s : State) : Host.Outcome State Fault Refusal :=
  onDev (reply fun d => toBytes 2 (linear11 d.tel.pin.toNat 1000)) s
def execPmbusRevision (s : State) : Host.Outcome State Fault Refusal := onDev (reply fun _ => [0x33]) s
def execMfrId (s : State) : Host.Outcome State Fault Refusal := onDev (reply fun _ => block (ascii "SALRUS")) s
def execMfrModel (s : State) : Host.Outcome State Fault Refusal := onDev (reply fun _ => block (ascii "QZB-288-LC")) s
def execMfrSerial (s : State) : Host.Outcome State Fault Refusal :=
  onDev (reply fun d => block (hexDigits 16 d.mgt.serial.toNat)) s
def execMfrFlagAct (value : W32) (s : State) : Host.Outcome State Fault Refusal := onDev (onPmbus (flagAct value)) s
def execMfrFlagStatus (s : State) : Host.Outcome State Fault Refusal :=
  onDev (reply fun d => toBytes 2 (readVsp d.chip 0x38)) s
def execMfrPowerCap (write : Option (BitVec 16)) (s : State) : Host.Outcome State Fault Refusal := onDev (onPmbus (powerCap write)) s
def execMfrModuleState (s : State) : Host.Outcome State Fault Refusal := onDev (reply fun d => toBytes 2 (mgtState d.mgt)) s
def execPmbusUnsupportedCommand (_code : Byte) (s : State) : Host.Outcome State Fault Refusal := onDev (onPmbus unsupported) s

end Sys2Proof.Machine
end

