-- ==== Sys2Proof/Machine/Spdm.lean ====
section
/-! DEFINITION. The Strongroom's random bytes and keys, and SPDM over DOE instances 1 and 2 (R483, R571 to R574, R578, R584,
R585, R587, R595). The standards' layouts are those of log entry 5. -/

namespace Sys2Proof.Machine

/-! ### DRBG and keys -/

/-- One generate request of the DRBG: `n` bytes; the 65,536th is followed by a reseed. -/
def drbg (n : Nat) (d : Dev) : List Byte × Dev :=
  ((List.range n).map fun i => Config.drbgByte (d.str.drbgPos + i),
    { d with str := { d.str with drbgPos := d.str.drbgPos + n, drbgReqs := (d.str.drbgReqs + 1) % 65536 } })

/-- Every SPDM session ends and the IDE keys are cleared; a stream that had keys sends nothing until new ones are programmed
(R499, R590, R593). -/
def clearSessions (c : Chip) : Chip :=
  { c with cxl := { c.cxl with
    sessions := []
    chunkIn := []
    chunkOut := []
    ideHalt := c.cxl.ideHalt || c.cxl.ideKeys.isSome
    ideHaltIo := c.cxl.ideHaltIo || c.cxl.ideKeysIo.isSome
    ideKeys := none
    ideKeysIo := none } }

/-- The measurements in order, 192 bytes (R578). -/
def measurementBytes (s : Str) : List Byte := (s.measurements.flatten ++ List.replicate 192 0).take 192

/-- The certificate chain of an identity, from the reserve partition (R574). -/
def certChain (c : Chip) (debug : Bool) : List Byte :=
  flashBytes c (0x7C00000 + (Config.certSpan debug).1) (Config.certSpan debug).2

/-! ### Responses -/

/-- DOE buffer of each direction (R483). -/
def doeBuffer : Nat := 4096

def spdmError (inst : DoeInst) (d : Dev) : Dev := d.mapChip (emit (.doe inst 0x7F []))

/-- A response; one that does not fit a DOE buffer is kept for CHUNK_GET, and an error response announces it. -/
def respond (inst : DoeInst) (code : Nat) (body : List Byte) (d : Dev) : Dev :=
  if body.length ≤ doeBuffer then d.mapChip (emit (.doe inst code body))
  else spdmError inst (d.mapChip fun c => { c with cxl := { c.cxl with chunkOut := body } })

/-- A signed response. -/
def respondSigned (inst : DoeInst) (code : Nat) (req body : List Byte) (d : Dev) : Dev :=
  respond inst code (body ++ Config.slhSign d.str.debug (req ++ body)) d

/-- A part of the certificate chain: offset and length at bytes 4 to 7 of the request. -/
def certPart (req chain : List Byte) : List Byte :=
  let rest := chain.drop (ofBytes ((req.drop 4).take 2))
  let part := rest.take (min (ofBytes ((req.drop 6).take 2)) (doeBuffer - 64))
  toBytes 2 part.length ++ toBytes 2 (rest.length - part.length) ++ part

/-- Measurements 0 to 5 under indices 1 to 6. -/
def measurementRecords (s : Str) : List Byte :=
  (List.range 6).flatMap fun i => toBytes 1 (i + 1) ++ ((measurementBytes s).drop (32 * i)).take 32

/-- KEY_EXCHANGE: a session with fresh secrets; `body` begins the response. -/
def keyExchange (inst : DoeInst) (req body : List Byte) (d : Dev) : Dev :=
  let (r, d) := drbg 32 d
  let id := d.chip.cxl.nextSession
  let d := d.mapChip fun c => { c with cxl := { c.cxl with sessions := c.cxl.sessions ++ [⟨id, false⟩], nextSession := id + 1 } }
  respondSigned inst 0x64 req (body ++ toBytes 2 id ++ r) d

/-- FINISH: the session is established. -/
def finishSession (inst : DoeInst) (session : Nat) (req : List Byte) (d : Dev) : Dev :=
  if d.chip.cxl.sessions.any fun x => x.id = session then
    respond inst 0x65 (Config.spdmBody 0xE5 req) (d.mapChip fun c => { c with cxl := { c.cxl with
      sessions := c.cxl.sessions.map fun x => if x.id = session then ⟨x.id, true⟩ else x } })
  else spdmError inst d

/-- END_SESSION: the session and its secrets are gone. -/
def endSession (inst : DoeInst) (session : Nat) (d : Dev) : Dev :=
  if d.chip.cxl.sessions.any fun x => x.id = session then
    respond inst 0x6C (Config.spdmBody 0xEC []) (d.mapChip fun c => { c with cxl := { c.cxl with
      sessions := c.cxl.sessions.filter fun x => x.id ≠ session } })
  else spdmError inst d

/-- A session is open for secured messages. -/
def sessionOpen (c : Chip) (session : Nat) : Bool := c.cxl.sessions.any fun x => decide (x.id = session) && x.established

/-- An SPDM request, by code. CHALLENGE, GET_MEASUREMENTS and KEY_EXCHANGE need fresh random bits (R573). -/
def spdm (inst : DoeInst) (code session : Nat) (req : List Byte) (d : Dev) : Dev :=
  let body := Config.spdmBody code req
  let fresh (f : List Byte → Dev → Dev) : Dev :=
    if d.str.drbgOk then f (drbg 32 d).1 (drbg 32 d).2 else spdmError inst d
  match code with
  | 0x81 => respond inst 0x01 (body ++ sha256 (certChain d.chip d.str.debug)) d
  | 0x82 => respond inst 0x02 (body ++ certPart req (certChain d.chip d.str.debug)) d
  | 0x83 => fresh fun r d => respondSigned inst 0x03 req (body ++ sha256 (certChain d.chip d.str.debug) ++ r) d
  | 0x84 => respond inst 0x04 body d
  | 0xE0 => fresh fun r d => respondSigned inst 0x60 req (body ++ measurementRecords d.str ++ r) d
  | 0xE1 => respond inst 0x61 body d
  | 0xE3 => respond inst 0x63 body d
  | 0xE4 => if d.str.drbgOk then keyExchange inst req body d else spdmError inst d
  | 0xE5 => finishSession inst session req d
  | 0xEC => endSession inst session d
  | _ => spdmError inst d

/-- CHUNK_SEND: the last chunk completes a large request, whose second byte is its code. -/
def chunkSend (inst : DoeInst) (last : Bool) (data : List Byte) (d : Dev) : Dev :=
  let whole := d.chip.cxl.chunkIn ++ data
  let d := d.mapChip fun c => emit (.doe inst 0x05 []) { c with cxl := { c.cxl with chunkIn := if last then [] else whole } }
  if last then spdm inst (whole.getD 1 0).toNat (ofBytes ((whole.drop 4).take 2)) whole d else d

/-- CHUNK_GET: one chunk of the response that is kept. -/
def chunkGet (inst : DoeInst) (index : Nat) (d : Dev) : Dev :=
  let n := max 1 (min doeBuffer Config.chunkBytes)
  let part := (d.chip.cxl.chunkOut.drop (n * index)).take n
  if part = [] then spdmError inst d else d.mapChip (emit (.doe inst 0x06 part))

/-- KEY_PROG (R587): only in a session on instance 2; the stream carries traffic again. -/
def keyProg (inst : DoeInst) (session : Nat) (stream : IdeStream) (msg : List Byte) (d : Dev) : Dev :=
  if inst = .inst2 ∧ sessionOpen d.chip session then
    let keys := some (Config.ideUnwrap msg)
    d.mapChip fun c => emit (.doe inst 0 []) { c with cxl := match stream with
      | .cxl => { c.cxl with ideKeys := keys, ideHalt := false }
      | .pcie => { c.cxl with ideKeysIo := keys, ideHaltIo := false } }
  else spdmError inst d

/-! ### Requests -/

def DoeReq.inst : DoeReq → DoeInst
  | .spdm i _ _ _ => i
  | .chunk i _ _ => i
  | .chunkGet i _ => i
  | .keyProg i _ _ _ => i

/-- The Strongroom serves a request; once halted it answers with an error (R593). -/
def serve (r : DoeReq) (d : Dev) : Dev :=
  if d.str.halted then spdmError r.inst d else
  match r with
  | .spdm i code session req => spdm i code session req d
  | .chunk i last data => chunkSend i last data d
  | .chunkGet i n => chunkGet i n d
  | .keyProg i session stream msg => keyProg i session stream msg d

/-- A DOE request arrives: instance 0 has no SPDM; instance 2 carries secured messages, so it needs a session; while a mailbox
command runs the request waits. -/
def doeRequest (r : DoeReq) (d : Dev) : Dev :=
  if !d.mgt.powered || !d.str.selftestOk || r.inst = .inst0 then d
  else if r.inst = .inst2 && !(d.chip.cxl.sessions.any fun _ => true) then spdmError r.inst d
  else if d.str.go then { d with str := { d.str with doeWait := d.str.doeWait ++ [r] } }
  else serve r d

/-- A mailbox command completes, and the DOE requests that waited are served. -/
def endMailbox (result resp : Nat) (d : Dev) : Dev :=
  let w := d.str.doeWait
  let d := endCmd result { d with str := { d.str with respLen := .ofNat 26 resp, doeWait := [] } }
  w.foldl (fun d r => serve r d) d

/-! ### The commands -/

def execGetVersion (inst : DoeInst) (req : List Byte) (s : State) : Host.Outcome State Fault Refusal :=
  onDev (doeRequest (.spdm inst 0x84 0 req)) s
def execGetCapabilities (inst : DoeInst) (req : List Byte) (s : State) : Host.Outcome State Fault Refusal :=
  onDev (doeRequest (.spdm inst 0xE1 0 req)) s
def execNegotiateAlgorithms (inst : DoeInst) (req : List Byte) (s : State) : Host.Outcome State Fault Refusal :=
  onDev (doeRequest (.spdm inst 0xE3 0 req)) s
def execGetDigests (inst : DoeInst) (req : List Byte) (s : State) : Host.Outcome State Fault Refusal :=
  onDev (doeRequest (.spdm inst 0x81 0 req)) s
def execGetCertificate (inst : DoeInst) (req : List Byte) (s : State) : Host.Outcome State Fault Refusal :=
  onDev (doeRequest (.spdm inst 0x82 0 req)) s
def execChallenge (inst : DoeInst) (req : List Byte) (s : State) : Host.Outcome State Fault Refusal :=
  onDev (doeRequest (.spdm inst 0x83 0 req)) s
def execSpdmGetMeasurements (inst : DoeInst) (req : List Byte) (s : State) : Host.Outcome State Fault Refusal :=
  onDev (doeRequest (.spdm inst 0xE0 0 req)) s
def execKeyExchange (inst : DoeInst) (req : List Byte) (s : State) : Host.Outcome State Fault Refusal :=
  onDev (doeRequest (.spdm inst 0xE4 0 req)) s
def execFinish (inst : DoeInst) (session : Nat) (req : List Byte) (s : State) : Host.Outcome State Fault Refusal :=
  onDev (doeRequest (.spdm inst 0xE5 session req)) s
def execEndSession (inst : DoeInst) (session : Nat) (s : State) : Host.Outcome State Fault Refusal :=
  onDev (doeRequest (.spdm inst 0xEC session [])) s
def execChunkSend (inst : DoeInst) (last : Bool) (chunk : List Byte) (s : State) : Host.Outcome State Fault Refusal :=
  onDev (doeRequest (.chunk inst last chunk)) s
def execChunkGet (inst : DoeInst) (index : Nat) (s : State) : Host.Outcome State Fault Refusal :=
  onDev (doeRequest (.chunkGet inst index)) s
def execKeyProg (inst : DoeInst) (session : Nat) (stream : IdeStream) (msg : List Byte) (s : State) : Host.Outcome State Fault Refusal :=
  onDev (doeRequest (.keyProg inst session stream msg)) s

end Sys2Proof.Machine
end

