-- ==== Sys2Proof/Machine/Strongroom.lean ====
section
/-! DEFINITION. The Strongroom's mailbox commands, tokens, tamper and entropy (R573, R582 to R583, R586, R588 to R598). -/

namespace Sys2Proof.Machine

/-! ### The buffer (R595, R598) -/

/-- The buffer lies in the interleaved HBM view and holds `need` bytes. -/
def bufOk (s : Str) (need : Nat) : Bool :=
  decide (need ≤ s.bufLen.toNat) && decide (s.bufLen.toNat ≤ 0x2000000) && decide (s.buf.toNat % 4096 = 0) &&
    decide (s.buf.toNat + s.bufLen.toNat ≤ hbmTop)

/-- The end of a command that met a poisoned word (R345, R346): the word is recorded; R598 has no result for it (log entry 82). -/
def endPoisoned (w : Nat) (d : Dev) : Dev :=
  let (v, c) := drawFree (recordUe w d.chip)
  endMailbox v 0 { d with chip := c }

/-- A command that reads the first `n` bytes of the buffer. -/
def withInput (n : Nat) (f : List Byte → Dev → Dev) (d : Dev) : Dev :=
  let a := d.str.buf.toNat
  let d := d.mapChip (meet a n)
  match firstPoison d.chip a n with
  | some w => endPoisoned w d
  | none => f (readBytes d.chip a n) d

/-- Writes a response to the buffer and completes with result 0; a last word that it covers in part must not be poisoned. -/
def respondBuf (b : List Byte) (d : Dev) : Dev :=
  let a := d.str.buf.toNat
  let d := d.mapChip fun c => (partWords a b.length).foldl (fun c w => meet w 16 c) c
  match (partWords a b.length).find? (poisonedAt d.chip) with
  | some w => endPoisoned w d
  | none =>
    let words := (wordsIn a b.length).filter fun w => a ≤ w && w + 16 ≤ a + b.length
    endMailbox 0 b.length (d.mapChip fun c => words.foldl (fun c w => setPoison w false c) (writeBytes a b c))

/-- A mailbox command: it runs when its opcode has been started; halted, it ends with result 8. -/
def mailbox (op : Nat) (f : Dev → Dev) (d : Dev) : Dev :=
  if d.mgt.powered && d.str.go && decide (d.str.running.toNat = op) then
    if d.str.halted then endMailbox 8 0 d else f d
  else d

/-- A command whose buffer holds at least `need` bytes; lines of them that the host may hold are snooped, and the command goes
on when the host has given them up (R493). -/
def withBuf (need : Nat) (f : Dev → Dev) (d : Dev) : Dev :=
  if !bufOk d.str need then endMailbox 9 0 d else
  let lines := trackedIn d.chip d.str.buf.toNat need
  if lines = [] then f d else d.mapChip (sendSnoops lines)

/-! ### Measurements, certificates and reports -/

def getMeasurements : Dev → Dev := mailbox 1 (withBuf 192 fun d => respondBuf (measurementBytes d.str) d)

def getCerts : Dev → Dev := mailbox 2 <| withBuf 1 <| withInput 1 fun b d =>
  let which := b.headD 0
  if 1 < which.toNat then endMailbox 2 0 d
  else
    let chain := certChain d.chip (which = 1)
    withBuf chain.length (respondBuf chain) d

/-- The 256 bytes of an attestation report (R586). -/
def report (nonce : List Byte) (d : Dev) : List Byte :=
  let flags := b2n d.str.debug + 2 * b2n d.chip.til.almanac.owner.isSome + 4 * b2n (decide (d.chip.dbk.mode = 2))
  toBytes 1 0x20 ++ toBytes 1 flags ++ toBytes 6 0 ++ toBytes 8 d.mgt.serial.toNat ++ nonce ++ measurementBytes d.str ++
    toBytes 4 d.str.bootVersion.toNat ++ toBytes 4 d.str.cfgVersion.toNat ++ toBytes 1 (fuseFloor d.chip 0) ++
    toBytes 1 (fuseFloor d.chip 1) ++ toBytes 6 0

/-- A signature is 17,088 bytes wide. -/
def signature (debug : Bool) (m : List Byte) : List Byte := (Config.slhSign debug m ++ List.replicate 17088 0).take 17088

def attest : Dev → Dev := mailbox 3 <| withBuf 17344 <| withInput 32 fun nonce d =>
  let r := report nonce d
  respondBuf (r ++ signature d.str.debug r) d

/-! ### Images and anti-rollback -/

/-- IMAGE_UPDATE (R596). -/
def imageUpdate : Dev → Dev := mailbox 4 <| withBuf 8112 <| withInput 256 fun head d =>
  let h := imageHdr head
  let n := 256 + h.bodyBytes + 7856
  let slot := if h.kind = 0 then (if d.str.bootB then 0 else 1) else if d.str.cfgSlot1 then 0 else 1
  let place := imagePlace h.kind slot
  if 1 < h.kind then endMailbox 3 0 d
  else if place.2 < n then endMailbox 9 0 d else
  (withBuf n <| withInput n fun image d =>
  let body := (image.drop 256).take h.bodyBytes
  let r := verifyImage d h.kind h body (image.drop (256 + h.bodyBytes))
  if r ≠ 0 then endMailbox r 0 d
  else
    let d := d.mapChip fun c => flashWrite place.1 image (flashErase place.1 place.2 c)
    endMailbox (if verifyFlash d h.kind slot = 0 then 0 else 6) 0 d) d

/-- Blows one floor's bits until `n` of them are blown: the lowest that are not blown yet. -/
def raiseFloor (lo w n : Nat) (fuses : BitVec 64) : BitVec 64 :=
  (List.range w).foldl (fun f i => if popCount w (bitsOf f.toNat lo w) < n then putBit f (lo + i) true else f) fuses

/-- The floors reach the running images' svn, and the primary key is revoked where the boot image says so. -/
def blowFuses (s : Str) (a : Almanac) : Almanac :=
  { a with
    thermo := raiseFloor 48 16 s.cfgSvn (raiseFloor 0 48 s.bootSvn a.thermo)
    revoked := a.revoked || s.bootSlot1Revoke }

/-- Queues a MIN_VERSION record of a kind. -/
def minRecord (kind : Nat) (d : Dev) : Bool × Dev :=
  let v := if kind = 0 then d.str.bootVersion else d.str.cfgVersion
  let (ok, c) := queueRec d.mgt 0 6 (toBytes 1 kind ++ toBytes 3 0 ++ toBytes 4 v.toNat) d.chip
  (ok, { d with chip := c })

/-- Records that the engine has still to write. -/
def recordsLeft (c : Chip) : Nat := c.dbk.queue.length + (match c.dbk.consol with | some x => x.left.length | none => 0)

/-- ROLLBACK_COMMIT (R583): while its records are not written the command goes on. -/
def rollbackCommit : Dev → Dev := mailbox 5 fun d =>
  if !d.mgt.ready then endMailbox 8 0 d else
  let (ok, d) := if d.str.committing then (true, d) else
    let (a, d) := minRecord 0 d
    let (b, d) := minRecord 1 d
    (a && b, { d with str := { d.str with committing := true } })
  let done (r : Nat) (d : Dev) : Dev := endMailbox r 0 { d with str := { d.str with committing := false } }
  if !ok then done 6 d else
  let d := recordWrites (recordsLeft d.chip) d
  if d.chip.dbk.queue.any fun r => r.type = 6 then d
  else if minVersion d.chip 0 = d.str.bootVersion.toNat ∧ minVersion d.chip 1 = d.str.cfgVersion.toNat then
    done 0 { d with
      str := { d.str with minBoot := d.str.bootVersion.toNat, minCfg := d.str.cfgVersion.toNat }
      chip := { d.chip with til := { d.chip.til with almanac := blowFuses d.str d.chip.til.almanac } } }
  else done 6 d

/-- OWNER_SET (R597). -/
def ownerSet : Dev → Dev := mailbox 9 <| withBuf 32 fun d =>
  let a := d.chip.til.almanac
  if a.owner.isSome then endMailbox 8 0 d
  else d |> withInput 32 fun key d =>
    endMailbox 0 0 (d.mapChip fun c => { c with til := { c.til with almanac := { a with owner := some key } } })

/-! ### Random bytes and tokens -/

/-- DEBUG_NONCE (R589). -/
def debugNonce : Dev → Dev := mailbox 6 <| withBuf 32 fun d =>
  if !d.str.drbgOk then endMailbox 7 0 d else
  let (b, d) := drbg 32 d
  respondBuf b { d with str := { d.str with nonce := some b } }

/-- RANDOM. -/
def random : Dev → Dev := mailbox 10 <| withBuf 4 <| withInput 4 fun b d =>
  let n := ofBytes b
  if n = 0 ∨ 4096 < n then endMailbox 2 0 d else
  withBuf n (fun d =>
    if !d.str.drbgOk then endMailbox 7 0 d
    else
      let (b, d) := drbg n d
      respondBuf b d) d

/-- Result of a token's checks (R588, R589), 0 where it is accepted. -/
def tokenResult (d : Dev) (t sig : List Byte) : Nat :=
  let part (o n : Nat) : List Byte := (t.drop o).take n
  let zero (b : List Byte) : Bool := b.all (· == 0)
  if !Config.slhVerify (Config.fusedKey 2) t sig then 3
  else if ofBytes (part 8 8) ≠ d.mgt.serial.toNat ∨ d.str.nonce ≠ some (part 16 32) then 5
  else if part 0 1 ≠ [0x20] ∨ 8 ≤ ofBytes (part 1 1) ∨ !zero (part 2 6) ∨ !zero (part 48 16) then 2
  else 0

/-- A command with a token: `f` gets the token where it is accepted; the nonce is consumed in either case. -/
def withToken (f : List Byte → Dev → Dev) : Dev → Dev := withBuf 7920 <| withInput 7920 fun b d =>
  let r := tokenResult d (b.take 64) (b.drop 64)
  let d := { d with str := { d.str with nonce := none } }
  if r = 0 then f (b.take 64) d else endMailbox r 0 d

/-- The steps of R590. -/
def unlock (t : List Byte) (d : Dev) : Dev :=
  let scope := (t.getD 1 0).toNat % 4
  if scope = 0 then d else
  let ms := ((d.str.measurements ++ List.replicate 6 (List.replicate 32 0)).take 6).set 4 (sha256 t)
  { d with
    str := { d.str with debug := true, measurements := ms, scopes := d.str.scopes ||| .ofNat 2 scope }
    chip := faultRec d.mgt 0 4 1 0 (clearSessions d.chip) }

/-- DEBUG_UNLOCK. -/
def debugUnlock : Dev → Dev := mailbox 7 (withToken fun t d => endMailbox 0 0 (unlock t d))

/-- Erases both rings and formats the Daybook; the fault record is the first after the format (R591). -/
def eraseAndFormat (d : Dev) : Dev :=
  let d := d.mapChip fun c =>
    let c := flashErase 0x3C00000 0x4000000 c
    let c := (List.range 512).foldl (fun c s => countErase true s (countErase false s c)) c
    let old := c.dbk.queue
    let c := faultRec d.mgt 0 4 2 0 (format d.mgt { c with dbk := { c.dbk with queue := [], mode := 0 } })
    { c with dbk := { c.dbk with queue := c.dbk.queue ++ old } }
  { d with str := { d.str with minBoot := 0, minCfg := 0 } }

/-- DAYBOOK_FORMAT. -/
def daybookFormat : Dev → Dev := mailbox 8 <| withToken fun t d =>
  if (t.getD 1 0).toNat.testBit 2 then endMailbox 0 0 (eraseAndFormat d) else endMailbox 8 0 d

/-! ### Tamper and entropy -/

/-- TAMPER (R593): the fault record is signed while the key is there; then every key is cleared and the Strongroom halts. -/
def tamper (sensor : Nat) (d : Dev) : Dev :=
  if !d.mgt.powered || d.str.halted then d else
  let d := d.mapChip (faultRec d.mgt 0 4 4 sensor)
  let d := recordWrites (recordsLeft d.chip) d
  let d := (raiseD .str 3 { d with str := { d.str with keysHeld := false, drbgOk := false, nonce := none, halted := true } }).mapChip clearSessions
  if d.str.go then endMailbox 8 0 d else d

/-- ENTROPY_HEALTH_FAILURE (R573). -/
def entropyFailure (d : Dev) : Dev := if d.mgt.powered then { d with str := { d.str with drbgOk := false } } else d

/-! ### The commands -/

def execGetMeasurements (s : State) : Host.Outcome State Fault Refusal := onDev getMeasurements s
def execGetCerts (s : State) : Host.Outcome State Fault Refusal := onDev getCerts s
def execAttest (s : State) : Host.Outcome State Fault Refusal := onDev attest s
def execImageUpdate (s : State) : Host.Outcome State Fault Refusal := onDev imageUpdate s
def execRollbackCommit (s : State) : Host.Outcome State Fault Refusal := onDev rollbackCommit s
def execDebugNonce (s : State) : Host.Outcome State Fault Refusal := onDev debugNonce s
def execDebugUnlock (s : State) : Host.Outcome State Fault Refusal := onDev debugUnlock s
def execDaybookFormat (s : State) : Host.Outcome State Fault Refusal := onDev daybookFormat s
def execOwnerSet (s : State) : Host.Outcome State Fault Refusal := onDev ownerSet s
def execRandom (s : State) : Host.Outcome State Fault Refusal := onDev random s
def execTamper (sensor : Nat) (s : State) : Host.Outcome State Fault Refusal := onDev (tamper sensor) s
def execEntropyHealthFailure (s : State) : Host.Outcome State Fault Refusal := onDev entropyFailure s

end Sys2Proof.Machine
end

