-- ==== Sys2Proof/Machine/Dispatch.lean ====
section
/-! DEFINITION. The meaning of each command, one arm per row of the table. -/

namespace Sys2Proof.Machine

def exec (i : Instr) (s : State) : Host.Outcome State Fault Refusal :=
  match i with
  | .pwrGoodAssert => Sys2Proof.Machine.execPwrGoodAssert s
  | .resetN asserted => Sys2Proof.Machine.execResetN asserted s
  | .lossOfPower pwrGood => Sys2Proof.Machine.execLossOfPower pwrGood s
  | .inputRestored mv => Sys2Proof.Machine.execInputRestored mv s
  | .vinLow mv => Sys2Proof.Machine.execVinLow mv s
  | .inputOvercurrent ma => Sys2Proof.Machine.execInputOvercurrent ma s
  | .currentLimitTimeout => Sys2Proof.Machine.execCurrentLimitTimeout s
  | .thermalTrip => Sys2Proof.Machine.execThermalTrip s
  | .tripLatchClear => Sys2Proof.Machine.execTripLatchClear s
  | .powerSample mv ma mw => Sys2Proof.Machine.execPowerSample mv ma mw s
  | .sensorSample tiles hubs hbm => Sys2Proof.Machine.execSensorSample tiles hubs hbm s
  | .thermalThrottleStep band => Sys2Proof.Machine.execThermalThrottleStep band s
  | .ref25Lost => Sys2Proof.Machine.execRef25Lost s
  | .ref25Return => Sys2Proof.Machine.execRef25Return s
  | .fabRefLost die => Sys2Proof.Machine.execFabRefLost die s
  | .cxlRefclkLost => Sys2Proof.Machine.execCxlRefclkLost s
  | .stressSample => Sys2Proof.Machine.execStressSample s
  | .alwaysOn selfTests => Sys2Proof.Machine.execAlwaysOn selfTests s
  | .almanac => Sys2Proof.Machine.execAlmanac s
  | .images => Sys2Proof.Machine.execImages s
  | .bandWave loaded => Sys2Proof.Machine.execBandWave loaded s
  | .bands => Sys2Proof.Machine.execBands s
  | .hbm first second windows => Sys2Proof.Machine.execHbm first second windows s
  | .portTraining trained enene => Sys2Proof.Machine.execPortTraining trained enene s
  | .qualification passed margins => Sys2Proof.Machine.execQualification passed margins s
  | .firmware passes broadcast unicast => Sys2Proof.Machine.execFirmware passes broadcast unicast s
  | .overlays failed => Sys2Proof.Machine.execOverlays failed s
  | .selfTest units => Sys2Proof.Machine.execSelfTest units s
  | .conventionalReset => Sys2Proof.Machine.execConventionalReset s
  | .hotReset => Sys2Proof.Machine.execHotReset s
  | .functionLevelReset => Sys2Proof.Machine.execFunctionLevelReset s
  | .computeReset value => Sys2Proof.Machine.execComputeReset value s
  | .computeResetDone => Sys2Proof.Machine.execComputeResetDone s
  | .configurationRequest offset data => Sys2Proof.Machine.execConfigurationRequest offset data s
  | .cxlLinkUp mode => Sys2Proof.Machine.execCxlLinkUp mode s
  | .apertureEntryWrite entry dword value => Sys2Proof.Machine.execApertureEntryWrite entry dword value s
  | .apertureLock => Sys2Proof.Machine.execApertureLock s
  | .hdmDecoderCommit decoder base size target ways => Sys2Proof.Machine.execHdmDecoderCommit decoder base size target ways s
  | .hostHdmRead line => Sys2Proof.Machine.execHostHdmRead line s
  | .hostHdmWrite line data enables => Sys2Proof.Machine.execHostHdmWrite line data enables s
  | .shadowLineSnoop wq tail cplHead slots => Sys2Proof.Machine.execShadowLineSnoop wq tail cplHead slots s
  | .msixUnmask vector => Sys2Proof.Machine.execMsixUnmask vector s
  | .ideIntegrityFailure stream => Sys2Proof.Machine.execIdeIntegrityFailure stream s
  | .doeDiscovery inst index => Sys2Proof.Machine.execDoeDiscovery inst index s
  | .cdatTableAccess index => Sys2Proof.Machine.execCdatTableAccess index s
  | .getVersion inst req => Sys2Proof.Machine.execGetVersion inst req s
  | .getCapabilities inst req => Sys2Proof.Machine.execGetCapabilities inst req s
  | .negotiateAlgorithms inst req => Sys2Proof.Machine.execNegotiateAlgorithms inst req s
  | .getDigests inst req => Sys2Proof.Machine.execGetDigests inst req s
  | .getCertificate inst req => Sys2Proof.Machine.execGetCertificate inst req s
  | .challenge inst req => Sys2Proof.Machine.execChallenge inst req s
  | .spdmGetMeasurements inst req => Sys2Proof.Machine.execSpdmGetMeasurements inst req s
  | .keyExchange inst req => Sys2Proof.Machine.execKeyExchange inst req s
  | .finish inst session req => Sys2Proof.Machine.execFinish inst session req s
  | .endSession inst session => Sys2Proof.Machine.execEndSession inst session s
  | .chunkSend inst last chunk => Sys2Proof.Machine.execChunkSend inst last chunk s
  | .chunkGet inst index => Sys2Proof.Machine.execChunkGet inst index s
  | .keyProg inst session stream msg => Sys2Proof.Machine.execKeyProg inst session stream msg s
  | .tailDoorbell wq tail slots => Sys2Proof.Machine.execTailDoorbell wq tail slots s
  | .completionHeadDoorbell wq head => Sys2Proof.Machine.execCompletionHeadDoorbell wq head s
  | .directSubmission wq desc => Sys2Proof.Machine.execDirectSubmission wq desc s
  | .wqOpen => Sys2Proof.Machine.execWqOpen s
  | .wqClose => Sys2Proof.Machine.execWqClose s
  | .preempt => Sys2Proof.Machine.execPreempt s
  | .cancelAll => Sys2Proof.Machine.execCancelAll s
  | .cancel last first => Sys2Proof.Machine.execCancel last first s
  | .streamCfgWrite value => Sys2Proof.Machine.execStreamCfgWrite value s
  | .descriptorStart id => Sys2Proof.Machine.execDescriptorStart id s
  | .descriptorRetire id => Sys2Proof.Machine.execDescriptorRetire id s
  | .orreryPreempt victim wanting => Sys2Proof.Machine.execOrreryPreempt victim wanting s
  | .multicastJoin ids => Sys2Proof.Machine.execMulticastJoin ids s
  | .batchDeadline first => Sys2Proof.Machine.execBatchDeadline first s
  | .bandIdleGate band => Sys2Proof.Machine.execBandIdleGate band s
  | .bandRetainIdle band => Sys2Proof.Machine.execBandRetainIdle band s
  | .bandOff band => Sys2Proof.Machine.execBandOff band s
  | .bandWakeComplete band => Sys2Proof.Machine.execBandWakeComplete band s
  | .stream id groups => Sys2Proof.Machine.execStream id groups s
  | .add id groups => Sys2Proof.Machine.execAdd id groups s
  | .sub id groups => Sys2Proof.Machine.execSub id groups s
  | .mul id groups => Sys2Proof.Machine.execMul id groups s
  | .max id groups => Sys2Proof.Machine.execMax id groups s
  | .muladd id groups => Sys2Proof.Machine.execMuladd id groups s
  | .exp2 id groups => Sys2Proof.Machine.execExp2 id groups s
  | .recip id groups => Sys2Proof.Machine.execRecip id groups s
  | .rsqrt id groups => Sys2Proof.Machine.execRsqrt id groups s
  | .log2 id groups => Sys2Proof.Machine.execLog2 id groups s
  | .convert id groups => Sys2Proof.Machine.execConvert id groups s
  | .residualAdd id groups => Sys2Proof.Machine.execResidualAdd id groups s
  | .rowsum id groups => Sys2Proof.Machine.execRowsum id groups s
  | .rowmax id groups => Sys2Proof.Machine.execRowmax id groups s
  | .layernorm id groups => Sys2Proof.Machine.execLayernorm id groups s
  | .rmsnorm id groups => Sys2Proof.Machine.execRmsnorm id groups s
  | .silu id groups => Sys2Proof.Machine.execSilu id groups s
  | .siluBwd id groups => Sys2Proof.Machine.execSiluBwd id groups s
  | .treeJoin id groups => Sys2Proof.Machine.execTreeJoin id groups s
  | .convFwd id groups => Sys2Proof.Machine.execConvFwd id groups s
  | .convDgrad id groups => Sys2Proof.Machine.execConvDgrad id groups s
  | .convWgrad id groups => Sys2Proof.Machine.execConvWgrad id groups s
  | .poolMax id groups => Sys2Proof.Machine.execPoolMax id groups s
  | .poolAvg id groups => Sys2Proof.Machine.execPoolAvg id groups s
  | .poolMaxBwd id groups => Sys2Proof.Machine.execPoolMaxBwd id groups s
  | .poolAvgBwd id groups => Sys2Proof.Machine.execPoolAvgBwd id groups s
  | .stripeRegionFetch id => Sys2Proof.Machine.execStripeRegionFetch id s
  | .fwd id groups => Sys2Proof.Machine.execFwd id groups s
  | .bwd id groups => Sys2Proof.Machine.execBwd id groups s
  | .cacheWrite id => Sys2Proof.Machine.execCacheWrite id s
  | .cacheMatch id => Sys2Proof.Machine.execCacheMatch id s
  | .cacheRelease id => Sys2Proof.Machine.execCacheRelease id s
  | .stackOpen id => Sys2Proof.Machine.execStackOpen id s
  | .push id => Sys2Proof.Machine.execPush id s
  | .pop id => Sys2Proof.Machine.execPop id s
  | .drop id => Sys2Proof.Machine.execDrop id s
  | .stackClose id => Sys2Proof.Machine.execStackClose id s
  | .encode id => Sys2Proof.Machine.execEncode id s
  | .decode id => Sys2Proof.Machine.execDecode id s
  | .copy id groups => Sys2Proof.Machine.execCopy id groups s
  | .fill id groups => Sys2Proof.Machine.execFill id groups s
  | .msLaneInit id => Sys2Proof.Machine.execMsLaneInit id s
  | .msExpMax id rows => Sys2Proof.Machine.execMsExpMax id rows s
  | .msLaneAdd id rows => Sys2Proof.Machine.execMsLaneAdd id rows s
  | .msLaneOut id => Sys2Proof.Machine.execMsLaneOut id s
  | .msIntAdd id rows => Sys2Proof.Machine.execMsIntAdd id rows s
  | .msFloatAdd id rows => Sys2Proof.Machine.execMsFloatAdd id rows s
  | .set id => Sys2Proof.Machine.execSet id s
  | .clear id => Sys2Proof.Machine.execClear id s
  | .wait id => Sys2Proof.Machine.execWait id s
  | .watch id => Sys2Proof.Machine.execWatch id s
  | .unwatch id => Sys2Proof.Machine.execUnwatch id s
  | .streamBarrier id => Sys2Proof.Machine.execStreamBarrier id s
  | .groupBarrier id => Sys2Proof.Machine.execGroupBarrier id s
  | .adamw id => Sys2Proof.Machine.execAdamw id s
  | .carry id => Sys2Proof.Machine.execCarry id s
  | .configure id => Sys2Proof.Machine.execConfigure id s
  | .clearance id => Sys2Proof.Machine.execClearance id s
  | .clearanceVerdict verdict => Sys2Proof.Machine.execClearanceVerdict verdict s
  | .assayCheck id block => Sys2Proof.Machine.execAssayCheck id block s
  | .alarmAck value => Sys2Proof.Machine.execAlarmAck value s
  | .allReduce id => Sys2Proof.Machine.execAllReduce id s
  | .reduceScatter id => Sys2Proof.Machine.execReduceScatter id s
  | .allGather id gathered => Sys2Proof.Machine.execAllGather id gathered s
  | .broadcast id data => Sys2Proof.Machine.execBroadcast id data s
  | .allToAll id parts => Sys2Proof.Machine.execAllToAll id parts s
  | .send id peerDigest => Sys2Proof.Machine.execSend id peerDigest s
  | .recv id peerDigest data => Sys2Proof.Machine.execRecv id peerDigest data s
  | .groupOpen id => Sys2Proof.Machine.execGroupOpen id s
  | .groupClose id => Sys2Proof.Machine.execGroupClose id s
  | .reshard id => Sys2Proof.Machine.execReshard id s
  | .adopt id => Sys2Proof.Machine.execAdopt id s
  | .trancheStart id tranche => Sys2Proof.Machine.execTrancheStart id tranche s
  | .grant msg => Sys2Proof.Machine.execGrant msg s
  | .refuse msg => Sys2Proof.Machine.execRefuse msg s
  | .claimRetry id tranche => Sys2Proof.Machine.execClaimRetry id tranche s
  | .fallback msg => Sys2Proof.Machine.execFallback msg s
  | .ringHop msg piece hops => Sys2Proof.Machine.execRingHop msg piece hops s
  | .result msg => Sys2Proof.Machine.execResult msg s
  | .slotLost msg => Sys2Proof.Machine.execSlotLost msg s
  | .fence msg => Sys2Proof.Machine.execFence msg s
  | .clearancePlaneRetest id => Sys2Proof.Machine.execClearancePlaneRetest id s
  | .frameReceive port fec frame => Sys2Proof.Machine.execFrameReceive port fec frame s
  | .laneFailing port logical => Sys2Proof.Machine.execLaneFailing port logical s
  | .write pkt => Sys2Proof.Machine.execWrite pkt s
  | .read pkt => Sys2Proof.Machine.execRead pkt s
  | .readData pkt => Sys2Proof.Machine.execReadData pkt s
  | .ack pkt => Sys2Proof.Machine.execAck pkt s
  | .flag pkt => Sys2Proof.Machine.execFlag pkt s
  | .identQuery pkt => Sys2Proof.Machine.execIdentQuery pkt s
  | .switch pkt => Sys2Proof.Machine.execSwitch pkt s
  | .notReadyResend tag => Sys2Proof.Machine.execNotReadyResend tag s
  | .remoteRequestTimeout tag => Sys2Proof.Machine.execRemoteRequestTimeout tag s
  | .remoteFlagTimeout tag => Sys2Proof.Machine.execRemoteFlagTimeout tag s
  | .uioTimeout tag => Sys2Proof.Machine.execUioTimeout tag s
  | .retrain port => Sys2Proof.Machine.execRetrain port s
  | .retrainDrainEnd port => Sys2Proof.Machine.execRetrainDrainEnd port s
  | .portActive port passed enene => Sys2Proof.Machine.execPortActive port passed enene s
  | .mgtRankWrite value => Sys2Proof.Machine.execMgtRankWrite value s
  | .flagSetWrite word value => Sys2Proof.Machine.execFlagSetWrite word value s
  | .flagClearWrite word value => Sys2Proof.Machine.execFlagClearWrite word value s
  | .manualAct value => Sys2Proof.Machine.execManualAct value s
  | .mboxCfgWrite value => Sys2Proof.Machine.execMboxCfgWrite value s
  | .mboxRelease value => Sys2Proof.Machine.execMboxRelease value s
  | .mboxWriteRetry mbox => Sys2Proof.Machine.execMboxWriteRetry mbox s
  | .scrubRead granule errors => Sys2Proof.Machine.execScrubRead granule errors s
  | .hbmRefresh stack => Sys2Proof.Machine.execHbmRefresh stack s
  | .sealMerge addr data tensor policy base extent => Sys2Proof.Machine.execSealMerge addr data tensor policy base extent s
  | .rowRepair pc row => Sys2Proof.Machine.execRowRepair pc row s
  | .repairGo value => Sys2Proof.Machine.execRepairGo value s
  | .postPackageRepairDone resource => Sys2Proof.Machine.execPostPackageRepairDone resource s
  | .marginGo value => Sys2Proof.Machine.execMarginGo value s
  | .marginSweepDone => Sys2Proof.Machine.execMarginSweepDone s
  | .coreWatchdog ptile => Sys2Proof.Machine.execCoreWatchdog ptile s
  | .bandWatchdog band => Sys2Proof.Machine.execBandWatchdog band s
  | .railOutOfRegulation band => Sys2Proof.Machine.execRailOutOfRegulation band s
  | .tileUncorrectable ptile word => Sys2Proof.Machine.execTileUncorrectable ptile word s
  | .tileRemap die => Sys2Proof.Machine.execTileRemap die s
  | .partnerSwitch ptile => Sys2Proof.Machine.execPartnerSwitch ptile s
  | .tilSaveBaseWrite value => Sys2Proof.Machine.execTilSaveBaseWrite value s
  | .recordWrite => Sys2Proof.Machine.execRecordWrite s
  | .sectorEraseDone => Sys2Proof.Machine.execSectorEraseDone s
  | .consolidationStart => Sys2Proof.Machine.execConsolidationStart s
  | .consolidate => Sys2Proof.Machine.execConsolidate s
  | .hostRecord => Sys2Proof.Machine.execHostRecord s
  | .dbkReadSeqWrite seq => Sys2Proof.Machine.execDbkReadSeqWrite seq s
  | .dbkReadDone => Sys2Proof.Machine.execDbkReadDone s
  | .tokenRefill => Sys2Proof.Machine.execTokenRefill s
  | .getMeasurements => Sys2Proof.Machine.execGetMeasurements s
  | .getCerts => Sys2Proof.Machine.execGetCerts s
  | .attest => Sys2Proof.Machine.execAttest s
  | .imageUpdate => Sys2Proof.Machine.execImageUpdate s
  | .rollbackCommit => Sys2Proof.Machine.execRollbackCommit s
  | .debugNonce => Sys2Proof.Machine.execDebugNonce s
  | .debugUnlock => Sys2Proof.Machine.execDebugUnlock s
  | .daybookFormat => Sys2Proof.Machine.execDaybookFormat s
  | .ownerSet => Sys2Proof.Machine.execOwnerSet s
  | .random => Sys2Proof.Machine.execRandom s
  | .tamper sensor => Sys2Proof.Machine.execTamper sensor s
  | .entropyHealthFailure => Sys2Proof.Machine.execEntropyHealthFailure s
  | .lockWrite lock => Sys2Proof.Machine.execLockWrite lock s
  | .clearFaults => Sys2Proof.Machine.execClearFaults s
  | .capability => Sys2Proof.Machine.execCapability s
  | .statusWord => Sys2Proof.Machine.execStatusWord s
  | .statusInput => Sys2Proof.Machine.execStatusInput s
  | .statusTemperature => Sys2Proof.Machine.execStatusTemperature s
  | .readVin => Sys2Proof.Machine.execReadVin s
  | .readIin => Sys2Proof.Machine.execReadIin s
  | .readTemperature1 => Sys2Proof.Machine.execReadTemperature1 s
  | .readTemperature2 => Sys2Proof.Machine.execReadTemperature2 s
  | .readTemperature3 => Sys2Proof.Machine.execReadTemperature3 s
  | .readPin => Sys2Proof.Machine.execReadPin s
  | .pmbusRevision => Sys2Proof.Machine.execPmbusRevision s
  | .mfrId => Sys2Proof.Machine.execMfrId s
  | .mfrModel => Sys2Proof.Machine.execMfrModel s
  | .mfrSerial => Sys2Proof.Machine.execMfrSerial s
  | .mfrFlagAct value => Sys2Proof.Machine.execMfrFlagAct value s
  | .mfrFlagStatus => Sys2Proof.Machine.execMfrFlagStatus s
  | .mfrPowerCap write => Sys2Proof.Machine.execMfrPowerCap write s
  | .mfrModuleState => Sys2Proof.Machine.execMfrModuleState s
  | .pmbusUnsupportedCommand code => Sys2Proof.Machine.execPmbusUnsupportedCommand code s
  | .alertResponse => Sys2Proof.Machine.execAlertResponse s
  | .readClear offset => Sys2Proof.Machine.execReadClear offset s
  | .registerWrite bar offset wide value => Sys2Proof.Machine.execRegisterWrite bar offset wide value s
  | .insertion modId mv => Sys2Proof.Machine.execInsertion modId mv s
  | .overVoltage mv => Sys2Proof.Machine.execOverVoltage mv s
  | .uioCompletion tag data => Sys2Proof.Machine.execUioCompletion tag data s
  | .backInvalidateCompletion line data => Sys2Proof.Machine.execBackInvalidateCompletion line data s

end Sys2Proof.Machine
end

