-- ==== Sys2Proof/Machine/Tick.lean ====
section
/-! DEFINITION. The tick that an empty queue stands for (log entry 12). -/

namespace Sys2Proof.Machine

/-- One period of the always-on clock: the 25 MHz counter counts one and each die's 100 MHz local counter counts four, while
the hub has power (R617, R618). -/
def tick (d : Dev) : Dev :=
  if d.mgt.powered then
    { d with mgt := { d.mgt with
      aoCounter := d.mgt.aoCounter + 1
      counter0 := d.mgt.counter0 + 4
      counter1 := d.mgt.counter1 + 4 } }
  else d

end Sys2Proof.Machine
end

