-- ==== Sys2Proof/WellFormed.lean ====
section
/-! DEFINITION. Which commands are well formed: the numbers that come from outside name units the module has, lists have
the length of what they list, and lines and frames have their size. -/

namespace Sys2Proof

/-- A band of the module (R4). -/
def bandOk (b : Nat) : Bool := decide (b < 14)

/-- A physical tile (R4). -/
def ptileOk (p : Nat) : Bool := decide (p < 112)

/-- The address of a 64-byte line of HBM (R339, R492). -/
def lineOk (l : Nat) : Bool := decide (l % 64 = 0) && decide (l < 0x4800000000)

/-- Whether a command is well formed. -/
def Instr.wf : Instr → Bool
  | .sensorSample t _ h => decide (t.length = 112) && decide (h.length = 8)
  | .thermalThrottleStep b | .bandIdleGate b | .bandRetainIdle b | .bandOff b | .bandWakeComplete b
  | .bandWatchdog b | .railOutOfRegulation b => bandOk b
  | .coreWatchdog p | .partnerSwitch p => ptileOk p
  | .tileUncorrectable p w => ptileOk p && decide (w < 0x41400)
  | .hbm _ _ w => decide (w.length = 1280)
  | .qualification p m => decide (p.length = 16) && decide (m.length = 144)
  | .firmware n b u => decide (1 ≤ n) && decide (n ≤ 9) && (b ++ u).all fun a =>
    decide (a.data.length = 4096) && a.cores.all fun x => ptileOk x.1 && decide (x.2 < 9)
  | .overlays f => f.all ptileOk
  | .selfTest u => decide (u.length = 112)
  | .configurationRequest o _ => decide (o % 4 = 0) && decide (o < 4096)
  | .hostHdmRead l => lineOk l
  | .hostHdmWrite l _ _ => lineOk l
  | .backInvalidateCompletion l _ => lineOk l
  | .frameReceive _ e f => decide (e.uncorrectable ≤ 8) && decide (e.corrected.length ≤ 9) && decide (f.length = 5140)
  | .scrubRead g e => decide (g < 0x48000000) && e.all fun x => decide (x.word < 0x480000000) && x.bits.all fun b => decide (b < 144)
  | .readClear o => decide (o.2 % 8 = 0) && decide (o.2 < o.1.size)
  | .registerWrite b o w _ =>
    decide (o % (if w then 8 else 4) = 0) && decide (o < b.size)
  | _ => true

end Sys2Proof
end

