-- ==== Sys2Proof/Safety.lean ====
section
/-! DEFINITION. The terms that statements about a run use: what a command answers, what it leaves alone, which values the
control registers and the memory can hold. -/

namespace Sys2Proof.Machine

/-- The command answers a next state: the queue as it was, and a device for which `P` holds. -/
def Effect (i : Instr) (s : State) (P : Dev → Prop) : Prop := ∃ d, exec i s = .next { s with dev := d } ∧ P d

/-- The command answers a next state in which management, telemetry, Strongroom and queue are as they were, and a chip for
which `P` holds. -/
def ChipEffect (i : Instr) (s : State) (P : Chip → Prop) : Prop :=
  ∃ c, exec i s = .next { s with dev := { s.dev with chip := c } } ∧ P c

/-- The command answers a next state with this device. -/
def Gives (i : Instr) (s : State) (d : Dev) : Prop := exec i s = .next { s with dev := d }

/-- The command changes nothing. -/
def Idle (i : Instr) (s : State) : Prop := exec i s = .next s

/-- The second chip differs from the first at most in pending vectors and in what has been sent. -/
def OnlySignals (c c' : Chip) : Prop := c' = { c with out := c'.out, cxl := { c.cxl with vecPend := c'.cxl.vecPend } }

/-- Every cell that no address of the ranges (first address, bytes) names reads as before. -/
def SameCells (ranges : List (Nat × Nat)) (c c' : Chip) : Prop :=
  ∀ k, (∀ r ∈ ranges, ∀ i < r.2, canon (r.1 + i) ≠ some k) → cellByte c' k = cellByte c k

/-- What a descriptor's own work never touches: flags, collectives, fabric, CXL tables, tiles, Daybook, flash, stacks, and the
queues and streams of the Orrery. -/
def SameUnits (c c' : Chip) : Prop :=
  c'.vsp = c.vsp ∧ c'.clr = c.clr ∧ c'.til = c.til ∧ c'.dbk = c.dbk ∧ c'.flash = c.flash ∧ c'.openStacks = c.openStacks ∧
  c'.ory.wqs = c.ory.wqs ∧ c'.ory.streams = c.ory.streams ∧ c'.ory.evt = c.ory.evt ∧ c'.cxl.apers = c.cxl.apers ∧
  c'.cxl.hdms = c.cxl.hdms ∧ c'.fab.ports = c.fab.ports

/-- The entry with this identifier has ended with a status. -/
def EndedWith (id st : Nat) (c : Chip) : Prop := ∃ e, entryOf c id = some e ∧ e.phase = .done ∧ e.status = st

/-- The entry with this identifier still runs, at this position. -/
def RunsAt (id chunk groups : Nat) (c : Chip) : Prop :=
  ∃ e, entryOf c id = some e ∧ e.phase = .started ∧ e.chunk = chunk ∧ e.groups = groups ∧ e.begun = true

/-- Armed descriptors have identifiers of their own, below the next one to be given, and so has what a direct slot names. -/
def IdsDistinct (c : Chip) : Prop :=
  (c.ory.entries.map (·.id)).Nodup ∧ (∀ e ∈ c.ory.entries, e.id < c.ory.nextId) ∧
  ∀ q k, (c.wq q).direct = some k → k < c.ory.nextId

/-- Register writes of the host reach the blocks behind Ready (R499, R507). -/
def Live (s : State) : Prop := s.dev.mgt.ready = true ∧ s.dev.chip.cxl.ideHaltIo = false

/-- Nothing is left to arm in any queue. -/
def NothingToArm (c : Chip) : Prop := ∀ q, (c.wq q).fetched = (c.wq q).tail ∧ (c.wq q).submitted = none ∧ (c.wq q).shadow = none

/-- An SPDM response: sent where it fits a DOE buffer of 4 KiB, else kept for CHUNK_GET behind an error response. -/
def Answered (inst : DoeInst) (code : Nat) (body : List Byte) (c c' : Chip) : Prop :=
  (body.length ≤ 4096 → c' = { c with out := c.out ++ [.doe inst code body] }) ∧
  (4096 < body.length → c' = { c with cxl := { c.cxl with chunkOut := body }, out := c.out ++ [.doe inst 0x7F []] })

/-- The second chip's memory, poison and seals are the first's. -/
def SameStore (c c' : Chip) : Prop := c'.mem = c.mem ∧ c'.poison = c.poison ∧ c'.seals = c.seals

/-- Every entry but those named is as before. -/
def OthersStay (ids : List Nat) (c c' : Chip) : Prop := ∀ k, k ∉ ids → entryOf c' k = entryOf c k

/-- Memory holds the writes of one commit of an entry and nothing else has changed in it. -/
def Wrote (e : Entry) (ws : List Wr) (hold : TRef → Nat → Bool) (c c' : Chip) : Prop :=
  SameStore (commit e ws hold c) c' ∧
  SameCells (ws.map fun w => (phys e w.inactive (w.ref.addr + w.off), w.data.length)) c c'

/-- What a command answers for one unit of an operation by what its checks find: it waits, it ends with their status and
changes no memory, or it has the effect `P`, from the chip that the checks leave. -/
def UnitOutcome (i : Instr) (s : State) (id : Nat) (p : Pre) (P : Chip → Chip → Prop) : Prop :=
  match p with
  | .go c1 => ChipEffect i s (P c1)
  | .stop st _ => ChipEffect i s fun c' => EndedWith id st c' ∧ SameStore s.dev.chip c'
  | .wait c1 => Gives i s { s.dev with chip := c1 }

/-- A command with a count is so many units in turn. -/
def InUnits (f : Nat → Instr) (s : State) : Prop :=
  Idle (f 0) s ∧ ∀ n t, exec (f 1) s = .next t → exec (f (n + 1)) s = exec (f n) t

/-- The commands run in turn, the first from `s`, and the last leaves `t`. -/
def Runs : List Instr → State → State → Prop
  | [], s, t => t = s
  | i :: l, s, t => ∃ u, exec i s = .next u ∧ Runs l u t

/-- A collective of an entry is in flight: its group queue, code, sequence number, epoch and digest, waiting for its head. -/
def InFlight (id gq code seq epoch : Nat) (digest : W64) (c : Chip) : Prop :=
  ∃ k ∈ c.clr.colls, k.ent.any (·.id = id) = true ∧ k.gq = gq ∧ k.code = code ∧ k.seq = seq ∧ k.epoch = epoch ∧ k.digest = digest ∧
    k.phase = .head ∧ k.tranches ≠ []

/-- Some collective of the chip holds a tranche with this identifier for which `P` holds. -/
def TrancheIs (tid : Nat) (P : Tranche → Prop) (c : Chip) : Prop := ∃ k ∈ c.clr.colls, ∃ t ∈ k.tranches, t.tid = tid ∧ P t

/-- A packet has been handed to a port: sent as a frame, or kept in order until the port may send it. -/
def Handed (port : Nat) (t : PktType) (p : Packet) (c : Chip) : Prop :=
  (∃ seq, Out.packet t seq p ∈ c.out) ∨ (t, p) ∈ (c.port port).waiting

/-- The canonical form of memory: addresses strictly rising, and no listed byte equal to what an unlisted one reads as, 0. -/
def Memory.wf (m : FMap Byte) : Bool := fwf 0 m

/-- The canonical form of the module's memory, its poison, its seals and its flash. -/
def Chip.memWf (c : Chip) : Bool := Memory.wf c.mem && fwf false c.poison && fwf none c.seals && fwf 0xFF c.flash

/-- What the control registers hold in every run. -/
structure ControlInv (d : Dev) : Prop where
  /-- R629: cap_w holds 500 to 2,000 W. -/
  cap : 500 ≤ d.tel.capW.toNat ∧ d.tel.capW.toNat ≤ 2000
  /-- R636: TEL_BAND_SEL names one of 14 bands. -/
  band : d.tel.bandSel.toNat ≤ 13
  /-- R505: the stages are 0x00 to 0x0B. -/
  stage : d.mgt.stage.toNat ≤ 11
  /-- R511: fourteen waves. -/
  waves : d.mgt.waves ≤ 14
  /-- R525: ready from stage 0x0B on. -/
  ready : d.mgt.ready = true ↔ d.mgt.stage.toNat = 11
  /-- R502: a compute reset runs only once the module is ready. -/
  reset : d.mgt.computeReset = true → d.mgt.ready = true
  go : d.mgt.resetGo = true → d.mgt.computeReset = true
  /-- R609: a loss of power ends in the failed state. -/
  power : d.tel.powerLost = true → d.mgt.failed = true
  /-- R580: the limits are locked from the end of stage 0x03 on. -/
  locks : d.str.locks.toNat = if 4 ≤ d.mgt.stage.toNat then 0x7F else 0
  powered : d.mgt.stage.toNat ≠ 0 → d.mgt.powered = true
  /-- R595: only the ten commands occupy the mailbox. -/
  mailbox : d.str.go = true → 1 ≤ d.str.running.toNat ∧ d.str.running.toNat ≤ 10
  /-- R593: a Strongroom that has halted holds no key, no generator and no nonce. -/
  keys : d.str.keysHeld = true ∨ d.str.drbgOk = true → d.str.selftestOk = true ∧ d.str.halted = false
  nonce : d.str.halted = true → d.str.nonce = none
  /-- R600: STR_BUF is 4 KiB aligned and below 2^48. -/
  buf : d.str.buf.toNat % 4096 = 0 ∧ d.str.buf.toNat < 2 ^ 48
  /-- R605, R636: the sums behind the averages. -/
  energy : d.tel.energyFrac < 1000000
  sample : d.tel.pinCount < 1000 ∧ d.tel.recent.length ≤ 10

end Sys2Proof.Machine
end

