-- ==== Sys2Proof/Certificates/Slice0/Obligations.lean ====
section
/-! DEFINITION. The statements for the provers: what each command of the block does, in the spec's rules' terms, and what
every step keeps. -/

open Sys2Proof Sys2Proof.Machine

/-! ### The block as a whole -/

/-- R11's commands reach the module one at a time: a step takes the front of the queue and runs it with the queue's rest. -/
def Obligations.StepRunsTheFrontCommand : Prop :=
  ∀ (i : Instr) (r : List Instr) (d : Dev), step ⟨d, i :: r⟩ = exec i ⟨d, r⟩

/-- An empty queue is one period of the 25 MHz always-on clock (log entry 12, the model's choice): the always-on counter
counts one and each local counter four (R617, R618), nothing else changes, and without power nothing does. -/
def Obligations.EmptyQueueIsOneTick : Prop :=
  ∀ d : Dev,
    step ⟨d, []⟩ = .next ⟨if d.mgt.powered then
      { d with mgt := { d.mgt with
        aoCounter := d.mgt.aoCounter + 1, counter0 := d.mgt.counter0 + 4, counter1 := d.mgt.counter1 + 4 } } else d, []⟩

/-- Every well-formed command answers a next state that keeps the queue; no command faults; and a command is refused only
where it names a tile or band that R4 does not give the module.

The commands of a band or a physical tile that does not exist are refused by name (R4: 14 bands, 112 tiles), for every
number out of range and every state. -/
def Obligations.EveryCommandCompletes : Prop :=
  (∀ (i : Instr) (s : State),
     (i.wf = true → Effect i s fun _ => True) ∧ (∀ f, exec i s ≠ .fault f) ∧
     (∀ r, exec i s = .refused r → r = .noSuchUnit ∧ i.wf = false)) ∧
  (∀ (n w : Nat) (s : State),
     (14 ≤ n → ∀ i ∈ [Instr.thermalThrottleStep n, .bandIdleGate n, .bandRetainIdle n, .bandOff n, .bandWakeComplete n,
       .bandWatchdog n, .railOutOfRegulation n], exec i s = .refused .noSuchUnit) ∧
     (112 ≤ n → ∀ i ∈ [Instr.coreWatchdog n, .tileUncorrectable n w, .partnerSwitch n], exec i s = .refused .noSuchUnit))

/-- The registers at reset that the spec gives a value other than zero: TEL_CTRL (R636), ORY_CTRL (R415), HBM_CTRL (R368),
ASY_CTRL (R102), CLR_CTRL (R335), FAB_CTRL (R473), DBK_CTRL and the bucket's 512 tokens (R566, R569); no command waits.

The control registers' ranges hold in the state at reset, and so does the canonical form of memory. -/
def Obligations.ResetValuesAreInRange : Prop :=
  (let d := State.reset.dev
   State.reset.pending = [] ∧
   (d.tel.retainIdle = 10 ∧ d.tel.capW = 2000 ∧ d.tel.offSpares = true) ∧
   (d.chip.ory.lookahead = 32 ∧ d.chip.ory.idleGate = 20 ∧ d.chip.ory.joinWindow = 10 ∧ d.chip.ory.preemptEn = true) ∧
   (d.chip.hbm.scrubHours = 24 ∧ d.chip.hbm.ceThreshold = 16 ∧ d.chip.hbm.autoRepair = true ∧ d.chip.hbm.pprEn = true) ∧
   (d.chip.asy.sampleLog2 = 10 ∧ d.chip.asy.zeroEn = true ∧ d.chip.asy.sampleEn = true) ∧
   d.chip.clr.switchEn = true ∧ (d.chip.fab.swapThr = 40 ∧ d.chip.fab.swapEn = true) ∧
   (d.chip.dbk.wearWarnK = 80 ∧ d.chip.dbk.tokens = 512) ∧
   (∀ p < 112, (d.chip.tile p).attBatchEn = true ∧ (d.chip.tile p).codRawOnly = false ∧ (d.chip.tile p).codErrLimit = 0x7F800000) ∧
   (∀ q < 64, (d.chip.wq q).isOpen = false) ∧ (∀ f < 65536, flagSet d.chip f = false)) ∧
  (ControlInv State.reset.dev ∧ State.reset.dev.chip.memWf = true)

/-- The ranges of the control registers are kept by every step: cap_w stays within 500 to 2,000 W (R629), the stage within
0x00 to 0x0B, ready holds from stage 0x0B on (R525), a compute reset runs only once ready (R502), a loss of power ends in the
failed state (R609), the limits stay locked from stage 0x03's end (R580), the mailbox holds one of its ten commands (R595),
a halted Strongroom holds no key and no nonce (R593), and the sums behind the power averages stay bounded (R605). -/
def Obligations.EveryStepKeepsTheControlRanges : Prop :=
  ∀ s t : State, ControlInv s.dev → step s = .next t → ControlInv t.dev

/-- The operations over memory keep its canonical form: single bytes, runs of bytes, poison, seals, a whole commit, and a
cleared range of whole granules (R339, R345, R350). -/
def Obligations.MemoryOperationsKeepItsForm : Prop :=
  ∀ c : Chip, c.memWf = true →
    (∀ a v, (writeByte a v c).memWf = true) ∧ (∀ a l, (writeBytes a l c).memWf = true) ∧
    (∀ a v, (setPoison a v c).memWf = true) ∧ (∀ a v, (setSeal a v c).memWf = true) ∧
    (∀ a n, (clearRange a n c).memWf = true) ∧ (∀ e w, (applyWrite e w c).memWf = true) ∧
    (∀ e ws hold, (commit e ws hold c).memWf = true)

/-- Armed descriptors keep their own identifiers: in every step from a state where they are distinct and below the next one,
they stay so, and no reset state holds any. -/
def Obligations.DescriptorIdentifiersStayDistinct : Prop :=
  IdsDistinct State.reset.dev.chip ∧
  ∀ s t : State, IdsDistinct s.dev.chip → step s = .next t → IdsDistinct t.dev.chip

/-- A byte written to a cell is the byte read there, through either view of it (R339, R340), and every other cell keeps its
byte.

The interleaved view and the stack-local view name the same cells: every local address of a stack has a cell, and the
cell's own local name is that address (R340). -/
def Obligations.WritesReadBackThroughBothViews : Prop :=
  (∀ (c : Chip) (a b : Nat) (v : Byte),
     (canon a ≠ none → canon b = canon a → readByte (writeByte a v c) b = v) ∧
     (canon b ≠ canon a → readByte (writeByte a v c) b = readByte c b)) ∧
  ((∀ s < 8, ∀ b < 0x900000000, ∃ k, canon (0x400000000000 + s * 0x1000000000 + b) = some k ∧ k < hbmTop ∧
     globalToLocal k = 0x400000000000 + s * 0x1000000000 + b) ∧
   (∀ k < hbmTop, canon (globalToLocal k) = some k))

/-! ### Power, temperatures and references -/

/-- LOSS_OF_POWER, CURRENT_LIMIT_TIMEOUT and THERMAL_TRIP (R606, R609, R624): the module loses power. Every band is Off, no
stack is trained, no port has a link, work in progress has ended, HBM is cleared, power_lost and failed are set, and the
Daybook takes no more records; a trip and a timeout also open the input switch. The hub, the stage, the rank, the flash and
the fuses stay.

TRIP_LATCH_CLEAR (R624): below 10 V the trip latch clears, the switch closes and nothing is powered. INSERTION (R601,
R626): the hub powers into stage 0x00 and reads the strap. PWR_GOOD_ASSERT and the release of RESET_N (R504): a cold start at
stage 0x01 while the switch is closed; the assertion of RESET_N stops every stage. The flash and the fuses stay. -/
def Obligations.PowerAndColdStart : Prop :=
  (∀ (s : State) (pg : Bool), s.dev.mgt.powered = true → s.dev.tel.powerLost = false →
     let off (d : Dev) : Prop :=
       d.tel.powerLost = true ∧ d.mgt.failed = true ∧ d.mgt.computeReset = false ∧ (∀ b < 14, (d.band b).state = 0) ∧
       d.chip.hbm.trained = 0 ∧ (∀ p < 16, (d.chip.port p).state = 0 ∨ (d.chip.port p).state = 5) ∧
       d.chip.ory.entries = [] ∧ d.chip.vsp.flags = 0 ∧ (∀ k < hbmTop, cellByte d.chip k = 0) ∧ d.chip.dbk.flushed = true ∧
       d.mgt.powered = true ∧ d.mgt.stage = s.dev.mgt.stage ∧ d.mgt.rank = s.dev.mgt.rank ∧
       d.chip.til.almanac = s.dev.chip.til.almanac
     Effect (.lossOfPower pg) s (fun d => off d ∧ d.mgt.pwrGood = (s.dev.mgt.pwrGood && pg)) ∧
     (s.dev.tel.currentLimit = true → Effect .currentLimitTimeout s fun d => off d ∧ d.tel.switchOpen = true) ∧
     Effect .thermalTrip s fun d => off d ∧ d.tel.switchOpen = true ∧ d.tel.tripLatch = true) ∧
  (∀ (s : State) (id : BitVec 6) (mv : Nat),
     let kept (d : Dev) : Prop := d.chip.flash = s.dev.chip.flash ∧ d.chip.til.almanac = s.dev.chip.til.almanac ∧
       d.chip.mem = [] ∧ d.chip.ory.entries = [] ∧ d.mgt.failed = false ∧ d.mgt.ready = false ∧ d.mgt.serial = s.dev.mgt.serial
     Effect .tripLatchClear s (fun d => d.tel.tripLatch = false ∧ d.tel.switchOpen = false ∧ d.mgt.powered = false ∧ d.mgt.stage = 0) ∧
     (s.dev.mgt.powered = false → Effect (.insertion id mv) s fun d =>
       kept d ∧ d.mgt.powered = true ∧ d.mgt.stage = 0 ∧ d.mgt.modId = id ∧ d.tel.vin = .ofNat 16 mv) ∧
     (s.dev.mgt.powered = true → s.dev.mgt.pwrGood = false → s.dev.mgt.resetHeld = false → s.dev.tel.switchOpen = false →
       Effect .pwrGoodAssert s fun d => kept d ∧ d.mgt.pwrGood = true ∧ d.mgt.stage = 1) ∧
     Effect (.resetN true) s (fun d => kept d ∧ d.mgt.resetHeld = true ∧ d.mgt.stage = 0) ∧
     (s.dev.mgt.powered = true → s.dev.mgt.pwrGood = true → s.dev.tel.switchOpen = false → s.dev.mgt.stage = 0 →
       Effect (.resetN false) s fun d => d = { s.dev with mgt := { s.dev.mgt with resetHeld := false, stage := 1 } }))

/-- VIN_LOW, OVER_VOLTAGE, INPUT_OVERCURRENT and INPUT_RESTORED (R556, R604, R606, R627): what each measures, the status bit
that it latches, its event where the condition begins, and every band at throttle step 15 above 57 A. Management and
Strongroom stay, and the chip but for the Daybook's flush at a restored input.

The references (R620): REF25_LOST sets ref25_lost and its event, REF25_RETURN clears the bit and resets nothing,
CXL_REFCLK_LOST takes the link down, and FAB_REF_LOST takes down the ports of its connector that have a link, and no other. -/
def Obligations.InputAndReferenceConditions : Prop :=
  (∀ (s : State) (mv ma : Nat), s.dev.mgt.powered = true →
     let kept (d : Dev) : Prop := d.mgt = s.dev.mgt ∧ d.str = s.dev.str ∧ OnlySignals s.dev.chip d.chip ∧
       d.tel.capW = s.dev.tel.capW ∧ d.tel.energy = s.dev.tel.energy
     (38000 ≤ mv → mv < 40000 → Effect (.vinLow mv) s fun d =>
       kept d ∧ d.tel.vin.toNat = mv ∧ d.tel.vinLow = true ∧ d.tel.latched.getLsbD 5 = true ∧
       (s.dev.tel.vinLow = false → d.tel.evt.getLsbD 3 = true) ∧ d.tel.bands = s.dev.tel.bands) ∧
     (52000 < mv → Effect (.overVoltage mv) s fun d =>
       kept d ∧ d.tel.overVoltage = true ∧ d.tel.latched.getLsbD 7 = true ∧ d.tel.bands = s.dev.tel.bands) ∧
     (57000 < ma → Effect (.inputOvercurrent ma) s fun d =>
       kept d ∧ d.tel.currentLimit = true ∧ d.tel.latched.getLsbD 1 = true ∧ (∀ b < 14, throttle d b = 15) ∧
       (s.dev.tel.currentLimit = false → d.tel.evt.getLsbD 0 = true)) ∧
     (s.dev.mgt.pwrGood = true → s.dev.tel.powerLost = true → s.dev.tel.switchOpen = false → 40000 ≤ mv →
       Effect (.inputRestored mv) s fun d => d.mgt = s.dev.mgt ∧ d.str = s.dev.str ∧ d.tel.powerLost = true ∧
         d.tel.vin = .ofNat 16 mv ∧ d.chip.dbk.erases.all (!·.suspended) = true ∧ d.chip.mem = s.dev.chip.mem)) ∧
  (∀ (s : State) (die : BitVec 1), s.dev.mgt.powered = true →
     (s.dev.tel.ref25Lost = false → Effect .ref25Lost s fun d =>
       d.tel.ref25Lost = true ∧ d.tel.evt.getLsbD 4 = true ∧ d.mgt = s.dev.mgt ∧ d.str = s.dev.str ∧ OnlySignals s.dev.chip d.chip) ∧
     Gives .ref25Return s { s.dev with tel := { s.dev.tel with ref25Lost := false } } ∧
     Effect .cxlRefclkLost s (fun d => d.chip.cxl.link = none ∧ d.chip.cxl.refclk = false ∧ d.mgt = s.dev.mgt ∧
       d.chip.mem = s.dev.chip.mem ∧ d.chip.fab = s.dev.chip.fab) ∧
     Effect (.fabRefLost die) s fun d =>
       d.mgt = s.dev.mgt ∧ d.chip.mem = s.dev.chip.mem ∧
       ∀ p < 16, (d.chip.port p).state =
         if p / 8 = die.toNat ∧ (s.dev.chip.port p).state ≠ 5 then 0 else (s.dev.chip.port p).state)

/-- POWER_SAMPLE (R605, R636): TEL_ENERGY counts whole millijoules of the samples, the newest sample leads the last ten, and
above cap_w every band takes a throttle step. Below it a loop that holds none stays off.

STRESS_SAMPLE (R548): every account, of a rail, a fabric lane or a pseudo-channel, gains one minute's units at its own
temperature. -/
def Obligations.SamplesFillTheCounters : Prop :=
  (∀ (s : State) (mv ma mw : Nat), s.dev.mgt.powered = true →
     Effect (.powerSample mv ma mw) s fun d =>
       d.mgt = s.dev.mgt ∧ d.str = s.dev.str ∧ d.tel.vin = .ofNat 16 mv ∧ d.tel.iin = .ofNat 17 ma ∧
       d.tel.energy = s.dev.tel.energy + BitVec.ofNat 64 ((s.dev.tel.energyFrac + mw) / 1000000) ∧
       d.tel.energyFrac = (s.dev.tel.energyFrac + mw) % 1000000 ∧
       d.tel.recent = (mw :: s.dev.tel.recent).take 10 ∧
       (s.dev.tel.pinCount = 999 → d.tel.pin = .ofNat 22 ((s.dev.tel.pinSum + mw) / 1000) ∧ d.tel.pinCount = 0) ∧
       (s.dev.tel.capW.toNat * 1000 < mw → d.tel.cap = true ∧ ∀ b < 14, 1 ≤ throttle d b) ∧
       (mw ≤ s.dev.tel.capW.toNat * 1000 → (∀ b < 14, (s.dev.band b).capStep = 0) →
         d.tel.cap = false ∧ ∀ b < 14, (d.band b).capStep = 0)) ∧
  (∀ s : State, s.dev.mgt.powered = true → s.dev.chip.dbk.mode ≠ 0 →
     Effect .stressSample s fun d =>
       (∀ x ∈ accounts, fget 0 d.chip.dbk.wear (account x.1 x.2) =
         fget 0 s.dev.chip.dbk.wear (account x.1 x.2) + stressStep (hottest s.dev x.1 x.2)) ∧
       d.mgt = s.dev.mgt ∧ d.tel = s.dev.tel ∧ d.str = s.dev.str ∧ d.chip.mem = s.dev.chip.mem ∧ d.chip.ory = s.dev.chip.ory)

/-- SENSOR_SAMPLE (R621 to R623): TEL_TEMP takes the hottest sensor of each die, hub and the stacks; a band at 98 °C or more
is held, and a die with a stack above 100 °C applies step 8 or more to each of its bands. THERMAL_THROTTLE_STEP (R622): a band's step rises to
at most 15 at 98 °C or more, falls at 95 °C or less, and stays between; no other band changes. -/
def Obligations.HotBandsAreThrottled : Prop :=
  (∀ (s : State) (tiles hubs hbm : List Int), s.dev.mgt.powered = true → tiles.length = 112 → hbm.length = 8 →
    Effect (.sensorSample tiles hubs hbm) s fun d =>
      d.mgt = s.dev.mgt ∧ d.str = s.dev.str ∧ d.tel.tempDie0 = hottestOf (tiles.take 56) ∧ d.tel.tempDie1 = hottestOf (tiles.drop 56) ∧
      d.tel.tempHub = hottestOf hubs ∧ d.tel.tempHbm = hottestOf hbm ∧
      (∀ p < 112, 98 * 16 ≤ tiles.getD p 0 → (d.band (bandOf p)).held = true) ∧
      (∀ k < 8, 100 * 16 < hbm.getD k 0 → ∀ b < 7, 8 ≤ throttle d (7 * (k / 4) + b)) ∧
      (98 * 16 ≤ d.tel.junction → d.tel.latched.getLsbD 14 = true) ∧ (100 * 16 < d.tel.tempHbm → d.tel.latched.getLsbD 13 = true)) ∧
  (∀ (s : State) (b : Nat), s.dev.mgt.powered = true → b < 14 →
    Effect (.thermalThrottleStep b) s fun d =>
      let t := (s.dev.band b).thermalStep.toNat
      (d.band b).thermalStep.toNat = (if 98 * 16 ≤ (s.dev.band b).temp then min 15 (t + 1)
        else if (s.dev.band b).temp ≤ 95 * 16 then t - 1 else t) ∧
      (∀ x, x ≠ b → d.band x = s.dev.band x) ∧ d.mgt = s.dev.mgt ∧ d.str = s.dev.str ∧ OnlySignals s.dev.chip d.chip)

/-- The band commands (R394, R612, R613): an idle band goes from Run to Gated and from Gated to Retain, a spare band goes Off,
and a woken one reaches Run; nothing but that band changes, and what its tiles kept in place for a restart where its supply goes
(R129, R612). -/
def Obligations.BandsMoveBetweenPowerStates : Prop :=
  ∀ (s : State) (b : Nat), b < 14 → inService s.dev.mgt = true →
    let x := s.dev.band b
    let down (st : BitVec 2) (d : Dev) : Prop :=
      d.band b = { x with state := st } ∧ (∀ k, k ≠ b → d.band k = s.dev.band k) ∧
      (∀ p, d.chip.tile p = if p ∈ tilesOfBand b then { s.dev.chip.tile p with inPlace := [] } else s.dev.chip.tile p) ∧
      d = { s.dev with
        tel := { s.dev.tel with bands := d.tel.bands }
        chip := { s.dev.chip with til := { s.dev.chip.til with tiles := d.chip.til.tiles } } }
    (x.state = 3 → s.dev.chip.ory.idleGate ≠ 0 → wanted s.dev.chip b = false →
      Gives (.bandIdleGate b) s (s.dev.setBand b { x with state := 2 })) ∧
    (x.state = 2 → s.dev.tel.retainIdle ≠ 0 → onBandNow s.dev.chip b = [] → x.waking = false →
      Effect (.bandRetainIdle b) s (down 1)) ∧
    (s.dev.tel.offSpares = true → x.waking = false → (∀ p, bandOf p = b → p < 112 →
        (s.dev.chip.tile p).role ≠ 0 ∧ (s.dev.chip.tile p).role ≠ 3) →
      Effect (.bandOff b) s (down 0)) ∧
    (s.dev.mgt.computeReset = false → x.state ≠ 3 → (x.waking = true ∨ wanted s.dev.chip b = true) →
      Gives (.bandWakeComplete b) s (s.dev.setBand b { x with state := 3, waking := false })) ∧
    ∀ (y : Band) (k : Nat), (s.dev.setBand b y).band k = if k = b then y else s.dev.band k

/-! ### The sideband -/

/-- The PMBus reads (R627): each returns its data and changes nothing else. Measured values are LINEAR11, words go low byte
first, and a block leads with its byte count.

LINEAR11 (R627): a value that some exponent holds is written within one unit of the mantissa's last place, toward zero,
with a 5-bit exponent over an 11-bit mantissa, whatever exponent the device picks. -/
def Obligations.SidebandReadsReturnTheirData : Prop :=
  (∀ s : State, pmbusOn s.dev = true →
     let t := s.dev.tel
     ∀ x ∈ ([(Instr.capability, [0xD0]), (.pmbusRevision, [0x33]),
         (.mfrId, [6, 0x53, 0x41, 0x4C, 0x52, 0x55, 0x53]),
         (.mfrModel, [10, 0x51, 0x5A, 0x42, 0x2D, 0x32, 0x38, 0x38, 0x2D, 0x4C, 0x43]),
         (.mfrSerial, 16 :: hexDigits 16 s.dev.mgt.serial.toNat),
         (.statusInput, [BitVec.ofNat 8 t.latched.toNat]), (.statusTemperature, [BitVec.ofNat 8 (t.latched.toNat / 256)]),
         (.statusWord, toBytes 2 (statusWord t)),
         (.readVin, toBytes 2 (linear11 t.vin.toNat 1000)), (.readIin, toBytes 2 (linear11 t.iin.toNat 1000)),
         (.readPin, toBytes 2 (linear11 t.pin.toNat 1000)),
         (.readTemperature1, toBytes 2 (linear11 (max t.tempDie0 t.tempDie1) 16)),
         (.readTemperature2, toBytes 2 (linear11 t.tempHbm 16)), (.readTemperature3, toBytes 2 (linear11 t.tempHub 16)),
         (.mfrFlagStatus, [0, s.dev.chip.vsp.manualResult]),
         (.mfrModuleState, [BitVec.ofNat 8 (b2n s.dev.mgt.ready + 2 * b2n s.dev.mgt.computeReset + 4 * b2n s.dev.mgt.failed),
           s.dev.mgt.stage]),
         (.mfrPowerCap none, toBytes 2 t.capW.toNat)] : List (Instr × List Byte)),
       Gives x.1 s { s.dev with chip := { s.dev.chip with out := s.dev.chip.out ++ [.pmbus x.2] } }) ∧
  (∀ (num : Int) (den : Nat), 0 < den → num.natAbs ≤ 1023 * 2 ^ 15 * den →
     let w := linear11 num den
     let e := sgn 5 (w / 2048)
     let m := sgn 11 (w % 2048)
     w < 65536 ∧ (m * 2 ^ (e + 16).toNat * den - num * 2 ^ 16).natAbs < 2 ^ (e + 16).toNat * den ∧
     (0 ≤ num → 0 ≤ m) ∧ (num ≤ 0 → m ≤ 0))

/-- The PMBus commands that write (R441, R627 to R629): CLEAR_FAULTS leaves only the bits whose conditions hold and releases
ALERT_N, ALERT_RESPONSE releases it and keeps every bit, an unsupported command sets the communication bit and returns no
data, and MFR_POWER_CAP writes cap_w within 500 to 2,000 W and leaves it otherwise. MFR_FLAG_ACT acts as VSP_MANUAL by path 1. -/
def Obligations.SidebandWritesActOnStatusAndCap : Prop :=
  ∀ (s : State) (code : Byte) (w : BitVec 16) (v : W32), pmbusOn s.dev = true →
    Effect .clearFaults s (fun d => d.tel.latched = s.dev.tel.latched &&& s.dev.tel.conditions ∧ d.tel.comm = false ∧
      d.tel.alert = false ∧ d.chip = s.dev.chip ∧ d.mgt = s.dev.mgt ∧ d.str = s.dev.str) ∧
    Effect .alertResponse s (fun d => d.tel.latched = s.dev.tel.latched ∧ d.tel.alert = false ∧ d.chip = s.dev.chip ∧
      d.mgt = s.dev.mgt ∧ d.str = s.dev.str) ∧
    Gives (.pmbusUnsupportedCommand code) s { s.dev with
      tel := { s.dev.tel with comm := true }, chip := { s.dev.chip with out := s.dev.chip.out ++ [.pmbus []] } } ∧
    Gives (.mfrPowerCap (some w)) s (if 500 ≤ w.toNat ∧ w.toNat ≤ 2000 then
      { s.dev with tel := { s.dev.tel with capW := w.setWidth 11 } } else s.dev) ∧
    (s.dev.mgt.ready = true →
      Gives (.mfrFlagAct v) s { s.dev with chip := manualAct s.dev.mgt v 1 s.dev.chip })

/-- R629: cap_w is one field, written through TEL_CTRL and through MFR_POWER_CAP: each write of 500 to 2,000 W gives it that
value whatever was written before, a value outside leaves it, and a read through either path returns it. -/
def Obligations.PowerCapIsOneField : Prop :=
  ∀ (s : State) (w : BitVec 16) (v : W64), pmbusOn s.dev = true → s.dev.chip.cxl.ideHaltIo = false →
    let n := bitsOf v.toNat 8 11
    let fits (k : Nat) : Prop := 500 ≤ k ∧ k ≤ 2000
    (fits w.toNat → Effect (.mfrPowerCap (some w)) s fun d => d.tel.capW.toNat = w.toNat) ∧
    (¬fits w.toNat → Idle (.mfrPowerCap (some w)) s) ∧
    (fits n → Effect (.registerWrite .bar0 0xA00000 true v) s fun d => d.tel.capW.toNat = n) ∧
    (¬fits n → Effect (.registerWrite .bar0 0xA00000 true v) s fun d => d.tel.capW = s.dev.tel.capW) ∧
    (Effect (.mfrPowerCap none) s fun d => d.chip.out = s.dev.chip.out ++ [.pmbus (toBytes 2 s.dev.tel.capW.toNat)]) ∧
    (Effect (.readClear (.bar0, 0xA00000)) s fun d => ∃ x, d.chip.out = s.dev.chip.out ++ [.regRead .bar0 0xA00000 x] ∧
      bitsOf x.toNat 8 11 = s.dev.tel.capW.toNat)

/-! ### Start-up -/

/-- Stages 0x01 to 0x03 (R509, R510, R524, R572, R576, R580): passing self-tests open the Strongroom's keys; the fuse map
excludes its bad tiles; and images that verify lock the limits. A failure keeps the stage, sets failed and turns every band Off.

Stage 0x0A (R513, R520, R522, R523, R525): tiles that fail their test are excluded, all of HBM reads zero, and with six
candidates in every quadrant the module is Ready with each of the 96 numbers backed or listed as unbacked; with fewer, start-up
fails in this stage. -/
def Obligations.StartupBeginsAndEnds : Prop :=
  (∀ s : State,
     let failedAt (n : Nat) (d : Dev) : Prop := d.mgt.failed = true ∧ d.mgt.stage.toNat = n ∧ ∀ b < 14, (d.band b).state = 0
     let good (kind : Nat) : Prop := ∃ x ∈ [0, 1], verifyFlash s.dev kind x = 0
     (inStage 1 s.dev = true → s.dev.str.halted = false → Effect (.alwaysOn true) s fun d => d.mgt.stage = 2 ∧
       d.str.selftestOk = true ∧ d.str.keysHeld = true ∧ d.str.drbgOk = true ∧ d.chip = s.dev.chip ∧ d.tel = s.dev.tel) ∧
     (inStage 1 s.dev = true → Effect (.alwaysOn false) s fun d => failedAt 1 d ∧ d.str = s.dev.str) ∧
     (inStage 2 s.dev = true → Effect .almanac s fun d => d.mgt.stage = 3 ∧ d.tel = s.dev.tel ∧
       ∀ p < 112, s.dev.chip.til.almanac.tileBad.getLsbD p = true → (d.chip.tile p).role = 2) ∧
     (inStage 3 s.dev = true → Effect .images s fun d =>
       (good 0 ∧ good 1 → d.mgt.stage = 4 ∧ d.mgt.failed = false ∧ d.str.locks = 0x7F ∧
         verifyFlash s.dev 0 (b2n d.str.bootB) = 0 ∧ verifyFlash s.dev 1 (b2n d.str.cfgSlot1) = 0) ∧
       (¬(good 0 ∧ good 1) → failedAt 3 d ∧ d.str.locks = s.dev.str.locks))) ∧
  (∀ (s : State) (units : List (BitVec 8)), inStage 10 s.dev = true →
     Effect (.selfTest units) s fun d =>
       (∀ k < hbmTop, cellByte d.chip k = 0) ∧
       (∀ p < 112, units.getD p 0 ≠ 0 → (d.chip.tile p).role = 2) ∧
       ((∀ q < 8, 6 ≤ (candidates d.chip q).length) →
         d.mgt.stage = 11 ∧ d.mgt.ready = true ∧ d.chip.vsp.ready = true ∧ d.mgt.evt.getLsbD 0 = true ∧ d.mgt.failed = false ∧
         ∀ t < 96, (∃ p < 112, (d.chip.tile p).role = 0 ∧ (d.chip.tile p).logical.toNat = t) ∨ t ∈ d.chip.til.unbacked) ∧
       (¬(∀ q < 8, 6 ≤ (candidates d.chip q).length) →
         d.mgt.failed = true ∧ d.mgt.stage = 10 ∧ d.mgt.ready = s.dev.mgt.ready ∧ ∀ b < 14, (d.band b).state = 0))

/-- Stages 0x04 and 0x05 (R511, R512, R523): each wave lights one band, alternating the dies, and a band that does not load
has its tiles excluded; BANDS follows the fourteenth wave; HBM passes only where every stack trained, is not fused bad and has
its windows, and fails otherwise.

Stages 0x06 to 0x09 (R514, R515, R518, R519): enabled ports that train go on to qualification and end Active or Down,
disabled ones stay so; a core takes a block of the manifest only with the manifest's digest, and a tile of which a core lacks a block, or
whose overlay failed, is excluded. -/
def Obligations.BandsStacksAndPortsComeUp : Prop :=
  (∀ (s : State) (loaded : Bool) (first second : BitVec 8) (windows : List Nat),
     let w := s.dev.mgt.waves
     let b := 7 * (w % 2) + w / 2
     let allUp : Prop := ∀ k < 8, (first.getLsbD k || second.getLsbD k) = true ∧
       s.dev.chip.til.almanac.stackBad.getLsbD k = false ∧ ∀ i < 32, windowsOk windows (32 * k + i) = true
     (inStage 4 s.dev = true → w < 14 → Effect (.bandWave loaded) s fun d =>
       d.mgt.waves = w + 1 ∧ (d.band b).state = 2 ∧ (∀ x, x ≠ b → d.band x = s.dev.band x) ∧ d.mgt.stage = 4 ∧ d.str = s.dev.str ∧
       (loaded = false → ∀ p < 112, bandOf p = b → (d.chip.tile p).role = 2) ∧ (loaded = true → d.chip = s.dev.chip)) ∧
     (inStage 4 s.dev = true → 14 ≤ w → Effect .bands s fun d =>
       d.mgt.stage = 5 ∧ d.tel = s.dev.tel ∧ d.str = s.dev.str ∧ d.chip.mem = s.dev.chip.mem ∧ d.chip.til = s.dev.chip.til) ∧
     (inStage 5 s.dev = true → Effect (.hbm first second windows) s fun d =>
       (allUp → d.mgt.stage = 6 ∧ d.mgt.failed = false ∧ d.chip.hbm.trained = 0xFF) ∧
       (¬allUp → d.mgt.stage = 5 ∧ d.mgt.failed = true ∧ d.chip.hbm.trained ≠ 0xFF))) ∧
  (∀ (s : State) (trained enene : BitVec 16) (passed : List (BitVec 9)) (margins : List Nat) (n : Nat) (broadcast unicast : List FwArrival)
     (bad : List Nat),
     let arrivals := broadcast ++ unicast
     let usable (p : Nat) : Prop := p < 112 ∧ s.dev.chip.til.almanac.tileBad.getLsbD p = false ∧ s.dev.mgt.bandBad.getLsbD (bandOf p) = false
     let man := s.dev.chip.til.manifest
     let good (core : Nat) (b : FwBlock) (a : FwArrival) : Prop := a.index = b.index ∧ accepts man core a = true
     (inStage 6 s.dev = true → Effect (.portTraining trained enene) s fun d => d.mgt.stage = 7 ∧ d.tel = s.dev.tel ∧ d.str = s.dev.str ∧
       ∀ p < 16, (d.chip.port p).state =
         if (s.dev.chip.port p).disable then 5 else if trained.getLsbD p then 2 else 0) ∧
     (inStage 7 s.dev = true → (∀ p < 16, (s.dev.chip.port p).state ∈ [0, 2, 5]) →
       Effect (.qualification passed margins) s fun d => d.mgt.stage = 8 ∧
         ∀ p < 16, (d.chip.port p).state ∈ [0, 3, 5] ∧ ((d.chip.port p).state = 3 → (s.dev.chip.port p).state = 2)) ∧
     (inStage 8 s.dev = true → n < 16 → Effect (.firmware n broadcast unicast) s fun d => d.mgt.stage = 9 ∧
       ∀ p, usable p →
         (let whole : Prop := ∀ core < 9, ∀ b ∈ man, b.takes core = true → ∃ a ∈ arrivals, (p, core) ∈ a.cores ∧ good core b a
          ((d.chip.tile p).fwComplete = true ↔ whole) ∧ (¬whole → (d.chip.tile p).role = 2)) ∧
         (d.chip.tile p).fwPasses.toNat = n ∧
         ∀ core < 9, fget 0 (d.chip.tile p).accepted core = acceptedBy man arrivals p core) ∧
     (inStage 9 s.dev = true → Effect (.overlays bad) s fun d => d.mgt.stage = 10 ∧ d.tel = s.dev.tel ∧
       ∀ p < 112, (p ∈ bad → (d.chip.tile p).role = 2) ∧ (p ∉ bad → d.chip.tile p = s.dev.chip.tile p)))

/-! ### Compute resets -/

/-- A compute reset, requested by MGT_COMPUTE_RESET, a function-level, hot or conventional reset (R500, R501, R616): every queue
is closed, no descriptor or collective is left, no flag is set, tile SRAM reads zero, bands in Run go to Gated, and HBM reads
zero unless keep_hbm is set; the stage and the rank stay. A function-level reset keeps the link and the aperture table, the two
others reset them.

A request before the module is in service changes nothing (R502), one while a compute reset runs joins it and only
sets go and records its type, and COMPUTE_RESET_DONE clears compute_reset and go and sets reset_done (R503). -/
def Obligations.ComputeResetEndsAllWork : Prop :=
  (∀ (s : State) (v : W32), inService s.dev.mgt = true → s.dev.mgt.computeReset = false → s.dev.mgt.pwrGood = true →
     s.dev.mgt.resetHeld = false → s.dev.mgt.powered = true →
     let done (code : Nat) (d : Dev) : Prop :=
       d.mgt.computeReset = true ∧ d.mgt.resetGo = decide (code = 4) ∧ d.mgt.stage = s.dev.mgt.stage ∧ d.mgt.rank = s.dev.mgt.rank ∧
       d.chip.cxl.lastReset.toNat = code ∧ d.chip.ory.entries = [] ∧ (∀ q, (d.chip.wq q).isOpen = false) ∧
       d.chip.clr.gqs = [] ∧ d.chip.clr.colls = [] ∧ d.chip.vsp.flags = 0 ∧ d.chip.vsp.watches = [] ∧
       (∀ k, sramBase ≤ k → k < sramBase + 0x18000000 → cellByte d.chip k = 0) ∧ (∀ b < 14, (d.band b).state ≠ 3) ∧
       (s.dev.chip.cxl.keepHbm = false → ∀ k < hbmTop, cellByte d.chip k = 0) ∧
       (s.dev.chip.cxl.keepHbm = true → s.dev.chip.til.pending0 = [] → s.dev.chip.til.pending1 = [] →
         (∀ p < 112, (s.dev.chip.tile p).role ≠ 3) → ∀ k < hbmTop, cellByte d.chip k = cellByte s.dev.chip k)
     (s.dev.chip.cxl.ideHaltIo = false → v.getLsbD 0 = true → Effect (.computeReset v) s (done 4)) ∧
     Effect .functionLevelReset s (fun d => done 3 d ∧ d.chip.cxl.link = s.dev.chip.cxl.link ∧ d.chip.cxl.apers = s.dev.chip.cxl.apers) ∧
     Effect .hotReset s (fun d => done 2 d ∧ d.chip.cxl.link = none ∧ d.chip.cxl.apers = []) ∧
     Effect .conventionalReset s (fun d => done 1 d ∧ d.chip.cxl.link = none ∧ d.chip.cxl.apers = [])) ∧
  (∀ (s : State) (v : W32),
     (inService s.dev.mgt = false → Idle (.computeReset v) s) ∧
     (inService s.dev.mgt = true → s.dev.mgt.computeReset = true → s.dev.mgt.powered = true → s.dev.chip.cxl.ideHaltIo = false →
       v.getLsbD 0 = true → Gives (.computeReset v) s
         { s.dev with
           mgt := { s.dev.mgt with resetGo := true }
           chip := { s.dev.chip with cxl := { s.dev.chip.cxl with lastReset := 4 } } }) ∧
     (s.dev.mgt.computeReset = true → Effect .computeResetDone s fun d =>
       d.mgt.computeReset = false ∧ d.mgt.resetGo = false ∧ d.mgt.evt.getLsbD 1 = true ∧ d.chip.vsp.ready = true ∧
       d.chip.hbm.sweeping = false ∧ d.mgt.stage = s.dev.mgt.stage ∧ d.chip.mem = s.dev.chip.mem ∧ d.tel = s.dev.tel))

/-! ### Queues and the Orrery -/

/-- WQ_OPEN (R378): the result goes to the selected queue; 0x1 opens it with the negotiated version and every index at zero,
any other leaves it as it was; no other queue and nothing else changes. -/
def Obligations.OpenNegotiatesOrReports : Prop :=
  ∀ s : State, Live s →
    let c := s.dev.chip
    let q := c.ory.wqSel.toNat
    let r := openResult c (c.wq q)
    ChipEffect .wqOpen s fun c' =>
      (c'.wq q).openResult.toNat = r ∧ (r ≠ 1 → (c'.wq q).isOpen = (c.wq q).isOpen ∧ (c'.wq q).tail = (c.wq q).tail) ∧
      (r = 1 → (c'.wq q).isOpen = true ∧ (c'.wq q).tail = 0 ∧ (c'.wq q).head = 0 ∧ (c'.wq q).cplHead = 0 ∧ (c'.wq q).cplTail = 0 ∧
        pickVersion (c.wq q).offer = some ((c'.wq q).major.toNat, (c'.wq q).minor.toNat)) ∧
      (∀ x, x ≠ q → c'.wq x = c.wq x) ∧ c' = { c with ory := { c.ory with wqs := c'.ory.wqs } }

/-- TAIL_DOORBELL, COMPLETION_HEAD_DOORBELL and SHADOW_LINE_SNOOP (R373, R491): a write within the ring is taken; a doorbell to
a closed or closing queue, or beyond the ring, only sets doorbell_error; and a changed value in the shadow line acts as the
doorbell.

DIRECT_SUBMISSION (R412): a closed or closing queue ignores it; into an empty slot a descriptor is armed at once where an entry is free,
without reaching the shadow; one behind a current one waits in the shadow; and a full shadow raises direct_busy and keeps what it
holds. -/
def Obligations.SubmissionsArmOrRefuse : Prop :=
  (∀ (s : State) (q : BitVec 6) (t h : W32) (slots : List (Option Desc)), Live s →
     let c := s.dev.chip
     let w := c.wq q.toNat
     let tailOk : Prop := w.isOpen = true ∧ w.closing = false ∧ (t - w.head).toNat ≤ w.slots ∧ (t - w.tail).toNat < 2 ^ 31
     let headOk : Prop := w.isOpen = true ∧ w.closing = false ∧ (h - w.cplHead).toNat ≤ (w.cplTail - w.cplHead).toNat
     (tailOk → ChipEffect (.tailDoorbell q t slots) s fun c' => (c'.wq q.toNat).tail = t ∧ (c'.wq q.toNat).isOpen = true) ∧
     (¬tailOk → Gives (.tailDoorbell q t slots) s { s.dev with chip := raise .ory 1 c }) ∧
     (headOk → Gives (.completionHeadDoorbell q h) s
       { s.dev with chip := onWq q.toNat (fun w => { w with cplHead := h }) c }) ∧
     (¬headOk → Gives (.completionHeadDoorbell q h) s { s.dev with chip := raise .ory 1 c }) ∧
     (tailOk → w.ringHost = true → t ≠ w.lineTail → h = w.lineHead → ChipEffect (.shadowLineSnoop q t h slots) s fun c' =>
       (c'.wq q.toNat).tail = t ∧ (c'.wq q.toNat).lineTail = t) ∧
     (w.isOpen = true → w.ringHost = true → t = w.lineTail → h = w.lineHead → ChipEffect (.shadowLineSnoop q t h slots) s fun c' =>
       ∀ x, c'.wq x = c.wq x)) ∧
  (∀ (s : State) (q : BitVec 6) (d : Desc), Live s → IdsDistinct s.dev.chip →
     let c := s.dev.chip
     let w := c.wq q.toNat
     ((w.isOpen = false ∨ w.closing = true) → Idle (.directSubmission q d) s) ∧
     (w.isOpen = true → w.closing = false → w.shadow.isSome = true → ChipEffect (.directSubmission q d) s fun c' =>
       c'.ory.evt.getLsbD 3 = true ∧ (c'.wq q.toNat).shadow = w.shadow ∧ (c'.wq q.toNat).direct = w.direct) ∧
     (w.isOpen = true → w.closing = false → w.shadow = none → w.direct.isSome = true → ChipEffect (.directSubmission q d) s fun c' =>
       (c'.wq q.toNat).shadow = some (d, ⟨false, false⟩) ∧ (c'.wq q.toNat).direct = w.direct) ∧
     (let x : Desc := if shortForm d then .ofNat 1024 (byt d 0 64) else d
      w.isOpen = true → w.closing = false → w.direct = none → NothingToArm c → foreignStream c q.toNat x = false →
      roomFor c (placeTile c x) = true → ChipEffect (.directSubmission q d) s fun c' =>
        (c'.wq q.toNat).direct = some c.ory.nextId ∧ (c'.wq q.toNat).shadow = none ∧ c'.ory.armedCnt = ctrAdd c.ory.armedCnt 1 ∧
        ∃ z, entryOf c' c.ory.nextId = some z ∧ z.desc = x ∧ z.wq = q.toNat ∧ z.index = directIndex))

/-- WQ_CLOSE, CANCEL_ALL, CANCEL and PREEMPT (R195, R233, R380, R405, R408, R409): unstarted targets end CANCELLED, and so do started
attention, codec and stack operations; a started operation with resume records that PREEMPT reaches ends PREEMPTED; a closed queue ignores
them; the clauses leave out queues that run a collective or an update, which end by their own rules; CLOSE of a queue with nothing left closes it and frees its streams; and a cancellation while one is pending only sets its
event.

STREAM_CFG_WRITE (R381): an idle stream takes its tile and multicast set; a stream in use, or a reserved tile, only sets
stream_cfg_refused. BATCH_DEADLINE (R134) issues exactly the gathered members of its batch, of which those that no host restarts
begin at their first group; a batch that does not gather is no matter. -/
def Obligations.QueuesAndStreamsObeyTheirCommands : Prop :=
  (∀ (s : State) (first last : W32), Live s → IdsDistinct s.dev.chip →
     let c := s.dev.chip
     let q := c.ory.wqSel.toNat
     let w := c.wq q
     let unstarted (e : Entry) : Prop := e ∈ ownEntries c q ∧ (e.phase = .armed ∨ e.phase = .arming)
     let own : Prop := ∀ e ∈ ownEntries c q, (e.phase = .started ∨ e.phase = .stopped) → dClass e.desc ≠ 6 ∧ dClass e.desc ≠ 9
     (w.isOpen = false → ∀ i ∈ [Instr.wqClose, .cancelAll, .cancel last first, .preempt], Idle i s) ∧
     (w.isOpen = true → w.cancelBusy = true → ∀ i ∈ [Instr.cancelAll, .cancel last first],
       Gives i s { s.dev with chip := raise .ory 2 c }) ∧
     (w.isOpen = true → w.cancelBusy = false → own → ChipEffect .cancelAll s fun c' => (∀ e, unstarted e → EndedWith e.id 6 c') ∧
       ∀ e ∈ ownEntries c q, e.phase = .started → dClass e.desc ∈ [3, 5, 11] → EndedWith e.id 6 c') ∧
     (w.isOpen = true → w.cancelBusy = false → own → ChipEffect (.cancel last first) s fun c' =>
       ∀ e, unstarted e → inIds (.ofNat 32 (dId e.desc)) first last = true → EndedWith e.id 6 c') ∧
     (w.isOpen = true → ChipEffect .preempt s fun c' => (∀ e, unstarted e → EndedWith e.id 6 c') ∧
       ∀ e ∈ ownEntries c q, e.phase = .started → hasRecord e.desc = true → atEnd e = false → e.lead = none → EndedWith e.id 0x0C c') ∧
     (w.isOpen = true → w.closing = false → ChipEffect .wqClose s fun c' =>
       ((c'.wq q).isOpen = true → (c'.wq q).closing = true) ∧ (own → ∀ e, unstarted e → EndedWith e.id 6 c') ∧
       (c.ory.entries.all (·.wq != q) = true → w.submitted = none → w.shadow = none → w.fetched = w.tail →
         (c'.wq q).isOpen = false ∧ ∀ x, (c'.strm x).owner ≠ some q))) ∧
  (∀ (s : State) (v : W32) (l : Nat), Live s →
     let c := s.dev.chip
     let n := c.ory.streamSel.toNat
     let t := v.toNat % 128
     let used : Prop := ∃ e ∈ c.ory.entries, e.apart = false ∧ dStream e.desc = n
     (used ∨ (96 ≤ t ∧ t ≤ 126) → Gives (.streamCfgWrite v) s { s.dev with chip := raise .ory 5 c }) ∧
     (¬used → (t < 96 ∨ t = 127) → ChipEffect (.streamCfgWrite v) s fun c' =>
       (c'.strm n).tile.toNat = t ∧ (c'.strm n).mcast.toNat = v.toNat / 256 % 64 ∧ (c'.strm n).owner = (c.strm n).owner ∧
       (∀ x, x ≠ n → c'.strm x = c.strm x) ∧ c' = { c with ory := { c.ory with streams := c'.ory.streams } }) ∧
     (gatheringOf c l = [] → Idle (.batchDeadline l) s) ∧
     (gatheringOf c l ≠ [] → IdsDistinct c → ChipEffect (.batchDeadline l) s fun c' => SameStore c c' ∧
       (∀ x ∈ gatheringOf c l, (dResume x.desc = false →
           entryOf c' x.id = some { x with kept := false, want := none, round := 1 }) ∧
         ∃ z, entryOf c' x.id = some z ∧ z.desc = x.desc ∧ z.phase = .started ∧ z.lead = some l) ∧
       ∀ x ∈ c.ory.entries, x ∉ gatheringOf c l → x.phase ≠ .stopped → entryOf c' x.id = some x))

/-- DESCRIPTOR_START, MULTICAST_JOIN and ORRERY_PREEMPT (R395, R399, R400, R410): a descriptor whose conditions hold starts, one
whose do not stays, and so does a candidate for a shared stream while others are present or may come; all candidates that are present
start as one multicast stream; and a running descriptor of lower priority that alone
holds the units a ready one needs stops with its record and is counted. -/
def Obligations.ReadyDescriptorsStart : Prop :=
  ∀ (s : State) (id : Nat) (ids : List Nat) (e v w : Entry), IdsDistinct s.dev.chip →
    let c := s.dev.chip
    let lone : Prop := c.ory.joinWindow = 0 ∨ (c.ory.streams.filter fun s => s.2.mcast.toNat = setOf c e).length ≤ 1
    let free : Prop := candidate c e = false ∨ (lone ∧ (present s.dev e).length ≤ 1)
    (entryOf c id = some e → canStart s.dev e = true → free → ChipEffect (.descriptorStart id) s fun c' =>
      ∃ x, entryOf c' id = some x ∧ x.phase = .started ∧ x.desc = e.desc ∧ x.tile = e.tile) ∧
    (entryOf c id = some e → ¬free → Idle (.descriptorStart id) s) ∧
    (entryOf c id = some e → canStart s.dev e = false → Idle (.descriptorStart id) s) ∧
    (entryOf c e.id = some e → candidate c e = true → ids.head? = some e.id → ids.Nodup →
      (∀ i, i ∈ ids ↔ ∃ x ∈ present s.dev e, x.id = i) →
      ChipEffect (.multicastJoin ids) s fun c' =>
        ∀ i ∈ ids, ∃ x, entryOf c' i = some x ∧ x.phase = .started ∧ x.mcast = ids) ∧
    (entryOf c v.id = some v → entryOf c w.id = some w → c.ory.preemptEn = true → w.phase = .armed → readyBut s.dev w = true →
      v.phase = .started → v.tile = w.tile → v.lead = none → hasRecord v.desc = true → atEnd v = false → prioOf c v < prioOf c w →
      (∀ u ∈ unitsOf w.desc, ∀ x ∈ holders c w.tile u, x = v) → (∃ u ∈ unitsOf w.desc, v ∈ holders c w.tile u) →
      ChipEffect (.orreryPreempt v.id w.id) s fun c' =>
        (∃ x, entryOf c' v.id = some x ∧ x.phase = .stopped) ∧
        c'.ory.preemptions = c.ory.preemptions + 1)

/-- DESCRIPTOR_RETIRE (R374, R375, R377, R397): with room in the completion ring and no host copy of its line, a completed
descriptor at the head of its stream leaves; its entry lies at the ring's tail, the tail and the counters move by one, and its
signal flag is set where it carries one. A full ring only sets its event. -/
def Obligations.RetirementWritesTheCompletionEntry : Prop :=
  ∀ (s : State) (id : Nat) (e : Entry), IdsDistinct s.dev.chip → entryOf s.dev.chip id = some e → canRetire s.dev.chip e = true →
    NothingToArm s.dev.chip → s.dev.chip.vsp.watches = [] → s.dev.chip.openStacks = [] →
    let c := s.dev.chip
    let w := c.wq e.wq
    (w.cplFull = false → (w.cplHost = false → trackedIn c w.cplAt 16 = [] ∧ w.cplAt + 16 ≤ hbmTop) → fld e.desc 3 2 1 = 0 →
      ChipEffect (.descriptorRetire id) s fun c' =>
        entryOf c' id = none ∧ (c'.wq e.wq).cplTail = w.cplTail + 1 ∧ (c'.wq e.wq).completed = w.completed + 1 ∧
        (e.index ≠ busyIndex → c'.ory.retiredCnt = c.ory.retiredCnt + 1) ∧
        (w.cplHost = false → readBytes c' w.cplAt 16 = cplBytes s.dev.mgt e w ∧ SameCells [(w.cplAt, 16)] c c') ∧
        (w.cplHost = true → c'.mem = c.mem) ∧
        (signals e = true → flagSet c' (byt e.desc 10 2) = true) ∧ (signals e = false → c'.vsp = c.vsp)) ∧
    (w.cplFull = true → ChipEffect (.descriptorRetire id) s fun c' => c'.ory.evt.getLsbD 4 = true ∧
      entryOf c' id = some e ∧ c'.mem = c.mem)

/-- STREAM_BARRIER and GROUP_BARRIER (R402, R403): a STREAM barrier ends once nothing armed before it is left on its streams
and otherwise waits; a GROUP barrier, in each round, sets the round's flag at the member 2^r further on, then waits for its own flag
and clears it, and ends after the last round. -/
def Obligations.BarriersWaitForTheirRounds : Prop :=
  ∀ (s : State) (id : Nat) (e : Entry), IdsDistinct s.dev.chip →
    let c := s.dev.chip
    let early (x : Entry) : Prop := x.id < e.id ∧ x.apart = false ∧ e.desc.getLsbD (128 + dStream x.desc) = true
    let g := c.grp (fld e.desc 16 0 6)
    let rounds := clog2 g.m
    let r := e.round / 2
    let f := byt e.desc 18 2 + 16 * fld e.desc 17 0 1 + r
    (running c id 10 1 = some e → (¬∃ x ∈ c.ory.entries, early x) → ChipEffect (.streamBarrier id) s (EndedWith id 0)) ∧
    (running c id 10 1 = some e → (∃ x ∈ c.ory.entries, early x) → Idle (.streamBarrier id) s) ∧
    (running c id 10 2 = some e → rounds ≤ r → e.acks = [] → ChipEffect (.groupBarrier id) s (EndedWith id 0)) ∧
    (running c id 10 2 = some e → r < rounds → e.round % 2 = 0 → fenceDone c e = true → ChipEffect (.groupBarrier id) s fun c' =>
      ∃ x ∈ c'.fab.remotes, x.type = .flag ∧ x.entry = id ∧ x.dest = c.rankOf (fld e.desc 16 0 6) ((g.me + 2 ^ r) % g.m) ∧
        x.data = flagBody ((fget 0 c.fab.flagSeq x.dest + 1) % 2 ^ 32) (f / 64 * 64) 1 (1#64 <<< (f % 64))) ∧
    (running c id 10 2 = some e → r < rounds → e.round % 2 = 1 → f < 65536 → flagSet c f = true → c.vsp.watches = [] →
      ChipEffect (.groupBarrier id) s fun c' => flagSet c' f = false ∧ (∀ x < 65536, x ≠ f → flagSet c' x = flagSet c x) ∧
        (rounds ≤ r + 1 → e.acks = [] → EndedWith id 0 c')) ∧
    (running c id 10 2 = some e → r < rounds → e.round % 2 = 1 → flagSet c f = false → Idle (.groupBarrier id) s)

/-! ### Flags, watches and mailboxes -/

/-- FLAG_SET_WRITE and FLAG_CLEAR_WRITE (R418, R419, R423, R429): exactly the masked flags of the window are set or cleared
where no watch clears one again; a set of a flag already set also sets its overrun bit and is counted, a set of a clear flag is
counted in VSP_SETS, a strict flag set twice raises its event, and a clear never touches an overrun bit.

The Flag class (R426, R430, R431, R437, R438): a local SET or CLEAR acts on its masked flags and completes, a remote one is
sent with the next number of its destination and waits for its answer, and either waits for the fence where it carries release. -/
def Obligations.FlagWritesAndDescriptorsAct : Prop :=
  (∀ (s : State) (word : BitVec 10) (v : W64), Live s →
     let c := s.dev.chip
     let hit (f : Nat) : Bool := decide (f / 64 = word.toNat) && v.getLsbD (f % 64)
     let old := windowGet c.vsp.flags (64 * word.toNat)
     ChipEffect (.flagSetWrite word v) s (fun c' =>
       (c.vsp.watches = [] → ∀ f < 65536, flagSet c' f = (flagSet c f || hit f)) ∧
       (∀ f < 65536, c'.vsp.overrun.getLsbD f = (c.vsp.overrun.getLsbD f || (hit f && flagSet c f))) ∧
       c'.vsp.sets = c.vsp.sets + BitVec.ofNat 64 (popCount 64 (v &&& ~~~old).toNat) ∧
       c'.vsp.overruns = c.vsp.overruns + BitVec.ofNat 64 (popCount 64 (v &&& old).toNat) ∧
       ((∃ f < 65536, hit f = true ∧ flagSet c f = true ∧ c.vsp.strict.getLsbD f = true) → c'.vsp.evt.getLsbD 0 = true) ∧
       c'.vsp.strict = c.vsp.strict) ∧
     ChipEffect (.flagClearWrite word v) s fun c' =>
       (c.vsp.watches = [] → ∀ f < 65536, flagSet c' f = (flagSet c f && !hit f)) ∧
       c'.vsp.overrun = c.vsp.overrun ∧ c'.vsp.sets = c.vsp.sets ∧ c'.vsp.strict = c.vsp.strict) ∧
  (∀ (s : State) (id : Nat) (e : Entry),
     let c := s.dev.chip
     let x := flagD e.desc
     let hit (f : Nat) : Bool := decide (x.base ≤ f) && decide (f < x.base + 64) && x.mask.getLsbD (f - x.base)
     let sent (act : Nat) (c' : Chip) : Prop := ∃ r ∈ c'.fab.remotes, r.type = .flag ∧ r.entry = id ∧ r.dest = x.rank ∧
       r.data = flagBody ((fget 0 c.fab.flagSeq x.rank + 1) % 2 ^ 32) x.base act x.mask
     (e.round ≠ 1 → (x.release = true → fenceDone c e = true) → x.base % 64 = 0 →
       (running c id 7 1 = some e →
         (x.remote = false → ChipEffect (.set id) s fun c' => c.vsp.watches = [] →
           EndedWith id 0 c' ∧ ∀ f < 65536, flagSet c' f = (flagSet c f || hit f)) ∧
         (x.remote = true → ChipEffect (.set id) s fun c' => sent 1 c' ∧ c'.vsp = c.vsp)) ∧
       (running c id 7 2 = some e →
         (x.remote = false → ChipEffect (.clear id) s fun c' => c.vsp.watches = [] →
           EndedWith id 0 c' ∧ ∀ f < 65536, flagSet c' f = (flagSet c f && !hit f)) ∧
         (x.remote = true → ChipEffect (.clear id) s fun c' => sent 2 c' ∧ c'.vsp = c.vsp))) ∧
     (x.release = true → fenceDone c e = false → running c id 7 1 = some e → Idle (.set id) s) ∧
     (x.release = true → fenceDone c e = false → running c id 7 2 = some e → Idle (.clear id) s))

/-- WAIT, WATCH and UNWATCH (R430, R431, R433, R437): a WAIT whose condition holds completes and one whose does not keeps a
slot; a WATCH is registered where a slot is free and is refused with BUSY and its event otherwise; an UNWATCH leaves no unfired
watch of its mailbox and tag. -/
def Obligations.WatchesAreRegisteredAndRemoved : Prop :=
  ∀ (s : State) (id n : Nat) (e : Entry), IdsDistinct s.dev.chip →
    let c := s.dev.chip
    let x := flagD e.desc
    let now := condHolds x.cond x.mask (windowGet c.vsp.flags x.base)
    let own : Watch := ⟨x.base, x.mask, x.cond, x.clearOnFire, .mbox x.mbox x.tag, false⟩
    (running c id 7 3 = some e → e.slotW = none → findSlot c (homeOf x.base) = some n →
      (now = true → c.vsp.watches = [] → ChipEffect (.wait id) s (EndedWith id 0)) ∧
      (now = false → ChipEffect (.wait id) s fun c' =>
        (∃ y, entryOf c' id = some y ∧ y.phase = .started ∧ y.slotW = some n) ∧
        fget none c'.vsp.watches n = some ⟨x.base, x.mask, x.cond, x.clearOnFire, .entry id, false⟩ ∧ c'.vsp.flags = c.vsp.flags)) ∧
    (running c id 7 4 = some e → findSlot c (homeOf x.base) = some n → now = false → ChipEffect (.watch id) s fun c' =>
      EndedWith id 0 c' ∧ fget none c'.vsp.watches n = some own ∧ c'.vsp.flags = c.vsp.flags) ∧
    (running c id 7 4 = some e → findSlot c (homeOf x.base) = none → ChipEffect (.watch id) s fun c' =>
      EndedWith id 5 c' ∧ c'.vsp.evt.getLsbD 2 = true ∧ c'.vsp.watches = c.vsp.watches) ∧
    (running c id 7 5 = some e → ChipEffect (.unwatch id) s fun c' => EndedWith id 0 c' ∧ c'.vsp.flags = c.vsp.flags ∧
      ∀ k w, fget none c'.vsp.watches k = some w → fget none c.vsp.watches k = some w ∧
        ¬(w.who = .mbox x.mbox x.tag ∧ w.fired = false))

/-- MANUAL_ACT (R441, R442): a wrong key is refused with result 0x02 and nothing else; with the key, a record of type 9 joins the Daybook's
queue and then the flag is set or cleared with result 0x01, its event and its count; where the queue does not take the record, no
flag changes and the result is 0x03.

MBOX_CFG_WRITE, MBOX_RELEASE and MBOX_WRITE_RETRY (R434, R435): a valid enable starts an empty ring, a disable drops what waits, a
release moves the head, and a message that waits for its ring is written there, 16 bytes at the tail, once there is room. -/
def Obligations.ManualActsAndMailboxes : Prop :=
  (∀ (s : State) (v : W32), Live s → s.dev.chip.vsp.watches = [] →
     let c := s.dev.chip
     let f := v.toNat % 65536
     let act := v.toNat / 65536 % 4
     let rec9 := toBytes 2 f ++ toBytes 1 act ++ toBytes 1 (b2n (flagSet c f)) ++ toBytes 1 0
     let took := (queueRec s.dev.mgt (f / 32768) 9 rec9 c).1
     (v.toNat / 2 ^ 24 ≠ 0xA5 → Gives (.manualAct v) s { s.dev with chip := { c with vsp := { c.vsp with manualResult := 2 } } }) ∧
     (v.toNat / 2 ^ 24 = 0xA5 → (act = 1 ∨ act = 2) → took = true → ChipEffect (.manualAct v) s fun c' =>
       c'.vsp.manualResult = 1 ∧ c'.vsp.evt.getLsbD 4 = true ∧ c'.vsp.manualActs = c.vsp.manualActs + 1 ∧
       (∀ x < 65536, flagSet c' x = if x = f then decide (act = 1) else flagSet c x) ∧
       ∃ r : Rec, r.type = 9 ∧ r.payload = payload64 rec9 ∧ c'.dbk.queue = c.dbk.queue ++ [r]) ∧
     (v.toNat / 2 ^ 24 = 0xA5 → (act = 1 ∨ act = 2) → took = false → ChipEffect (.manualAct v) s fun c' =>
       c'.vsp = { c.vsp with manualResult := 3 } ∧ c'.dbk.queue = c.dbk.queue ∧ c'.dbk.evt.getLsbD 2 = true)) ∧
  (∀ (s : State) (v : W32) (r : W64) (i : BitVec 3) (x : MboxMsg), Live s →
     let c := s.dev.chip
     let n := c.vsp.mboxSel.toNat
     let b := c.mbox n
     let k := v.toNat / 256 % 32
     (v.getLsbD 0 = true → v.getLsbD 13 = false → b.enable = false → 4 ≤ k → k ≤ 16 → b.base.toNat + 16 * 2 ^ k ≤ hbmTop →
       ChipEffect (.mboxCfgWrite v) s fun c' => (c'.mbox n).enable = true ∧ (c'.mbox n).head = 0 ∧ (c'.mbox n).tail = 0 ∧
         (c'.mbox n).log2.toNat = k ∧ (c'.mbox n).vector.toNat = v.toNat / 2 ^ 24 ∧ (c'.mbox n).waiting = [] ∧
         (∀ y, y ≠ n → c'.mbox y = c.mbox y) ∧ c'.vsp.flags = c.vsp.flags) ∧
     (v.getLsbD 0 = false → ChipEffect (.mboxCfgWrite v) s fun c' => (c'.mbox n).enable = false ∧ (c'.mbox n).waiting = [] ∧
       c'.vsp.flags = c.vsp.flags) ∧
     (b.waiting = [] → ChipEffect (.mboxRelease r) s fun c' => (c'.mbox n).head.toNat = r.toNat / 2 ^ 32 ∧
       (c'.mbox n).tail = b.tail ∧ (∀ y, y ≠ n → c'.mbox y = c.mbox y) ∧ c'.mem = c.mem) ∧
     (let b := c.mbox i.toNat
      let a := b.base.toNat + 16 * (b.tail.toNat % 2 ^ b.log2.toNat)
      (b.stuck = false → Idle (.mboxWriteRetry i) s) ∧
      (b.stuck = true → b.enable = true → b.host = false → b.waiting = [x] → (b.tail - b.head).toNat < 2 ^ b.log2.toNat →
        a + 16 ≤ hbmTop → trackedIn c a 16 = [] → poisonedAt c a = false → ChipEffect (.mboxWriteRetry i) s fun c' =>
          readBytes c' a 16 = x.bytes b.log2.toNat b.tail.toNat ∧ SameCells [(a, 16)] c c' ∧
          (c'.mbox i.toNat).tail = b.tail + 1 ∧ (c'.mbox i.toNat).stuck = false ∧ (c'.mbox i.toNat).waiting = [])))

/-! ### The CXL port -/

/-- CXL_LINK_UP, CONFIGURATION_REQUEST, APERTURE_LOCK and HDM_DECODER_COMMIT (R475, R487, R492, R503): with power the link takes its mode
and every configuration request is answered; a read returns the register; a write of the Salrus control register sets keep_hbm and can
only set the lock, one of an entry's dword acts as APERTURE_ENTRY_WRITE, and one anywhere else changes nothing; and a decoder commits a
window of 256 MiB units within HBM or reports its error, but not over a PCIe link.

APERTURE_ENTRY_WRITE (R487, R488): a locked table ignores it; an enabled entry only loses its enable, and only while nothing
uses it; a disabled entry takes the written dword's fields, but an enable that names no size or wraps is ignored.

The table as a whole (R487, R488): the four dwords of a disabled entry, written in the order that R488 asks for, leave exactly the
entry meant; and once the lock is set, no sequence of these commands changes the table. -/
def Obligations.ConfigurationSpaceAndApertures : Prop :=
  (∀ (s : State) (mode : LinkMode) (o base size target ways : Nat) (v : W32) (i : BitVec 2) (n : BitVec 4) (k : BitVec 2) (t : State),
     let c := s.dev.chip
     let on : Prop := s.dev.mgt.pwrGood = true ∧ s.dev.mgt.resetHeld = false
     let ok : Bool := ways == 1 && size != 0 && base % 2 ^ 28 == 0 && size % 2 ^ 28 == 0 && decide (target + size ≤ hbmTop)
     let answer (o : Nat) (v : W32) (c : Chip) : Dev := { s.dev with chip := { c with out := c.out ++ [.config o v] } }
     let dvsec : Nat := Config.dvsecAt
     (on → Gives (.cxlLinkUp mode) s { s.dev with chip := { c with cxl := { c.cxl with link := some mode, refclk := true } } }) ∧
     (on → Gives (.configurationRequest o none) s (answer o (configRead c o) c)) ∧
     (on → ChipEffect (.configurationRequest (dvsec + 0x0C) (some v)) s fun c' =>
       c'.cxl.keepHbm = v.getLsbD 0 ∧ c'.cxl.lock = (c.cxl.lock || v.getLsbD 1) ∧ c'.cxl.apers = c.cxl.apers ∧ c'.mem = c.mem ∧
       c'.out = c.out ++ [.config (dvsec + 0x0C) v]) ∧
     (on → exec (.apertureEntryWrite n k v) s = .next t →
       Gives (.configurationRequest (dvsec + 0x20 + 16 * n.toNat + 4 * k.toNat) (some v)) s
         (answer (dvsec + 0x20 + 16 * n.toNat + 4 * k.toNat) v t.dev.chip)) ∧
     (on → (o < dvsec + 0x0C ∨ (dvsec + 0x0C < o ∧ o < dvsec + 0x20) ∨ dvsec + 0x120 ≤ o) →
       Gives (.configurationRequest o (some v)) s (answer o v c)) ∧
     (¬on → Idle (.configurationRequest o none) s ∧ Idle (.configurationRequest o (some v)) s ∧ Idle (.cxlLinkUp mode) s) ∧
     Gives .apertureLock s { s.dev with chip := { c with cxl := { c.cxl with lock := true } } } ∧
     ((c.cxl.link = some .pcie ∨ c.cxl.ideHaltIo = true) → Idle (.hdmDecoderCommit i base size target ways) s) ∧
     (c.cxl.link ≠ some .pcie → c.cxl.ideHaltIo = false → ChipEffect (.hdmDecoderCommit i base size target ways) s fun c' =>
       fget HdmDec.reset c'.cxl.hdms i.toNat = ⟨ok, !ok, base, size, target⟩ ∧
       (∀ k, k ≠ i.toNat → fget HdmDec.reset c'.cxl.hdms k = fget HdmDec.reset c.cxl.hdms k) ∧
       c' = { c with cxl := { c.cxl with hdms := c'.cxl.hdms } })) ∧
  (∀ (s : State) (i : BitVec 4) (k : BitVec 2) (v : W32),
     let c := s.dev.chip
     let a := c.aper i.toNat
     let put (x : Aper) : Prop := ChipEffect (.apertureEntryWrite i k v) s fun c' =>
       c'.aper i.toNat = x ∧ (∀ n, n ≠ i.toNat → c'.aper n = c.aper n) ∧ c' = { c with cxl := { c.cxl with apers := c'.cxl.apers } }
     let low (x : W64) (mask : W64) : W64 := (x.extractLsb' 32 32 ++ v) &&& mask
     let high (x : W64) (mask : W64) : W64 := (v ++ x.extractLsb' 0 32) &&& mask
     let b := low a.base 0x000FFFFFFFFFF00F
     let fits : Prop := a.size ≠ 0 ∧ Aper.host ⟨b, a.size⟩ + a.size.toNat ≤ 2 ^ 52
     (c.cxl.lock = true → Idle (.apertureEntryWrite i k v) s) ∧
     (c.cxl.lock = false → a.base.getLsbD 0 = true →
       (k = 0 → v.getLsbD 0 = false → inUse c i.toNat = false → put { a with base := a.base &&& ~~~1#64 }) ∧
       ((k ≠ 0 ∨ v.getLsbD 0 = true ∨ inUse c i.toNat = true) → Idle (.apertureEntryWrite i k v) s)) ∧
     (c.cxl.lock = false → a.base.getLsbD 0 = false →
       (k = 0 → (v.getLsbD 0 = false ∨ fits) → put { a with base := b }) ∧
       (k = 0 → v.getLsbD 0 = true → ¬fits → Idle (.apertureEntryWrite i k v) s) ∧
       (k = 1 → put { a with base := high a.base 0x000FFFFFFFFFF00F }) ∧
       (k = 2 → put { a with size := low a.size 0x000001FFFFFFF000 }) ∧
       (k = 3 → put { a with size := high a.size 0x000001FFFFFFF000 }))) ∧
  (∀ (s : State) (i : BitVec 4) (b z : W64),
     let writes := [(2#2, z.extractLsb' 0 32), (3#2, z.extractLsb' 32 32), (1#2, b.extractLsb' 32 32), (0#2, b.extractLsb' 0 32)]
     s.dev.chip.cxl.lock = false → (s.dev.chip.aper i.toNat).base.getLsbD 0 = false →
     b &&& 0x000FFFFFFFFFF00F = b → z &&& 0x000001FFFFFFF000 = z → z ≠ 0 → Aper.host ⟨b, z⟩ + z.toNat ≤ 2 ^ 52 →
     ∃ t, Runs (writes.map fun x => .apertureEntryWrite i x.1 x.2) s t ∧ t.dev.chip.aper i.toNat = ⟨b, z⟩ ∧
       ∀ n, n ≠ i.toNat → t.dev.chip.aper n = s.dev.chip.aper n) ∧
  ∀ (l : List Instr) (s t : State), s.dev.chip.cxl.lock = true →
    (∀ i ∈ l, i = .apertureLock ∨ (∃ o v, i = .configurationRequest o v) ∨ (∃ e k v, i = .apertureEntryWrite e k v) ∨
      (∃ m, i = .cxlLinkUp m) ∨ ∃ k b n a w, i = .hdmDecoderCommit k b n a w) →
    Runs l s t → t.dev.chip.cxl.lock = true ∧ t.dev.chip.cxl.apers = s.dev.chip.cxl.apers

/-- HOST_HDM_READ and HOST_HDM_WRITE (R493 to R495): a read of a mapped line returns its 64 bytes with their poison and joins the
filter; a write changes exactly the enabled bytes, no seal, and clears the poison of each word that it covers whole; and a write of part of a
poisoned word is dropped whole and reported. -/
def Obligations.HostAccessesActOnTheirLine : Prop :=
  ∀ (s : State) (line : Nat) (data : BitVec 512) (en : W64), lineOk line = true → cxlOpen s.dev.chip = true →
    hdmMaps s.dev.chip line = true →
    let c := s.dev.chip
    let part (k : Nat) : Prop := en.toNat / 2 ^ (16 * k) % 65536 ≠ 0 ∧ en.toNat / 2 ^ (16 * k) % 65536 ≠ 0xFFFF
    ((line ∈ c.cxl.filter ∨ c.cxl.filter.length < filterSize) → ChipEffect (.hostHdmRead line) s fun c' =>
      (Out.hdmData line (readBytes c line 64) (firstPoison c line 64).isSome) ∈ c'.out ∧ line ∈ c'.cxl.filter ∧
      c'.mem = c.mem ∧ c'.seals = c.seals ∧ (firstPoison c line 64 ≠ none → c'.hbm.evt.getLsbD 1 = true ∧ c'.hbm.ueAddr.getLsbD 63 = true)) ∧
    ((∀ k < 4, part k → poisonedAt c (line + 16 * k) = false) → ChipEffect (.hostHdmWrite line data en) s fun c' =>
      (∀ i < 64, readByte c' (line + i) = if en.getLsbD i then .ofNat 8 (data.toNat / 2 ^ (8 * i)) else readByte c (line + i)) ∧
      SameCells [(line, 64)] c c' ∧ c'.seals = c.seals ∧ c'.ory = c.ory ∧
      ∀ k < 4, poisonedAt c' (line + 16 * k) = (poisonedAt c (line + 16 * k) && en.toNat / 2 ^ (16 * k) % 65536 != 0xFFFF)) ∧
    ((∃ k < 4, part k ∧ poisonedAt c (line + 16 * k) = true) → ChipEffect (.hostHdmWrite line data en) s fun c' =>
      c'.mem = c.mem ∧ c'.poison = c.poison ∧ c'.cxl.ras = true ∧ Out.rasError ∈ c'.out ∧ c'.hbm.evt.getLsbD 1 = true ∧
      c'.hbm.ueAddr.getLsbD 63 = true)

/-- BACK_INVALIDATE_COMPLETION (R493): the line leaves the filter where no host read waits for room in it, and where the host held it
modified and nothing else waits its bytes come back; a line that was not snooped changes nothing. MSIX_UNMASK (R481): a pending vector sends one message and nothing stays pending, unless the PCIe stream discards.
IDE_INTEGRITY_FAILURE (R499) stops a stream that has keys and reports it.

UIO_COMPLETION and UIO_TIMEOUT (R496): a write's completion frees its tag, a read's brings its bytes to the waiting
operation, and 5 ms without one end it with TIMEOUT; a tag that is not outstanding changes nothing. -/
def Obligations.HostEventsAndUnorderedAccesses : Prop :=
  (∀ (s : State) (line : Nat) (data : BitVec 512) (v : BitVec 8),
     let c := s.dev.chip
     (line ∉ c.cxl.snoops → Idle (.backInvalidateCompletion line (some data)) s) ∧
     (line ∈ c.cxl.snoops → c.cxl.ideHalt = false → lineOk line = true → ChipEffect (.backInvalidateCompletion line (some data)) s fun c' =>
       (c.cxl.heldReads = [] → line ∉ c'.cxl.filter) ∧
       (c.cxl.heldReads = [] → c.fab.held = [] → c.ory.entries = [] → c.ory.wqs = [] → c.clr.colls = [] → c.clr.early = [] → c.vsp.mboxes = [] →
         (∀ i < 64, readByte c' (line + i) = .ofNat 8 (data.toNat / 2 ^ (8 * i))) ∧ SameCells [(line, 64)] c c' ∧ c'.seals = c.seals)) ∧
     (c.cxl.ideHaltIo = true → Idle (.msixUnmask v) s) ∧
     (c.cxl.ideHaltIo = false → ChipEffect (.msixUnmask v) s fun c' =>
       c'.cxl.vecMask.getLsbD v.toNat = false ∧ c'.cxl.vecPend.getLsbD v.toNat = false ∧
       (∀ k < 256, k ≠ v.toNat → c'.cxl.vecMask.getLsbD k = c.cxl.vecMask.getLsbD k ∧ c'.cxl.vecPend.getLsbD k = c.cxl.vecPend.getLsbD k) ∧
       c'.out = c.out ++ (if c.cxl.vecPend.getLsbD v.toNat then [.msix v.toNat] else []) ∧ c'.mem = c.mem) ∧
     (c.cxl.ideKeys ≠ none → Gives (.ideIntegrityFailure .cxl) s
       { s.dev with chip := { c with cxl := { c.cxl with ideHalt := true, aer := true, ras := true } } }) ∧
     (c.cxl.ideKeysIo ≠ none → Gives (.ideIntegrityFailure .pcie) s
       { s.dev with chip := { c with cxl := { c.cxl with ideHaltIo := true, aer := true, ras := true } } }) ∧
     (c.cxl.ideKeys = none → Idle (.ideIntegrityFailure .cxl) s) ∧ (c.cxl.ideKeysIo = none → Idle (.ideIntegrityFailure .pcie) s)) ∧
  (∀ (s : State) (u : Uio) (e : Entry) (data : List Byte), IdsDistinct s.dev.chip → s.dev.chip.cxl.uios.find? (·.tag = u.tag) = some u →
     let c := s.dev.chip
     (c.cxl.ideHaltIo = false → u.read = false → Gives (.uioCompletion u.tag data) s
       { s.dev with chip := { c with cxl := { c.cxl with uios := c.cxl.uios.filter (·.tag != u.tag) } } }) ∧
     (c.cxl.ideHaltIo = false → u.read = true → entryOf c u.entry = some e → e.phase = .started →
       ChipEffect (.uioCompletion u.tag data) s fun c' =>
         ∃ x, entryOf c' e.id = some x ∧ x.phase = .started ∧
           (dClass e.desc ≠ 11 → x.ext = e.ext ++ (data.take u.len).zipIdx.map fun (b, i) => (u.addr + i, b))) ∧
     (entryOf c u.entry = some e → e.phase = .started → ChipEffect (.uioTimeout u.tag) s (EndedWith e.id 0x0F)) ∧
     ∀ t, (∀ x ∈ c.cxl.uios, x.tag ≠ t) → Idle (.uioCompletion t data) s ∧ Idle (.uioTimeout t) s)

/-- DOE_DISCOVERY and CDAT_TABLE_ACCESS (R483, R484): each instance names discovery and its own protocol, with the numbers of log
entry 5; the table gives the last HBM address, 600 ns for reads and writes, and the payload rate of the trained mode. -/
def Obligations.DiscoveryTablesAreFixed : Prop :=
  ∀ s : State,
    let c := s.dev.chip
    let out (x : Out) : Dev := { s.dev with chip := { c with out := c.out ++ [x] } }
    (∀ inst, Gives (.doeDiscovery inst 0) s (out (.doe inst 0 [1, 0, 0, 1]))) ∧
    Gives (.doeDiscovery .inst0 1) s (out (.doe .inst0 0 [0x98, 0x1E, 2, 0])) ∧
    Gives (.doeDiscovery .inst1 1) s (out (.doe .inst1 0 [1, 0, 1, 0])) ∧
    Gives (.doeDiscovery .inst2 1) s (out (.doe .inst2 0 [1, 0, 2, 0])) ∧
    Gives (.cdatTableAccess 0) s (out (.cdat 0 (288 * 2 ^ 30 - 1))) ∧
    (∀ k ∈ [1, 2], Gives (.cdatTableAccess k) s (out (.cdat k 600))) ∧
    ∀ x ∈ [(LinkMode.native, 60), (.rateFallback, 30), (.widthFallback, 30), (.both, 15)], c.cxl.link = some x.1 →
      ∀ k ∈ [3, 4], Gives (.cdatTableAccess k) s (out (.cdat k x.2))

/-! ### SPDM and the Strongroom -/

/-- SPDM on a DOE instance that carries it (R483, R584, R585, R595): the plain requests are answered with their own code, the signed ones
with fresh bytes of the generator and a signature of the identity in use; a response above 4 KiB is kept for CHUNK_GET, and a request
that comes while a mailbox command runs waits. Bodies are the DMTF standard's (log entry 5).

Sessions, chunks and IDE keys (R584, R587): KEY_EXCHANGE opens a session of its own, FINISH establishes it, END_SESSION ends it, an
unknown session is answered with an error; CHUNK_SEND gathers a request, CHUNK_GET returns the beginning of a kept response in pieces of at
most 4 KiB, and KEY_PROG in a session on instance 2 loads keys and lets the stream carry traffic. -/
def Obligations.SpdmSessionsOpenAndEnd : Prop :=
  (∀ (s : State) (inst : DoeInst) (req : List Byte), s.dev.mgt.powered = true → s.dev.str.selftestOk = true → s.dev.str.halted = false →
     (inst = .inst1 ∨ (inst = .inst2 ∧ s.dev.chip.cxl.sessions ≠ [])) →
     let d := s.dev
     let chain := certChain d.chip d.str.debug
     let body (code : Nat) : List Byte := Config.spdmBody code req
     let fresh : List Byte := (List.range 32).map fun i => Config.drbgByte (d.str.drbgPos + i)
     let drawn (x : Dev) : Prop := x.str = { d.str with drbgPos := d.str.drbgPos + 32, drbgReqs := (d.str.drbgReqs + 1) % 65536 }
     let signed (b : List Byte) : List Byte := b ++ Config.slhSign d.str.debug (req ++ b)
     (d.str.go = false → Effect (.getVersion inst req) s (fun x => Answered inst 0x04 (body 0x84) d.chip x.chip ∧ x.str = d.str)) ∧
     (d.str.go = false → Effect (.getCapabilities inst req) s (fun x => Answered inst 0x61 (body 0xE1) d.chip x.chip ∧ x.str = d.str)) ∧
     (d.str.go = false → Effect (.negotiateAlgorithms inst req) s (fun x => Answered inst 0x63 (body 0xE3) d.chip x.chip ∧ x.str = d.str)) ∧
     (d.str.go = false → Effect (.getDigests inst req) s (fun x => Answered inst 0x01 (body 0x81 ++ sha256 chain) d.chip x.chip ∧ x.str = d.str)) ∧
     (d.str.go = false → Effect (.getCertificate inst req) s (fun x =>
       Answered inst 0x02 (body 0x82 ++ certPart req chain) d.chip x.chip ∧ x.str = d.str)) ∧
     (d.str.go = false → d.str.drbgOk = true → Effect (.challenge inst req) s fun x => drawn x ∧
       Answered inst 0x03 (signed (body 0x83 ++ sha256 chain ++ fresh)) d.chip x.chip) ∧
     (d.str.go = false → d.str.drbgOk = true → Effect (.spdmGetMeasurements inst req) s fun x => drawn x ∧
       Answered inst 0x60 (signed (body 0xE0 ++ measurementRecords d.str ++ fresh)) d.chip x.chip) ∧
     (d.str.go = true → ∀ i ∈ [(Instr.getVersion inst req, 0x84), (.getCapabilities inst req, 0xE1), (.negotiateAlgorithms inst req, 0xE3),
         (.getDigests inst req, 0x81), (.getCertificate inst req, 0x82), (.challenge inst req, 0x83), (.spdmGetMeasurements inst req, 0xE0),
         (.keyExchange inst req, 0xE4)],
       Gives i.1 s { d with str := { d.str with doeWait := d.str.doeWait ++ [.spdm inst i.2 0 req] } })) ∧
  (∀ (s : State) (req data : List Byte) (session : Nat), s.dev.mgt.powered = true → s.dev.str.selftestOk = true →
     s.dev.str.halted = false → s.dev.str.go = false →
     let c := s.dev.chip
     let error : Dev := { s.dev with chip := { c with out := c.out ++ [.doe .inst1 0x7F []] } }
     (s.dev.str.drbgOk = true → Effect (.keyExchange .inst1 req) s fun d =>
       d.chip.cxl.sessions = c.cxl.sessions ++ [⟨c.cxl.nextSession, false⟩] ∧ d.chip.cxl.nextSession = c.cxl.nextSession + 1 ∧
       d.str.drbgPos = s.dev.str.drbgPos + 32 ∧ d.chip.mem = c.mem) ∧
     ((∃ x ∈ c.cxl.sessions, x.id = session) → Effect (.finish .inst1 session req) s fun d => sessionOpen d.chip session = true ∧
       d.chip.cxl.sessions.map (·.id) = c.cxl.sessions.map (·.id)) ∧
     ((∃ x ∈ c.cxl.sessions, x.id = session) → Effect (.endSession .inst1 session) s fun d =>
       d.chip.cxl.sessions = c.cxl.sessions.filter (·.id ≠ session) ∧ sessionOpen d.chip session = false) ∧
     ((∀ x ∈ c.cxl.sessions, x.id ≠ session) → Gives (.finish .inst1 session req) s error ∧ Gives (.endSession .inst1 session) s error) ∧
     Gives (.chunkSend .inst1 false data) s { s.dev with chip := { c with
       cxl := { c.cxl with chunkIn := c.cxl.chunkIn ++ data }, out := c.out ++ [.doe .inst1 0x05 []] } } ∧
     (c.cxl.chunkOut ≠ [] → ∃ part, part ≠ [] ∧ part.length ≤ 4096 ∧ part <+: c.cxl.chunkOut ∧
       Gives (.chunkGet .inst1 0) s { s.dev with chip := { c with out := c.out ++ [.doe .inst1 0x06 part] } }) ∧
     (sessionOpen c session = true → Effect (.keyProg .inst2 session .cxl data) s (fun d =>
       d.chip.cxl.ideKeys = some (Config.ideUnwrap data) ∧ d.chip.cxl.ideHalt = false ∧ d.chip.cxl.ideKeysIo = c.cxl.ideKeysIo) ∧
       Effect (.keyProg .inst2 session .pcie data) s fun d =>
         d.chip.cxl.ideKeysIo = some (Config.ideUnwrap data) ∧ d.chip.cxl.ideHaltIo = false ∧ d.chip.cxl.ideKeys = c.cxl.ideKeys) ∧
     (∀ st, Gives (.keyProg .inst1 session st data) s error))

/-- The mailbox commands that fill the buffer (R573, R578, R586, R589, R595, R598): with a buffer of the response's size the bytes lie at
STR_BUF, STR_RESP_LEN holds their number, and the command ends with result 0 and its event; a smaller buffer gives result 9 and no
byte changes; lines that the host may hold are snooped first (R493); and an input with a poisoned word is recorded and ends the
command (R346; its result is a free value, log entry 82).

The mailbox commands that change the module (R583, R588 to R591, R596, R597): OWNER_SET blows a blank owner field once; a token is
checked and its nonce consumed either way, and opens debug with the debug identity or formats the Daybook; IMAGE_UPDATE writes only the
partition that is not in use, and only an image that verifies, whole; ROLLBACK_COMMIT raises floors, never lowers them, and succeeds once
both minimum versions stand in the Daybook. -/
def Obligations.StrongroomCommandsAnswer : Prop :=
  (∀ (s : State) (op n : Nat), s.dev.mgt.powered = true → s.dev.str.halted = false → s.dev.str.go = true →
     s.dev.str.running.toNat = op → s.dev.str.doeWait = [] →
     let d := s.dev
     let a := d.str.buf.toNat
     let ready (n : Nat) : Prop := bufOk d.str n = true ∧ trackedIn d.chip a n = [] ∧ firstPoison d.chip a n = none
     let gives (b : List Byte) (x : Dev) : Prop :=
       readBytes x.chip a b.length = b ∧ SameCells [(a, b.length)] d.chip x.chip ∧ x.str.go = false ∧ x.str.result = 0 ∧
       x.str.respLen.toNat = b.length ∧ x.str.evt.getLsbD 0 = true ∧ x.mgt = d.mgt ∧ x.tel = d.tel
     let drawn (k : Nat) : List Byte := (List.range k).map fun i => Config.drbgByte (d.str.drbgPos + i)
     (op = 1 → ready 192 → Effect .getMeasurements s (gives (measurementBytes d.str))) ∧
     (op = 2 → ready 1 → (readByte d.chip a).toNat ≤ 1 →
       let chain := certChain d.chip (readByte d.chip a = 1)
       Effect .getCerts s fun x => (ready chain.length → gives chain x) ∧
         (bufOk d.str chain.length = false → x.str.result = 9 ∧ x.str.go = false ∧ x.chip.mem = d.chip.mem)) ∧
     (op = 3 → ready 17344 →
       let r := report (readBytes d.chip a 32) d
       Effect .attest s fun x => r.length = 256 ∧ gives (r ++ signature d.str.debug r) x) ∧
     (op = 6 → ready 32 → d.str.drbgOk = true → Effect .debugNonce s fun x =>
       gives (drawn 32) x ∧ x.str.nonce = some (drawn 32)) ∧
     (op = 10 → ready 4 → readNat d.chip a 4 = n → 1 ≤ n → n ≤ 4096 → ready n → d.str.drbgOk = true →
       Effect .random s (gives (drawn n))) ∧
     (∀ x ∈ [(Instr.getMeasurements, 1, 192), (.getCerts, 2, 1), (.attest, 3, 17344), (.imageUpdate, 4, 8112), (.debugNonce, 6, 32),
         (.debugUnlock, 7, 7920), (.daybookFormat, 8, 7920), (.ownerSet, 9, 32), (.random, 10, 4)],
       op = x.2.1 → (bufOk d.str x.2.2 = false → Effect x.1 s fun y => y.str.result = 9 ∧ y.str.go = false ∧ y.chip.mem = d.chip.mem) ∧
         (bufOk d.str x.2.2 = true → trackedIn d.chip a x.2.2 ≠ [] →
           Gives x.1 s { d with chip := sendSnoops (trackedIn d.chip a x.2.2) d.chip })) ∧
     (∀ x ∈ [(Instr.getCerts, 2, 1, 1), (.attest, 3, 17344, 32), (.imageUpdate, 4, 8112, 256), (.debugUnlock, 7, 7920, 7920),
         (.daybookFormat, 8, 7920, 7920), (.random, 10, 4, 4)],
       op = x.2.1 → bufOk d.str x.2.2.1 = true → trackedIn d.chip a x.2.2.1 = [] → firstPoison d.chip a x.2.2.2 ≠ none →
       Effect x.1 s fun y => y.str.go = false ∧ y.str.respLen = 0 ∧ SameStore d.chip y.chip ∧ y.chip.flash = d.chip.flash ∧
         y.chip.hbm.evt.getLsbD 1 = true ∧ y.chip.hbm.ueAddr.getLsbD 63 = true)) ∧
  (∀ (s : State) (op : Nat), s.dev.mgt.powered = true → s.dev.str.halted = false → s.dev.str.go = true →
     s.dev.str.running.toNat = op → s.dev.str.doeWait = [] →
     let d := s.dev
     let a := d.str.buf.toNat
     let free (n : Nat) : Prop := trackedIn d.chip a n = [] ∧ firstPoison d.chip a n = none
     let ready (n : Nat) : Prop := bufOk d.str n = true ∧ free n
     let h := imageHdr (readBytes d.chip a 256)
     let len := 256 + h.bodyBytes + 7856
     let slot := if h.kind = 0 then b2n (!d.str.bootB) else b2n (!d.str.cfgSlot1)
     let image := readBytes d.chip a len
     let fits : Prop := h.kind ≤ 1 ∧ len ≤ (imagePlace h.kind slot).2 ∧ bufOk d.str len = true ∧
       verifyImage d h.kind h ((image.drop 256).take h.bodyBytes) (image.drop (256 + h.bodyBytes)) = 0
     let done := recordWrites (recordsLeft d.chip) d
     let token := readBytes d.chip a 64
     let verdict := tokenResult d token ((readBytes d.chip a 7920).drop 64)
     (op = 9 → ready 32 → d.chip.til.almanac.owner = none → Effect .ownerSet s fun x =>
       x.chip.til.almanac.owner = some (readBytes d.chip a 32) ∧ x.str.result = 0 ∧ x.str.go = false ∧ x.chip.mem = d.chip.mem) ∧
     (op = 9 → bufOk d.str 32 = true → trackedIn d.chip a 32 = [] → d.chip.til.almanac.owner ≠ none → Effect .ownerSet s fun x =>
       x.chip.til = d.chip.til ∧ x.str.result = 8 ∧ x.str.go = false) ∧
     (op = 7 → ready 7920 → Effect .debugUnlock s fun x => x.str.nonce = none ∧ x.str.go = false ∧
       x.str.result.toNat = verdict ∧
       (verdict = 0 → (token.getD 1 0).toNat % 4 ≠ 0 → x.str.debug = true ∧ x.chip.cxl.sessions = [] ∧
         x.str.measurements.getD 4 [] = sha256 token ∧ x.str.scopes = d.str.scopes ||| .ofNat 2 ((token.getD 1 0).toNat % 4)) ∧
       (verdict ≠ 0 → x.str.debug = d.str.debug ∧ x.chip.cxl.sessions = d.chip.cxl.sessions)) ∧
     (op = 8 → ready 7920 → Effect .daybookFormat s fun x => x.str.nonce = none ∧ x.str.go = false ∧
       (verdict = 0 → (token.getD 1 0).toNat.testBit 2 = true → x.str.result = 0 ∧ x.chip.dbk.keys = [] ∧ x.str.minBoot = 0 ∧ x.str.minCfg = 0) ∧
       (verdict = 0 → (token.getD 1 0).toNat.testBit 2 = false → x.str.result = 8 ∧ x.chip.flash = d.chip.flash) ∧
       (verdict ≠ 0 → x.str.result.toNat = verdict ∧ x.chip.flash = d.chip.flash)) ∧
     (op = 4 → ready 8112 → free len → Effect .imageUpdate s fun x => x.str.go = false ∧ x.chip.mem = d.chip.mem ∧
       (fits → flashBytes x.chip (imagePlace h.kind slot).1 len = image ∧
         x.str.result.toNat = if verifyFlash x h.kind slot = 0 then 0 else 6) ∧
       (¬fits → x.str.result ≠ 0 ∧ x.chip.flash = d.chip.flash) ∧
       (x.str.result = 0 → ∃ kind ≤ 1, verifyFlash x kind (if kind = 0 then b2n (!d.str.bootB) else b2n (!d.str.cfgSlot1)) = 0) ∧
       ∀ k, (x.str.result.toNat ≠ 0 ∧ x.str.result.toNat ≠ 6 ∨ k < (if d.str.bootB then 0 else 0x1C00000) ∨ 0x3C00000 ≤ k) →
         fget 0xFF x.chip.flash k = fget 0xFF d.chip.flash k) ∧
     (op = 5 → d.mgt.ready = true → Effect .rollbackCommit s fun x =>
       (x.str.go = true → x.str.committing = true) ∧ (∀ i < 64, d.chip.til.almanac.thermo.getLsbD i = true → x.chip.til.almanac.thermo.getLsbD i = true) ∧
       (x.str.go = false → x.str.result = 0 → d.str.bootSvn ≤ 48 → d.str.cfgSvn ≤ 16 →
         d.str.bootSvn ≤ fuseFloor x.chip 0 ∧ d.str.cfgSvn ≤ fuseFloor x.chip 1 ∧ x.str.minBoot = d.str.bootVersion.toNat)) ∧
     (op = 5 → d.mgt.ready = true → d.str.committing = true →
       ((∃ r ∈ done.chip.dbk.queue, r.type = 6) → Gives .rollbackCommit s done) ∧
       ((∀ r ∈ done.chip.dbk.queue, r.type ≠ 6) → minVersion done.chip 0 = d.str.bootVersion.toNat →
         minVersion done.chip 1 = d.str.cfgVersion.toNat → Effect .rollbackCommit s fun x => x.str.result = 0 ∧ x.str.go = false ∧
           x.str.committing = false ∧ x.str.minBoot = d.str.bootVersion.toNat ∧ x.str.minCfg = d.str.cfgVersion.toNat)) ∧
     (op = 5 → d.mgt.ready = false → Effect .rollbackCommit s fun x => x.str.result = 8 ∧ x.str.go = false ∧ x.chip.til = d.chip.til))

/-- TAMPER, ENTROPY_HEALTH_FAILURE and LOCK_WRITE (R573, R580, R593): a sensor clears every key, the nonce and the sessions and halts the
Strongroom, whose command ends with result 8; a failed health test stops the generator alone; and a write to a locked limit is
counted and flagged, and changes no limit. -/
def Obligations.TamperClearsEveryKey : Prop :=
  ∀ (s : State) (n : Nat) (lock : BitVec 3), s.dev.mgt.powered = true →
    (s.dev.str.halted = false → Effect (.tamper n) s fun d =>
      d.str.halted = true ∧ d.str.keysHeld = false ∧ d.str.drbgOk = false ∧ d.str.nonce = none ∧ d.str.evt.getLsbD 3 = true ∧
      d.chip.cxl.sessions = [] ∧ d.chip.cxl.ideKeys = none ∧ d.chip.cxl.ideKeysIo = none ∧ d.str.go = false ∧
      (s.dev.str.go = true → d.str.result = 8) ∧ d.chip.mem = s.dev.chip.mem ∧ d.mgt = s.dev.mgt) ∧
    Gives .entropyHealthFailure s { s.dev with str := { s.dev.str with drbgOk := false } } ∧
    (s.dev.str.locks.getLsbD lock.toNat = true → Effect (.lockWrite lock) s fun d =>
      d.str.lockWrites = s.dev.str.lockWrites + 1 ∧ d.str.evt.getLsbD 2 = true ∧ d.str.locks = s.dev.str.locks ∧
      d.chip.fab = s.dev.chip.fab ∧ d.mgt = s.dev.mgt ∧ d.tel = s.dev.tel) ∧
    (s.dev.str.locks.getLsbD lock.toNat = false → Idle (.lockWrite lock) s)

/-! ### The data plane -/

/-- The Vector class (R138, R139, R141, R407): a unit whose sources are readable writes its results, each at its own storage
index under the destination's conversion, and moves on; the last unit ends the descriptor with status 0; a source that another
copy's entry holds ends it with FORMAT; nothing else changes. -/
def Obligations.VectorUnitsWriteTheirResults : Prop :=
  ∀ (s : State) (id : Nat) (e : Entry),
    ∀ x ∈ [(Instr.add id, 0x01), (.sub id, 0x02), (.mul id, 0x03), (.max id, 0x04), (.muladd id, 0x05), (.exp2 id, 0x06),
        (.recip id, 0x07), (.rsqrt id, 0x08), (.log2 id, 0x09), (.convert id, 0x0A), (.residualAdd id, 0x0B), (.rowsum id, 0x0C),
        (.rowmax id, 0x0D), (.layernorm id, 0x0E), (.rmsnorm id, 0x0F), (.silu id, 0x10), (.siluBwd id, 0x11),
        (.treeJoin id, 0x12)],
      let c := s.dev.chip
      let v := vecD e.desc
      let bad := scaleMismatch c e v.a || (v.twoSource && scaleMismatch c e v.b)
      running c id 2 x.2 = some e →
        InUnits x.1 s ∧ (bad = true → ChipEffect (x.1 1) s (EndedWith id 0x10)) ∧
        (bad = false → UnitOutcome (x.1 1) s id (prepare e (vecAccs c e) (partOf v.dest v.fmt v.nDest) c) fun c1 c' =>
          let e1 := curEntry c1 e
          Wrote e1 (vecWrites c1 e1) (vecHold e1) c1 c' ∧ SameUnits c c' ∧ OthersStay [id] c c' ∧
          if v.unitRows ≤ (v.next e).chunk then EndedWith id 0 c' else RunsAt id (v.next e).chunk (v.next e).groups c')

/-- STREAM (R115, R126, R134, R136): a group reads its K-blocks and, in the last pass, writes its columns; the last group ends
with status 0; a gathering batch does not run; and the members of a batch move and end together. What a member gathered into the buffer
is read there (R112, R134). -/
def Obligations.StreamCommitsItsGroups : Prop :=
  ∀ (s : State) (id : Nat) (e : Entry), IdsDistinct s.dev.chip → running s.dev.chip id 1 1 = some e →
    let c := s.dev.chip
    let a := arrD e.desc
    let cls := a.cls.getD 8
    let ms := membersOf c e
    let b := batchEntry e ms
    let nx := nextPos cls a.kFirst a.kCount (chunkGroups a e.chunk) e
    InUnits (.stream id) s ∧
    (e.lead.isSome = true → e.round = 0 → Idle (.stream id 1) s) ∧
    ((e.lead = none ∨ e.round ≠ 0) →
      (streamBad c b ms = true → ChipEffect (.stream id 1) s fun c' => ∀ x ∈ ms, EndedWith x.id 0x10 c') ∧
      (streamBad c b ms = false → match prepare b (streamAccs c (bindWindow c b) ms) (streamPart ms) c with
        | .wait c1 => Gives (.stream id 1) s { s.dev with chip := c1 }
        | .stop st _ => ChipEffect (.stream id 1) s fun c' => (∀ x ∈ ms, EndedWith x.id st c') ∧ SameStore c c'
        | .go c1 => ChipEffect (.stream id 1) s fun c' =>
          let h := holdReads c1 (bindWindow c1 b) (statAccs c1 { e with win := (bindWindow c1 b).win })
          SameUnits c c' ∧ OthersStay (ms.map (·.id)) c c' ∧
          (∀ x ∈ ms, if nx.chunk * a.chunk < a.nCols then RunsAt x.id nx.chunk nx.groups c' else EndedWith x.id 0 c') ∧
          (e.lead = none → Wrote h (groupWrites cls e.chunk e.kblock e.groups c1 h)
            (arrHold c1 h (groupCols a e.chunk e.groups)) c1 c')))

/-- The Window class (R153, R155 to R157, R160, R163): a convolution's group and a pooling operation's position block write
their results, from the region of their stripe as the tile holds it, and move on, to the next block where one is left and else to the
end with status 0; neither runs ahead of its stripe; and STRIPE_REGION_FETCH reads the next stripe's region where R160 lets it and changes no memory. -/
def Obligations.WindowUnitsWriteTheirResults : Prop :=
  ∀ (s : State) (id : Nat) (e : Entry),
    let c := s.dev.chip
    let x := winD e.desc e.record
    let f := x.dest.fmt.getD .fp32
    let ahead : Prop := e.round < x.stripeOf e
    let e1 (c1 : Chip) : Entry := holdReads c1 (curEntry c1 e) (regionAccs c1 (curEntry c1 e) (x.stripeOf (curEntry c1 e)))
    let moved (c' : Chip) : Prop := if e.block + 1 < x.blocks.length then RunsAt id 0 0 c' else EndedWith id 0 c'
    (∀ y ∈ [(Instr.convFwd id, 1), (.convDgrad id, 2), (.convWgrad id, 3)], running c id 8 y.2 = some e →
      let bad := scaleMismatch c e x.map || scaleMismatch c e x.second
      let nx := nextPos (x.cls.getD 8) x.kFirst x.kCount (cdiv (min x.chunk (x.nCols - e.chunk * x.chunk)) 16) e
      InUnits y.1 s ∧ (ahead → Idle (y.1 1) s) ∧ (¬ahead → bad = true → ChipEffect (y.1 1) s (EndedWith id 0x10)) ∧
      (¬ahead → bad = false → UnitOutcome (y.1 1) s id (prepare e (convAccs c e) (partOf x.dest f x.nDest) c) fun c1 c' =>
        let c2 := setEntry (e1 c1) c1
        Wrote (e1 c1) (convWrites c2 (e1 c1)) (convHold c2 (e1 c1)) c2 c' ∧ SameUnits c c' ∧
        OthersStay [id] c c' ∧ if nx.chunk * x.chunk < x.nCols then RunsAt id nx.chunk nx.groups c' else moved c')) ∧
    (∀ y ∈ [(Instr.poolMax id, 4), (.poolAvg id, 5), (.poolMaxBwd id, 6), (.poolAvgBwd id, 7)], running c id 8 y.2 = some e →
      let bad := scaleMismatch c e x.map || (x.op = 6 && scaleMismatch c e x.second)
      InUnits y.1 s ∧ (ahead → Idle (y.1 1) s) ∧ (¬ahead → bad = true → ChipEffect (y.1 1) s (EndedWith id 0x10)) ∧
      (¬ahead → bad = false → UnitOutcome (y.1 1) s id (prepare e (poolAccs c e) (partOf x.dest f x.nDest) c) fun c1 c' =>
        let c2 := setEntry (e1 c1) c1
        Wrote (e1 c1) (poolWrites c2 (e1 c1)) (poolHold c2 (e1 c1)) c2 c' ∧ SameUnits c c' ∧
        OthersStay [id] c c' ∧ moved c')) ∧
    (entryOf c id = some e → e.phase = .started → dClass e.desc = 8 →
      (stripeReady e = false → Idle (.stripeRegionFetch id) s) ∧
      (stripeReady e = true →
        UnitOutcome (.stripeRegionFetch id) s id (prepare e (stripeAccs c e) (fun _ _ => false) c) fun _ c' =>
          SameStore c c' ∧ SameUnits c c' ∧ ∃ y, entryOf c' id = some y ∧ y.phase = .started ∧ y.round = e.round + 1))

/-- Attention segments (R174 to R177, R185, R193, R209): a segment starts only where its row state, its headers and its page
table fit it, and then marks the state busy; each group reads its key blocks from the highest down; and the last one writes row
state, results and node lists in one commit, clears busy and ends with status 0. -/
def Obligations.SegmentsStartAndCommit : Prop :=
  ∀ (s : State) (id : Nat) (e : Entry), IdsDistinct s.dev.chip →
    ∀ y ∈ [(Instr.fwd id, 1), (.bwd id, 2)], running s.dev.chip id 3 y.2 = some e →
      let c := s.dev.chip
      let a := attD e.desc e.record
      let e0 := bindWindow c e
      let ms := membersOf c e
      let b := bindWindow c (batchEntry e ms)
      (∀ n t, exec (y.1 0) s = .next t → exec (y.1 (n + 1)) s = exec (y.1 n) t) ∧
      (e.lead.isSome = true → e.round = 0 → Idle (y.1 0) s) ∧
      (e.lead = none → e.round ≠ 2 → match prepare e0 (a.startAccs c e0) (fun _ _ => false) (attActive e0 true c) with
        | .wait c1 => Gives (y.1 0) s { s.dev with chip := c1 }
        | .stop st _ => ChipEffect (y.1 0) s (EndedWith id st)
        | .go c1 => ChipEffect (y.1 0) s fun c' =>
          let e1 := curEntry c1 e0
          let busy := decide (a.state ≠ 0) && decide (peekNat c1 e1 (a.state + 2) 1 % 2 = 1)
          SameCells [(a.state + 2, 1)] c c' ∧ OthersStay [id] c c' ∧
          if a.stateBad c1 e1 then EndedWith id 0x02 c' else if busy then EndedWith id 0x05 c'
          else if a.headerBad c1 e1 then EndedWith id 0x10 c'
          else if (a.dropped c1 e1).isSome then EndedWith id 0x0E c'
          else (∃ x, entryOf c' id = some x ∧ x.phase = .started ∧ x.round = 2) ∧
            (a.state ≠ 0 → a.state + 2 < hbmTop → (readByte c' (a.state + 2)).getLsbD 0 = true)) ∧
      (e.lead = none → e.round = 2 →
        (segBad c b ms = true → ChipEffect (y.1 0) s (EndedWith id 0x10)) ∧
        (segBad c b ms = false → match prepare b (segAccs c b ms) (segPart ms) c with
          | .wait c1 => Gives (y.1 0) s { s.dev with chip := c1 }
          | .stop st _ => ChipEffect (y.1 0) s fun c' => EndedWith id st c' ∧ SameCells [(a.state + 2, 1)] c c'
          | .go c1 => ChipEffect (y.1 0) s fun c' => OthersStay [id] c c' ∧
            let h := holdReads c1 b (segReads c1 b ms)
            if segLast e then EndedWith id 0 c' ∧ SameStore (a.setBusy false (commitAll h (segWrites c1 h) c1)) c'
            else SameStore c c' ∧ ∃ x, entryOf c' id = some x ∧ x.phase = .started ∧ x.groups = e.groups + 1))

/-- The paged cache (R206, R207, R210 to R212): CACHE_WRITE, CACHE_MATCH and CACHE_RELEASE either make all their writes in one commit
and end with status 0, or end with the status that they found and change no memory. -/
def Obligations.CacheOperationsCommitWhole : Prop :=
  ∀ (s : State) (id : Nat) (e : Entry),
    ∀ y ∈ ([(.cacheWrite id, 3, cacheWrite), (.cacheMatch id, 4, cacheMatch), (.cacheRelease id, 5, cacheRelease)] :
        List (Instr × Nat × (CacheD → CacheM Unit))),
      let c := s.dev.chip
      let e0 := bindWindow c e
      running c id 3 y.2.1 = some e →
        UnitOutcome y.1 s id (prepare e0 (cacheRun y.2.2 e0 c).accs (fun _ _ => true) (attActive e0 true c)) fun c1 c' =>
          let r := cacheRun y.2.2 (curEntry c1 e0) c1
          OthersStay [id] c c' ∧ c'.ory.wqs = c.ory.wqs ∧ c'.vsp = c.vsp ∧
          match r.fail with
          | some st => EndedWith id st c' ∧ SameStore c c'
          | none => EndedWith id 0 c' ∧ Wrote (curEntry c1 e0) r.wrs (fun _ _ => false) c1 c'

/-- The Stack class (R220 to R222, R229 to R232): OPEN empties every lane and registers the stack, CLOSE empties and forgets
it, DROP removes the newest frames and EXTENT answers for too many, a PUSH to the local tier writes its frame, directory entry and lane, an
acknowledged PUSH to another tier commits, and a POP of a local frame that passes its checks writes the decoded bytes and
removes the frame; a stack that is not open ends with ACCESS. -/
def Obligations.StackOperationsKeepTheirLanes : Prop :=
  ∀ (s : State) (id : Nat) (e : Entry) (o : OpenStack) (c1 c2 c3 : Chip),
    let c := s.dev.chip
    let c0 := codActive e c
    let d := stackD e.desc
    let sc := dSc e.desc
    let e1 := curEntry c1 e
    let none2 : TRef → Nat → Bool := fun _ _ => false
    (running c id 11 1 = some e → d.area + 8192 ≤ hbmTop →
      prepare e [.rd (.plain d.area 128) 0 128, .wr (.plain d.area 8192) 128 (8192 - 128)] none2 c0 = .go c1 →
      ChipEffect (.stackOpen id) s fun c' => EndedWith id 0 c' ∧ SameCells [(d.area, 8192)] c c' ∧ readByte c' (d.area + 128) = 1 ∧
        (∀ t < 96, readLane c' d.area t = ⟨[0, 0, 0], 0, 0, false, 0⟩) ∧
        (∃ r, fget none c'.openStacks sc = some ⟨d.area, r, []⟩) ∧ ∀ k, k ≠ sc → fget none c'.openStacks k = fget none c.openStacks k) ∧
    (fget none c.openStacks sc = none → ∀ y ∈ [(Instr.push id, 2), (.pop id, 3), (.drop id, 4), (.stackClose id, 5)],
      running c id 11 y.2 = some e → ChipEffect y.1 s fun c' => EndedWith id 0x0E c' ∧ c'.mem = c.mem) ∧
    (fget none c.openStacks sc = some o →
      (running c id 11 5 = some e → o.area + 8192 ≤ hbmTop →
        prepare e [.wr (.plain o.area 8192) 128 (8192 - 128)] none2 c0 = .go c1 →
        ChipEffect (.stackClose id) s fun c' => EndedWith id 0 c' ∧ SameCells [(o.area, 8192)] c c' ∧
          (∀ t < 96, readLane c' o.area t = ⟨[0, 0, 0], 0, 0, false, 0⟩) ∧ fget none c'.openStacks sc = none) ∧
      (running c id 11 4 = some e → o.area + 8192 ≤ hbmTop → e.tile < 96 → prepare e (laneAccs o.area e.tile true) none2 c0 = .go c1 →
        let l := readLane c o.area e.tile
        let n := if d.drop = 0xFFFFFFFF then l.frames else d.drop
        ChipEffect (.drop id) s fun c' => if l.frames < n then EndedWith id 0x02 c' ∧ c'.mem = c.mem
          else EndedWith id 0 c' ∧ SameCells [(laneAddr o.area e.tile, 64)] c c' ∧
            (readLane c' o.area e.tile).frames = l.frames - n ∧
            readLane c' o.area e.tile = cutLane c o e.tile (l.frames - n) l) ∧
      (running c id 11 2 = some e → e.round = 1 → e.acks = [] → uioWritesOpen c e = false →
        ChipEffect (.push id) s fun c' => EndedWith id 0 c' ∧
          Wrote e (pushWrites c e o e.block (4096 * e.groups)) none2 c c') ∧
      (running c id 11 2 = some e → e.round ≠ 1 → (regionD o.region).place (readLane c o.area e.tile) (rawFrame d.count) = none →
        ChipEffect (.push id) s fun c' => EndedWith id 0x02 c' ∧ c'.mem = c.mem) ∧
      (running c id 11 2 = some e → e.round ≠ 1 → (regionD o.region).place (readLane c o.area e.tile) (rawFrame d.count) = some 0 →
        let at_ := (regionD o.region).lane 0 e.tile + (readLane c o.area e.tile).tops.getD 0 0
        prepare e (pushAccs c e o 0 at_) none2 c0 = .go c1 →
        let fr := (pushFrame c1 e1).bytes
        ChipEffect (.push id) s fun c' => EndedWith id 0 c' ∧
          Wrote e1 (⟨⟨at_, fr.length, 0, 0, 1, d.ref.tid⟩, 0, fr, false⟩ :: pushWrites c1 e1 o 0 fr.length) none2 c1 c') ∧
      (running c id 11 3 = some e → prepare e (laneAccs o.area e.tile false) none2 c0 = .go c1 →
        let l := readLane c o.area e.tile
        let i := l.frames - 1
        let dir := readDir c o.area e.tile i
        let at_ := (regionD o.region).lane 0 e.tile + 4096 * dir.offset
        let n := 4096 * dir.length
        let fr := readBytes c at_ n
        (l.frames = 0 → ChipEffect (.pop id) s (EndedWith id 0x02)) ∧
        (l.frames ≠ 0 → (dir.layer ≠ d.layer ∨ dir.part ≠ d.part) → ChipEffect (.pop id) s (EndedWith id 0x0E)) ∧
        (l.frames ≠ 0 → dir.layer = d.layer → dir.part = d.part → dir.tier = 0 →
          prepare e1 [.rd (.plain at_ n) 0 n] none2 c1 = .go c2 → frameNat fr 2 1 = d.ref.format → frameNat fr 16 8 = d.count →
          (∀ b < n / 4096, checkBlock (curEntry c2 e1) (.rd ⟨at_, n, 0, 0, 1, frameNat fr 4 4⟩ 0 n) b c2 = .go c2) →
          prepare (curEntry c2 e1) (popAccs e o i) (popPart e) c2 = .go c3 →
          ChipEffect (.pop id) s fun c' => EndedWith id 0 c' ∧
            Wrote (curEntry c3 e) (popWrites c3 e o i fr) none2 c3 c')))

/-- ENCODE and DECODE (R225 to R227, R249), and the codec between them: an ENCODE writes the frame of its source, a DECODE of a
frame that passes its checks writes the decoded bytes, either ends with status 0, and in the raw and lossless modes decoding an
encoded frame gives its source back. -/
def Obligations.CodecWritesFramesAndSources : Prop :=
  (∀ (s : State) (id : Nat) (e : Entry) (c1 c2 : Chip),
    let c := s.dev.chip
    let c0 := codActive e c
    let d := codecD e.desc
    let e1 := curEntry c1 e
    let none2 : TRef → Nat → Bool := fun _ _ => false
    let g (o n : Nat) : Nat := peekNat c1 e1 (d.src.addr + o) n
    let n := min (g 24 8) d.src.ext
    (running c id 5 1 = some e → prepare e (encodeAccs e) none2 c0 = .go c1 → ChipEffect (.encode id) s fun c' =>
      EndedWith id 0 c' ∧ Wrote e1 [encodeWrite e1 (encodeFrame c1 e1)] none2 c1 c') ∧
    (running c id 5 2 = some e → prepare e [.rd (.plain d.src.addr 64) 0 64] none2 c0 = .go c1 →
      (g 0 1 ≠ 0x20 → ChipEffect (.decode id) s (EndedWith id 0x03)) ∧
      (g 0 1 = 0x20 → g 2 1 ≠ d.dest.format → ChipEffect (.decode id) s (EndedWith id 0x10)) ∧
      (g 0 1 = 0x20 → g 2 1 = d.dest.format → (d.count = 0 ∨ d.count = g 16 8) → g 16 8 ≤ d.dest.ext →
        prepare e1 [.rd ⟨d.src.addr, n, 0, 0, 1, g 4 4⟩ 0 n, .wr d.dest 0 (g 16 8)]
          (fun q b => q == d.dest && !coversBlock [(d.dest, 0, g 16 8)] q b) c1 = .go c2 →
        ChipEffect (.decode id) s fun c' => EndedWith id 0 c' ∧
          Wrote (curEntry c2 e1) [⟨d.dest, 0, decFrame (peekN c2 (curEntry c2 e1) d.src.addr n), false⟩] none2 c2 c'))) ∧
  ∀ (raw : Bool) (g : FrameTag) (src : List Byte), g.mode ≤ 1 → src.length < 2 ^ 40 → decFrame (encFrame raw g src).bytes = src

/-- COPY and FILL (R404, R407): a block of 4 KiB takes its source's bytes, or the pattern from the operation's first byte on, and
the last block ends with status 0 where nothing is unacknowledged; a source on another module is asked for, once; a source that
another copy's entry holds ends it with FORMAT (R262).

The memory-side operations (R71, R90, R354 to R357): MS_LANE_INIT writes headers and zero lanes, MS_LANE_OUT the lanes'
values, and a row of a scatter updates the table's words as `applyRow` adds them; a row index beyond the table ends with
EXTENT before anything is written, and the last row with UNCORRECTABLE where a word was poisoned and 0 where none was. -/
def Obligations.MemorySideOperationsWriteTheirBlocks : Prop :=
  (∀ (s : State) (id : Nat) (e : Entry),
     let c := s.dev.chip
     let x := moveD e.desc
     let o := 4096 * e.chunk
     let n := min 4096 (x.count - o)
     let bad : Prop := x.op = 1 ∧ x.srcRemote = false ∧ scaleMismatch c e x.src = true
     let moved (c' : Chip) : Prop := if x.blocks ≤ e.chunk + 1 ∧ e.acks = [] ∧ uioWritesOpen c' e = false then EndedWith id 0 c'
       else RunsAt id (e.chunk + 1) e.groups c'
     (∀ y ∈ [(Instr.copy id, 1), (.fill id, 2)], running c id 4 y.2 = some e → InUnits y.1 s ∧
       (x.blocks ≤ e.chunk → e.acks = [] → uioWritesOpen c e = false → ChipEffect (y.1 1) s fun c' => EndedWith id 0 c' ∧ SameStore c c') ∧
       (e.chunk < x.blocks → bad → moveMissing e = false → ChipEffect (y.1 1) s fun c' => EndedWith id 0x10 c' ∧ SameStore c c') ∧
       (e.chunk < x.blocks → ¬bad → moveMissing e = false → x.dstRemote = false →
         UnitOutcome (y.1 1) s id (prepare e (moveAccs c e) (movePart e) c) fun c1 c' =>
           Wrote (curEntry c1 e) [⟨x.dst, o, x.data c1 (curEntry c1 e) o n, false⟩] (fun _ _ => false) c1 c' ∧
           SameUnits c c' ∧ OthersStay [id] c c' ∧ moved c' ∧
           (x.dst.addr + x.count ≤ hbmTop → SameCells [(x.dst.addr + o, n)] c c' ∧
             (y.2 = 2 → ∀ i < n, readByte c' (x.dst.addr + o + i) = .ofNat 8 (x.pattern.toNat / 2 ^ (8 * ((o + i) % 4)))) ∧
             (y.2 = 1 → x.srcRemote = false → e.held = [] → x.src.addr + x.count ≤ hbmTop →
               ∀ i < n, readByte c' (x.dst.addr + o + i) = readByte c (x.src.addr + o + i))))) ∧
     (running c id 4 1 = some e → e.chunk < x.blocks → moveMissing e = true →
       (e.asked = true → Idle (.copy id 1) s) ∧
       (e.asked = false → ChipEffect (.copy id 1) s fun c' => SameStore c c' ∧
         ∃ r ∈ c'.fab.remotes, r.entry = id ∧ r.type = .read ∧ r.dest = x.peer ∧ r.addr = x.src.addr + o))) ∧
  (∀ (s : State) (id : Nat) (e : Entry) (c1 : Chip),
     let c := s.dev.chip
     let x := memD e.desc
     let e1 := curEntry c1 e
     let none2 : TRef → Nat → Bool := fun _ _ => false
     let lb := laneBytes x.wide
     let ob := laneBytes (tableWide c e x.idx)
     (running c id 4 0x10 = some e → UnitOutcome (.msLaneInit id) s id (prepare e [.wr x.table (x.rows * lb) (x.len * lb)] none2 c)
       fun c2 c' => EndedWith id 0 c' ∧ SameUnits c c' ∧
         Wrote (curEntry c2 e) [⟨x.table, x.rows * lb, laneInitBytes x, false⟩] none2 c2 c') ∧
     (running c id 4 0x13 = some e →
       UnitOutcome (.msLaneOut id) s id (prepare e [.rd x.idx 0 16, .rd x.idx (x.rows * ob) (x.len * ob), .wr x.table 0 (1024 * x.len)]
         (laneOutPart e) c)
         fun c2 c' => EndedWith id 0 c' ∧ SameUnits c c' ∧ Wrote (curEntry c2 e)
           (f32For x.table ((laneOutValues c2 (curEntry c2 e)).zipIdx.map fun (v, i) => (i, v)) c2).1 none2 c2 c') ∧
     (∀ y ∈ [(Instr.msExpMax id, 0x11), (.msLaneAdd id, 0x12), (.msIntAdd id, 0x14), (.msFloatAdd id, 0x15)],
       running c id 4 y.2 = some e → InUnits y.1 s ∧
       (∀ st c2, prepare e (scatterIdx e) none2 c = .stop st c2 → ChipEffect (y.1 1) s fun c' => EndedWith id st c' ∧ SameStore c c') ∧
       (prepare e (scatterIdx e) none2 c = .go c1 →
         (scatterBeyond c1 e1 = true → ChipEffect (y.1 1) s fun c' => EndedWith id 0x02 c' ∧ SameStore c c') ∧
         (scatterBeyond c1 e1 = false → UnitOutcome (y.1 1) s id (prepare e1 (scatterAccs c1 e1) none2 c1) fun c2 c' =>
           let r := applyRow x (curEntry c2 e1) e.chunk c2
           SameStore r.2 c' ∧ SameUnits c c' ∧ OthersStay [id] c c' ∧ c'.hbm.adderOps = r.2.hbm.adderOps ∧
           if x.rows ≤ e.chunk + 1 then EndedWith id (if r.1 = true ∨ e.from_ = 1 then 0x0B else 0) c'
           else RunsAt id (e.chunk + 1) e.groups c'))))

/-! ### Updates, clearances and the Assay -/

/-- ADAMW, CARRY and CONFIGURE (R258, R260, R266, R269, R270, R284): a slice is written whole to the inactive generation, the run
record counts its master elements, and the descriptor ends with status 0; a copy that another identifier's entry holds ends either with
FORMAT (R262); CONFIGURE binds its record and step. -/
def Obligations.UpdatesWriteTheInactiveGeneration : Prop :=
  ∀ (s : State) (id : Nat) (e : Entry),
    let c := s.dev.chip
    let u := updD e.desc
    let p := parD e.record
    let bad := p.copies.any fun g => scaleMismatch c e g.ref
    (running c id 9 1 = some e → bad = true → ChipEffect (.adamw id) s (EndedWith id 0x10)) ∧
    (running c id 9 1 = some e → bad = false →
      UnitOutcome (.adamw id) s id (prepare e (adamwAccs c u p e) (updPart (updRanges p (p.feats u.first 1))) c) fun c1 c' =>
        EndedWith id 0 c' ∧ SameUnits c c' ∧ OthersStay [id] c c' ∧
        SameStore (countWritten (adamwCount u p)
          (commitAll (curEntry c1 e) (adamwPlan u p (curEntry c1 e) c1).1 c1)) c') ∧
    (∀ w ∈ (adamwPlan u p e c).1, w.inactive = true) ∧
    (running c id 9 2 = some e → bad = true → ChipEffect (.carry id) s (EndedWith id 0x10)) ∧
    (running c id 9 2 = some e → bad = false → UnitOutcome (.carry id) s id
      (prepare e (p.copies.flatMap (fun g => scaleAccs c e g.ref) ++ carryAccs e)
        (updPart (updRanges p (p.feats u.first u.count))) c) fun c1 c' =>
        EndedWith id 0 c' ∧ SameUnits c c' ∧ OthersStay [id] c c' ∧ c'.run = c.run ∧
        SameStore (countWritten ((p.feats u.first u.count).length * p.nOut)
          (commitAll (curEntry c1 e) (carryWrites c1 (curEntry c1 e)) c1)) c') ∧
    (running c id 9 3 = some e → ChipEffect (.configure id) s fun c' =>
      EndedWith id 0 c' ∧ c'.run.recAddr = some (byt e.desc 16 8) ∧ c'.run.step.toNat = byt e.record 128 8 ∧
      (c'.run.active = true ↔ byt e.record 136 1 = 1) ∧ c'.asy.nfCount = 0 ∧ c'.asy.nextCfg = [] ∧ SameStore c c' ∧ SameUnits c c')

/-- CLEARANCE and CLEARANCE_VERDICT (R275 to R279, R320, R323): a CLEARANCE at its turn forms its verdict and enters the exchange
with the next sequence number; a combined verdict of 0 passes, in parts where a cut says so (R281; log entry 52), so that the step rises by one, the active generation changes and the run record
says so; any other ends the descriptor with the status of R279, keeps step and generation, and writes the verdicts and the rejected count. -/
def Obligations.ClearancesPassOrRejectTheStep : Prop :=
  ∀ (s : State) (id : Nat) (e : Entry), running s.dev.chip id 9 4 = some e →
    let c := s.dev.chip
    let u := updD e.desc
    let q := c.gq u.gq
    let plain (a : Nat) : Prop := c.run.recAddr = some a ∧ a % 16 = 0 ∧ a + 256 ≤ hbmTop ∧ ∀ i < 256, poisonedAt c (a + i) = false
    let rejected (st : Nat) (comb own : W32) (a : Nat) (c' : Chip) : Prop :=
      readNat c' (a + 137) 1 = st ∧ readNat c' (a + 140) 4 = comb.toNat ∧ readNat c' (a + 176) 4 = own.toNat ∧
      readNat c' (a + 144) 8 = 0 ∧ readNat c' (a + 152) 4 = 0 ∧ readNat c' (a + 168) 8 = (readNat c (a + 168) 8 + 1) % 2 ^ 64 ∧
      SameCells [(a + 137, 1), (a + 140, 4), (a + 144, 8), (a + 152, 4), (a + 168, 8), (a + 176, 4)] c c'
    (collOf c id = none → myTurn c e u.gq = false → Idle (.clearance id) s) ∧
    (collOf c id = none → myTurn c e u.gq = true → (q.bound = false ∨ c.run.recAddr = none) →
      ChipEffect (.clearance id) s (EndedWith id 0x0E)) ∧
    (collOf c id = none → myTurn c e u.gq = true → q.bound = true → c.run.recAddr ≠ none → c.clr.early = [] →
      UnitOutcome (.clearance id) s id (prepare e (lossAccs c e) (fun _ _ => false) c) fun c1 c' =>
        let e1 := curEntry c1 e
        let lossBad := (lossElems c1 e1).any fun i => !f32finite (.ofNat 32 (peekNat c1 e1 (u.ref.addr + 4 * i) 4))
        SameStore c c' ∧ (c'.gq u.gq).nextSeq = q.nextSeq + 1 ∧
        InFlight id u.gq 0x20 q.nextSeq.toNat q.epoch.toNat
          (clrDigest (grpOf q.record) q.epoch.toNat q.nextSeq.toNat c.run.step.toNat) c' ∧
        ∃ x, keptFor c' u.gq = some x ∧ x.final = false ∧ x.acted = false ∧ x.passed = 0 ∧ x.verdict.toNat = b2n lossBad +
          2 * b2n (c.asy.nfCount ≠ 0) + 4 * b2n (getRun c 152 4 ≠ 0) + 8 * b2n (getRun c 144 8 ≠ byt c.run.cfg 32 8) + 16 * b2n u.veto) ∧
    (∀ k x cut, collOf c id = some k → keptFor c k.gq = some x →
      (∀ n, k.phase = .verdict → x.result = 0 → ChipEffect (.clearanceVerdict ⟨id, some n⟩) s fun c' =>
        c'.run = c.run ∧ entryOf c' id = some e ∧ keptFor c' k.gq = some { x with passed := min (x.passed + n) passParts }) ∧
      (k.phase = .verdict → x.result = 0 → ChipEffect (.clearanceVerdict ⟨id, none⟩) s fun c' =>
        EndedWith id 0 c' ∧ c'.run.step = c.run.step + 1 ∧ c'.run.active = !c.run.active ∧ c'.run.cfg = c.run.cfg ∧
        (∀ a, plain a → readNat c' (a + 128) 8 = (c.run.step + 1).toNat ∧ readNat c' (a + 136) 1 = b2n (!c.run.active) ∧
          readNat c' (a + 137) 1 = 0 ∧ readNat c' (a + 140) 4 = 0 ∧ readNat c' (a + 144) 8 = 0 ∧ readNat c' (a + 152) 4 = 0 ∧
          readNat c' (a + 176) 4 = x.verdict.toNat)) ∧
      (k.phase = .verdict → x.result ≠ 0 → ChipEffect (.clearanceVerdict ⟨id, cut⟩) s fun c' =>
        EndedWith id (failStatus x.result) c' ∧ c'.run.step = c.run.step ∧ c'.run.active = c.run.active ∧
        ∀ a, plain a → rejected (failStatus x.result) x.result x.verdict a c') ∧
      (k.phase = .mismatch → ChipEffect (.clearanceVerdict ⟨id, cut⟩) s fun c' =>
        EndedWith id 0x09 c' ∧ c'.run.step = c.run.step ∧ ∀ a, plain a → rejected 0x09 x.result x.verdict a c') ∧
      (k.phase = .abandoned → ChipEffect (.clearanceVerdict ⟨id, cut⟩) s fun c' =>
        EndedWith id 0x0F c' ∧ c'.run.step = c.run.step ∧ ∀ a, plain a → ∃ w, rejected 0x0F w x.verdict a c') ∧
      ((k.phase = .head ∨ k.phase = .tranches) → Idle (.clearanceVerdict ⟨id, cut⟩) s)) ∧
    (∀ cut, collOf c id = none → Idle (.clearanceVerdict ⟨id, cut⟩) s)

/-- ASSAY_CHECK and ALARM_ACK (R94 to R96, R100, R103): a due check bins the narrow and wide results that its operation left, is counted
in that bin of each slot of the tensor whose histogram is on, to show from the next step on (log entry 45), and is due no more; a bin at or above a slot's threshold sets its error event; and a write of the status byte lowers the alarm, from the
streak so far on, and the error event. -/
def Obligations.ChecksLandInTheirSlots : Prop :=
  ∀ (s : State) (id block : Nat) (v : BitVec 8),
    let c := s.dev.chip
    (c.asy.due.all (fun d => !(decide (d.op = id) && decide (d.block = block))) = true → Idle (.assayCheck id block) s) ∧
    (∀ d, (c.asy.due.find? fun d => decide (d.op = id) && decide (d.block = block)) = some d →
      (c.asy.slots.map (·.1)).Nodup →
      let bin := assayBin d.narrow d.wide
      let tid := d.tensor
      ChipEffect (.assayCheck id block) s fun c' =>
        c'.asy.due = c.asy.due.erase d ∧ c'.asy.checks = ctrAdd c.asy.checks 1 ∧ SameStore c c' ∧ c'.ory = c.ory ∧
        (∀ x ∈ c.asy.slots, x.2.tensor.toNat = tid → x.2.histEn = true → x.2 ≠ Slot.reset →
          fget 0 (fget Slot.reset c'.asy.slots x.1).newChecks bin = fget 0 x.2.newChecks bin + 1 ∧
          (fget Slot.reset c'.asy.slots x.1).hist = x.2.hist ∧
          (x.2.thrBin.toNat ≠ 0 → x.2.thrBin.toNat ≤ bin →
            (fget Slot.reset c'.asy.slots x.1).errEvent = true ∧ c'.asy.evt.getLsbD 0 = true)) ∧
        (∀ x ∈ c.asy.slots, x.2.tensor.toNat ≠ tid → fget Slot.reset c'.asy.slots x.1 = fget Slot.reset c.asy.slots x.1)) ∧
    (Live s → ChipEffect (.alarmAck v) s fun c' =>
      let i := c.asy.slotSel.toNat
      let o := fget Slot.reset c.asy.slots i
      let n := fget Slot.reset c'.asy.slots i
      n.alarm = (o.alarm && !v.getLsbD 0) ∧ n.alarmBase = (if v.getLsbD 0 then o.streak else o.alarmBase) ∧
      n.errEvent = (o.errEvent && !v.getLsbD 1) ∧ n.streak = o.streak ∧ n.hist = o.hist ∧
      (∀ k, k ≠ i → fget Slot.reset c'.asy.slots k = fget Slot.reset c.asy.slots k) ∧
      c' = { c with asy := { c.asy with slots := c'.asy.slots } })

/-! ### Collectives -/

/-- The data collectives (R295 to R297, R299, R305, R309): one whose turn has not come waits, one of an unbound queue ends with
ACCESS, one of another epoch with EPOCH and its event, and one at its turn takes the next sequence number with its digest; a
movement whose head has agreed writes the members' parts and its own, and ends; an all-gather of which a block arrives with another seal
than its own ends with SEAL_MISMATCH (R271; log entry 83). -/
def Obligations.CollectivesTakeTheirTurn : Prop :=
  ∀ (s : State) (id : Nat) (e : Entry) (parts : List (List Byte)) (seals : List (List W32)) (data : List Byte) (c1 : Chip),
    ∀ y ∈ [(Instr.allReduce id, 1), (.reduceScatter id, 2), (.allGather id ⟨parts, seals⟩, 3), (.broadcast id data, 4),
        (.allToAll id parts, 5)],
      let c := s.dev.chip
      let x := collD e.desc
      let q := c.gq x.gq
      let g := grpOf q.record
      let ep := q.epoch.toNat
      let l := listBytes e 0 32
      let digest := collDigest g ep q.nextSeq.toNat x.op x.red ((x.shares g l).headD x.src).format (x.target l).format x.count x.root
        x.drift 0
      running c id 6 y.2 = some e →
        (collOf c id = none → myTurn c e x.gq = false → Idle y.1 s) ∧
        (collOf c id = none → myTurn c e x.gq = true → q.bound = false → ChipEffect y.1 s fun c' =>
          EndedWith id 0x0E c' ∧ SameStore c c' ∧ c'.gq x.gq = q) ∧
        (collOf c id = none → myTurn c e x.gq = true → q.bound = true → byt e.desc 14 2 ≠ ep → ChipEffect y.1 s fun c' =>
          EndedWith id 0x0A c' ∧ c'.clr.evt.getLsbD 4 = true ∧ SameStore c c' ∧ c'.gq x.gq = q) ∧
        (collOf c id = none → myTurn c e x.gq = true → q.bound = true → byt e.desc 14 2 = ep → c.clr.early = [] →
          (g.me ≠ 0 ∨ (g.sw = true ∧ c.clr.switchEn = true ∧ qualifies c g.tb (g.planes.headD 0) = true)) →
          ChipEffect y.1 s fun c' => InFlight id x.gq y.2 q.nextSeq.toNat ep digest c' ∧ (c'.gq x.gq).nextSeq = q.nextSeq + 1 ∧
            SameStore c c' ∧ ∀ i, i ≠ x.gq → c'.gq i = c.gq i) ∧
        (∀ k, collOf c id = some k → (y.2 ≤ 2 ∨ k.phase ≠ .moving) → Idle y.1 s) ∧
        (∀ k, collOf c id = some k → 3 ≤ y.2 → k.phase = .moving → k.sent = true → k.lost = false →
          let bs := if y.2 = 4 then [data] else parts
          let gk := c.grp k.gq
          (partsFit x gk bs = false → Idle y.1 s) ∧
          (partsFit x gk bs = true → prepare e (receiveAccs x gk) (receivePart x gk) c = .go c1 →
            let e1 := curEntry c1 e
            let ws := receiveWrites c1 e1 gk bs
            let r := driftRole e1 x gk (commitAll e1 ws (countWrites e1 ws c1))
            let bad := badSeal x bs (if y.2 = 3 then seals else [])
            (bad = none → ChipEffect y.1 s fun c' => EndedWith id r.1 c' ∧ SameStore r.2 c' ∧ k ∉ c'.clr.colls) ∧
            (bad ≠ none → ChipEffect y.1 s fun c' => EndedWith id 0x07 c' ∧ SameStore c c' ∧ k ∉ c'.clr.colls)))

/-- SEND and RECV (R303): at its turn each side sends the digest of the pair's transfer; equal digests let the data go, which the sender reads
and the receiver writes, and both end with status 0; different ones end with MISMATCH and its event.

GROUP_OPEN, GROUP_CLOSE, RESHARD and ADOPT (R292, R298, R317, R327): an open takes the record's members and epoch and
starts the head that binds them; a close at its turn unbinds the queue and forgets its collectives; a reshard to another epoch than the next
ends with EPOCH; and an adoption takes its rank, and writes the outcome of each group that has settled, until the last one ends it with
status 0. -/
def Obligations.PairsAndGroupsAgree : Prop :=
  (∀ (s : State) (id : Nat) (e : Entry) (peer : W64) (data : List Byte) (c1 : Chip),
     let c := s.dev.chip
     let x := collD e.desc
     let q := c.gq x.gq
     let gid := BitVec.ofNat 32 (grpOf q.record).id
     let rank := c.rankOf x.gq x.root
     let f := x.dst.fmt.getD .fp32
     (∀ y ∈ [(Instr.send id peer, 6), (.recv id peer data, 7)], running c id 6 y.2 = some e →
       let n := fget 0 (if y.2 = 6 then q.sends else q.recvs) x.root
       (e.round = 0 → myTurn c e x.gq = false → Idle y.1 s) ∧
       (e.round = 0 → myTurn c e x.gq = true → q.bound = true → byt e.desc 14 2 = q.epoch.toNat → e.cancel = true →
         ChipEffect y.1 s (EndedWith id 0x06)) ∧
       (e.round = 0 → myTurn c e x.gq = true → q.bound = true → byt e.desc 14 2 = q.epoch.toNat → e.cancel = false →
         ChipEffect y.1 s fun c' => (∃ z, entryOf c' id = some z ∧ z.phase = .started ∧ z.round = 1 ∧ z.groups = n) ∧
           c'.out = c.out ++ [.pairDigest gid rank (pairDigest (grpOf q.record) q.epoch.toNat n x (y.2 = 6))] ∧ SameStore c c') ∧
       (e.round = 1 → peer ≠ ownPair c e → ChipEffect y.1 s fun c' =>
         EndedWith id 0x09 c' ∧ c'.clr.evt.getLsbD 0 = true ∧ SameStore c c')) ∧
     (running c id 6 6 = some e → e.round = 1 → peer = ownPair c e → scaleMismatch c e x.src = true →
       ChipEffect (.send id peer) s fun c' => EndedWith id 0x10 c' ∧ SameStore c c') ∧
     (running c id 6 6 = some e → e.round = 1 → peer = ownPair c e → scaleMismatch c e x.src = false →
       prepare e (scaleAccs c e x.src ++ partAccs x.src x.count 0 x.count false) (fun _ _ => false) c = .go c1 →
       ChipEffect (.send id peer) s fun c' => SameStore c c' ∧ (∃ z, entryOf c' id = some z ∧ z.phase = .started ∧ z.round = 2) ∧
         c'.out = c1.out ++ [.move gid rank (partBytes c1 (curEntry c1 e) x.src x.count 0 x.count)]) ∧
     (running c id 6 6 = some e → e.round = 2 → ChipEffect (.send id peer) s fun c' => EndedWith id 0 c' ∧ SameStore c c') ∧
     (running c id 6 7 = some e → e.round = 1 → peer = ownPair c e →
       data.length = (partRanges f x.count 0 x.count).foldl (fun s r => s + r.2) 0 →
       prepare e (partAccs x.dst x.count 0 x.count true) (partOf x.dst f x.count) c = .go c1 →
       ChipEffect (.recv id peer data) s fun c' => EndedWith id 0 c' ∧
         Wrote (curEntry c1 e) (partWrites x.dst x.count 0 x.count data) (fun _ _ => false) c1 c')) ∧
  (∀ (s : State) (id : Nat) (e : Entry),
     let c := s.dev.chip
     let x := collD e.desc
     let gq := x.gq
     let q := c.gq gq
     let g := grpOf e.record
     let leads (b : Grp) : Prop := b.me ≠ 0 ∨ (b.sw = true ∧ c.clr.switchEn = true ∧ qualifies c b.tb (b.planes.headD 0) = true)
     (∀ y ∈ [(Instr.groupOpen id, 8), (.groupClose id, 9), (.reshard id, 10)], running c id 6 y.2 = some e → collOf c id = none →
       myTurn c e gq = false → Idle y.1 s) ∧
     (running c id 6 8 = some e → collOf c id = none → myTurn c e gq = true → q.bound = true →
       ChipEffect (.groupOpen id) s fun c' => EndedWith id 0x0E c' ∧ c'.gq gq = q) ∧
     (running c id 6 8 = some e → collOf c id = none → myTurn c e gq = true → q.bound = false → c.clr.early = [] → leads g →
       let ranks := (words32 (listBytes e 0 (4 * g.m))).map (· % 2 ^ 20)
       ChipEffect (.groupOpen id) s fun c' => SameStore c c' ∧ (c'.gq gq).bound = false ∧ (c'.gq gq).members = ranks ∧
         (c'.gq gq).epoch.toNat = g.epoch % 65536 ∧ grpOf (c'.gq gq).record = g ∧
         InFlight id gq 0x23 0 g.epoch (groupDigest 0x23 (BitVec.ofNat 512 (byt e.record 0 64)) ranks) c') ∧
     (running c id 6 9 = some e → myTurn c e gq = true → q.bound = true → byt e.desc 14 2 = q.epoch.toNat →
       (e.cancel = false → ChipEffect (.groupClose id) s fun c' => EndedWith id 0 c' ∧ c'.gq gq = Gq.reset ∧
         (∀ k ∈ c'.clr.colls, k.gq ≠ gq) ∧ (∀ i, i ≠ gq → c'.gq i = c.gq i) ∧ SameStore c c') ∧
       (e.cancel = true → ChipEffect (.groupClose id) s fun c' => EndedWith id 0x06 c' ∧ (c'.gq gq).bound = true)) ∧
     (running c id 6 10 = some e → collOf c id = none → myTurn c e gq = true → q.bound = true →
       byt e.desc 14 2 = q.epoch.toNat →
       (g.epoch ≠ (q.epoch.toNat + 1) % 65536 → ChipEffect (.reshard id) s fun c' =>
         EndedWith id 0x0A c' ∧ c'.clr.evt.getLsbD 4 = true ∧ c'.gq gq = q) ∧
       (g.epoch = (q.epoch.toNat + 1) % 65536 → c.clr.early = [] → leads (grpOf q.record) → ChipEffect (.reshard id) s fun c' =>
         (c'.gq gq).epoch = q.epoch ∧ (c'.gq gq).nextSeq = q.nextSeq + 1 ∧ SameStore c c' ∧
         InFlight id gq 0x0A q.nextSeq.toNat q.epoch.toNat
           (collDigest (grpOf q.record) g.epoch q.nextSeq.toNat 0x0A x.red x.src.format x.dst.format x.count x.root x.drift 0) c')) ∧
     (running c id 6 11 = some e → e.round ≠ 0 → e.round ≠ 2 → Idle (.adopt id) s) ∧
     (running c id 6 11 = some e → e.round = 2 → c.clr.early = [] →
       let entry := TRef.plain (byt e.record 16 8 + 16 * e.chunk) 16
       let step := if e.kblock = 1 ∨ e.kblock = 2 then e.groups else 0
       UnitOutcome (.adopt id) s id (prepare e [.wr entry 0 16] (fun _ _ => false) c) fun c1 c' =>
         Wrote (curEntry c1 e) [⟨entry, 0, toBytes 2 (c.gq (adoptQueue e)).epoch.toNat ++ toBytes 1 e.kblock ++ toBytes 5 0 ++ toBytes 8 step,
           false⟩] (fun _ _ => false) c1 c' ∧
         if byt e.record 1 1 ≤ e.chunk + 1 then EndedWith id 0 c'
         else ∃ z, entryOf c' id = some z ∧ z.phase = .started ∧ z.chunk = e.chunk + 1 ∧ z.round = 1) ∧
     (running c id 6 11 = some e → e.round = 0 → Effect (.adopt id) s fun d =>
       d.mgt.rankValid = true ∧ d.mgt.rank.toNat = byt e.record 4 4 % 2 ^ 20 ∧
       (s.dev.mgt.rankValid = false → d.mgt.evt.getLsbD 2 = true) ∧ d.tel = s.dev.tel ∧ d.str = s.dev.str))

/-- The claims of tranches (R309 to R313, R321): TRANCHE_START stages the shares of a waiting tranche within the window, GRANT
and FALLBACK let it contribute its first phase in the slot or on the ring, a REFUSE makes it wait and then fall back, CLAIM_RETRY
claims again, and CLEARANCE_PLANE_RETEST claims a plane that qualifies. -/
def Obligations.TranchesClaimAndContribute : Prop :=
  ∀ (s : State) (id tid : Nat) (x : CollMsg) (k : Coll) (t : Tranche) (c1 : Chip),
    let c := s.dev.chip
    let g := c.grp k.gq
    let r := redOf c k
    let ready : Prop := t.phase = .waiting ∧ k.phase = .tranches ∧ openTranches c k.gq < g.window ∧
      stagingUsed c (t.plane / 8) + largest r t ≤ 2 ^ 24
    let slot : Prop := g.sw = true ∧ c.clr.switchEn = true ∧ qualifies c g.tb t.plane = true
    c.clr.early = [] →
    (namedT c id tid = none → Idle (.trancheStart id tid) s ∧ Idle (.claimRetry id tid) s) ∧
    (namedT c id tid = some (k, t) →
      (¬ready → Idle (.trancheStart id tid) s) ∧
      (∀ e0, ready → k.code ≠ 0x20 → k.ent = some e0 → (t.leader ≠ g.me ∨ slot) →
        let e := curEntry c e0
        let cd := collD e.desc
        let sh := cd.shares g (listBytes e 0 (32 * g.shares))
        let el := trancheElems r cd.count t
        let idx := span el.1 el.2
        sh.any (fun q => scaleMismatch c e q) = false →
        prepare e (sh.flatMap fun q => (mkSrc c e q cd.count).accs c e idx) (fun _ _ => false) c = .go c1 →
        ChipEffect (.trancheStart id tid) s fun c' => SameStore c c' ∧ TrancheIs tid (fun u => u.phase = .claimed ∧
          u.staged = sh.map fun q => idx.map fun i => if r.f.int then (mkSrc c1 (curEntry c1 e) q cd.count).bits c1 (curEntry c1 e) i
            else ((mkSrc c1 (curEntry c1 e) q cd.count).f32 c1 (curEntry c1 e) i).toNat) c') ∧
      ((t.phase ≠ .backoff ∨ 16 ≤ t.plane) → Idle (.claimRetry id tid) s) ∧
      (t.phase = .backoff → t.plane < 16 → k.code ≠ 0x20 → slot → ChipEffect (.claimRetry id tid) s fun c' =>
        SameStore c c' ∧ TrancheIs tid (fun u => u.phase = .claimed ∧ u.plane = t.plane) c')) ∧
    (findT c x = some (k, t) →
      (t.phase = .waiting → ∀ y ∈ [(Instr.grant x, 2), (.fallback x, 7)],
        Gives y.1 s { s.dev with chip := { c with clr := { c.clr with early := [⟨y.2, x, 0, 0⟩] } } }) ∧
      ((t.phase = .claimed ∨ t.phase = .backoff) →
        (k.code ≠ 2 → ChipEffect (.grant x) s fun c' => SameStore c c' ∧
          TrancheIs t.tid (fun u => u.phase = firstPhase c k t ∧ u.ring = false ∧ u.plane = x.plane.toNat) c') ∧
        (1 < g.m → ChipEffect (.fallback x) s fun c' => SameStore c c' ∧
          TrancheIs t.tid (fun u => u.phase = firstPhase c k t ∧ u.ring = true ∧ u.plane = t.plane) c')) ∧
      (t.phase = .claimed → (t.leader = g.me ∨ k.code = 0x21) →
        ((k.code = 0x20 ∨ t.retries < g.retry) → ChipEffect (.refuse x) s fun c' =>
          c'.clr.refusals = ctrAdd c.clr.refusals 1 ∧ TrancheIs t.tid (fun u => u.phase = .backoff ∧ u.retries = t.retries + 1) c') ∧
        (k.code ≠ 0x20 → g.retry ≤ t.retries → 1 < g.m → ChipEffect (.refuse x) s fun c' =>
          c'.clr.refusals = ctrAdd c.clr.refusals 1 ∧ TrancheIs t.tid (fun u => u.phase = firstPhase c k t ∧ u.ring = true) c')) ∧
      (t.phase ≠ .claimed → Idle (.refuse x) s)) ∧
    (c.clr.colls.all (fun y => !(decide (y.name = id) && decide (y.code = 0x20))) = true → Idle (.clearancePlaneRetest id) s) ∧
    (c.clr.colls = [k] → k.name = id → k.code = 0x20 → k.phase ≠ .kept → (k.tranches.map (·.tid)).Nodup →
      (∃ p ∈ g.planes, qualifies c g.tb p = true) → ChipEffect (.clearancePlaneRetest id) s fun c' => SameStore c c' ∧
        ∀ u ∈ k.tranches, u.phase = .backoff → u.plane = 16 →
          TrancheIs u.tid (fun v => v.phase = .claimed ∧ v.plane ∈ g.planes ∧ qualifies c g.tb v.plane = true) c')

/-- The messages that carry a tranche on (R311, R314, R315, R328): a ring piece on its first round is combined with this member's own and passed
to the next member; combined exponents start the values phase; combined values land in the destination, a sum under the descriptor's
conversion control (R640); a lost slot marks its plane in every case and ends the collective with TIMEOUT; and a fence ends the older work of the group, raises its epoch and starts the settle head. -/
def Obligations.ResultsLandAndFencesRaiseTheEpoch : Prop :=
  ∀ (s : State) (x : CollMsg) (piece hops : Nat) (c1 : Chip), s.dev.chip.clr.early = [] →
    let c := s.dev.chip
    let m := s.dev.mgt
    (findT c x = none → stale c x = true → Idle (.result x) s ∧ Idle (.ringHop x piece hops) s ∧
      ChipEffect (.slotLost x) s fun c' => c'.clr.planeDown.getLsbD x.plane.toNat = true ∧ c'.clr.evt.getLsbD 2 = true ∧
        SameStore c c' ∧ c'.clr.colls = c.clr.colls ∧ c'.ory = c.ory) ∧
    (∀ k t, findT c x = some (k, t) →
      let g := c.grp k.gq
      let r := redOf c k
      let mine : Prop := t.phase = .head ∨ t.phase = .exponent ∨ t.phase = .values
      let ack := if t.ring then c else sendColl m 6 { msgOf g k t 0 0 false 0 [] with phase := x.phase } c
      (mine → t.ring = true → x.phase = t.phase.code → hops + 1 < g.m →
        let u := ringUnits r t
        let p := pieceOf u.1 g.m piece
        let own := ((phaseData c k t).drop (p.1 * u.2)).take ((p.2 - p.1) * u.2)
        Gives (.ringHop x piece hops) s { s.dev with chip := { c with out := c.out ++ [.ring (c.rankOf k.gq ((g.me + 1) % g.m)) piece
          (hops + 1) { x with sender := g.me, data := combine r t.phase u.2 x.data own }] } }) ∧
      (t.head = false → t.phase = .exponent → x.phase = 1 → 1 < g.m → (k.code ≠ 2 ∨ t.owner = g.me) → ChipEffect (.result x) s fun c' =>
        SameStore c c' ∧ TrancheIs t.tid (fun u => u.phase = .values ∧
          u.exps = (chunksOf 2 x.data).map fun b => sgn 16 (ofBytes b)) c') ∧
      (∀ e0, k.ent = some e0 → t.head = false → t.phase = .values → x.phase = 2 → k.lost = false → (k.code = 1 ∨ k.code = 2) →
        (k.code ≠ 2 ∨ t.owner = g.me) →
        let e := curEntry ack e0
        let cd := collD e.desc
        let ref := cd.target (listBytes e 0 32)
        let idx := resultIdx ack k t
        let xs := ((resultValues c k x.data).take idx.length).map (BitVec.ofNat 32)
        ref.fmt = some .fp32 → r.f.int = false → prepare e (wrAccs ref .fp32 (cd.nDst g) idx) (partOf ref .fp32 (cd.nDst g)) ack = .go c1 →
        ChipEffect (.result x) s fun c' => SameStore (commit (curEntry c1 e)
          (if r.sum then wrsOf ref (convertOut c1.run.step ref .fp32 (cd.nDst g) cd.conv 0 ((idx.zip xs).map fun (i, v) =>
            (i, i, f32v v))).bytes else (f32For ref (idx.zip xs) c1).1) (resultHold c1 k t) c1) c' ∧
          (entryOf c e0.id ≠ none → (∀ u ∈ k.tranches, u.tid ≠ t.tid → u.phase = .done) → EndedWith e0.id 0 c')) ∧
      ChipEffect (.slotLost x) s (fun c' => c'.clr.planeDown.getLsbD x.plane.toNat = true ∧ c'.clr.evt.getLsbD 2 = true ∧
        SameStore c c' ∧ ∀ e0, k.ent = some e0 → entryOf c e0.id ≠ none → k.code ≠ 0x20 → k.lost = false → t.phase ≠ .done → t.ring = false →
          EndedWith e0.id 0x0F c')) ∧
    ((∀ q < 64, (c.gq q).bound = true → (c.grp q).id ≠ x.group.toNat) → Idle (.fence x) s) ∧
    (∀ q, (List.range 64).find? (fun q => (c.gq q).bound && decide ((c.grp q).id = x.group.toNat)) = some q →
      (epochAfter x.epoch (c.gq q).epoch.toNat = false → Idle (.fence x) s) ∧
      (epochAfter x.epoch (c.gq q).epoch.toNat = true → (c.grp q).me ≠ 0 → ChipEffect (.fence x) s fun c' =>
        SameStore c c' ∧ (c'.gq q).epoch.toNat = x.epoch % 65536 ∧ (c'.gq q).nextSeq = 1 ∧ c'.clr.evt.getLsbD 3 = true ∧
        (∃ k ∈ c'.clr.colls, k.gq = q ∧ k.code = 0x22 ∧ k.epoch = x.epoch % 65536) ∧
        (∀ k ∈ c.clr.colls, k.gq = q → k.code ≠ 0x20 → k.lost = false → ∀ e0, k.ent = some e0 → entryOf c e0.id ≠ none →
          EndedWith e0.id 0x0F c') ∧
        ∀ i, i ≠ q → c'.gq i = c.gq i))

/-! ### The fabric -/

/-- WRITE and READ (R460, R463, R465): a request before Ready is answered NOT_READY, one for another rank MISROUTE and counted,
one that no window lets through ACCESS; one whose line the host holds waits for its snoop; a part of a poisoned word, or a read of one, is
answered UNCORRECTABLE; else the bytes are stored, poisoned where they came poisoned, or sent back. -/
def Obligations.RemoteAccessesAreAnswered : Prop :=
  ∀ (s : State) (p : Packet), let c := s.dev.chip
    let m := s.dev.mgt
    let addr := ofBytes (p.body.take 8)
    let len := ofBytes ((p.body.drop 8).take 4)
    let reply (t : PktType) (body : List Byte) (c' : Chip) : Prop := Handed p.port.toNat t ⟨p.port, p.src, m.rank, p.tag, false, body⟩ c'
    let lets (w : Bool) : Prop := windowLets c p.src.toNat addr len w = true ∧ 0 < len ∧ len ≤ 4096 ∧ inWindow addr = false ∧
      isOuter addr = false ∧ accessible c addr len w = true
    let served : Prop := notReady m = false ∧ m.rankValid = true ∧ p.dest = m.rank
    (∀ y ∈ [(Instr.write p, true), (.read p, false)],
      (notReady m = true → ChipEffect y.1 s fun c' => reply .ack (ackBody 1 0) c' ∧ SameStore c c') ∧
      (notReady m = false → (m.rankValid = false ∨ p.dest ≠ m.rank) → ChipEffect y.1 s fun c' =>
        reply .ack (ackBody 4 0) c' ∧ c'.fab.misroute = ctrAdd c.fab.misroute 1 ∧ c'.fab.evt.getLsbD 3 = true ∧ SameStore c c') ∧
      (served → ¬lets y.2 → ChipEffect y.1 s fun c' => reply .ack (ackBody 2 0) c' ∧ SameStore c c') ∧
      (served → lets y.2 → trackedIn c addr len ≠ [] → ChipEffect y.1 s fun c' =>
        c'.fab.held = c.fab.held ++ [(if y.2 then .write else .read, p)] ∧ (∀ l ∈ trackedIn c addr len, l ∈ c'.cxl.snoops) ∧
        SameStore c c')) ∧
    (served → lets true → trackedIn c addr len = [] →
      let part := (wordsIn addr len).filter fun w => decide (w < addr) || decide (addr + len < w + 16)
      (part.any (poisonedAt c) = true → ChipEffect (.write p) s fun c' =>
        reply .ack (ackBody 3 0) c' ∧ SameStore c c') ∧
      (part.any (poisonedAt c) = false → p.body.length = 16 + len → ChipEffect (.write p) s fun c' =>
        reply .ack (ackBody 0 0) c' ∧ readBytes c' addr len = p.body.drop 16 ∧ SameCells [(addr, len)] c c' ∧ c'.seals = c.seals ∧
        (∀ w ∈ wordsIn addr len, poisonedAt c' w = p.poison) ∧ c'.ory = c.ory)) ∧
    (served → lets false → trackedIn c addr len = [] →
      (firstPoison c addr len ≠ none → ChipEffect (.read p) s fun c' => reply .readData (dataBody 3 []) c' ∧ SameStore c c') ∧
      (firstPoison c addr len = none → ChipEffect (.read p) s fun c' =>
        reply .readData (dataBody 0 (readBytes c addr len)) c' ∧ SameStore c c' ∧ c'.ory = c.ory ∧ (c.upsets = [] → c'.hbm = c.hbm)))

/-- FLAG, IDENT_QUERY and SWITCH (R420, R438, R459, R460, R464, R467): a remote flag update inside VSP_REMOTE_WIN is applied once per number of
its source and acknowledged each time, one outside is refused with its event; a query on an Active port is answered with the
module's identity; and an advertisement of the port's own plane sets its slots.

MGT_RANK_WRITE (R414, R525): the rank takes the value unless a group queue is bound, with an event where it changes and an
IDENT_REPLY on every Active port. -/
def Obligations.RemoteFlagsAndRanks : Prop :=
  (∀ (s : State) (p : Packet), let c := s.dev.chip
     let m := s.dev.mgt
     let b (o n : Nat) : Nat := ofBytes ((p.body.drop o).take n)
     let port := p.port.toNat
     let reply (t : PktType) (body : List Byte) (c' : Chip) : Prop := Handed port t ⟨p.port, p.src, m.rank, p.tag, false, body⟩ c'
     let seq := b 0 4
     let base := b 4 2
     let act := b 6 1
     let hit (f : Nat) : Bool := decide (base ≤ f) && decide (f < base + 64) && (b 8 8).testBit (f - base)
     let inside : Prop := base % 64 = 0 ∧ (act = 1 ∨ act = 2) ∧ 64 * c.vsp.base64.toNat ≤ base ∧
       base + 64 ≤ 64 * c.vsp.base64.toNat + 64 * c.vsp.count64.toNat
     (notReady m = true → ChipEffect (.flag p) s fun c' => reply .ack (ackBody 1 seq) c' ∧ c'.vsp = c.vsp) ∧
     (notReady m = false → m.rankValid = true → p.dest = m.rank →
       (¬inside → ChipEffect (.flag p) s fun c' => reply .ack (ackBody 2 seq) c' ∧ c'.vsp.evt.getLsbD 1 = true ∧
         c'.vsp = { c.vsp with evt := c'.vsp.evt } ∧ c'.fab.flagSeen = c.fab.flagSeen ∧ SameStore c c') ∧
       (inside → seq ∈ fget [] c.fab.flagSeen p.src.toNat → ChipEffect (.flag p) s fun c' =>
         reply .ack (ackBody 0 seq) c' ∧ c'.vsp = c.vsp ∧ SameStore c c') ∧
       (inside → seq ∉ fget [] c.fab.flagSeen p.src.toNat → ChipEffect (.flag p) s fun c' =>
         reply .ack (ackBody 0 seq) c' ∧ seq ∈ fget [] c'.fab.flagSeen p.src.toNat ∧
         (c.vsp.watches = [] → ∀ f < 65536, flagSet c' f = if act = 1 then flagSet c f || hit f else flagSet c f && !hit f))) ∧
     ((c.port port).state = 3 → ChipEffect (.identQuery p) s fun c' => reply .identReply (identBody m c port) c' ∧ SameStore c c' ∧
       c'.ory = c.ory ∧ c'.vsp = c.vsp) ∧
     ((c.port port).state ≠ 3 → Idle (.identQuery p) s ∧ Idle (.switch p) s) ∧
     ((c.port port).state = 3 → b 0 1 = 0x20 → b 1 1 = 0 → b 6 1 = port →
       Gives (.switch p) s { s.dev with chip := { c with clr := { c.clr with
         planeSlot := fset 0 c.clr.planeSlot port (.ofNat 32 (b 2 2 + 65536 * b 4 2)) } } })) ∧
  (∀ (s : State) (v : W32), s.dev.mgt.powered = true → s.dev.chip.cxl.ideHaltIo = false →
     let c := s.dev.chip
     ((∃ g ∈ c.clr.gqs, g.2.bound = true) → Idle (.mgtRankWrite v) s) ∧
     ((∀ g ∈ c.clr.gqs, g.2.bound = false) → Effect (.mgtRankWrite v) s fun d =>
       d.mgt.rankValid = v.getLsbD 31 ∧ d.mgt.rank = v.setWidth 20 ∧
       ((s.dev.mgt.rankValid ≠ v.getLsbD 31 ∨ s.dev.mgt.rank ≠ v.setWidth 20) → d.mgt.evt.getLsbD 2 = true) ∧
       (∀ p ∈ activePorts c, Handed p .identReply (packetTo d.mgt p 0 0 (identBody d.mgt c p)) d.chip) ∧
       d.tel = s.dev.tel ∧ d.str = s.dev.str ∧ SameStore c d.chip ∧ d.chip.clr = c.clr))

/-- READ_DATA, ACK and the timers of remote requests (R438, R464, R466): a good answer completes the request and hands its bytes to
the operation, a remote flag update completes its descriptor, NOT_READY is sent again, a refusal ends the operation with its status, and no
answer ends it with TIMEOUT. -/
def Obligations.AnswersReachTheirOperations : Prop :=
  ∀ (s : State) (p : Packet) (r : Remote) (e : Entry), let c := s.dev.chip
    let st := ofBytes (p.body.take 1)
    let tag := p.tag.toNat
    let ends (t n : Nat) (c' : Chip) : Prop := (∀ x ∈ c'.fab.remotes, x.tag ≠ t) ∧ EndedWith e.id n c' ∧
      (dClass e.desc ≠ 3 → SameStore c c')
    let gone (t : Nat) (c' : Chip) : Prop := ∀ x ∈ c'.fab.remotes, x.tag ≠ t
    let marked (c' : Chip) : Prop := (∃ x ∈ c'.fab.remotes, x.tag = tag ∧ x.notReady = true) ∧ c'.ory = c.ory ∧ SameStore c c'
    (remoteOf c tag = none → Idle (.ack p) s ∧ Idle (.readData p) s ∧ Idle (.notReadyResend tag) s ∧
      Idle (.remoteRequestTimeout tag) s ∧ Idle (.remoteFlagTimeout tag) s) ∧
    (remoteOf c tag = some r → entryOf c r.entry = some e → e.phase ≠ .done → r.type = .write ∨ r.type = .read ∨ r.type = .flag →
      (st = 0 → r.type = .write → ChipEffect (.ack p) s fun c' => gone tag c' ∧ SameStore c c' ∧
        ∃ z, entryOf c' e.id = some z ∧ z = { e with acks := e.acks.erase tag }) ∧
      (st = 0 → r.type = .flag → dClass e.desc = 7 → ChipEffect (.ack p) s (ends tag 0)) ∧
      (st = 1 → ChipEffect (.ack p) s marked ∧ (r.type = .read → ChipEffect (.readData p) s marked)) ∧
      (2 ≤ st → ChipEffect (.ack p) s (ends tag (if st = 3 then 0x0B else 0x0E))) ∧
      (r.type = .read → 2 ≤ st → ChipEffect (.readData p) s (ends tag (if st = 3 then 0x0B else 0x0E))) ∧
      (r.type = .read → st = 0 → p.poison = true → ChipEffect (.readData p) s (ends tag 0x0B)) ∧
      (r.type = .read → st = 0 → p.poison = false → p.body.length = 16 + r.len → ChipEffect (.readData p) s fun c' =>
        gone tag c' ∧ (dClass e.desc ≠ 11 → SameStore c c') ∧
        ∃ z, entryOf c' e.id = some z ∧ z.phase = e.phase ∧ z.acks = e.acks.erase tag ∧
          (dClass e.desc ≠ 11 → z.ext = e.ext ++ (p.body.drop 16).zipIdx.map fun x => (2 ^ 52 + (r.addr + x.2), x.1))) ∧
      (r.type ≠ .read → Idle (.readData p) s) ∧
      (r.notReady = false → Idle (.notReadyResend tag) s) ∧
      (r.notReady = true → (c.port r.port).state = 3 → r.port < 16 → ChipEffect (.notReadyResend tag) s fun c' =>
        Handed r.port r.type (r.packet s.dev.mgt) c' ∧ (∃ x ∈ c'.fab.remotes, x.tag = tag ∧ x.notReady = false) ∧ SameStore c c') ∧
      (r.type = .flag → Idle (.remoteRequestTimeout tag) s ∧ ChipEffect (.remoteFlagTimeout tag) s (ends tag 0x0F)) ∧
      (r.type ≠ .flag → Idle (.remoteFlagTimeout tag) s ∧ ChipEffect (.remoteRequestTimeout tag) s (ends tag 0x0F)))

/-- The states of a port (R456, R458, R459, R461, R470, R471, R515): a retrain drains and trains an Active port, whose plane then
offers no slot; a qualified port becomes Active with at most one lane on the spare, else Down with its event; a failing lane asks for the
spare, or takes the port Down where the spare is in service; a frame is acted on and acknowledged only good and in order, and answered
with nak otherwise; a flag update that it carries in one slot does what the packet's own command does; and a frame that the module
lays out for a packet has its number, its acknowledgement, its CRC, and the packet in its first slots (R450, R452). -/
def Obligations.PortsChangeTheirState : Prop :=
  ∀ (s : State) (port : BitVec 4) (lane : BitVec 3) (passed : BitVec 9) (enene : Bool) (fec : Fec) (f : List Byte) (y : Port)
    (t : PktType) (p : Packet),
    let c := s.dev.chip
    let i := port.toNat
    let x := c.port i
    let down (c' : Chip) : Prop := (c'.port i).state = 0 ∧ c'.fab.evt.getLsbD 2 = true ∧ SameStore c c'
    let fails := (List.range 9).filter fun l => !passed.getLsbD l || x.retired.getLsbD l || c.til.almanac.laneBad.getLsbD (9 * i + l)
    let half := enene || x.rate
    (Live s → x.state = 3 → ChipEffect (.retrain port) s fun c' =>
      (c'.port i).state = 4 ∧ (c'.port i).retrain = true ∧ fget 0 c'.clr.planeSlot i = 0 ∧ SameStore c c') ∧
    (x.state ≠ 3 → Idle (.retrain port) s ∧ Idle (.laneFailing port lane) s) ∧
    (x.state = 4 → Gives (.retrainDrainEnd port) s { s.dev with chip := c.setPort i { x with state := 1 } }) ∧
    (x.state ≠ 4 → Idle (.retrainDrainEnd port) s) ∧
    ((x.state = 1 ∨ x.state = 2) →
      ((if half then ∀ l ∈ fails, l = 8 else fails.length ≤ 1) → ChipEffect (.portActive port passed enene) s fun c' =>
        (c'.port i).state = 3 ∧ (c'.port i).retrain = false ∧ (c'.port i).lane112 = half ∧ c'.fab.evt.getLsbD 0 = true ∧
        (∀ l < 8, physLane (c'.port i) l = if l ∈ fails then 8 else l) ∧
        ((c'.port i).spareUsed = true ↔ ∃ l ∈ fails, l < 8) ∧ SameStore c c') ∧
      (¬(if half then ∀ l ∈ fails, l = 8 else fails.length ≤ 1) → ChipEffect (.portActive port passed enene) s down)) ∧
    (x.state ≠ 1 → x.state ≠ 2 → Idle (.portActive port passed enene) s) ∧
    (x.state = 3 → x.spareUsed = true → ChipEffect (.laneFailing port lane) s down) ∧
    (x.state = 3 → spareReady x = true → c.fab.swapEn = true → ChipEffect (.laneFailing port lane) s fun c' =>
      (c'.port i).swapping = some lane.toNat ∧ Out.control i false true false x.rxSeq.toNat lane.toNat ∈ c'.out ∧ SameStore c c') ∧
    (x.state ≠ 3 → x.state ≠ 4 → Idle (.frameReceive port fec f) s) ∧
    ((x.state = 3 ∨ x.state = 4) →
      let seq := ofBytes (f.take 2)
      let good : Prop := fec.uncorrectable = 0 ∧ ofBytes ((f.drop 5132).take 8) = (crc64 (f.take 5132)).toNat ∧ seq = (x.rxSeq + 1).toNat
      (¬good → ChipEffect (.frameReceive port fec f) s fun c' => Out.control i true false false x.rxSeq.toNat 0 ∈ c'.out ∧
        (c'.port i).rxSeq = x.rxSeq ∧ (c'.port i).cw = ctrAdd x.cw 8 ∧ (c'.port i).uncorr = ctrAdd x.uncorr fec.uncorrectable ∧
        (c'.port i).corr = ctrAdd x.corr (fec.corrected.foldl (· + ·) 0) ∧ SameStore c c' ∧ c'.ory = c.ory ∧ c'.vsp = c.vsp) ∧
      (good → ofBytes ((f.drop 4).take 1) = 0 → (∀ k < 19, slotHeader f k = 0) → ChipEffect (.frameReceive port fec f) s fun c' =>
        Out.control i false false false seq 0 ∈ c'.out ∧ (c'.port i).rxSeq.toNat = seq ∧
        (c'.port i).acked.toNat = ofBytes ((f.drop 2).take 2) ∧ SameStore c c' ∧ c'.ory = c.ory ∧ c'.vsp = c.vsp) ∧
      (let h := slotHeader f 0
       let p : Packet := ⟨port, .ofNat 20 (bitsOf h 76 20), .ofNat 20 (bitsOf h 56 20), .ofNat 16 (bitsOf h 0 16), bitOf h 41,
         (slotPayload f 0).take (4 * (bitsOf h 44 6 + 1))⟩
       good → ofBytes ((f.drop 4).take 1) = 0 → bitsOf h 42 2 = 3 → bitsOf h 52 4 = 4 → (∀ k < 19, k ≠ 0 → slotHeader f k = 0) →
       c.vsp.watches = [] → ChipEffect (.frameReceive port fec f) s fun c' => (c'.port i).rxSeq.toNat = seq ∧ SameStore c c' ∧
         ChipEffect (.flag p) s fun c1 => c'.vsp.flags = c1.vsp.flags ∧ c'.vsp.overrun = c1.vsp.overrun)) ∧
    (p.body.length ≤ 4352 → let g := frameOf y t p
      g.length = 5140 ∧ ofBytes (g.take 2) = y.txSeq.toNat ∧ ofBytes ((g.drop 2).take 2) = y.rxSeq.toNat ∧
      ofBytes ((g.drop 5132).take 8) = (crc64 (g.take 5132)).toNat ∧
      (∀ k < 19, slotHeader g k = if k < slotsOf p then headerOf t p k else 0) ∧
      (∀ k, k < 19 → 256 * k < p.body.length → (slotPayload g k).take (p.body.length - 256 * k) = (p.body.drop (256 * k)).take 256))

/-! ### HBM and tiles -/

/-- SCRUB_READ and HBM_REFRESH (R343, R344, R346, R347, R361, R362): the scrub reads each granule once in a period; it corrects a
word of which bits of one symbol have flipped and counts it, with a candidate and event from the threshold on; a word with two flipped bits
in two symbols is poisoned and recorded; a period ends with the last granule; and a refreshed stack throttles above 95 °C until
92 °C.

SEAL_MERGE (R350 to R352): a partial write into one sealed block is checked, applied and sealed anew, or leaves memory as it
was. -/
def Obligations.ScrubAndMergesKeepTheStore : Prop :=
  (∀ (s : State) (g b1 b2 : Nat) (x : WordError) (stack : BitVec 3), let c := s.dev.chip
     let runs : Prop := s.dev.mgt.ready = true ∧ s.dev.mgt.failed = false ∧ c.hbm.scrubHours ≠ 0 ∧ g < 0x48000000
     let done : Prop := ∃ r ∈ c.hbm.scrubbed, r.1 ≤ g ∧ g < r.2
     let k := 16 * x.word
     let row := Config.rowOfSlot (k >>> 16)
     (¬runs → Idle (.scrubRead g [x]) s) ∧
     (runs → done → Idle (.scrubRead g []) s) ∧
     (runs → ¬done → (∃ w < 16, fget false c.poison (16 * g + w) = true) → ChipEffect (.scrubRead g []) s fun c' =>
       SameStore c c' ∧ c'.hbm.evt.getLsbD 1 = true ∧ c'.hbm.ueAddr.getLsbD 63 = true) ∧
     (runs → ¬done → c.upsets = [] → (∀ w < 16, fget false c.poison (16 * g + w) = false) →
       (ChipEffect (.scrubRead g []) s fun c' => SameStore c c' ∧ c'.hbm.candidates = c.hbm.candidates ∧
         (c.hbm.scrubPos + 1 < 0x48000000 → c'.hbm.scrubPos = c.hbm.scrubPos + 1 ∧ c'.hbm.scrubPasses = c.hbm.scrubPasses ∧
           ∃ r ∈ c'.hbm.scrubbed, r.1 ≤ g ∧ g < r.2) ∧
         (0x48000000 ≤ c.hbm.scrubPos + 1 → c'.hbm.scrubPos = 0 ∧ c'.hbm.scrubbed = [] ∧ c'.hbm.rowCe = [] ∧
           c'.hbm.scrubPasses = ctrAdd c.hbm.scrubPasses 1)) ∧
       (x.word / 16 = g → x.bits ≠ [] → b1 < 18 → (∀ b ∈ x.bits, b / 8 = b1) → ChipEffect (.scrubRead g [x]) s fun c' =>
         SameStore c c' ∧ c'.upsets = [] ∧ fget 0 c'.hbm.pcCe (pcOf k) = ctrAdd (fget 0 c.hbm.pcCe (pcOf k)) 1 ∧
         (c.hbm.ceThreshold ≠ 0 → c.hbm.ceThreshold.toNat ≤ fget 0 c.hbm.rowCe (row * 256 + pcOf k) + 1 →
           (pcOf k, row) ∈ c'.hbm.candidates ∧ ((pcOf k, row) ∉ c.hbm.candidates → c'.hbm.evt.getLsbD 0 = true))) ∧
       (x.word / 16 = g → x.bits = [b1, b2] → b1 < 144 → b2 < 144 → b1 / 8 ≠ b2 / 8 → ChipEffect (.scrubRead g [x]) s fun c' =>
         c'.mem = c.mem ∧ c'.seals = c.seals ∧ fget false c'.poison x.word = true ∧
         (∀ w, w ≠ x.word → fget false c'.poison w = fget false c.poison w) ∧ c'.hbm.evt.getLsbD 1 = true ∧
         c'.hbm.ueAddr.toNat = 2 ^ 63 + k ∧ (pcOf k, row) ∈ c'.hbm.candidates)) ∧
     (c.hbm.trained.getLsbD stack.toNat = true → s.dev.mgt.failed = false →
       let t := fget 0 c.hbm.temps stack.toNat
       let was := c.hbm.throttled.getLsbD stack.toNat
       let now := if was then decide (92 * 16 < t) else decide (95 * 16 < t)
       ChipEffect (.hbmRefresh stack) s fun c' => c'.hbm.throttled.getLsbD stack.toNat = now ∧
         (∀ i, i ≠ stack.toNat → c'.hbm.throttled.getLsbD i = c.hbm.throttled.getLsbD i) ∧
         (now = true → was = false → c'.hbm.evt.getLsbD 5 = true) ∧ SameStore c c' ∧ c'.hbm.scrubPos = c.hbm.scrubPos) ∧
     ((c.hbm.trained.getLsbD stack.toNat = false ∨ s.dev.mgt.failed = true) → Idle (.hbmRefresh stack) s)) ∧
  (∀ (s : State) (addr : Nat) (data : List Byte) (tensor policy base extent : Nat), let c := s.dev.chip
     let r : TRef := ⟨base, extent, 0, 0, policy, tensor⟩
     let off := addr - base
     let fits : Prop := base % 4096 = 0 ∧ r.sealed base = true ∧ data ≠ [] ∧ base ≤ addr ∧ addr + data.length ≤ base + extent ∧
       accessible c base extent true = true ∧ isOuter base = false ∧ (blocksOf off data.length).length = 1
     let b := off / 4096
     let x := Acc.wr r off data.length
     let checks := (checkWrite ownerEntry x (meet (base + 4096 * b) (blockLen r b) c)).andThen (checkMerge ownerEntry [x] x b)
     ((s.dev.mgt.ready = false ∨ ¬fits) → Idle (.sealMerge addr data tensor policy base extent) s) ∧
     (s.dev.mgt.ready = true → fits →
       (trackedIn c (base + 4096 * b) (blockLen r b) ≠ [] → ChipEffect (.sealMerge addr data tensor policy base extent) s fun c' =>
         SameStore c c' ∧ ∀ l ∈ trackedIn c (base + 4096 * b) (blockLen r b), l ∈ c'.cxl.snoops) ∧
       (trackedIn c (base + 4096 * b) (blockLen r b) = [] →
         (∀ c1, checks = .go c1 → ChipEffect (.sealMerge addr data tensor policy base extent) s fun c' =>
           SameUnits c1 c' ∧ Wrote ownerEntry [⟨r, off, data, false⟩] (fun _ _ => false) c1 c') ∧
         (∀ n c1, checks = .stop n c1 → ChipEffect (.sealMerge addr data tensor policy base extent) s (SameStore c)))))

/-- ROW_REPAIR, REPAIR_GO and POST_PACKAGE_REPAIR_DONE (R362 to R364): the row moves to a reserve row of its pseudo-channel,
or none is left; post-package repair follows where it is allowed, and frees the reserve row or finds no resource. A write of
HBM_REPAIR_CTRL always takes its fields (R11), and a request waits while another repair runs.

MARGIN_GO and MARGIN_SWEEP_DONE (R365): a sweep starts only within a compute reset, with a kind and a count that are not
reserved, and is refused with status 1 otherwise; its end reports an edge on each side of nominal. That the low edge is not above and the
high edge not below nominal is the model's reading of 'edge' (log entry 63). -/
def Obligations.RowsAndSweeps : Prop :=
  (∀ (s : State) (pc : BitVec 8) (row asked : Nat) (v : W64) (resource host all : Bool), let c := s.dev.chip
     let step1 (p row : Nat) (all host : Bool) (c' : Chip) : Prop :=
       let rows := fget [] c.hbm.redirects p
       SameStore c c' ∧ (∀ q, q ≠ p → fget [] c'.hbm.redirects q = fget [] c.hbm.redirects q) ∧
       (row ∉ rows → 8 ≤ rows.length → fget [] c'.hbm.redirects p = rows ∧ c'.hbm.lastResult = 3 ∧ c'.hbm.evt.getLsbD 4 = true ∧
         c'.hbm.repairRow = none) ∧
       ((row ∈ rows ∨ rows.length < 8) → fget [] c'.hbm.redirects p = (if row ∈ rows then rows else rows ++ [row]) ∧
         (all = true → c.hbm.pprEn = true → c'.hbm.repairRow = some (p, row, host)) ∧
         ((all = false ∨ c.hbm.pprEn = false) → c'.hbm.repairRow = none ∧ c'.hbm.lastResult = 1 ∧
           (all = true → c'.hbm.evt.getLsbD 3 = true)))
     let mine : Prop := s.dev.mgt.ready = true ∧ c.hbm.autoRepair = true ∧ (pc.toNat, row) ∈ c.hbm.candidates ∧ repairBusy c = false
     let a := bitsOf v.toNat 8 40 * 256
     (¬mine → Idle (.rowRepair pc row) s) ∧
     (mine → ChipEffect (.rowRepair pc row) s (step1 pc.toNat row true false)) ∧
     let fields (go : Bool) (c' : Chip) : Prop := c' = { c with hbm := { c.hbm with repairCtrl := c'.hbm.repairCtrl } } ∧
       c'.hbm.repairCtrl.getLsbD 0 = go ∧ c'.hbm.repairCtrl.getLsbD 1 = v.getLsbD 1 ∧
       bitsOf c'.hbm.repairCtrl.toNat 8 40 = bitsOf v.toNat 8 40
     (Live s → c.hbm.repairCtrl.getLsbD 0 = true → ChipEffect (.repairGo v) s (fields true)) ∧
     (Live s → c.hbm.repairCtrl.getLsbD 0 = false →
       (v.getLsbD 0 = true → a < hbmTop → repairBusy c = false → ChipEffect (.repairGo v) s
         (step1 (pcOf a) (Config.rowOfSlot (a >>> 16)) (v.getLsbD 1) true)) ∧
       (v.getLsbD 0 = true → a < hbmTop → c.hbm.repairRow = none → c.hbm.sweeping = true → ChipEffect (.repairGo v) s fun c' =>
         c'.hbm.lastResult = 5 ∧ c'.hbm.repairCtrl.getLsbD 0 = false ∧ c'.hbm.redirects = c.hbm.redirects ∧ SameStore c c') ∧
       (v.getLsbD 0 = true → a < hbmTop → c.hbm.repairRow.isSome = true → ChipEffect (.repairGo v) s fun c' =>
         c'.hbm.repairAsk = some (a, v.getLsbD 1) ∧ c'.hbm.repairCtrl.getLsbD 0 = true ∧ c'.hbm.repairRow = c.hbm.repairRow ∧
         c'.hbm.redirects = c.hbm.redirects ∧ SameStore c c') ∧
       ((v.getLsbD 0 = false ∨ hbmTop ≤ a) → ChipEffect (.repairGo v) s (fields false))) ∧
     (c.hbm.repairRow = none → Idle (.postPackageRepairDone resource) s) ∧
     (c.hbm.repairRow = some (pc.toNat, row, false) → c.hbm.repairAsk = some (asked, all) → c.hbm.sweeping = false →
       ChipEffect (.postPackageRepairDone resource) s fun c' => SameStore c c' ∧
         (c'.hbm.repairRow = some (pcOf asked, Config.rowOfSlot (asked >>> 16), true) ∨
           (c'.hbm.repairRow = none ∧ (c'.hbm.lastResult = 1 ∨ c'.hbm.lastResult = 3)))) ∧
     (c.hbm.repairRow = some (pc.toNat, row, host) → (host = true ∨ c.hbm.repairAsk = none) →
       ChipEffect (.postPackageRepairDone resource) s fun c' => SameStore c c' ∧ c'.hbm.repairRow = none ∧
         (resource = true → fget [] c'.hbm.redirects pc.toNat = (fget [] c.hbm.redirects pc.toNat).erase row ∧
           c'.hbm.lastResult = 2 ∧ c'.hbm.evt.getLsbD 3 = true) ∧
         (resource = false → c'.hbm.redirects = c.hbm.redirects ∧ c'.hbm.lastResult = 4 ∧ c'.hbm.evt.getLsbD 4 = true))) ∧
  (∀ (s : State) (v : W32), let c := s.dev.chip
     let fine : Prop := s.dev.mgt.computeReset = true ∧ c.hbm.repairRow = none ∧ bitsOf v.toNat 8 4 ≤ 4 ∧ bitsOf v.toNat 0 8 ≠ 0
     (Live s → c.hbm.sweeping = true → ChipEffect (.marginGo v) s fun c' =>
       c' = { c with hbm := { c.hbm with marginCtrl := c'.hbm.marginCtrl } } ∧ c'.hbm.marginCtrl.getLsbD 31 = true ∧
       bitsOf c'.hbm.marginCtrl.toNat 0 8 = bitsOf v.toNat 0 8) ∧
     (Live s → c.hbm.sweeping = false →
       (v.getLsbD 31 = false → ChipEffect (.marginGo v) s fun c' => c' = { c with hbm := { c.hbm with marginCtrl := c'.hbm.marginCtrl } } ∧
         c'.hbm.marginCtrl.getLsbD 31 = false) ∧
       (v.getLsbD 31 = true → fine → ChipEffect (.marginGo v) s fun c' =>
         c'.hbm.sweeping = true ∧ c'.hbm.marginResult = 0 ∧ c'.hbm.marginCtrl.getLsbD 31 = true ∧
         c'.hbm.sweepCtrl = c'.hbm.marginCtrl ∧ SameStore c c') ∧
       (v.getLsbD 31 = true → ¬fine → ChipEffect (.marginGo v) s fun c' =>
         c'.hbm.sweeping = false ∧ c'.hbm.marginResult.toNat = 2 ^ 63 + 2 ^ 48 ∧ SameStore c c')) ∧
     (c.hbm.sweeping = false → Idle .marginSweepDone s) ∧
     (c.hbm.sweeping = true → ChipEffect .marginSweepDone s fun c' => c'.hbm.sweeping = false ∧ c'.hbm.evt.getLsbD 6 = true ∧
       c'.hbm.marginCtrl.getLsbD 31 = false ∧ c'.hbm.marginResult.getLsbD 63 = true ∧ bitsOf c'.hbm.marginResult.toNat 48 8 = 0 ∧
       (bitsOf c.hbm.sweepCtrl.toNat 8 4 ≠ 4 → c'.hbm.marginResult.getLsbD 32 = false) ∧
       (c'.hbm.marginResult.extractLsb' 16 16).toInt ≤ 0 ∧ 0 ≤ (c'.hbm.marginResult.extractLsb' 0 16).toInt ∧ SameStore c c'))

/-- CORE_WATCHDOG, BAND_WATCHDOG, RAIL_OUT_OF_REGULATION and TILE_UNCORRECTABLE (R527, R530, R608): a fault shows its cause; a spare
leaves service at once and a serving tile waits for its remap; the first uncorrectable word of a power cycle, of the SRAM, the
stationary register or the weight FIFO, only restarts the operation, and a word of the SRAM is rewritten as zero. -/
def Obligations.FaultedTilesLeaveService : Prop :=
  ∀ (s : State) (p band word : Nat), s.dev.mgt.ready = true → s.dev.mgt.failed = false → p < 112 → band < 14 → word < 0x41400 →
    let c := s.dev.chip
    let x := c.tile p
    let out (q : Nat) : Prop := (c.tile q).role = 2 ∨ faulted c q = true
    let hit (q cause : Nat) (c' : Chip) : Prop := (c'.tile q).faultCause.toNat = cause ∧
      ((c.tile q).role = 1 → (c'.tile q).role = 2 ∧ (c'.tile q).cause.toNat = cause ∧ (c'.tile q).logical = 127) ∧
      ((c.tile q).role ≠ 1 → faulted c' q = true)
    (out p → Idle (.coreWatchdog p) s ∧ Idle (.tileUncorrectable p word) s) ∧
    (¬out p → ChipEffect (.coreWatchdog p) s (hit p 6)) ∧
    (∀ y ∈ [Instr.bandWatchdog band, .railOutOfRegulation band], ChipEffect y s fun c' =>
      (∀ q ∈ tilesOfBand band, ¬out q → hit q 8 c') ∧
      ∀ q < 112, q ∉ tilesOfBand band → (c'.tile q).role = (c.tile q).role ∧ faulted c' q = faulted c q) ∧
    (¬out p → x.ueSeen = true → ChipEffect (.tileUncorrectable p word) s (hit p 7)) ∧
    (¬out p → x.ueSeen = false → ChipEffect (.tileUncorrectable p word) s fun c' =>
      (c'.tile p).ueSeen = true ∧ (c'.tile p).faultCause = 9 ∧ (c'.tile p).role = x.role ∧ faulted c' p = false ∧
      let t := if x.role = 3 then x.running.toNat else x.logical.toNat
      (t < 96 → word < 0x40000 → readBytes c' (sramOf t + 16 * word) 16 = List.replicate 16 0 ∧ poisonedAt c' (sramOf t + 16 * word) = false))

/-- TILE_REMAP, PARTNER_SWITCH and TIL_SAVE_BASE_WRITE (R528, R530, R531, R533 to R535): the oldest faulted tile of a die leaves service
for good; its number goes to the quadrant's spare with its SRAM cleared, or has no backing without a save area; a partner
saves one number's SRAM and loads the other's; and the save area is set only while there is no partner, and gives unbacked numbers theirs. -/
def Obligations.NumbersMoveToSparesAndPartners : Prop :=
  ∀ (s : State) (die : BitVec 1) (p t : Nat) (rest : List Nat) (v : W64), let c := s.dev.chip
    let x := c.tile p
    let queue (k : Chip) : List Nat := if die = 0 then k.til.pending0 else k.til.pending1
    let alone : Prop := (c.ory.entries.map (·.id)).Nodup
    let cur := x.running.toNat
    let other := if cur = x.logical.toNat then x.second.toNat else x.logical.toNat
    let base := bitsOf v.toNat 22 26 * 2 ^ 22
    let partner : Prop := ∃ q < 112, (c.tile q).role = 3
    (s.dev.mgt.ready = true → s.dev.mgt.failed = false →
      (queue c = [] → Idle (.tileRemap die) s) ∧
      (queue c = p :: rest → Effect (.tileRemap die) s fun d => queue d.chip = rest ∧ (d.chip.tile p).role = 2 ∧
        (d.chip.tile p).logical = 127 ∧ (d.chip.tile p).cause = x.faultCause ∧
        (x.role = 0 → x.logical.toNat = t → x.second = 127 → t < 96 →
          (∀ q, spareFor c t = some q → (d.chip.tile q).logical.toNat = t ∧ (d.chip.tile q).role = 0 ∧
            d.chip.til.remapGen = ctrAdd c.til.remapGen 1 ∧ ((d.band (bandOf q)).state = 3 ∨ (d.band (bandOf q)).waking = true) ∧
            ∀ i < 0x400000, readByte d.chip (sramOf t + i) = 0) ∧
          (spareFor c t = none → saveEn c = false → t ∈ d.chip.til.unbacked ∧ d.chip.til.remapGen = c.til.remapGen))) ∧
      (p < 112 → (x.role ≠ 3 ∨ faulted c p = true) → Idle (.partnerSwitch p) s) ∧
      (alone → p < 112 → x.role = 3 → faulted c p = false → cur < 96 → other < 96 → cur ≠ other → saveAt c + 0x18000000 ≤ hbmTop →
        (placedOn c other).any (readyOff c) = true → ((placedOn c cur).all fun e => e.phase != .started) = true →
        ChipEffect (.partnerSwitch p) s fun c' => (c'.tile p).running.toNat = other ∧ (c'.tile p).logical = x.logical ∧
          (c'.tile p).second = x.second ∧ ∀ i < 0x400000,
            readByte c' (saveSlot c cur + i) = readByte c (sramOf cur + i) ∧
            readByte c' (sramOf other + i) = readByte c (saveSlot c other + i))) ∧
    ((partner ∨ (v.getLsbD 0 = true ∧ hbmTop < base + 0x18000000)) → Idle (.tilSaveBaseWrite v) s) ∧
    (Live s → ¬partner → (v.getLsbD 0 = true → base + 0x18000000 ≤ hbmTop) →
      (v.getLsbD 0 = false ∨ c.til.unbacked = [] → ChipEffect (.tilSaveBaseWrite v) s fun c' =>
        c' = { c with til := { c.til with saveBase := c'.til.saveBase } } ∧ saveAt c' = base ∧ saveEn c' = v.getLsbD 0) ∧
      (v.getLsbD 0 = true → c.til.unbacked = [t] → t < 96 → partnerFor c t (t % 12) = some p → ChipEffect (.tilSaveBaseWrite v) s fun c' =>
        (c'.tile p).second.toNat = t ∧ (c'.tile p).running.toNat = t ∧ (c'.tile p).role = 3 ∧ c'.til.unbacked = [] ∧
        c'.til.remapGen = ctrAdd c.til.remapGen 1))

/-! ### The Daybook and plain registers -/

/-- RECORD_WRITE, SECTOR_ERASE_DONE, TOKEN_REFILL and HOST_RECORD (R542, R544 to R546, R549 to R551, R566): the oldest queued
record is programmed into the next slot of both rings for one token, and not without one; an erase ends with a blank sector and one more
on its count; tokens rise to 8,192; and a host record is queued where there is room.

CONSOLIDATION_START, CONSOLIDATE, DBK_READ_SEQ_WRITE and DBK_READ_DONE (R553, R554, R569): a consolidation restates every live key between
BEGIN and END, when it is due or asked for; a record read gives the bytes of its slot, or says that it is not held or not readable. -/
def Obligations.DaybookRecordsAndReads : Prop :=
  (∀ (s : State) (r : Rec) (rest : List Rec) (er : Erase) (left : List Erase), let c := s.dev.chip
     let k := c.dbk
     let open_ : Prop := s.dev.mgt.powered = true ∧ s.dev.str.keysHeld = true ∧ dbkRuns c = true ∧ k.flushed = false
     let seq := k.firstSeq + k.nextSlot - 1
     (¬open_ → Idle .recordWrite s) ∧
     (k.consol = none → k.queue = [] → Idle .recordWrite s) ∧
     (open_ → k.consol = none → k.queue = r :: rest →
       (k.tokens = 0 → ChipEffect .recordWrite s fun c' => c'.dbk.queue = k.queue ∧ c'.dbk.evt.getLsbD 3 = true ∧ c'.flash = c.flash) ∧
       (0 < k.tokens → (k.nextSlot = 0 ∨ 512 ≤ k.nextSlot) → Idle .recordWrite s) ∧
       (0 < k.tokens → 0 < k.nextSlot → k.nextSlot < 512 → k.head < 512 → r.type ≠ 1 → ChipEffect .recordWrite s fun c' =>
         (∀ ring, flashBytes c' (slotAt ring k.head k.nextSlot) 92 = (recordBytes seq r).take 92) ∧ c'.dbk.queue = rest ∧
         c'.dbk.tokens = k.tokens - 1 ∧ c'.dbk.records = ctrAdd k.records 1 ∧ c'.dbk.seqHead.toNat = seq % 2 ^ 64 ∧
         c'.mem = c.mem ∧ (r.type = 7 → c'.dbk.lastStep = stepOf r.payload))) ∧
     (s.dev.mgt.powered = true →
       (k.erases = [] → Idle .sectorEraseDone s) ∧
       (k.erases = er :: left → er.suspended = true → Idle .sectorEraseDone s) ∧
       (k.erases = er :: left → er.suspended = false → k.nextSlot ≠ 0 → k.nextSlot ≠ 512 → ChipEffect .sectorEraseDone s fun c' =>
         c'.dbk.erases = left ∧ sectorBlank c' er.ring er.sector = true ∧
         fget 0 c'.dbk.eraseCnt (eraseKey er.ring er.sector) = fget 0 k.eraseCnt (eraseKey er.ring er.sector) + 1 ∧ c'.mem = c.mem) ∧
       Gives .tokenRefill s { s.dev with chip := { c with dbk := { k with tokens := min 8192 (k.tokens + 1) } } }) ∧
     (s.dev.mgt.powered = false → Idle .sectorEraseDone s ∧ Idle .tokenRefill s ∧ Idle .hostRecord s) ∧
     (s.dev.mgt.powered = true → c.cxl.ideHaltIo = false →
       (k.mode ≠ 2 → k.flushed = false → k.queue.length < 192 → ChipEffect .hostRecord s fun c' => ∃ z, c'.dbk.queue = k.queue ++ [z] ∧
         z.type = 0x0E ∧ z.payload = payload64 k.hostData ∧ c' = { c with dbk := { k with queue := c'.dbk.queue } }) ∧
       ((k.mode = 2 ∨ k.flushed = true ∨ 192 ≤ k.queue.length) → ChipEffect .hostRecord s fun c' =>
         c'.dbk.queue = k.queue ∧ c'.dbk.lost = ctrAdd k.lost 1 ∧ c'.dbk.evt.getLsbD 2 = true ∧ c'.mem = c.mem))) ∧
  (∀ (s : State) (seq : W64), let c := s.dev.chip
     let k := c.dbk
     let idle : Prop := dbkRuns c = true ∧ k.flushed = false ∧ k.consol = none
     let begun (c' : Chip) : Prop := ∃ z, c' = { c with dbk := { k with consol := some z, consTick := s.dev.mgt.aoCounter } } ∧
       z.count = k.keys.length ∧ z.left.map (·.type) = 0x0C :: k.keys.map (·.1) ++ [0x0D] ∧
       z.left.map (·.payload) = toBytes 4 k.keys.length :: k.keys.map (·.2.2) ++ [[]]
     let asked : Prop := s.dev.mgt.powered = true ∧ c.cxl.ideHaltIo = false
     (asked → idle → ChipEffect .consolidate s begun) ∧
     (¬idle → Idle .consolidate s ∧ Idle .consolidationStart s) ∧
     (s.dev.mgt.powered = true → idle → (128 ≤ (k.head + 512 - k.consSector) % 512 ∨ 2 ^ 46 ≤ (s.dev.mgt.aoCounter - k.consTick).toNat) →
       ChipEffect .consolidationStart s begun) ∧
     ((k.head + 512 - k.consSector) % 512 < 128 → (s.dev.mgt.aoCounter - k.consTick).toNat < 2 ^ 46 → Idle .consolidationStart s) ∧
     (asked → Gives (.dbkReadSeqWrite seq) s { s.dev with chip := { c with dbk := { k with readSeq := seq, readBusy := true } } }) ∧
     (k.readBusy = false → Idle .dbkReadDone s) ∧
     (s.dev.mgt.powered = true → k.readBusy = true → ChipEffect .dbkReadDone s fun c' =>
       c'.dbk.readBusy = false ∧ c'.dbk.evt.getLsbD 0 = true ∧ c'.flash = c.flash ∧ c'.dbk.queue = k.queue ∧
       (heldAt c k.readSeq.toNat = [] → c'.dbk.readResult = 2 ∧ c'.dbk.readData = k.readData) ∧
       (∀ a b, heldAt c k.readSeq.toNat = [a] → slotBytes c a.1 a.2 = some b →
         c'.dbk.readResult = 1 ∧ c'.dbk.readData = b ∧ c'.dbk.readMac = macHolds b) ∧
       (∀ a, heldAt c k.readSeq.toNat = [a] → slotBytes c a.1 a.2 = none →
         c'.dbk.readResult = if flashBytes c (slotAt false a.1 a.2) 128 = List.replicate 128 0xFF ∧
           flashBytes c (slotAt true a.1 a.2) 128 = List.replicate 128 0xFF then 2 else 3)))

/-- READ_CLEAR and REGISTER_WRITE (R11, R12, R372, R414, R445, R465, R481, R499, R507, R629): a read answers the register's bits and clears
what is read-to-clear, and one of BAR2 answers zeros; a write to the reserved upper dword of a register does nothing; a write sets the fields of a register, leaves a value that a field does not allow, clears the event bits it names, and does
nothing before Ready but to the early blocks. -/
def Obligations.RegistersActByTheirAccessType : Prop :=
  ∀ (s : State) (o : Nat) (v : W64), s.dev.mgt.powered = true → s.dev.chip.cxl.ideHaltIo = false →
    let c := s.dev.chip
    let put (a : Nat) : Instr := .registerWrite .bar0 a true v
    let watts := bitsOf v.toNat 8 11
    (o % 8 = 0 → Effect (.readClear (.bar0, o)) s fun d => d.chip.out = c.out ++ [.regRead .bar0 o (.ofNat 64 (readBar0 s.dev o))] ∧
      SameStore c d.chip ∧ d.mgt = s.dev.mgt ∧ d.str = s.dev.str ∧ d.chip.ory = c.ory ∧ d.chip.vsp = c.vsp ∧
      (o = 0xA00038 → d.tel = { s.dev.tel with peak := 0 }) ∧ (o ≠ 0xA00038 → d.tel = s.dev.tel) ∧
      (s.dev.mgt.ready = true → o = 0x600090 → (d.chip.port c.fab.portSel.toNat).replaysMax = 0) ∧
      (s.dev.mgt.ready = true → ∀ p < 112, o = 0x1018028 + 0x20000 * p → (d.chip.tile p).codMaxErr = 0)) ∧
    (o % 8 = 0 → Gives (.readClear (.bar2, o)) s { s.dev with chip := { c with out := c.out ++ [.regRead .bar2 o 0] } }) ∧
    (earlyBlock o = false → s.dev.mgt.ready = false → o % 8 = 0 → o < 0x4000000 → Idle (put o) s) ∧
    (o % 8 = 4 → wideRegister (o - 4) = false → ∀ v, Idle (.registerWrite .bar0 o false v) s) ∧
    (Effect (put 0xA00000) s fun d => d.tel = { s.dev.tel with
          retainIdle := .ofNat 8 (bitsOf v.toNat 24 8), offSpares := v.getLsbD 0,
          capW := if 500 ≤ watts ∧ watts ≤ 2000 then .ofNat 11 watts else s.dev.tel.capW } ∧
        d.mgt = s.dev.mgt ∧ d.str = s.dev.str ∧ d.chip = c) ∧
    (Effect (put 0x40) s fun d => (∀ i < 8, d.mgt.evt.getLsbD i = (s.dev.mgt.evt.getLsbD i && !v.getLsbD i)) ∧
      d.tel = s.dev.tel ∧ d.str = s.dev.str ∧ SameStore c d.chip) ∧
    ((∀ q ∈ c.ory.wqs, q.2.isOpen = false) → Gives (put 0x18) s { s.dev with mgt := { s.dev.mgt with reproducible := v.getLsbD 0 } }) ∧
    ((∃ q ∈ c.ory.wqs, q.2.isOpen = true) → Idle (put 0x18) s) ∧
    (s.dev.mgt.ready = true →
      Gives (put 0x600028) s { s.dev with chip := { c with fab := { c.fab with
        wins := fset FabWin.reset c.fab.wins c.fab.winSel.toNat { fget FabWin.reset c.fab.wins c.fab.winSel.toNat with
          base := .ofNat 64 (v.toNat % 2 ^ 48 / 4096 * 4096) } } } } ∧
      Gives (put 0x400000) s { s.dev with chip := { c with clr := { c.clr with switchEn := v.getLsbD 0 } } } ∧
      (Effect (put 0x200010) s fun d => (∀ i < 7, d.chip.vsp.evt.getLsbD i = (c.vsp.evt.getLsbD i && !v.getLsbD i)) ∧
        d.chip.vsp.flags = c.vsp.flags ∧ SameStore c d.chip))
end

