-- ==== Sys2Proof/Laws/Maps.lean ====
section
/-! SUPPORT. The laws of finite maps with a default: what a read gives after a write or a clearing, and that both keep the
canonical form. -/

namespace Sys2Proof.Machine

variable {α : Type}

@[simp] theorem fget_nil (d : α) (k : Nat) : fget d [] k = d := rfl

theorem fget_cons (d : α) (j k : Nat) (v : α) (r : FMap α) : fget d ((j, v) :: r) k = if j = k then v else fget d r k := rfl

theorem fget_of_absent (d : α) (m : FMap α) (k : Nat) (h : ∀ e ∈ m, e.1 ≠ k) : fget d m k = d := by
  induction m with
  | nil => rfl
  | cons e r ih => simp_all [fget]

/-- What a map reads as is the default or a listed value. -/
theorem fget_cases (d : α) (m : FMap α) (k : Nat) : fget d m k = d ∨ (k, fget d m k) ∈ m := by
  induction m with
  | nil => exact Or.inl rfl
  | cons e r ih =>
    by_cases h : e.1 = k
    · subst h; simp [fget]
    · simp only [fget, h, ↓reduceIte, List.mem_cons]
      rcases ih with ih | ih
      · exact Or.inl ih
      · exact Or.inr (Or.inr ih)

theorem fget_filter (d : α) (m : FMap α) (k : Nat) (p : Nat → Bool) (h : p k = true) :
    fget d (m.filter fun e => p e.1) k = fget d m k := by
  induction m with
  | nil => rfl
  | cons e r ih =>
    by_cases hp : p e.1 = true
    · simp [hp, fget, ih]
    · have : e.1 ≠ k := by rintro rfl; exact hp h
      simp [hp, fget, ih, this]

theorem fget_finsert (d : α) (m : FMap α) (k j : Nat) (v : α) (h : ∀ e ∈ m, e.1 ≠ k) :
    fget d (finsert k v m) j = if k = j then v else fget d m j := by
  induction m with
  | nil => simp [finsert, fget]
  | cons e r ih =>
    have he := h e (by simp)
    have hr := ih fun x hx => h x (by simp [hx])
    by_cases hk : k < e.1
    · simp [finsert, hk, fget]
    · by_cases hj : e.1 = j
      · subst hj
        simp [finsert, hk, fget, show k ≠ e.1 by omega]
      · simp [finsert, hk, fget, hj, hr]

theorem absent_of_filter (m : FMap α) (k : Nat) : ∀ e ∈ m.filter fun e => !(e.1 == k), e.1 ≠ k := by
  intro e he
  simpa using (List.mem_filter.mp he).2

/-- A read after a write: the value at the key written, and what was there at any other. -/
theorem fget_fset [DecidableEq α] (d : α) (m : FMap α) (k j : Nat) (v : α) :
    fget d (fset d m k v) j = if k = j then v else fget d m j := by
  have hf : k ≠ j → fget d (m.filter fun e => !(e.1 == k)) j = fget d m j :=
    fun h => fget_filter d m j (fun x => !(x == k)) (by simp; omega)
  by_cases hv : v = d
  · by_cases hk : k = j
    · subst hk; simp [fset, hv, fget_of_absent _ _ _ (absent_of_filter m k)]
    · simp [fset, hv, hk, hf hk]
  · simp only [fset, hv, ↓reduceIte]
    rw [fget_finsert _ _ _ _ _ (absent_of_filter m k)]
    split
    · rfl
    · exact hf ‹_›

@[simp] theorem fget_fset_self [DecidableEq α] (d : α) (m : FMap α) (k : Nat) (v : α) : fget d (fset d m k v) k = v := by
  simp [fget_fset]

theorem fget_fset_of_ne [DecidableEq α] (d : α) (m : FMap α) {k j : Nat} (v : α) (h : k ≠ j) :
    fget d (fset d m k v) j = fget d m j := by simp [fget_fset, h]

/-- A read after a clearing. -/
theorem fget_fclear (d : α) (m : FMap α) (lo hi k : Nat) :
    fget d (fclear m lo hi) k = if lo ≤ k ∧ k < hi then d else fget d m k := by
  split
  · apply fget_of_absent
    intro e he
    have := (List.mem_filter.mp he).2
    simp at this; omega
  · exact fget_filter d m k (fun x => decide (x < lo) || decide (hi ≤ x)) (by simp; omega)

/-- A read after a write of consecutive keys. -/
theorem fget_fsetList [DecidableEq α] (d : α) (l : List α) (m : FMap α) (k j : Nat) :
    fget d (fsetList d m k l) j = if k ≤ j ∧ j < k + l.length then l.getD (j - k) d else fget d m j := by
  induction l generalizing m k with
  | nil => simp [fsetList]
  | cons v r ih =>
    rw [fsetList, ih, fget_fset]
    by_cases hk : k = j
    · subst hk; simp
    · by_cases h : k + 1 ≤ j ∧ j < k + 1 + r.length
      · have h1 : k ≤ j ∧ j < k + (v :: r).length := by simp; omega
        have h2 : j - k = j - (k + 1) + 1 := by omega
        rw [if_pos h, if_pos h1, h2, List.getD_cons_succ]
      · have h1 : ¬(k ≤ j ∧ j < k + (v :: r).length) := by simp; omega
        rw [if_neg h, if_neg h1, if_neg hk]

/-! ### The canonical form -/

/-- A finite map is canonical exactly where its keys rise strictly and no listed value is the default. -/
theorem fwf_iff [DecidableEq α] (d : α) (m : FMap α) :
    fwf d m = true ↔ m.Pairwise (fun a b => a.1 < b.1) ∧ ∀ e ∈ m, e.2 ≠ d := by
  induction m with
  | nil => simp [fwf]
  | cons e r ih =>
    cases r with
    | nil => simp [fwf]
    | cons f t =>
      obtain ⟨j, v⟩ := e; obtain ⟨k, w⟩ := f
      simp only [fwf, Bool.and_eq_true, decide_eq_true_eq, ih, List.pairwise_cons, List.mem_cons, forall_eq_or_imp]
      constructor
      · rintro ⟨⟨hv, hjk⟩, ⟨ht, hp⟩, hw, hd⟩
        exact ⟨⟨⟨hjk, fun a ha => lt_trans hjk (ht a ha)⟩, ht, hp⟩, hv, hw, hd⟩
      · rintro ⟨⟨⟨hjk, -⟩, ht, hp⟩, hv, hw, hd⟩
        exact ⟨⟨hv, hjk⟩, ⟨ht, hp⟩, hw, hd⟩

theorem fwf_filter [DecidableEq α] (d : α) (m : FMap α) (p : Nat × α → Bool) (h : fwf d m = true) : fwf d (m.filter p) = true := by
  rw [fwf_iff] at h ⊢
  exact ⟨h.1.filter p, fun e he => h.2 e (List.mem_filter.mp he).1⟩

theorem mem_finsert (k : Nat) (v : α) (m : FMap α) (e : Nat × α) : e ∈ finsert k v m ↔ e = (k, v) ∨ e ∈ m := by
  induction m with
  | nil => simp [finsert]
  | cons f r ih =>
    obtain ⟨j, w⟩ := f
    simp only [finsert]
    split
    · simp
    · simp [ih]; tauto

theorem fwf_finsert [DecidableEq α] (d : α) (k : Nat) (v : α) (m : FMap α) (hv : v ≠ d) (h : fwf d m = true)
    (ha : ∀ e ∈ m, e.1 ≠ k) : fwf d (finsert k v m) = true := by
  rw [fwf_iff] at h ⊢
  refine ⟨?_, fun e he => ?_⟩
  · obtain ⟨hp, -⟩ := h
    induction m with
    | nil => simp [finsert]
    | cons f r ih =>
      obtain ⟨j, w⟩ := f
      rw [List.pairwise_cons] at hp
      simp only [finsert]
      split
      · refine List.pairwise_cons.mpr ⟨?_, List.pairwise_cons.mpr hp⟩
        intro a ha'
        rcases List.mem_cons.mp ha' with rfl | hr
        · assumption
        · exact lt_trans ‹_› (hp.1 a hr)
      · have hj := ha (j, w) (by simp)
        refine List.pairwise_cons.mpr ⟨?_, ih (fun e he => ha e (by simp [he])) hp.2⟩
        intro a ha'
        rcases (mem_finsert k v r a).mp ha' with rfl | hr
        · simp at hj ⊢; omega
        · exact hp.1 a hr
  · rcases (mem_finsert k v m e).mp he with rfl | hm
    · exact hv
    · exact h.2 e hm

/-- A write keeps the canonical form. -/
theorem fwf_fset [DecidableEq α] (d : α) (m : FMap α) (k : Nat) (v : α) (h : fwf d m = true) : fwf d (fset d m k v) = true := by
  unfold fset
  split
  · exact fwf_filter d m _ h
  · exact fwf_finsert d k v _ ‹_› (fwf_filter d m _ h) (absent_of_filter m k)

/-- A clearing keeps the canonical form. -/
theorem fwf_fclear [DecidableEq α] (d : α) (m : FMap α) (lo hi : Nat) (h : fwf d m = true) : fwf d (fclear m lo hi) = true :=
  fwf_filter d m _ h

/-- A write of consecutive keys keeps the canonical form. -/
theorem fwf_fsetList [DecidableEq α] (d : α) (l : List α) (m : FMap α) (k : Nat) (h : fwf d m = true) :
    fwf d (fsetList d m k l) = true := by
  induction l generalizing m k with
  | nil => exact h
  | cons v r ih => exact ih _ _ (fwf_fset d m k v h)

/-- Canonical maps that read alike are equal. -/
theorem fwf_ext [DecidableEq α] (d : α) (m n : FMap α) (hm : fwf d m = true) (hn : fwf d n = true)
    (h : ∀ k, fget d m k = fget d n k) : m = n := by
  rw [fwf_iff] at hm hn
  have hget : ∀ l : FMap α, l.Pairwise (fun a b => a.1 < b.1) → ∀ e ∈ l, fget d l e.1 = e.2 := by
    intro l
    induction l with
    | nil => simp
    | cons f r ih =>
      intro hp e he
      rw [List.pairwise_cons] at hp
      rcases List.mem_cons.mp he with rfl | hr
      · simp [fget]
      · have := hp.1 e hr
        simp [fget, show f.1 ≠ e.1 by omega, ih hp.2 e hr]
  have hmem : ∀ l : FMap α, ∀ k, fget d l k ≠ d → (k, fget d l k) ∈ l := by
    intro l
    induction l with
    | nil => simp
    | cons f r ih =>
      intro k hk
      by_cases hf : f.1 = k
      · subst hf; simp [fget]
      · simp [fget, hf] at hk ⊢; exact Or.inr (ih k hk)
  have sub : ∀ a b : FMap α, a.Pairwise (fun x y => x.1 < y.1) → (∀ e ∈ a, e.2 ≠ d) → (∀ k, fget d a k = fget d b k) →
      ∀ e ∈ a, e ∈ b := by
    intro a b ha had hab e he
    have h1 := hget a ha e he
    have h2 := hmem b e.1 (by rw [← hab, h1]; exact had e he)
    rw [← hab, h1] at h2
    exact h2
  refine List.Perm.eq_of_pairwise (le := fun a b => a.1 < b.1) (fun a b _ _ h1 h2 => absurd h1 (by omega)) hm.1 hn.1 ?_
  have nd : ∀ l : FMap α, l.Pairwise (fun a b => a.1 < b.1) → l.Nodup := fun l hl =>
    hl.imp fun {a b} hab => by rintro rfl; exact absurd hab (lt_irrefl _)
  rw [List.perm_ext_iff_of_nodup (nd m hm.1) (nd n hn.1)]
  exact fun e => ⟨sub m n hm.1 hm.2 h e, sub n m hn.1 hn.2 (fun k => (h k).symm) e⟩

end Sys2Proof.Machine
end

