-- ==== Sys2Proof/Laws/State.lean ====
section
/-! SUPPORT. What each update of the state leaves as it was, field by field, and what a read gives after it. -/

namespace Sys2Proof.Machine

/-! The device -/

@[simp] theorem Dev.mapChip_mgt (d : Dev) (g : Chip → Chip) : (d.mapChip g).mgt = d.mgt := rfl
@[simp] theorem Dev.mapChip_tel (d : Dev) (g : Chip → Chip) : (d.mapChip g).tel = d.tel := rfl
@[simp] theorem Dev.mapChip_str (d : Dev) (g : Chip → Chip) : (d.mapChip g).str = d.str := rfl
@[simp] theorem Dev.mapChip_chip (d : Dev) (g : Chip → Chip) : (d.mapChip g).chip = g d.chip := rfl
@[simp] theorem Dev.setBand_mgt (d : Dev) (b : Nat) (x : Band) : (d.setBand b x).mgt = d.mgt := rfl
@[simp] theorem Dev.setBand_str (d : Dev) (b : Nat) (x : Band) : (d.setBand b x).str = d.str := rfl
@[simp] theorem Dev.setBand_chip (d : Dev) (b : Nat) (x : Band) : (d.setBand b x).chip = d.chip := rfl

/-! Chip.setTile -/

@[simp] theorem Chip.setTile_ory (c : Chip) (p : Nat) (t : Tile) : (c.setTile p t).ory = c.ory := rfl
@[simp] theorem Chip.setTile_vsp (c : Chip) (p : Nat) (t : Tile) : (c.setTile p t).vsp = c.vsp := rfl
@[simp] theorem Chip.setTile_clr (c : Chip) (p : Nat) (t : Tile) : (c.setTile p t).clr = c.clr := rfl
@[simp] theorem Chip.setTile_hbm (c : Chip) (p : Nat) (t : Tile) : (c.setTile p t).hbm = c.hbm := rfl
@[simp] theorem Chip.setTile_fab (c : Chip) (p : Nat) (t : Tile) : (c.setTile p t).fab = c.fab := rfl
@[simp] theorem Chip.setTile_cxl (c : Chip) (p : Nat) (t : Tile) : (c.setTile p t).cxl = c.cxl := rfl
@[simp] theorem Chip.setTile_asy (c : Chip) (p : Nat) (t : Tile) : (c.setTile p t).asy = c.asy := rfl
@[simp] theorem Chip.setTile_run (c : Chip) (p : Nat) (t : Tile) : (c.setTile p t).run = c.run := rfl
@[simp] theorem Chip.setTile_dbk (c : Chip) (p : Nat) (t : Tile) : (c.setTile p t).dbk = c.dbk := rfl
@[simp] theorem Chip.setTile_openStacks (c : Chip) (p : Nat) (t : Tile) : (c.setTile p t).openStacks = c.openStacks := rfl
@[simp] theorem Chip.setTile_mem (c : Chip) (p : Nat) (t : Tile) : (c.setTile p t).mem = c.mem := rfl
@[simp] theorem Chip.setTile_poison (c : Chip) (p : Nat) (t : Tile) : (c.setTile p t).poison = c.poison := rfl
@[simp] theorem Chip.setTile_upsets (c : Chip) (p : Nat) (t : Tile) : (c.setTile p t).upsets = c.upsets := rfl
@[simp] theorem Chip.setTile_seals (c : Chip) (p : Nat) (t : Tile) : (c.setTile p t).seals = c.seals := rfl
@[simp] theorem Chip.setTile_flash (c : Chip) (p : Nat) (t : Tile) : (c.setTile p t).flash = c.flash := rfl
@[simp] theorem Chip.setTile_out (c : Chip) (p : Nat) (t : Tile) : (c.setTile p t).out = c.out := rfl
@[simp] theorem Chip.setTile_fresh (c : Chip) (p : Nat) (t : Tile) : (c.setTile p t).fresh = c.fresh := rfl

/-! Chip.setPort -/

@[simp] theorem Chip.setPort_ory (c : Chip) (p : Nat) (x : Port) : (c.setPort p x).ory = c.ory := rfl
@[simp] theorem Chip.setPort_vsp (c : Chip) (p : Nat) (x : Port) : (c.setPort p x).vsp = c.vsp := rfl
@[simp] theorem Chip.setPort_clr (c : Chip) (p : Nat) (x : Port) : (c.setPort p x).clr = c.clr := rfl
@[simp] theorem Chip.setPort_hbm (c : Chip) (p : Nat) (x : Port) : (c.setPort p x).hbm = c.hbm := rfl
@[simp] theorem Chip.setPort_cxl (c : Chip) (p : Nat) (x : Port) : (c.setPort p x).cxl = c.cxl := rfl
@[simp] theorem Chip.setPort_asy (c : Chip) (p : Nat) (x : Port) : (c.setPort p x).asy = c.asy := rfl
@[simp] theorem Chip.setPort_run (c : Chip) (p : Nat) (x : Port) : (c.setPort p x).run = c.run := rfl
@[simp] theorem Chip.setPort_til (c : Chip) (p : Nat) (x : Port) : (c.setPort p x).til = c.til := rfl
@[simp] theorem Chip.setPort_dbk (c : Chip) (p : Nat) (x : Port) : (c.setPort p x).dbk = c.dbk := rfl
@[simp] theorem Chip.setPort_openStacks (c : Chip) (p : Nat) (x : Port) : (c.setPort p x).openStacks = c.openStacks := rfl
@[simp] theorem Chip.setPort_mem (c : Chip) (p : Nat) (x : Port) : (c.setPort p x).mem = c.mem := rfl
@[simp] theorem Chip.setPort_poison (c : Chip) (p : Nat) (x : Port) : (c.setPort p x).poison = c.poison := rfl
@[simp] theorem Chip.setPort_upsets (c : Chip) (p : Nat) (x : Port) : (c.setPort p x).upsets = c.upsets := rfl
@[simp] theorem Chip.setPort_seals (c : Chip) (p : Nat) (x : Port) : (c.setPort p x).seals = c.seals := rfl
@[simp] theorem Chip.setPort_flash (c : Chip) (p : Nat) (x : Port) : (c.setPort p x).flash = c.flash := rfl
@[simp] theorem Chip.setPort_out (c : Chip) (p : Nat) (x : Port) : (c.setPort p x).out = c.out := rfl
@[simp] theorem Chip.setPort_fresh (c : Chip) (p : Nat) (x : Port) : (c.setPort p x).fresh = c.fresh := rfl

/-! onPort -/

@[simp] theorem onPort_ory (c : Chip) (p : Nat) (g : Port → Port) : (onPort p g c).ory = c.ory := rfl
@[simp] theorem onPort_vsp (c : Chip) (p : Nat) (g : Port → Port) : (onPort p g c).vsp = c.vsp := rfl
@[simp] theorem onPort_clr (c : Chip) (p : Nat) (g : Port → Port) : (onPort p g c).clr = c.clr := rfl
@[simp] theorem onPort_hbm (c : Chip) (p : Nat) (g : Port → Port) : (onPort p g c).hbm = c.hbm := rfl
@[simp] theorem onPort_cxl (c : Chip) (p : Nat) (g : Port → Port) : (onPort p g c).cxl = c.cxl := rfl
@[simp] theorem onPort_asy (c : Chip) (p : Nat) (g : Port → Port) : (onPort p g c).asy = c.asy := rfl
@[simp] theorem onPort_run (c : Chip) (p : Nat) (g : Port → Port) : (onPort p g c).run = c.run := rfl
@[simp] theorem onPort_til (c : Chip) (p : Nat) (g : Port → Port) : (onPort p g c).til = c.til := rfl
@[simp] theorem onPort_dbk (c : Chip) (p : Nat) (g : Port → Port) : (onPort p g c).dbk = c.dbk := rfl
@[simp] theorem onPort_openStacks (c : Chip) (p : Nat) (g : Port → Port) : (onPort p g c).openStacks = c.openStacks := rfl
@[simp] theorem onPort_mem (c : Chip) (p : Nat) (g : Port → Port) : (onPort p g c).mem = c.mem := rfl
@[simp] theorem onPort_poison (c : Chip) (p : Nat) (g : Port → Port) : (onPort p g c).poison = c.poison := rfl
@[simp] theorem onPort_upsets (c : Chip) (p : Nat) (g : Port → Port) : (onPort p g c).upsets = c.upsets := rfl
@[simp] theorem onPort_seals (c : Chip) (p : Nat) (g : Port → Port) : (onPort p g c).seals = c.seals := rfl
@[simp] theorem onPort_flash (c : Chip) (p : Nat) (g : Port → Port) : (onPort p g c).flash = c.flash := rfl
@[simp] theorem onPort_out (c : Chip) (p : Nat) (g : Port → Port) : (onPort p g c).out = c.out := rfl
@[simp] theorem onPort_fresh (c : Chip) (p : Nat) (g : Port → Port) : (onPort p g c).fresh = c.fresh := rfl

/-! Chip.setGq -/

@[simp] theorem Chip.setGq_ory (c : Chip) (i : Nat) (q : Gq) : (c.setGq i q).ory = c.ory := rfl
@[simp] theorem Chip.setGq_vsp (c : Chip) (i : Nat) (q : Gq) : (c.setGq i q).vsp = c.vsp := rfl
@[simp] theorem Chip.setGq_hbm (c : Chip) (i : Nat) (q : Gq) : (c.setGq i q).hbm = c.hbm := rfl
@[simp] theorem Chip.setGq_fab (c : Chip) (i : Nat) (q : Gq) : (c.setGq i q).fab = c.fab := rfl
@[simp] theorem Chip.setGq_cxl (c : Chip) (i : Nat) (q : Gq) : (c.setGq i q).cxl = c.cxl := rfl
@[simp] theorem Chip.setGq_asy (c : Chip) (i : Nat) (q : Gq) : (c.setGq i q).asy = c.asy := rfl
@[simp] theorem Chip.setGq_run (c : Chip) (i : Nat) (q : Gq) : (c.setGq i q).run = c.run := rfl
@[simp] theorem Chip.setGq_til (c : Chip) (i : Nat) (q : Gq) : (c.setGq i q).til = c.til := rfl
@[simp] theorem Chip.setGq_dbk (c : Chip) (i : Nat) (q : Gq) : (c.setGq i q).dbk = c.dbk := rfl
@[simp] theorem Chip.setGq_openStacks (c : Chip) (i : Nat) (q : Gq) : (c.setGq i q).openStacks = c.openStacks := rfl
@[simp] theorem Chip.setGq_mem (c : Chip) (i : Nat) (q : Gq) : (c.setGq i q).mem = c.mem := rfl
@[simp] theorem Chip.setGq_poison (c : Chip) (i : Nat) (q : Gq) : (c.setGq i q).poison = c.poison := rfl
@[simp] theorem Chip.setGq_upsets (c : Chip) (i : Nat) (q : Gq) : (c.setGq i q).upsets = c.upsets := rfl
@[simp] theorem Chip.setGq_seals (c : Chip) (i : Nat) (q : Gq) : (c.setGq i q).seals = c.seals := rfl
@[simp] theorem Chip.setGq_flash (c : Chip) (i : Nat) (q : Gq) : (c.setGq i q).flash = c.flash := rfl
@[simp] theorem Chip.setGq_out (c : Chip) (i : Nat) (q : Gq) : (c.setGq i q).out = c.out := rfl
@[simp] theorem Chip.setGq_fresh (c : Chip) (i : Nat) (q : Gq) : (c.setGq i q).fresh = c.fresh := rfl

/-! Chip.setMbox -/

@[simp] theorem Chip.setMbox_ory (c : Chip) (i : Nat) (b : Mbox) : (c.setMbox i b).ory = c.ory := rfl
@[simp] theorem Chip.setMbox_clr (c : Chip) (i : Nat) (b : Mbox) : (c.setMbox i b).clr = c.clr := rfl
@[simp] theorem Chip.setMbox_hbm (c : Chip) (i : Nat) (b : Mbox) : (c.setMbox i b).hbm = c.hbm := rfl
@[simp] theorem Chip.setMbox_fab (c : Chip) (i : Nat) (b : Mbox) : (c.setMbox i b).fab = c.fab := rfl
@[simp] theorem Chip.setMbox_cxl (c : Chip) (i : Nat) (b : Mbox) : (c.setMbox i b).cxl = c.cxl := rfl
@[simp] theorem Chip.setMbox_asy (c : Chip) (i : Nat) (b : Mbox) : (c.setMbox i b).asy = c.asy := rfl
@[simp] theorem Chip.setMbox_run (c : Chip) (i : Nat) (b : Mbox) : (c.setMbox i b).run = c.run := rfl
@[simp] theorem Chip.setMbox_til (c : Chip) (i : Nat) (b : Mbox) : (c.setMbox i b).til = c.til := rfl
@[simp] theorem Chip.setMbox_dbk (c : Chip) (i : Nat) (b : Mbox) : (c.setMbox i b).dbk = c.dbk := rfl
@[simp] theorem Chip.setMbox_openStacks (c : Chip) (i : Nat) (b : Mbox) : (c.setMbox i b).openStacks = c.openStacks := rfl
@[simp] theorem Chip.setMbox_mem (c : Chip) (i : Nat) (b : Mbox) : (c.setMbox i b).mem = c.mem := rfl
@[simp] theorem Chip.setMbox_poison (c : Chip) (i : Nat) (b : Mbox) : (c.setMbox i b).poison = c.poison := rfl
@[simp] theorem Chip.setMbox_upsets (c : Chip) (i : Nat) (b : Mbox) : (c.setMbox i b).upsets = c.upsets := rfl
@[simp] theorem Chip.setMbox_seals (c : Chip) (i : Nat) (b : Mbox) : (c.setMbox i b).seals = c.seals := rfl
@[simp] theorem Chip.setMbox_flash (c : Chip) (i : Nat) (b : Mbox) : (c.setMbox i b).flash = c.flash := rfl
@[simp] theorem Chip.setMbox_out (c : Chip) (i : Nat) (b : Mbox) : (c.setMbox i b).out = c.out := rfl
@[simp] theorem Chip.setMbox_fresh (c : Chip) (i : Nat) (b : Mbox) : (c.setMbox i b).fresh = c.fresh := rfl

/-! setEntry -/

@[simp] theorem setEntry_vsp (c : Chip) (e : Entry) : (setEntry e c).vsp = c.vsp := rfl
@[simp] theorem setEntry_clr (c : Chip) (e : Entry) : (setEntry e c).clr = c.clr := rfl
@[simp] theorem setEntry_hbm (c : Chip) (e : Entry) : (setEntry e c).hbm = c.hbm := rfl
@[simp] theorem setEntry_fab (c : Chip) (e : Entry) : (setEntry e c).fab = c.fab := rfl
@[simp] theorem setEntry_cxl (c : Chip) (e : Entry) : (setEntry e c).cxl = c.cxl := rfl
@[simp] theorem setEntry_asy (c : Chip) (e : Entry) : (setEntry e c).asy = c.asy := rfl
@[simp] theorem setEntry_run (c : Chip) (e : Entry) : (setEntry e c).run = c.run := rfl
@[simp] theorem setEntry_til (c : Chip) (e : Entry) : (setEntry e c).til = c.til := rfl
@[simp] theorem setEntry_dbk (c : Chip) (e : Entry) : (setEntry e c).dbk = c.dbk := rfl
@[simp] theorem setEntry_openStacks (c : Chip) (e : Entry) : (setEntry e c).openStacks = c.openStacks := rfl
@[simp] theorem setEntry_mem (c : Chip) (e : Entry) : (setEntry e c).mem = c.mem := rfl
@[simp] theorem setEntry_poison (c : Chip) (e : Entry) : (setEntry e c).poison = c.poison := rfl
@[simp] theorem setEntry_upsets (c : Chip) (e : Entry) : (setEntry e c).upsets = c.upsets := rfl
@[simp] theorem setEntry_seals (c : Chip) (e : Entry) : (setEntry e c).seals = c.seals := rfl
@[simp] theorem setEntry_flash (c : Chip) (e : Entry) : (setEntry e c).flash = c.flash := rfl
@[simp] theorem setEntry_out (c : Chip) (e : Entry) : (setEntry e c).out = c.out := rfl
@[simp] theorem setEntry_fresh (c : Chip) (e : Entry) : (setEntry e c).fresh = c.fresh := rfl

/-! finish -/

@[simp] theorem finish_vsp (c : Chip) (e : Entry) (st : Nat) : (finish e st c).vsp = c.vsp := rfl
@[simp] theorem finish_clr (c : Chip) (e : Entry) (st : Nat) : (finish e st c).clr = c.clr := rfl
@[simp] theorem finish_hbm (c : Chip) (e : Entry) (st : Nat) : (finish e st c).hbm = c.hbm := rfl
@[simp] theorem finish_fab (c : Chip) (e : Entry) (st : Nat) : (finish e st c).fab = c.fab := rfl
@[simp] theorem finish_cxl (c : Chip) (e : Entry) (st : Nat) : (finish e st c).cxl = c.cxl := rfl
@[simp] theorem finish_asy (c : Chip) (e : Entry) (st : Nat) : (finish e st c).asy = c.asy := rfl
@[simp] theorem finish_run (c : Chip) (e : Entry) (st : Nat) : (finish e st c).run = c.run := rfl
@[simp] theorem finish_til (c : Chip) (e : Entry) (st : Nat) : (finish e st c).til = c.til := rfl
@[simp] theorem finish_dbk (c : Chip) (e : Entry) (st : Nat) : (finish e st c).dbk = c.dbk := rfl
@[simp] theorem finish_openStacks (c : Chip) (e : Entry) (st : Nat) : (finish e st c).openStacks = c.openStacks := rfl
@[simp] theorem finish_mem (c : Chip) (e : Entry) (st : Nat) : (finish e st c).mem = c.mem := rfl
@[simp] theorem finish_poison (c : Chip) (e : Entry) (st : Nat) : (finish e st c).poison = c.poison := rfl
@[simp] theorem finish_upsets (c : Chip) (e : Entry) (st : Nat) : (finish e st c).upsets = c.upsets := rfl
@[simp] theorem finish_seals (c : Chip) (e : Entry) (st : Nat) : (finish e st c).seals = c.seals := rfl
@[simp] theorem finish_flash (c : Chip) (e : Entry) (st : Nat) : (finish e st c).flash = c.flash := rfl
@[simp] theorem finish_out (c : Chip) (e : Entry) (st : Nat) : (finish e st c).out = c.out := rfl
@[simp] theorem finish_fresh (c : Chip) (e : Entry) (st : Nat) : (finish e st c).fresh = c.fresh := rfl

/-! onWq -/

@[simp] theorem onWq_vsp (c : Chip) (q : Nat) (g : Wq → Wq) : (onWq q g c).vsp = c.vsp := rfl
@[simp] theorem onWq_clr (c : Chip) (q : Nat) (g : Wq → Wq) : (onWq q g c).clr = c.clr := rfl
@[simp] theorem onWq_hbm (c : Chip) (q : Nat) (g : Wq → Wq) : (onWq q g c).hbm = c.hbm := rfl
@[simp] theorem onWq_fab (c : Chip) (q : Nat) (g : Wq → Wq) : (onWq q g c).fab = c.fab := rfl
@[simp] theorem onWq_cxl (c : Chip) (q : Nat) (g : Wq → Wq) : (onWq q g c).cxl = c.cxl := rfl
@[simp] theorem onWq_asy (c : Chip) (q : Nat) (g : Wq → Wq) : (onWq q g c).asy = c.asy := rfl
@[simp] theorem onWq_run (c : Chip) (q : Nat) (g : Wq → Wq) : (onWq q g c).run = c.run := rfl
@[simp] theorem onWq_til (c : Chip) (q : Nat) (g : Wq → Wq) : (onWq q g c).til = c.til := rfl
@[simp] theorem onWq_dbk (c : Chip) (q : Nat) (g : Wq → Wq) : (onWq q g c).dbk = c.dbk := rfl
@[simp] theorem onWq_openStacks (c : Chip) (q : Nat) (g : Wq → Wq) : (onWq q g c).openStacks = c.openStacks := rfl
@[simp] theorem onWq_mem (c : Chip) (q : Nat) (g : Wq → Wq) : (onWq q g c).mem = c.mem := rfl
@[simp] theorem onWq_poison (c : Chip) (q : Nat) (g : Wq → Wq) : (onWq q g c).poison = c.poison := rfl
@[simp] theorem onWq_upsets (c : Chip) (q : Nat) (g : Wq → Wq) : (onWq q g c).upsets = c.upsets := rfl
@[simp] theorem onWq_seals (c : Chip) (q : Nat) (g : Wq → Wq) : (onWq q g c).seals = c.seals := rfl
@[simp] theorem onWq_flash (c : Chip) (q : Nat) (g : Wq → Wq) : (onWq q g c).flash = c.flash := rfl
@[simp] theorem onWq_out (c : Chip) (q : Nat) (g : Wq → Wq) : (onWq q g c).out = c.out := rfl
@[simp] theorem onWq_fresh (c : Chip) (q : Nat) (g : Wq → Wq) : (onWq q g c).fresh = c.fresh := rfl

/-! onStream -/

@[simp] theorem onStream_vsp (c : Chip) (k : Nat) (g : Stream → Stream) : (onStream k g c).vsp = c.vsp := rfl
@[simp] theorem onStream_clr (c : Chip) (k : Nat) (g : Stream → Stream) : (onStream k g c).clr = c.clr := rfl
@[simp] theorem onStream_hbm (c : Chip) (k : Nat) (g : Stream → Stream) : (onStream k g c).hbm = c.hbm := rfl
@[simp] theorem onStream_fab (c : Chip) (k : Nat) (g : Stream → Stream) : (onStream k g c).fab = c.fab := rfl
@[simp] theorem onStream_cxl (c : Chip) (k : Nat) (g : Stream → Stream) : (onStream k g c).cxl = c.cxl := rfl
@[simp] theorem onStream_asy (c : Chip) (k : Nat) (g : Stream → Stream) : (onStream k g c).asy = c.asy := rfl
@[simp] theorem onStream_run (c : Chip) (k : Nat) (g : Stream → Stream) : (onStream k g c).run = c.run := rfl
@[simp] theorem onStream_til (c : Chip) (k : Nat) (g : Stream → Stream) : (onStream k g c).til = c.til := rfl
@[simp] theorem onStream_dbk (c : Chip) (k : Nat) (g : Stream → Stream) : (onStream k g c).dbk = c.dbk := rfl
@[simp] theorem onStream_openStacks (c : Chip) (k : Nat) (g : Stream → Stream) : (onStream k g c).openStacks = c.openStacks := rfl
@[simp] theorem onStream_mem (c : Chip) (k : Nat) (g : Stream → Stream) : (onStream k g c).mem = c.mem := rfl
@[simp] theorem onStream_poison (c : Chip) (k : Nat) (g : Stream → Stream) : (onStream k g c).poison = c.poison := rfl
@[simp] theorem onStream_upsets (c : Chip) (k : Nat) (g : Stream → Stream) : (onStream k g c).upsets = c.upsets := rfl
@[simp] theorem onStream_seals (c : Chip) (k : Nat) (g : Stream → Stream) : (onStream k g c).seals = c.seals := rfl
@[simp] theorem onStream_flash (c : Chip) (k : Nat) (g : Stream → Stream) : (onStream k g c).flash = c.flash := rfl
@[simp] theorem onStream_out (c : Chip) (k : Nat) (g : Stream → Stream) : (onStream k g c).out = c.out := rfl
@[simp] theorem onStream_fresh (c : Chip) (k : Nat) (g : Stream → Stream) : (onStream k g c).fresh = c.fresh := rfl

/-! onEntries -/

@[simp] theorem onEntries_vsp (c : Chip) (g : Entry → Entry) : (onEntries g c).vsp = c.vsp := rfl
@[simp] theorem onEntries_clr (c : Chip) (g : Entry → Entry) : (onEntries g c).clr = c.clr := rfl
@[simp] theorem onEntries_hbm (c : Chip) (g : Entry → Entry) : (onEntries g c).hbm = c.hbm := rfl
@[simp] theorem onEntries_fab (c : Chip) (g : Entry → Entry) : (onEntries g c).fab = c.fab := rfl
@[simp] theorem onEntries_cxl (c : Chip) (g : Entry → Entry) : (onEntries g c).cxl = c.cxl := rfl
@[simp] theorem onEntries_asy (c : Chip) (g : Entry → Entry) : (onEntries g c).asy = c.asy := rfl
@[simp] theorem onEntries_run (c : Chip) (g : Entry → Entry) : (onEntries g c).run = c.run := rfl
@[simp] theorem onEntries_til (c : Chip) (g : Entry → Entry) : (onEntries g c).til = c.til := rfl
@[simp] theorem onEntries_dbk (c : Chip) (g : Entry → Entry) : (onEntries g c).dbk = c.dbk := rfl
@[simp] theorem onEntries_openStacks (c : Chip) (g : Entry → Entry) : (onEntries g c).openStacks = c.openStacks := rfl
@[simp] theorem onEntries_mem (c : Chip) (g : Entry → Entry) : (onEntries g c).mem = c.mem := rfl
@[simp] theorem onEntries_poison (c : Chip) (g : Entry → Entry) : (onEntries g c).poison = c.poison := rfl
@[simp] theorem onEntries_upsets (c : Chip) (g : Entry → Entry) : (onEntries g c).upsets = c.upsets := rfl
@[simp] theorem onEntries_seals (c : Chip) (g : Entry → Entry) : (onEntries g c).seals = c.seals := rfl
@[simp] theorem onEntries_flash (c : Chip) (g : Entry → Entry) : (onEntries g c).flash = c.flash := rfl
@[simp] theorem onEntries_out (c : Chip) (g : Entry → Entry) : (onEntries g c).out = c.out := rfl
@[simp] theorem onEntries_fresh (c : Chip) (g : Entry → Entry) : (onEntries g c).fresh = c.fresh := rfl

/-! emit -/

@[simp] theorem emit_ory (c : Chip) (x : Out) : (emit x c).ory = c.ory := by unfold emit; split <;> rfl
@[simp] theorem emit_vsp (c : Chip) (x : Out) : (emit x c).vsp = c.vsp := by unfold emit; split <;> rfl
@[simp] theorem emit_clr (c : Chip) (x : Out) : (emit x c).clr = c.clr := by unfold emit; split <;> rfl
@[simp] theorem emit_hbm (c : Chip) (x : Out) : (emit x c).hbm = c.hbm := by unfold emit; split <;> rfl
@[simp] theorem emit_fab (c : Chip) (x : Out) : (emit x c).fab = c.fab := by unfold emit; split <;> rfl
@[simp] theorem emit_cxl (c : Chip) (x : Out) : (emit x c).cxl = c.cxl := by unfold emit; split <;> rfl
@[simp] theorem emit_asy (c : Chip) (x : Out) : (emit x c).asy = c.asy := by unfold emit; split <;> rfl
@[simp] theorem emit_run (c : Chip) (x : Out) : (emit x c).run = c.run := by unfold emit; split <;> rfl
@[simp] theorem emit_til (c : Chip) (x : Out) : (emit x c).til = c.til := by unfold emit; split <;> rfl
@[simp] theorem emit_dbk (c : Chip) (x : Out) : (emit x c).dbk = c.dbk := by unfold emit; split <;> rfl
@[simp] theorem emit_openStacks (c : Chip) (x : Out) : (emit x c).openStacks = c.openStacks := by unfold emit; split <;> rfl
@[simp] theorem emit_mem (c : Chip) (x : Out) : (emit x c).mem = c.mem := by unfold emit; split <;> rfl
@[simp] theorem emit_poison (c : Chip) (x : Out) : (emit x c).poison = c.poison := by unfold emit; split <;> rfl
@[simp] theorem emit_upsets (c : Chip) (x : Out) : (emit x c).upsets = c.upsets := by unfold emit; split <;> rfl
@[simp] theorem emit_seals (c : Chip) (x : Out) : (emit x c).seals = c.seals := by unfold emit; split <;> rfl
@[simp] theorem emit_flash (c : Chip) (x : Out) : (emit x c).flash = c.flash := by unfold emit; split <;> rfl
@[simp] theorem emit_fresh (c : Chip) (x : Out) : (emit x c).fresh = c.fresh := by unfold emit; split <;> rfl

/-! requestVector -/

@[simp] theorem requestVector_ory (c : Chip) (v : Nat) : (requestVector v c).ory = c.ory := by unfold requestVector; split <;> simp
@[simp] theorem requestVector_vsp (c : Chip) (v : Nat) : (requestVector v c).vsp = c.vsp := by unfold requestVector; split <;> simp
@[simp] theorem requestVector_clr (c : Chip) (v : Nat) : (requestVector v c).clr = c.clr := by unfold requestVector; split <;> simp
@[simp] theorem requestVector_hbm (c : Chip) (v : Nat) : (requestVector v c).hbm = c.hbm := by unfold requestVector; split <;> simp
@[simp] theorem requestVector_fab (c : Chip) (v : Nat) : (requestVector v c).fab = c.fab := by unfold requestVector; split <;> simp
@[simp] theorem requestVector_asy (c : Chip) (v : Nat) : (requestVector v c).asy = c.asy := by unfold requestVector; split <;> simp
@[simp] theorem requestVector_run (c : Chip) (v : Nat) : (requestVector v c).run = c.run := by unfold requestVector; split <;> simp
@[simp] theorem requestVector_til (c : Chip) (v : Nat) : (requestVector v c).til = c.til := by unfold requestVector; split <;> simp
@[simp] theorem requestVector_dbk (c : Chip) (v : Nat) : (requestVector v c).dbk = c.dbk := by unfold requestVector; split <;> simp
@[simp] theorem requestVector_openStacks (c : Chip) (v : Nat) : (requestVector v c).openStacks = c.openStacks := by unfold requestVector; split <;> simp
@[simp] theorem requestVector_mem (c : Chip) (v : Nat) : (requestVector v c).mem = c.mem := by unfold requestVector; split <;> simp
@[simp] theorem requestVector_poison (c : Chip) (v : Nat) : (requestVector v c).poison = c.poison := by unfold requestVector; split <;> simp
@[simp] theorem requestVector_upsets (c : Chip) (v : Nat) : (requestVector v c).upsets = c.upsets := by unfold requestVector; split <;> simp
@[simp] theorem requestVector_seals (c : Chip) (v : Nat) : (requestVector v c).seals = c.seals := by unfold requestVector; split <;> simp
@[simp] theorem requestVector_flash (c : Chip) (v : Nat) : (requestVector v c).flash = c.flash := by unfold requestVector; split <;> simp
@[simp] theorem requestVector_fresh (c : Chip) (v : Nat) : (requestVector v c).fresh = c.fresh := by unfold requestVector; split <;> simp

/-! writeByte -/

@[simp] theorem writeByte_ory (c : Chip) (a : Nat) (v : Byte) : (writeByte a v c).ory = c.ory := by unfold writeByte; split <;> rfl
@[simp] theorem writeByte_vsp (c : Chip) (a : Nat) (v : Byte) : (writeByte a v c).vsp = c.vsp := by unfold writeByte; split <;> rfl
@[simp] theorem writeByte_clr (c : Chip) (a : Nat) (v : Byte) : (writeByte a v c).clr = c.clr := by unfold writeByte; split <;> rfl
@[simp] theorem writeByte_hbm (c : Chip) (a : Nat) (v : Byte) : (writeByte a v c).hbm = c.hbm := by unfold writeByte; split <;> rfl
@[simp] theorem writeByte_fab (c : Chip) (a : Nat) (v : Byte) : (writeByte a v c).fab = c.fab := by unfold writeByte; split <;> rfl
@[simp] theorem writeByte_cxl (c : Chip) (a : Nat) (v : Byte) : (writeByte a v c).cxl = c.cxl := by unfold writeByte; split <;> rfl
@[simp] theorem writeByte_asy (c : Chip) (a : Nat) (v : Byte) : (writeByte a v c).asy = c.asy := by unfold writeByte; split <;> rfl
@[simp] theorem writeByte_run (c : Chip) (a : Nat) (v : Byte) : (writeByte a v c).run = c.run := by unfold writeByte; split <;> rfl
@[simp] theorem writeByte_til (c : Chip) (a : Nat) (v : Byte) : (writeByte a v c).til = c.til := by unfold writeByte; split <;> rfl
@[simp] theorem writeByte_dbk (c : Chip) (a : Nat) (v : Byte) : (writeByte a v c).dbk = c.dbk := by unfold writeByte; split <;> rfl
@[simp] theorem writeByte_openStacks (c : Chip) (a : Nat) (v : Byte) : (writeByte a v c).openStacks = c.openStacks := by unfold writeByte; split <;> rfl
@[simp] theorem writeByte_poison (c : Chip) (a : Nat) (v : Byte) : (writeByte a v c).poison = c.poison := by unfold writeByte; split <;> rfl
@[simp] theorem writeByte_upsets (c : Chip) (a : Nat) (v : Byte) : (writeByte a v c).upsets = c.upsets := by unfold writeByte; split <;> rfl
@[simp] theorem writeByte_seals (c : Chip) (a : Nat) (v : Byte) : (writeByte a v c).seals = c.seals := by unfold writeByte; split <;> rfl
@[simp] theorem writeByte_flash (c : Chip) (a : Nat) (v : Byte) : (writeByte a v c).flash = c.flash := by unfold writeByte; split <;> rfl
@[simp] theorem writeByte_out (c : Chip) (a : Nat) (v : Byte) : (writeByte a v c).out = c.out := by unfold writeByte; split <;> rfl
@[simp] theorem writeByte_fresh (c : Chip) (a : Nat) (v : Byte) : (writeByte a v c).fresh = c.fresh := by unfold writeByte; split <;> rfl

/-! setPoison -/

@[simp] theorem setPoison_ory (c : Chip) (a : Nat) (v : Bool) : (setPoison a v c).ory = c.ory := by unfold setPoison; split <;> rfl
@[simp] theorem setPoison_vsp (c : Chip) (a : Nat) (v : Bool) : (setPoison a v c).vsp = c.vsp := by unfold setPoison; split <;> rfl
@[simp] theorem setPoison_clr (c : Chip) (a : Nat) (v : Bool) : (setPoison a v c).clr = c.clr := by unfold setPoison; split <;> rfl
@[simp] theorem setPoison_hbm (c : Chip) (a : Nat) (v : Bool) : (setPoison a v c).hbm = c.hbm := by unfold setPoison; split <;> rfl
@[simp] theorem setPoison_fab (c : Chip) (a : Nat) (v : Bool) : (setPoison a v c).fab = c.fab := by unfold setPoison; split <;> rfl
@[simp] theorem setPoison_cxl (c : Chip) (a : Nat) (v : Bool) : (setPoison a v c).cxl = c.cxl := by unfold setPoison; split <;> rfl
@[simp] theorem setPoison_asy (c : Chip) (a : Nat) (v : Bool) : (setPoison a v c).asy = c.asy := by unfold setPoison; split <;> rfl
@[simp] theorem setPoison_run (c : Chip) (a : Nat) (v : Bool) : (setPoison a v c).run = c.run := by unfold setPoison; split <;> rfl
@[simp] theorem setPoison_til (c : Chip) (a : Nat) (v : Bool) : (setPoison a v c).til = c.til := by unfold setPoison; split <;> rfl
@[simp] theorem setPoison_dbk (c : Chip) (a : Nat) (v : Bool) : (setPoison a v c).dbk = c.dbk := by unfold setPoison; split <;> rfl
@[simp] theorem setPoison_openStacks (c : Chip) (a : Nat) (v : Bool) : (setPoison a v c).openStacks = c.openStacks := by unfold setPoison; split <;> rfl
@[simp] theorem setPoison_mem (c : Chip) (a : Nat) (v : Bool) : (setPoison a v c).mem = c.mem := by unfold setPoison; split <;> rfl
@[simp] theorem setPoison_seals (c : Chip) (a : Nat) (v : Bool) : (setPoison a v c).seals = c.seals := by unfold setPoison; split <;> rfl
@[simp] theorem setPoison_flash (c : Chip) (a : Nat) (v : Bool) : (setPoison a v c).flash = c.flash := by unfold setPoison; split <;> rfl
@[simp] theorem setPoison_out (c : Chip) (a : Nat) (v : Bool) : (setPoison a v c).out = c.out := by unfold setPoison; split <;> rfl
@[simp] theorem setPoison_fresh (c : Chip) (a : Nat) (v : Bool) : (setPoison a v c).fresh = c.fresh := by unfold setPoison; split <;> rfl

/-! setSeal -/

@[simp] theorem setSeal_ory (c : Chip) (a : Nat) (v : Option W32) : (setSeal a v c).ory = c.ory := by unfold setSeal; repeat (first | split | rfl)
@[simp] theorem setSeal_vsp (c : Chip) (a : Nat) (v : Option W32) : (setSeal a v c).vsp = c.vsp := by unfold setSeal; repeat (first | split | rfl)
@[simp] theorem setSeal_clr (c : Chip) (a : Nat) (v : Option W32) : (setSeal a v c).clr = c.clr := by unfold setSeal; repeat (first | split | rfl)
@[simp] theorem setSeal_hbm (c : Chip) (a : Nat) (v : Option W32) : (setSeal a v c).hbm = c.hbm := by unfold setSeal; repeat (first | split | rfl)
@[simp] theorem setSeal_fab (c : Chip) (a : Nat) (v : Option W32) : (setSeal a v c).fab = c.fab := by unfold setSeal; repeat (first | split | rfl)
@[simp] theorem setSeal_cxl (c : Chip) (a : Nat) (v : Option W32) : (setSeal a v c).cxl = c.cxl := by unfold setSeal; repeat (first | split | rfl)
@[simp] theorem setSeal_asy (c : Chip) (a : Nat) (v : Option W32) : (setSeal a v c).asy = c.asy := by unfold setSeal; repeat (first | split | rfl)
@[simp] theorem setSeal_run (c : Chip) (a : Nat) (v : Option W32) : (setSeal a v c).run = c.run := by unfold setSeal; repeat (first | split | rfl)
@[simp] theorem setSeal_til (c : Chip) (a : Nat) (v : Option W32) : (setSeal a v c).til = c.til := by unfold setSeal; repeat (first | split | rfl)
@[simp] theorem setSeal_dbk (c : Chip) (a : Nat) (v : Option W32) : (setSeal a v c).dbk = c.dbk := by unfold setSeal; repeat (first | split | rfl)
@[simp] theorem setSeal_openStacks (c : Chip) (a : Nat) (v : Option W32) : (setSeal a v c).openStacks = c.openStacks := by unfold setSeal; repeat (first | split | rfl)
@[simp] theorem setSeal_mem (c : Chip) (a : Nat) (v : Option W32) : (setSeal a v c).mem = c.mem := by unfold setSeal; repeat (first | split | rfl)
@[simp] theorem setSeal_poison (c : Chip) (a : Nat) (v : Option W32) : (setSeal a v c).poison = c.poison := by unfold setSeal; repeat (first | split | rfl)
@[simp] theorem setSeal_upsets (c : Chip) (a : Nat) (v : Option W32) : (setSeal a v c).upsets = c.upsets := by unfold setSeal; repeat (first | split | rfl)
@[simp] theorem setSeal_flash (c : Chip) (a : Nat) (v : Option W32) : (setSeal a v c).flash = c.flash := by unfold setSeal; repeat (first | split | rfl)
@[simp] theorem setSeal_out (c : Chip) (a : Nat) (v : Option W32) : (setSeal a v c).out = c.out := by unfold setSeal; repeat (first | split | rfl)
@[simp] theorem setSeal_fresh (c : Chip) (a : Nat) (v : Option W32) : (setSeal a v c).fresh = c.fresh := by unfold setSeal; repeat (first | split | rfl)

/-! setEntry within its block -/

@[simp] theorem setEntry_ory_lookahead (c : Chip) (e : Entry) : (setEntry e c).ory.lookahead = c.ory.lookahead := rfl
@[simp] theorem setEntry_ory_idleGate (c : Chip) (e : Entry) : (setEntry e c).ory.idleGate = c.ory.idleGate := rfl
@[simp] theorem setEntry_ory_joinWindow (c : Chip) (e : Entry) : (setEntry e c).ory.joinWindow = c.ory.joinWindow := rfl
@[simp] theorem setEntry_ory_preemptEn (c : Chip) (e : Entry) : (setEntry e c).ory.preemptEn = c.ory.preemptEn := rfl
@[simp] theorem setEntry_ory_evt (c : Chip) (e : Entry) : (setEntry e c).ory.evt = c.ory.evt := rfl
@[simp] theorem setEntry_ory_evtEn (c : Chip) (e : Entry) : (setEntry e c).ory.evtEn = c.ory.evtEn := rfl
@[simp] theorem setEntry_ory_armedCnt (c : Chip) (e : Entry) : (setEntry e c).ory.armedCnt = c.ory.armedCnt := rfl
@[simp] theorem setEntry_ory_retiredCnt (c : Chip) (e : Entry) : (setEntry e c).ory.retiredCnt = c.ory.retiredCnt := rfl
@[simp] theorem setEntry_ory_preemptions (c : Chip) (e : Entry) : (setEntry e c).ory.preemptions = c.ory.preemptions := rfl
@[simp] theorem setEntry_ory_lastRefusal (c : Chip) (e : Entry) : (setEntry e c).ory.lastRefusal = c.ory.lastRefusal := rfl
@[simp] theorem setEntry_ory_streamSel (c : Chip) (e : Entry) : (setEntry e c).ory.streamSel = c.ory.streamSel := rfl
@[simp] theorem setEntry_ory_wqSel (c : Chip) (e : Entry) : (setEntry e c).ory.wqSel = c.ory.wqSel := rfl
@[simp] theorem setEntry_ory_wqs (c : Chip) (e : Entry) : (setEntry e c).ory.wqs = c.ory.wqs := rfl
@[simp] theorem setEntry_ory_streams (c : Chip) (e : Entry) : (setEntry e c).ory.streams = c.ory.streams := rfl
@[simp] theorem setEntry_ory_skipped (c : Chip) (e : Entry) : (setEntry e c).ory.skipped = c.ory.skipped := rfl
@[simp] theorem setEntry_ory_nextId (c : Chip) (e : Entry) : (setEntry e c).ory.nextId = c.ory.nextId := rfl

/-! onWq within its block -/

@[simp] theorem onWq_ory_lookahead (c : Chip) (q : Nat) (g : Wq → Wq) : (onWq q g c).ory.lookahead = c.ory.lookahead := rfl
@[simp] theorem onWq_ory_idleGate (c : Chip) (q : Nat) (g : Wq → Wq) : (onWq q g c).ory.idleGate = c.ory.idleGate := rfl
@[simp] theorem onWq_ory_joinWindow (c : Chip) (q : Nat) (g : Wq → Wq) : (onWq q g c).ory.joinWindow = c.ory.joinWindow := rfl
@[simp] theorem onWq_ory_preemptEn (c : Chip) (q : Nat) (g : Wq → Wq) : (onWq q g c).ory.preemptEn = c.ory.preemptEn := rfl
@[simp] theorem onWq_ory_evt (c : Chip) (q : Nat) (g : Wq → Wq) : (onWq q g c).ory.evt = c.ory.evt := rfl
@[simp] theorem onWq_ory_evtEn (c : Chip) (q : Nat) (g : Wq → Wq) : (onWq q g c).ory.evtEn = c.ory.evtEn := rfl
@[simp] theorem onWq_ory_armedCnt (c : Chip) (q : Nat) (g : Wq → Wq) : (onWq q g c).ory.armedCnt = c.ory.armedCnt := rfl
@[simp] theorem onWq_ory_retiredCnt (c : Chip) (q : Nat) (g : Wq → Wq) : (onWq q g c).ory.retiredCnt = c.ory.retiredCnt := rfl
@[simp] theorem onWq_ory_preemptions (c : Chip) (q : Nat) (g : Wq → Wq) : (onWq q g c).ory.preemptions = c.ory.preemptions := rfl
@[simp] theorem onWq_ory_lastRefusal (c : Chip) (q : Nat) (g : Wq → Wq) : (onWq q g c).ory.lastRefusal = c.ory.lastRefusal := rfl
@[simp] theorem onWq_ory_streamSel (c : Chip) (q : Nat) (g : Wq → Wq) : (onWq q g c).ory.streamSel = c.ory.streamSel := rfl
@[simp] theorem onWq_ory_wqSel (c : Chip) (q : Nat) (g : Wq → Wq) : (onWq q g c).ory.wqSel = c.ory.wqSel := rfl
@[simp] theorem onWq_ory_streams (c : Chip) (q : Nat) (g : Wq → Wq) : (onWq q g c).ory.streams = c.ory.streams := rfl
@[simp] theorem onWq_ory_skipped (c : Chip) (q : Nat) (g : Wq → Wq) : (onWq q g c).ory.skipped = c.ory.skipped := rfl
@[simp] theorem onWq_ory_entries (c : Chip) (q : Nat) (g : Wq → Wq) : (onWq q g c).ory.entries = c.ory.entries := rfl
@[simp] theorem onWq_ory_nextId (c : Chip) (q : Nat) (g : Wq → Wq) : (onWq q g c).ory.nextId = c.ory.nextId := rfl

/-! Chip.setPort within its block -/

@[simp] theorem Chip.setPort_fab_swapThr (c : Chip) (p : Nat) (x : Port) : (c.setPort p x).fab.swapThr = c.fab.swapThr := rfl
@[simp] theorem Chip.setPort_fab_swapEn (c : Chip) (p : Nat) (x : Port) : (c.setPort p x).fab.swapEn = c.fab.swapEn := rfl
@[simp] theorem Chip.setPort_fab_evt (c : Chip) (p : Nat) (x : Port) : (c.setPort p x).fab.evt = c.fab.evt := rfl
@[simp] theorem Chip.setPort_fab_evtEn (c : Chip) (p : Nat) (x : Port) : (c.setPort p x).fab.evtEn = c.fab.evtEn := rfl
@[simp] theorem Chip.setPort_fab_winSel (c : Chip) (p : Nat) (x : Port) : (c.setPort p x).fab.winSel = c.fab.winSel := rfl
@[simp] theorem Chip.setPort_fab_wins (c : Chip) (p : Nat) (x : Port) : (c.setPort p x).fab.wins = c.fab.wins := rfl
@[simp] theorem Chip.setPort_fab_misroute (c : Chip) (p : Nat) (x : Port) : (c.setPort p x).fab.misroute = c.fab.misroute := rfl
@[simp] theorem Chip.setPort_fab_portSel (c : Chip) (p : Nat) (x : Port) : (c.setPort p x).fab.portSel = c.fab.portSel := rfl
@[simp] theorem Chip.setPort_fab_laneSel (c : Chip) (p : Nat) (x : Port) : (c.setPort p x).fab.laneSel = c.fab.laneSel := rfl
@[simp] theorem Chip.setPort_fab_remotes (c : Chip) (p : Nat) (x : Port) : (c.setPort p x).fab.remotes = c.fab.remotes := rfl
@[simp] theorem Chip.setPort_fab_nextTag (c : Chip) (p : Nat) (x : Port) : (c.setPort p x).fab.nextTag = c.fab.nextTag := rfl
@[simp] theorem Chip.setPort_fab_flagSeq (c : Chip) (p : Nat) (x : Port) : (c.setPort p x).fab.flagSeq = c.fab.flagSeq := rfl
@[simp] theorem Chip.setPort_fab_flagSeen (c : Chip) (p : Nat) (x : Port) : (c.setPort p x).fab.flagSeen = c.fab.flagSeen := rfl
@[simp] theorem Chip.setPort_fab_held (c : Chip) (p : Nat) (x : Port) : (c.setPort p x).fab.held = c.fab.held := rfl

/-! Chip.setTile within its block -/

@[simp] theorem Chip.setTile_til_manifest (c : Chip) (p : Nat) (t : Tile) : (c.setTile p t).til.manifest = c.til.manifest := rfl
@[simp] theorem Chip.setTile_til_remapGen (c : Chip) (p : Nat) (t : Tile) : (c.setTile p t).til.remapGen = c.til.remapGen := rfl
@[simp] theorem Chip.setTile_til_saveBase (c : Chip) (p : Nat) (t : Tile) : (c.setTile p t).til.saveBase = c.til.saveBase := rfl
@[simp] theorem Chip.setTile_til_pending0 (c : Chip) (p : Nat) (t : Tile) : (c.setTile p t).til.pending0 = c.til.pending0 := rfl
@[simp] theorem Chip.setTile_til_pending1 (c : Chip) (p : Nat) (t : Tile) : (c.setTile p t).til.pending1 = c.til.pending1 := rfl
@[simp] theorem Chip.setTile_til_unbacked (c : Chip) (p : Nat) (t : Tile) : (c.setTile p t).til.unbacked = c.til.unbacked := rfl
@[simp] theorem Chip.setTile_til_almanac (c : Chip) (p : Nat) (t : Tile) : (c.setTile p t).til.almanac = c.til.almanac := rfl

/-! Chip.setGq within its block -/

@[simp] theorem Chip.setGq_clr_switchEn (c : Chip) (i : Nat) (q : Gq) : (c.setGq i q).clr.switchEn = c.clr.switchEn := rfl
@[simp] theorem Chip.setGq_clr_lastStatus (c : Chip) (i : Nat) (q : Gq) : (c.setGq i q).clr.lastStatus = c.clr.lastStatus := rfl
@[simp] theorem Chip.setGq_clr_evt (c : Chip) (i : Nat) (q : Gq) : (c.setGq i q).clr.evt = c.clr.evt := rfl
@[simp] theorem Chip.setGq_clr_evtEn (c : Chip) (i : Nat) (q : Gq) : (c.setGq i q).clr.evtEn = c.clr.evtEn := rfl
@[simp] theorem Chip.setGq_clr_gqSel (c : Chip) (i : Nat) (q : Gq) : (c.setGq i q).clr.gqSel = c.clr.gqSel := rfl
@[simp] theorem Chip.setGq_clr_planeSlot (c : Chip) (i : Nat) (q : Gq) : (c.setGq i q).clr.planeSlot = c.clr.planeSlot := rfl
@[simp] theorem Chip.setGq_clr_planeDown (c : Chip) (i : Nat) (q : Gq) : (c.setGq i q).clr.planeDown = c.clr.planeDown := rfl
@[simp] theorem Chip.setGq_clr_collectives (c : Chip) (i : Nat) (q : Gq) : (c.setGq i q).clr.collectives = c.clr.collectives := rfl
@[simp] theorem Chip.setGq_clr_tranSwitch (c : Chip) (i : Nat) (q : Gq) : (c.setGq i q).clr.tranSwitch = c.clr.tranSwitch := rfl
@[simp] theorem Chip.setGq_clr_tranRing (c : Chip) (i : Nat) (q : Gq) : (c.setGq i q).clr.tranRing = c.clr.tranRing := rfl
@[simp] theorem Chip.setGq_clr_refusals (c : Chip) (i : Nat) (q : Gq) : (c.setGq i q).clr.refusals = c.clr.refusals := rfl
@[simp] theorem Chip.setGq_clr_laneBytes (c : Chip) (i : Nat) (q : Gq) : (c.setGq i q).clr.laneBytes = c.clr.laneBytes := rfl
@[simp] theorem Chip.setGq_clr_lastAbort (c : Chip) (i : Nat) (q : Gq) : (c.setGq i q).clr.lastAbort = c.clr.lastAbort := rfl
@[simp] theorem Chip.setGq_clr_colls (c : Chip) (i : Nat) (q : Gq) : (c.setGq i q).clr.colls = c.clr.colls := rfl
@[simp] theorem Chip.setGq_clr_kept (c : Chip) (i : Nat) (q : Gq) : (c.setGq i q).clr.kept = c.clr.kept := rfl
@[simp] theorem Chip.setGq_clr_early (c : Chip) (i : Nat) (q : Gq) : (c.setGq i q).clr.early = c.clr.early := rfl

/-! Chip.setMbox within its block -/

@[simp] theorem Chip.setMbox_vsp_ready (c : Chip) (i : Nat) (b : Mbox) : (c.setMbox i b).vsp.ready = c.vsp.ready := rfl
@[simp] theorem Chip.setMbox_vsp_evt (c : Chip) (i : Nat) (b : Mbox) : (c.setMbox i b).vsp.evt = c.vsp.evt := rfl
@[simp] theorem Chip.setMbox_vsp_evtEn (c : Chip) (i : Nat) (b : Mbox) : (c.setMbox i b).vsp.evtEn = c.vsp.evtEn := rfl
@[simp] theorem Chip.setMbox_vsp_count64 (c : Chip) (i : Nat) (b : Mbox) : (c.setMbox i b).vsp.count64 = c.vsp.count64 := rfl
@[simp] theorem Chip.setMbox_vsp_base64 (c : Chip) (i : Nat) (b : Mbox) : (c.setMbox i b).vsp.base64 = c.vsp.base64 := rfl
@[simp] theorem Chip.setMbox_vsp_strictLast (c : Chip) (i : Nat) (b : Mbox) : (c.setMbox i b).vsp.strictLast = c.vsp.strictLast := rfl
@[simp] theorem Chip.setMbox_vsp_manualResult (c : Chip) (i : Nat) (b : Mbox) : (c.setMbox i b).vsp.manualResult = c.vsp.manualResult := rfl
@[simp] theorem Chip.setMbox_vsp_sets (c : Chip) (i : Nat) (b : Mbox) : (c.setMbox i b).vsp.sets = c.vsp.sets := rfl
@[simp] theorem Chip.setMbox_vsp_firedCnt (c : Chip) (i : Nat) (b : Mbox) : (c.setMbox i b).vsp.firedCnt = c.vsp.firedCnt := rfl
@[simp] theorem Chip.setMbox_vsp_overruns (c : Chip) (i : Nat) (b : Mbox) : (c.setMbox i b).vsp.overruns = c.vsp.overruns := rfl
@[simp] theorem Chip.setMbox_vsp_manualActs (c : Chip) (i : Nat) (b : Mbox) : (c.setMbox i b).vsp.manualActs = c.vsp.manualActs := rfl
@[simp] theorem Chip.setMbox_vsp_flags (c : Chip) (i : Nat) (b : Mbox) : (c.setMbox i b).vsp.flags = c.vsp.flags := rfl
@[simp] theorem Chip.setMbox_vsp_overrun (c : Chip) (i : Nat) (b : Mbox) : (c.setMbox i b).vsp.overrun = c.vsp.overrun := rfl
@[simp] theorem Chip.setMbox_vsp_strict (c : Chip) (i : Nat) (b : Mbox) : (c.setMbox i b).vsp.strict = c.vsp.strict := rfl
@[simp] theorem Chip.setMbox_vsp_watches (c : Chip) (i : Nat) (b : Mbox) : (c.setMbox i b).vsp.watches = c.vsp.watches := rfl
@[simp] theorem Chip.setMbox_vsp_mboxSel (c : Chip) (i : Nat) (b : Mbox) : (c.setMbox i b).vsp.mboxSel = c.vsp.mboxSel := rfl

/-! Events of a block on the chip: that block's status, pending vectors and messages alone -/

@[simp] theorem raise_run (c : Chip) (b : Blk) (i : Nat) : (raise b i c).run = c.run := by cases b <;> (unfold raise; simp only []; split <;> simp [Blk.setStatus])
@[simp] theorem raiseIf_run (c : Chip) (q : Bool) (b : Blk) (i : Nat) : (raiseIf q b i c).run = c.run := by unfold raiseIf; split <;> simp
@[simp] theorem raise_openStacks (c : Chip) (b : Blk) (i : Nat) : (raise b i c).openStacks = c.openStacks := by cases b <;> (unfold raise; simp only []; split <;> simp [Blk.setStatus])
@[simp] theorem raiseIf_openStacks (c : Chip) (q : Bool) (b : Blk) (i : Nat) : (raiseIf q b i c).openStacks = c.openStacks := by unfold raiseIf; split <;> simp
@[simp] theorem raise_mem (c : Chip) (b : Blk) (i : Nat) : (raise b i c).mem = c.mem := by cases b <;> (unfold raise; simp only []; split <;> simp [Blk.setStatus])
@[simp] theorem raiseIf_mem (c : Chip) (q : Bool) (b : Blk) (i : Nat) : (raiseIf q b i c).mem = c.mem := by unfold raiseIf; split <;> simp
@[simp] theorem raise_poison (c : Chip) (b : Blk) (i : Nat) : (raise b i c).poison = c.poison := by cases b <;> (unfold raise; simp only []; split <;> simp [Blk.setStatus])
@[simp] theorem raiseIf_poison (c : Chip) (q : Bool) (b : Blk) (i : Nat) : (raiseIf q b i c).poison = c.poison := by unfold raiseIf; split <;> simp
@[simp] theorem raise_upsets (c : Chip) (b : Blk) (i : Nat) : (raise b i c).upsets = c.upsets := by cases b <;> (unfold raise; simp only []; split <;> simp [Blk.setStatus])
@[simp] theorem raiseIf_upsets (c : Chip) (q : Bool) (b : Blk) (i : Nat) : (raiseIf q b i c).upsets = c.upsets := by unfold raiseIf; split <;> simp
@[simp] theorem raise_seals (c : Chip) (b : Blk) (i : Nat) : (raise b i c).seals = c.seals := by cases b <;> (unfold raise; simp only []; split <;> simp [Blk.setStatus])
@[simp] theorem raiseIf_seals (c : Chip) (q : Bool) (b : Blk) (i : Nat) : (raiseIf q b i c).seals = c.seals := by unfold raiseIf; split <;> simp
@[simp] theorem raise_flash (c : Chip) (b : Blk) (i : Nat) : (raise b i c).flash = c.flash := by cases b <;> (unfold raise; simp only []; split <;> simp [Blk.setStatus])
@[simp] theorem raiseIf_flash (c : Chip) (q : Bool) (b : Blk) (i : Nat) : (raiseIf q b i c).flash = c.flash := by unfold raiseIf; split <;> simp
@[simp] theorem raise_fresh (c : Chip) (b : Blk) (i : Nat) : (raise b i c).fresh = c.fresh := by cases b <;> (unfold raise; simp only []; split <;> simp [Blk.setStatus])
@[simp] theorem raiseIf_fresh (c : Chip) (q : Bool) (b : Blk) (i : Nat) : (raiseIf q b i c).fresh = c.fresh := by unfold raiseIf; split <;> simp
@[simp] theorem raise_ory_vsp (c : Chip) (i : Nat) : (raise .ory i c).vsp = c.vsp := by unfold raise; simp only []; split <;> simp [Blk.setStatus]
@[simp] theorem raiseIf_ory_vsp (c : Chip) (q : Bool) (i : Nat) : (raiseIf q .ory i c).vsp = c.vsp := by unfold raiseIf; split <;> simp
@[simp] theorem raise_ory_clr (c : Chip) (i : Nat) : (raise .ory i c).clr = c.clr := by unfold raise; simp only []; split <;> simp [Blk.setStatus]
@[simp] theorem raiseIf_ory_clr (c : Chip) (q : Bool) (i : Nat) : (raiseIf q .ory i c).clr = c.clr := by unfold raiseIf; split <;> simp
@[simp] theorem raise_ory_hbm (c : Chip) (i : Nat) : (raise .ory i c).hbm = c.hbm := by unfold raise; simp only []; split <;> simp [Blk.setStatus]
@[simp] theorem raiseIf_ory_hbm (c : Chip) (q : Bool) (i : Nat) : (raiseIf q .ory i c).hbm = c.hbm := by unfold raiseIf; split <;> simp
@[simp] theorem raise_ory_fab (c : Chip) (i : Nat) : (raise .ory i c).fab = c.fab := by unfold raise; simp only []; split <;> simp [Blk.setStatus]
@[simp] theorem raiseIf_ory_fab (c : Chip) (q : Bool) (i : Nat) : (raiseIf q .ory i c).fab = c.fab := by unfold raiseIf; split <;> simp
@[simp] theorem raise_ory_asy (c : Chip) (i : Nat) : (raise .ory i c).asy = c.asy := by unfold raise; simp only []; split <;> simp [Blk.setStatus]
@[simp] theorem raiseIf_ory_asy (c : Chip) (q : Bool) (i : Nat) : (raiseIf q .ory i c).asy = c.asy := by unfold raiseIf; split <;> simp
@[simp] theorem raise_ory_dbk (c : Chip) (i : Nat) : (raise .ory i c).dbk = c.dbk := by unfold raise; simp only []; split <;> simp [Blk.setStatus]
@[simp] theorem raiseIf_ory_dbk (c : Chip) (q : Bool) (i : Nat) : (raiseIf q .ory i c).dbk = c.dbk := by unfold raiseIf; split <;> simp
@[simp] theorem raise_ory_til (c : Chip) (i : Nat) : (raise .ory i c).til = c.til := by unfold raise; simp only []; split <;> simp [Blk.setStatus]
@[simp] theorem raiseIf_ory_til (c : Chip) (q : Bool) (i : Nat) : (raiseIf q .ory i c).til = c.til := by unfold raiseIf; split <;> simp
@[simp] theorem raise_ory_own (c : Chip) (i : Nat) : (raise .ory i c).ory = { c.ory with evt := .ofNat 7 (c.ory.evt.toNat ||| 2 ^ i) } := by unfold raise; simp only []; split <;> simp [Blk.setStatus, Blk.status]
@[simp] theorem raise_vsp_ory (c : Chip) (i : Nat) : (raise .vsp i c).ory = c.ory := by unfold raise; simp only []; split <;> simp [Blk.setStatus]
@[simp] theorem raiseIf_vsp_ory (c : Chip) (q : Bool) (i : Nat) : (raiseIf q .vsp i c).ory = c.ory := by unfold raiseIf; split <;> simp
@[simp] theorem raise_vsp_clr (c : Chip) (i : Nat) : (raise .vsp i c).clr = c.clr := by unfold raise; simp only []; split <;> simp [Blk.setStatus]
@[simp] theorem raiseIf_vsp_clr (c : Chip) (q : Bool) (i : Nat) : (raiseIf q .vsp i c).clr = c.clr := by unfold raiseIf; split <;> simp
@[simp] theorem raise_vsp_hbm (c : Chip) (i : Nat) : (raise .vsp i c).hbm = c.hbm := by unfold raise; simp only []; split <;> simp [Blk.setStatus]
@[simp] theorem raiseIf_vsp_hbm (c : Chip) (q : Bool) (i : Nat) : (raiseIf q .vsp i c).hbm = c.hbm := by unfold raiseIf; split <;> simp
@[simp] theorem raise_vsp_fab (c : Chip) (i : Nat) : (raise .vsp i c).fab = c.fab := by unfold raise; simp only []; split <;> simp [Blk.setStatus]
@[simp] theorem raiseIf_vsp_fab (c : Chip) (q : Bool) (i : Nat) : (raiseIf q .vsp i c).fab = c.fab := by unfold raiseIf; split <;> simp
@[simp] theorem raise_vsp_asy (c : Chip) (i : Nat) : (raise .vsp i c).asy = c.asy := by unfold raise; simp only []; split <;> simp [Blk.setStatus]
@[simp] theorem raiseIf_vsp_asy (c : Chip) (q : Bool) (i : Nat) : (raiseIf q .vsp i c).asy = c.asy := by unfold raiseIf; split <;> simp
@[simp] theorem raise_vsp_dbk (c : Chip) (i : Nat) : (raise .vsp i c).dbk = c.dbk := by unfold raise; simp only []; split <;> simp [Blk.setStatus]
@[simp] theorem raiseIf_vsp_dbk (c : Chip) (q : Bool) (i : Nat) : (raiseIf q .vsp i c).dbk = c.dbk := by unfold raiseIf; split <;> simp
@[simp] theorem raise_vsp_til (c : Chip) (i : Nat) : (raise .vsp i c).til = c.til := by unfold raise; simp only []; split <;> simp [Blk.setStatus]
@[simp] theorem raiseIf_vsp_til (c : Chip) (q : Bool) (i : Nat) : (raiseIf q .vsp i c).til = c.til := by unfold raiseIf; split <;> simp
@[simp] theorem raise_vsp_own (c : Chip) (i : Nat) : (raise .vsp i c).vsp = { c.vsp with evt := .ofNat 7 (c.vsp.evt.toNat ||| 2 ^ i) } := by unfold raise; simp only []; split <;> simp [Blk.setStatus, Blk.status]
@[simp] theorem raise_clr_ory (c : Chip) (i : Nat) : (raise .clr i c).ory = c.ory := by unfold raise; simp only []; split <;> simp [Blk.setStatus]
@[simp] theorem raiseIf_clr_ory (c : Chip) (q : Bool) (i : Nat) : (raiseIf q .clr i c).ory = c.ory := by unfold raiseIf; split <;> simp
@[simp] theorem raise_clr_vsp (c : Chip) (i : Nat) : (raise .clr i c).vsp = c.vsp := by unfold raise; simp only []; split <;> simp [Blk.setStatus]
@[simp] theorem raiseIf_clr_vsp (c : Chip) (q : Bool) (i : Nat) : (raiseIf q .clr i c).vsp = c.vsp := by unfold raiseIf; split <;> simp
@[simp] theorem raise_clr_hbm (c : Chip) (i : Nat) : (raise .clr i c).hbm = c.hbm := by unfold raise; simp only []; split <;> simp [Blk.setStatus]
@[simp] theorem raiseIf_clr_hbm (c : Chip) (q : Bool) (i : Nat) : (raiseIf q .clr i c).hbm = c.hbm := by unfold raiseIf; split <;> simp
@[simp] theorem raise_clr_fab (c : Chip) (i : Nat) : (raise .clr i c).fab = c.fab := by unfold raise; simp only []; split <;> simp [Blk.setStatus]
@[simp] theorem raiseIf_clr_fab (c : Chip) (q : Bool) (i : Nat) : (raiseIf q .clr i c).fab = c.fab := by unfold raiseIf; split <;> simp
@[simp] theorem raise_clr_asy (c : Chip) (i : Nat) : (raise .clr i c).asy = c.asy := by unfold raise; simp only []; split <;> simp [Blk.setStatus]
@[simp] theorem raiseIf_clr_asy (c : Chip) (q : Bool) (i : Nat) : (raiseIf q .clr i c).asy = c.asy := by unfold raiseIf; split <;> simp
@[simp] theorem raise_clr_dbk (c : Chip) (i : Nat) : (raise .clr i c).dbk = c.dbk := by unfold raise; simp only []; split <;> simp [Blk.setStatus]
@[simp] theorem raiseIf_clr_dbk (c : Chip) (q : Bool) (i : Nat) : (raiseIf q .clr i c).dbk = c.dbk := by unfold raiseIf; split <;> simp
@[simp] theorem raise_clr_til (c : Chip) (i : Nat) : (raise .clr i c).til = c.til := by unfold raise; simp only []; split <;> simp [Blk.setStatus]
@[simp] theorem raiseIf_clr_til (c : Chip) (q : Bool) (i : Nat) : (raiseIf q .clr i c).til = c.til := by unfold raiseIf; split <;> simp
@[simp] theorem raise_clr_own (c : Chip) (i : Nat) : (raise .clr i c).clr = { c.clr with evt := .ofNat 6 (c.clr.evt.toNat ||| 2 ^ i) } := by unfold raise; simp only []; split <;> simp [Blk.setStatus, Blk.status]
@[simp] theorem raise_hbm_ory (c : Chip) (i : Nat) : (raise .hbm i c).ory = c.ory := by unfold raise; simp only []; split <;> simp [Blk.setStatus]
@[simp] theorem raiseIf_hbm_ory (c : Chip) (q : Bool) (i : Nat) : (raiseIf q .hbm i c).ory = c.ory := by unfold raiseIf; split <;> simp
@[simp] theorem raise_hbm_vsp (c : Chip) (i : Nat) : (raise .hbm i c).vsp = c.vsp := by unfold raise; simp only []; split <;> simp [Blk.setStatus]
@[simp] theorem raiseIf_hbm_vsp (c : Chip) (q : Bool) (i : Nat) : (raiseIf q .hbm i c).vsp = c.vsp := by unfold raiseIf; split <;> simp
@[simp] theorem raise_hbm_clr (c : Chip) (i : Nat) : (raise .hbm i c).clr = c.clr := by unfold raise; simp only []; split <;> simp [Blk.setStatus]
@[simp] theorem raiseIf_hbm_clr (c : Chip) (q : Bool) (i : Nat) : (raiseIf q .hbm i c).clr = c.clr := by unfold raiseIf; split <;> simp
@[simp] theorem raise_hbm_fab (c : Chip) (i : Nat) : (raise .hbm i c).fab = c.fab := by unfold raise; simp only []; split <;> simp [Blk.setStatus]
@[simp] theorem raiseIf_hbm_fab (c : Chip) (q : Bool) (i : Nat) : (raiseIf q .hbm i c).fab = c.fab := by unfold raiseIf; split <;> simp
@[simp] theorem raise_hbm_asy (c : Chip) (i : Nat) : (raise .hbm i c).asy = c.asy := by unfold raise; simp only []; split <;> simp [Blk.setStatus]
@[simp] theorem raiseIf_hbm_asy (c : Chip) (q : Bool) (i : Nat) : (raiseIf q .hbm i c).asy = c.asy := by unfold raiseIf; split <;> simp
@[simp] theorem raise_hbm_dbk (c : Chip) (i : Nat) : (raise .hbm i c).dbk = c.dbk := by unfold raise; simp only []; split <;> simp [Blk.setStatus]
@[simp] theorem raiseIf_hbm_dbk (c : Chip) (q : Bool) (i : Nat) : (raiseIf q .hbm i c).dbk = c.dbk := by unfold raiseIf; split <;> simp
@[simp] theorem raise_hbm_til (c : Chip) (i : Nat) : (raise .hbm i c).til = c.til := by unfold raise; simp only []; split <;> simp [Blk.setStatus]
@[simp] theorem raiseIf_hbm_til (c : Chip) (q : Bool) (i : Nat) : (raiseIf q .hbm i c).til = c.til := by unfold raiseIf; split <;> simp
@[simp] theorem raise_hbm_own (c : Chip) (i : Nat) : (raise .hbm i c).hbm = { c.hbm with evt := .ofNat 8 (c.hbm.evt.toNat ||| 2 ^ i) } := by unfold raise; simp only []; split <;> simp [Blk.setStatus, Blk.status]
@[simp] theorem raise_fab_ory (c : Chip) (i : Nat) : (raise .fab i c).ory = c.ory := by unfold raise; simp only []; split <;> simp [Blk.setStatus]
@[simp] theorem raiseIf_fab_ory (c : Chip) (q : Bool) (i : Nat) : (raiseIf q .fab i c).ory = c.ory := by unfold raiseIf; split <;> simp
@[simp] theorem raise_fab_vsp (c : Chip) (i : Nat) : (raise .fab i c).vsp = c.vsp := by unfold raise; simp only []; split <;> simp [Blk.setStatus]
@[simp] theorem raiseIf_fab_vsp (c : Chip) (q : Bool) (i : Nat) : (raiseIf q .fab i c).vsp = c.vsp := by unfold raiseIf; split <;> simp
@[simp] theorem raise_fab_clr (c : Chip) (i : Nat) : (raise .fab i c).clr = c.clr := by unfold raise; simp only []; split <;> simp [Blk.setStatus]
@[simp] theorem raiseIf_fab_clr (c : Chip) (q : Bool) (i : Nat) : (raiseIf q .fab i c).clr = c.clr := by unfold raiseIf; split <;> simp
@[simp] theorem raise_fab_hbm (c : Chip) (i : Nat) : (raise .fab i c).hbm = c.hbm := by unfold raise; simp only []; split <;> simp [Blk.setStatus]
@[simp] theorem raiseIf_fab_hbm (c : Chip) (q : Bool) (i : Nat) : (raiseIf q .fab i c).hbm = c.hbm := by unfold raiseIf; split <;> simp
@[simp] theorem raise_fab_asy (c : Chip) (i : Nat) : (raise .fab i c).asy = c.asy := by unfold raise; simp only []; split <;> simp [Blk.setStatus]
@[simp] theorem raiseIf_fab_asy (c : Chip) (q : Bool) (i : Nat) : (raiseIf q .fab i c).asy = c.asy := by unfold raiseIf; split <;> simp
@[simp] theorem raise_fab_dbk (c : Chip) (i : Nat) : (raise .fab i c).dbk = c.dbk := by unfold raise; simp only []; split <;> simp [Blk.setStatus]
@[simp] theorem raiseIf_fab_dbk (c : Chip) (q : Bool) (i : Nat) : (raiseIf q .fab i c).dbk = c.dbk := by unfold raiseIf; split <;> simp
@[simp] theorem raise_fab_til (c : Chip) (i : Nat) : (raise .fab i c).til = c.til := by unfold raise; simp only []; split <;> simp [Blk.setStatus]
@[simp] theorem raiseIf_fab_til (c : Chip) (q : Bool) (i : Nat) : (raiseIf q .fab i c).til = c.til := by unfold raiseIf; split <;> simp
@[simp] theorem raise_fab_own (c : Chip) (i : Nat) : (raise .fab i c).fab = { c.fab with evt := .ofNat 5 (c.fab.evt.toNat ||| 2 ^ i) } := by unfold raise; simp only []; split <;> simp [Blk.setStatus, Blk.status]
@[simp] theorem raise_asy_ory (c : Chip) (i : Nat) : (raise .asy i c).ory = c.ory := by unfold raise; simp only []; split <;> simp [Blk.setStatus]
@[simp] theorem raiseIf_asy_ory (c : Chip) (q : Bool) (i : Nat) : (raiseIf q .asy i c).ory = c.ory := by unfold raiseIf; split <;> simp
@[simp] theorem raise_asy_vsp (c : Chip) (i : Nat) : (raise .asy i c).vsp = c.vsp := by unfold raise; simp only []; split <;> simp [Blk.setStatus]
@[simp] theorem raiseIf_asy_vsp (c : Chip) (q : Bool) (i : Nat) : (raiseIf q .asy i c).vsp = c.vsp := by unfold raiseIf; split <;> simp
@[simp] theorem raise_asy_clr (c : Chip) (i : Nat) : (raise .asy i c).clr = c.clr := by unfold raise; simp only []; split <;> simp [Blk.setStatus]
@[simp] theorem raiseIf_asy_clr (c : Chip) (q : Bool) (i : Nat) : (raiseIf q .asy i c).clr = c.clr := by unfold raiseIf; split <;> simp
@[simp] theorem raise_asy_hbm (c : Chip) (i : Nat) : (raise .asy i c).hbm = c.hbm := by unfold raise; simp only []; split <;> simp [Blk.setStatus]
@[simp] theorem raiseIf_asy_hbm (c : Chip) (q : Bool) (i : Nat) : (raiseIf q .asy i c).hbm = c.hbm := by unfold raiseIf; split <;> simp
@[simp] theorem raise_asy_fab (c : Chip) (i : Nat) : (raise .asy i c).fab = c.fab := by unfold raise; simp only []; split <;> simp [Blk.setStatus]
@[simp] theorem raiseIf_asy_fab (c : Chip) (q : Bool) (i : Nat) : (raiseIf q .asy i c).fab = c.fab := by unfold raiseIf; split <;> simp
@[simp] theorem raise_asy_dbk (c : Chip) (i : Nat) : (raise .asy i c).dbk = c.dbk := by unfold raise; simp only []; split <;> simp [Blk.setStatus]
@[simp] theorem raiseIf_asy_dbk (c : Chip) (q : Bool) (i : Nat) : (raiseIf q .asy i c).dbk = c.dbk := by unfold raiseIf; split <;> simp
@[simp] theorem raise_asy_til (c : Chip) (i : Nat) : (raise .asy i c).til = c.til := by unfold raise; simp only []; split <;> simp [Blk.setStatus]
@[simp] theorem raiseIf_asy_til (c : Chip) (q : Bool) (i : Nat) : (raiseIf q .asy i c).til = c.til := by unfold raiseIf; split <;> simp
@[simp] theorem raise_asy_own (c : Chip) (i : Nat) : (raise .asy i c).asy = { c.asy with evt := .ofNat 4 (c.asy.evt.toNat ||| 2 ^ i) } := by unfold raise; simp only []; split <;> simp [Blk.setStatus, Blk.status]
@[simp] theorem raise_dbk_ory (c : Chip) (i : Nat) : (raise .dbk i c).ory = c.ory := by unfold raise; simp only []; split <;> simp [Blk.setStatus]
@[simp] theorem raiseIf_dbk_ory (c : Chip) (q : Bool) (i : Nat) : (raiseIf q .dbk i c).ory = c.ory := by unfold raiseIf; split <;> simp
@[simp] theorem raise_dbk_vsp (c : Chip) (i : Nat) : (raise .dbk i c).vsp = c.vsp := by unfold raise; simp only []; split <;> simp [Blk.setStatus]
@[simp] theorem raiseIf_dbk_vsp (c : Chip) (q : Bool) (i : Nat) : (raiseIf q .dbk i c).vsp = c.vsp := by unfold raiseIf; split <;> simp
@[simp] theorem raise_dbk_clr (c : Chip) (i : Nat) : (raise .dbk i c).clr = c.clr := by unfold raise; simp only []; split <;> simp [Blk.setStatus]
@[simp] theorem raiseIf_dbk_clr (c : Chip) (q : Bool) (i : Nat) : (raiseIf q .dbk i c).clr = c.clr := by unfold raiseIf; split <;> simp
@[simp] theorem raise_dbk_hbm (c : Chip) (i : Nat) : (raise .dbk i c).hbm = c.hbm := by unfold raise; simp only []; split <;> simp [Blk.setStatus]
@[simp] theorem raiseIf_dbk_hbm (c : Chip) (q : Bool) (i : Nat) : (raiseIf q .dbk i c).hbm = c.hbm := by unfold raiseIf; split <;> simp
@[simp] theorem raise_dbk_fab (c : Chip) (i : Nat) : (raise .dbk i c).fab = c.fab := by unfold raise; simp only []; split <;> simp [Blk.setStatus]
@[simp] theorem raiseIf_dbk_fab (c : Chip) (q : Bool) (i : Nat) : (raiseIf q .dbk i c).fab = c.fab := by unfold raiseIf; split <;> simp
@[simp] theorem raise_dbk_asy (c : Chip) (i : Nat) : (raise .dbk i c).asy = c.asy := by unfold raise; simp only []; split <;> simp [Blk.setStatus]
@[simp] theorem raiseIf_dbk_asy (c : Chip) (q : Bool) (i : Nat) : (raiseIf q .dbk i c).asy = c.asy := by unfold raiseIf; split <;> simp
@[simp] theorem raise_dbk_til (c : Chip) (i : Nat) : (raise .dbk i c).til = c.til := by unfold raise; simp only []; split <;> simp [Blk.setStatus]
@[simp] theorem raiseIf_dbk_til (c : Chip) (q : Bool) (i : Nat) : (raiseIf q .dbk i c).til = c.til := by unfold raiseIf; split <;> simp
@[simp] theorem raise_dbk_own (c : Chip) (i : Nat) : (raise .dbk i c).dbk = { c.dbk with evt := .ofNat 7 (c.dbk.evt.toNat ||| 2 ^ i) } := by unfold raise; simp only []; split <;> simp [Blk.setStatus, Blk.status]

/-! ### Reads after updates -/

theorem tile_setTile (c : Chip) (p q : Nat) (t : Tile) : (c.setTile p t).tile q = if p = q then t else c.tile q := fget_fset _ _ _ _ _

@[simp] theorem tile_setTile_self (c : Chip) (p : Nat) (t : Tile) : (c.setTile p t).tile p = t := by simp [tile_setTile]

theorem port_setPort (c : Chip) (p q : Nat) (x : Port) : (c.setPort p x).port q = if p = q then x else c.port q := fget_fset _ _ _ _ _

@[simp] theorem port_setPort_self (c : Chip) (p : Nat) (x : Port) : (c.setPort p x).port p = x := by simp [port_setPort]

theorem gq_setGq (c : Chip) (i j : Nat) (q : Gq) : (c.setGq i q).gq j = if i = j then q else c.gq j := fget_fset _ _ _ _ _

theorem mbox_setMbox (c : Chip) (i j : Nat) (b : Mbox) : (c.setMbox i b).mbox j = if i = j then b else c.mbox j := fget_fset _ _ _ _ _

theorem band_setBand (d : Dev) (i j : Nat) (x : Band) : (d.setBand i x).band j = if i = j then x else d.band j := fget_fset _ _ _ _ _

theorem wq_onWq (c : Chip) (i j : Nat) (g : Wq → Wq) : (onWq i g c).wq j = if i = j then g (c.wq i) else c.wq j := fget_fset _ _ _ _ _

theorem strm_onStream (c : Chip) (i j : Nat) (g : Stream → Stream) :
    (onStream i g c).strm j = if i = j then g (c.strm i) else c.strm j := fget_fset _ _ _ _ _

/-- A put bit reads as put, and every other bit as before. -/
theorem getLsbD_putBit {n : Nat} (x : BitVec n) (i j : Nat) (b : Bool) (h : i < n) :
    (putBit x i b).getLsbD j = if i = j then b else x.getLsbD j := by
  unfold putBit
  cases b
  · by_cases hij : i = j
    · subst hij; simp [h]
    · rcases Nat.lt_trichotomy j i with hl | he | hg
      · simp [BitVec.getLsbD_and, hij, hl]; exact fun hx => BitVec.lt_of_getLsbD hx
      · omega
      · simp [BitVec.getLsbD_and, hij, show ¬j < i by omega, show j - i ≠ 0 by omega]; exact fun hx => BitVec.lt_of_getLsbD hx
  · by_cases hij : i = j
    · subst hij; simp [h]
    · rcases Nat.lt_trichotomy j i with hl | he | hg
      · simp [BitVec.getLsbD_or, hij, hl]
      · omega
      · simp [BitVec.getLsbD_or, hij, show ¬j < i by omega, show j - i ≠ 0 by omega]

/-! ### Entries -/

theorem find_map_entry (l : List Entry) (e : Entry) (k : Nat) :
    (l.map fun x => if x.id = e.id then e else x).find? (fun x => decide (x.id = k)) =
      if k = e.id then (l.find? fun x => decide (x.id = k)).map fun _ => e else l.find? fun x => decide (x.id = k) := by
  induction l with
  | nil => simp
  | cons x r ih =>
    by_cases hx : x.id = e.id
    · by_cases hk : k = e.id
      · subst hk; simp [hx]
      · simp [hx, hk, Ne.symm hk, ih]
    · by_cases hk : k = e.id
      · subst hk; simp [hx, ih]
      · simp [hx, hk, ih, List.find?_cons]

/-- Looking up an entry after one has been written. -/
theorem entryOf_setEntry (c : Chip) (e : Entry) (k : Nat) :
    entryOf (setEntry e c) k = if k = e.id then (entryOf c k).map fun _ => e else entryOf c k := find_map_entry _ _ _

theorem entryOf_id {c : Chip} {k : Nat} {e : Entry} (h : entryOf c k = some e) : e.id = k := by
  simpa using List.find?_some h

@[simp] theorem setEntry_ids (c : Chip) (e : Entry) : (setEntry e c).ory.entries.map (·.id) = c.ory.entries.map (·.id) := by
  simp only [setEntry, List.map_map]
  apply List.map_congr_left
  intro x _
  simp only [Function.comp]
  split <;> simp_all

end Sys2Proof.Machine
end

