-- ==== Sys2Proof/Laws/Memory.lean ====
section
/-! SUPPORT. What the memory operations leave as it was, and that each keeps the canonical form of memory. -/

namespace Sys2Proof.Machine

/-! ### Folds over the chip -/

theorem foldl_keeps {β : Type} (P : Chip → Prop) (f : Chip → β → Chip) (h : ∀ c b, P c → P (f c b)) :
    ∀ (l : List β) (c : Chip), P c → P (l.foldl f c)
  | [], _, hc => hc
  | b :: l, c, hc => foldl_keeps P f h l (f c b) (h c b hc)

theorem foldl_same {β γ : Type} (g : Chip → γ) (f : Chip → β → Chip) (h : ∀ c b, g (f c b) = g c) (l : List β) (c : Chip) :
    g (l.foldl f c) = g c :=
  foldl_keeps (fun x => g x = g c) f (fun x b hx => (h x b).trans hx) l c rfl

/-! ### Cells -/

/-- A byte that a write does not name reads as before, and the one it names reads as written. -/
theorem cellByte_writeByte (c : Chip) (a k : Nat) (v : Byte) :
    cellByte (writeByte a v c) k = if canon a = some k then v else cellByte c k := by
  unfold writeByte cellByte
  cases h : canon a with
  | none => simp
  | some j => simp [fget_fset]

/-- A run of bytes changes only the cells that it names. -/
theorem cellByte_writeBytes (l : List Byte) (a k : Nat) (c : Chip) (h : ∀ i < l.length, canon (a + i) ≠ some k) :
    cellByte (writeBytes a l c) k = cellByte c k := by
  induction l generalizing a c with
  | nil => rfl
  | cons v r ih =>
    rw [writeBytes, ih, cellByte_writeByte, if_neg (by simpa using h 0 (by simp))]
    intro i hi
    simpa [Nat.add_assoc, Nat.add_comm 1 i] using h (i + 1) (by simpa using hi)

/-- A word whose poison is set reads so, and every other as before. -/
theorem poison_setPoison (c : Chip) (a k : Nat) (v : Bool) :
    fget false (setPoison a v c).poison k = if (canon a).map (· / 16) = some k then v else fget false c.poison k := by
  unfold setPoison
  cases h : canon a with
  | none => simp
  | some j => simp [fget_fset]

/-! ### The canonical form of memory (R339) -/

theorem writeByte_wf (c : Chip) (a : Nat) (v : Byte) (h : Memory.wf c.mem = true) : Memory.wf (writeByte a v c).mem = true := by
  unfold writeByte
  split
  · exact fwf_fset _ _ _ _ h
  · exact h

theorem writeBytes_wf (l : List Byte) (a : Nat) (c : Chip) (h : Memory.wf c.mem = true) :
    Memory.wf (writeBytes a l c).mem = true := by
  induction l generalizing a c with
  | nil => exact h
  | cons v r ih => exact ih _ _ (writeByte_wf c a v h)

theorem setPoison_wf (c : Chip) (a : Nat) (v : Bool) (h : fwf false c.poison = true) : fwf false (setPoison a v c).poison = true := by
  unfold setPoison
  split
  · exact fwf_fset _ _ _ _ h
  · exact h

theorem setSeal_wf (c : Chip) (a : Nat) (v : Option W32) (h : fwf none c.seals = true) : fwf none (setSeal a v c).seals = true := by
  unfold setSeal
  split
  · exact fwf_fset _ _ _ _ h
  · exact h

/-! ### Runs of bytes, writes and commits -/

theorem writeBytes_same {γ : Type} (g : Chip → γ) (h : ∀ a v c, g (writeByte a v c) = g c) (l : List Byte) (a : Nat) (c : Chip) :
    g (writeBytes a l c) = g c := by
  induction l generalizing a c with
  | nil => rfl
  | cons v r ih => exact (ih _ _).trans (h a v c)

@[simp] theorem writeBytes_poison (l : List Byte) (a : Nat) (c : Chip) : (writeBytes a l c).poison = c.poison :=
  writeBytes_same (·.poison) (fun a v c => writeByte_poison c a v) l a c
@[simp] theorem writeBytes_seals (l : List Byte) (a : Nat) (c : Chip) : (writeBytes a l c).seals = c.seals :=
  writeBytes_same (·.seals) (fun a v c => writeByte_seals c a v) l a c
@[simp] theorem writeBytes_ory (l : List Byte) (a : Nat) (c : Chip) : (writeBytes a l c).ory = c.ory :=
  writeBytes_same (·.ory) (fun a v c => writeByte_ory c a v) l a c
@[simp] theorem writeBytes_cxl (l : List Byte) (a : Nat) (c : Chip) : (writeBytes a l c).cxl = c.cxl :=
  writeBytes_same (·.cxl) (fun a v c => writeByte_cxl c a v) l a c
@[simp] theorem writeBytes_flash (l : List Byte) (a : Nat) (c : Chip) : (writeBytes a l c).flash = c.flash :=
  writeBytes_same (·.flash) (fun a v c => writeByte_flash c a v) l a c
@[simp] theorem writeBytes_out (l : List Byte) (a : Nat) (c : Chip) : (writeBytes a l c).out = c.out :=
  writeBytes_same (·.out) (fun a v c => writeByte_out c a v) l a c

/-- What neither a byte, nor poison, nor a UIO request of an entry touches, one write of a commit leaves as it was. -/
theorem applyWrite_same {γ : Type} (g : Chip → γ) (hb : ∀ a v c, g (writeByte a v c) = g c)
    (hp : ∀ a v c, g (setPoison a v c) = g c) (hu : ∀ e a n r l c, g (sendUio e a n r l c) = g c) (e : Entry) (w : Wr) (c : Chip) :
    g (applyWrite e w c) = g c := by
  unfold applyWrite
  simp only
  split
  · exact hu _ _ _ _ _ _
  · rw [foldl_same g _ (fun c x => hp x false c)]
    exact writeBytes_same g hb _ _ _

/-- What neither a byte, nor poison, nor a seal, nor a UIO request touches, a commit leaves as it was. -/
theorem commit_same {γ : Type} (g : Chip → γ) (hb : ∀ a v c, g (writeByte a v c) = g c) (hp : ∀ a v c, g (setPoison a v c) = g c)
    (hu : ∀ e a n r l c, g (sendUio e a n r l c) = g c) (hs : ∀ a v c, g (setSeal a v c) = g c)
    (e : Entry) (ws : List Wr) (hold : TRef → Nat → Bool) (c : Chip) : g (commit e ws hold c) = g c := by
  unfold commit
  simp only
  rw [foldl_same g]
  · exact foldl_same g _ (fun c w => applyWrite_same g hb hp hu e w c) ws c
  · intro c w
    split
    · refine foldl_same g _ (fun c b => ?_) _ c
      split
      · rfl
      · exact hs _ _ _
    · rfl

theorem sendUio_mem (e : Entry) (a n : Nat) (r : Bool) (l : List Byte) (c : Chip) : (sendUio e a n r l c).mem = c.mem := by
  unfold sendUio; simp only; split <;> simp

/-- A commit keeps the canonical form of memory. -/
theorem applyWrite_wf (e : Entry) (w : Wr) (c : Chip) (h : Memory.wf c.mem = true) : Memory.wf (applyWrite e w c).mem = true := by
  unfold applyWrite
  simp only
  split
  · rw [sendUio_mem]; exact h
  · rw [foldl_same (·.mem) _ (fun c x => setPoison_mem c x false)]
    exact writeBytes_wf _ _ _ h

theorem sealBlock_mem (e : Entry) (r : TRef) (i : Bool) (b : Nat) (c : Chip) : (sealBlock e r i b c).mem = c.mem := by
  simp [sealBlock]

theorem commit_wf (e : Entry) (ws : List Wr) (hold : TRef → Nat → Bool) (c : Chip) (h : Memory.wf c.mem = true) :
    Memory.wf (commit e ws hold c).mem = true := by
  unfold commit
  simp only
  rw [foldl_same (·.mem)]
  · exact foldl_keeps (fun c => Memory.wf c.mem = true) _ (fun c w hc => applyWrite_wf e w c hc) ws c h
  · intro c w
    split
    · refine foldl_same (·.mem) _ (fun c b => ?_) _ c
      split
      · rfl
      · exact sealBlock_mem _ _ _ _ _
    · rfl

theorem clearRange_wf (a n : Nat) (c : Chip) (h : Memory.wf c.mem = true) : Memory.wf (clearRange a n c).mem = true :=
  fwf_fclear _ _ _ _ h

/-! ### The two views (R340) -/

theorem canon_hbm {a : Nat} (h : a < hbmTop) : canon a = some a := by simp [canon, h]

theorem canon_sram {a : Nat} (h : sramBase ≤ a) (h2 : a < sramBase + 0x18000000) : canon a = some a := by
  unfold canon hbmTop sramBase at *
  rw [if_neg (by omega), if_neg (by omega), if_pos ⟨h, h2⟩]

end Sys2Proof.Machine
end

