-- ==== Sys2Proof/Laws/Ops.lean ====
section
/-! SUPPORT. The shared operations, each said once: outcomes, ends of operations, checks before a commit, records, answers. -/

namespace Sys2Proof.Machine

/-! ### Outcomes -/

/-- A command that runs on the device has the effect that its function has. -/
theorem Effect.of_onDev {i : Instr} {s : State} {P : Dev → Prop} (f : Dev → Dev) (h : exec i s = onDev f s) (hp : P (f s.dev)) :
    Effect i s P := ⟨f s.dev, h, hp⟩

/-- A command that runs on the chip has the effect that its function has, and leaves the rest of the device. -/
theorem ChipEffect.of_onChip {i : Instr} {s : State} {P : Chip → Prop} (f : Mgt → Chip → Chip) (h : exec i s = onChip f s)
    (hp : P (f s.dev.mgt s.dev.chip)) : ChipEffect i s P := ⟨_, h, hp⟩

theorem Idle.of_onDev {i : Instr} {s : State} (f : Dev → Dev) (h : exec i s = onDev f s) (hf : f s.dev = s.dev) : Idle i s := by
  unfold Idle; rw [h, onDev, hf]

theorem Idle.of_onChip {i : Instr} {s : State} (f : Mgt → Chip → Chip) (h : exec i s = onChip f s)
    (hf : f s.dev.mgt s.dev.chip = s.dev.chip) : Idle i s := Idle.of_onDev _ h (by rw [hf])

theorem ChipEffect.mono {i : Instr} {s : State} {P Q : Chip → Prop} (h : ChipEffect i s P) (hpq : ∀ c, P c → Q c) :
    ChipEffect i s Q := let ⟨c, hc, hp⟩ := h; ⟨c, hc, hpq c hp⟩

/-- A command on a descriptor that does not run its operation changes nothing. -/
theorem onRunning_none {cls op id : Nat} {f : Mgt → Entry → Chip → Chip} {s : State} (h : running s.dev.chip id cls op = none) :
    onRunning cls op id f s = .next s := by
  simp [onRunning, onChip, onDev, h]

theorem onRunning_some {cls op id : Nat} {f : Mgt → Entry → Chip → Chip} {s : State} {e : Entry}
    (h : running s.dev.chip id cls op = some e) :
    onRunning cls op id f s = .next { s with dev := { s.dev with chip := f s.dev.mgt e s.dev.chip } } := by
  simp [onRunning, onChip, onDev, h]

/-- What `running` finds: the entry, started, with its class and opcode. -/
theorem running_entry {c : Chip} {id cls op : Nat} {e : Entry} (h : running c id cls op = some e) :
    entryOf c id = some e ∧ e.phase = .started ∧ dClass e.desc = cls ∧ dOpcode e.desc = op := by
  unfold running at h
  cases he : entryOf c id with
  | none => simp [he] at h
  | some x => simp_all [Option.filter]; obtain ⟨h, rfl⟩ := h; simp_all

/-! ### Ends of operations -/

/-- An operation that finishes has ended with its status, and every other entry is as before. -/
theorem endedWith_finish (c : Chip) (e : Entry) (st : Nat) (h : (entryOf c e.id).isSome = true) :
    EndedWith e.id st (finish e st c) := by
  obtain ⟨x, hx⟩ := Option.isSome_iff_exists.mp h
  have hid : (curEntry c e).id = e.id := by simp [curEntry, hx, entryOf_id hx]
  refine ⟨{ curEntry c e with phase := .done, status := st, asked := false }, ?_, rfl, rfl⟩
  simp [finish, entryOf_setEntry, hid, hx]

theorem othersStay_setEntry (c : Chip) (e : Entry) : OthersStay [e.id] c (setEntry e c) := by
  intro k hk
  simp at hk
  simp [entryOf_setEntry, hk]

theorem othersStay_finish (c : Chip) (e : Entry) (st : Nat) : OthersStay [e.id] c (finish e st c) := by
  have hid : (curEntry c e).id = e.id := by
    unfold curEntry
    cases h : entryOf c e.id with
    | none => rfl
    | some x => exact entryOf_id h
  intro k hk
  simp at hk
  simp [finish, entryOf_setEntry, hid, hk]

/-! ### Checks before a commit -/

/-- What a check finds, wherever its chip lies. -/
def Pre.chip : Pre → Chip
  | .go c => c
  | .stop _ c => c
  | .wait c => c

theorem sendSnoops_same {γ : Type} (g : Chip → γ) (he : ∀ o c, g (emit o c) = g c)
    (hc : ∀ c l, g { c with cxl := { c.cxl with snoops := l } } = g c) (ls : List Nat) (c : Chip) :
    g (sendSnoops ls c) = g c := by
  unfold sendSnoops
  refine foldl_same g _ (fun c l => ?_) ls c
  split
  · rfl
  · rw [he, hc]

theorem recordUe_same {γ : Type} (g : Chip → γ) (hr : ∀ i c, g (raise .hbm i c) = g c)
    (hh : ∀ (c : Chip) (h : Hbm), g { c with hbm := h } = g c) (a : Nat) (c : Chip) : g (recordUe a c) = g c := by
  unfold recordUe
  split
  · rfl
  · split
    · rfl
    · simp only [raiseIf, addCandidate]
      rw [hr]
      split <;> split <;> simp only [hr, hh]

theorem recordMismatch_same {γ : Type} (g : Chip → γ) (hr : ∀ i c, g (raise .hbm i c) = g c)
    (hh : ∀ (c : Chip) (h : Hbm), g { c with hbm := h } = g c) (t b : Nat) (c : Chip) : g (recordMismatch t b c) = g c := by
  unfold recordMismatch
  simp only [raiseIf]
  rw [hr, hh]
  split
  · exact hr _ _
  · rfl

/-- A read that corrects flipped bits changes the HBM's records and the bits that stand flipped, and no contents. -/
theorem meet_same {γ : Type} (g : Chip → γ) (hr : ∀ i c, g (raise .hbm i c) = g c)
    (hh : ∀ (c : Chip) (h : Hbm), g { c with hbm := h } = g c) (hu : ∀ (c : Chip) (u : FMap (List Nat)), g { c with upsets := u } = g c)
    (a n : Nat) (c : Chip) : g (meet a n c) = g c := by
  have hw : ∀ (k : Nat) (c : Chip), g (correctWord k c) = g c := fun k c => by
    unfold correctWord
    simp only [raiseIf, addCandidate]
    split <;> split <;> (try split) <;> simp only [hr, hh]
  unfold meet
  split
  · rfl
  · refine foldl_same g _ (fun c w => ?_) _ _
    split
    · split
      · rfl
      · rw [hw, hu]
    · rfl

/-- Where no bit stands flipped, a read corrects nothing. -/
theorem meet_clean {a n : Nat} {c : Chip} (h : c.upsets = []) : meet a n c = c := by simp [meet, h]

/-- A check in sequence keeps what each part keeps. -/
theorem andThen_same {γ : Type} (g : Chip → γ) (p : Pre) (f : Chip → Pre) (x : γ) (hp : g p.chip = x)
    (hf : ∀ c, g c = x → g (f c).chip = x) : g (p.andThen f).chip = x := by
  cases p with
  | go c => exact hf c hp
  | stop st c => exact hp
  | wait c => exact hp

theorem foldl_pre_same {β γ : Type} (g : Chip → γ) (f : Pre → β → Pre) (x : γ) (h : ∀ p b, g p.chip = x → g (f p b).chip = x) :
    ∀ (l : List β) (p : Pre), g p.chip = x → g (l.foldl f p).chip = x
  | [], _, hp => hp
  | b :: l, p, hp => foldl_pre_same g f x h l (f p b) (h p b hp)

section checks

variable {γ : Type} (g : Chip → γ) (hr : ∀ i c, g (raise .hbm i c) = g c) (hh : ∀ (c : Chip) (h : Hbm), g { c with hbm := h } = g c)
include hr hh

theorem checkBlock_same (e : Entry) (x : Acc) (b : Nat) (c : Chip) : g (checkBlock e x b c).chip = g c := by
  unfold checkBlock
  simp only
  split
  · exact recordUe_same g hr hh _ _
  · split
    · rfl
    · exact recordMismatch_same g hr hh _ _ _

theorem checkRead_same (e : Entry) (x : Acc) (c : Chip) : g (checkRead e x c).chip = g c := by
  unfold checkRead
  simp only
  split
  · rfl
  · split
    · refine foldl_pre_same g _ (g c) (fun p b hp => ?_) _ _ rfl
      exact andThen_same g p _ _ hp fun c' hc' => (checkBlock_same g hr hh e x b c').trans hc'
    · split
      · unfold metPoison
        split
        · rfl
        · exact recordUe_same g hr hh _ _
      · rfl

theorem checkWrite_same (e : Entry) (x : Acc) (c : Chip) : g (checkWrite e x c).chip = g c := by
  unfold checkWrite
  simp only
  split
  · rfl
  · split
    · exact recordUe_same g hr hh _ _
    · rfl

theorem checkMerge_same (e : Entry) (ws : List Acc) (x : Acc) (b : Nat) (c : Chip) : g (checkMerge e ws x b c).chip = g c := by
  unfold checkMerge
  simp only
  split
  · exact recordUe_same g hr hh _ _
  · split
    · exact recordMismatch_same g hr hh _ _ _
    · rfl

/-- The checks before a commit change nothing but entries, the HBM's records, snoops, requests in flight and what is sent. -/
theorem prepare_same (hu : ∀ (c : Chip) (u : FMap (List Nat)), g { c with upsets := u } = g c) (hs : ∀ e c, g (setEntry e c) = g c) (he : ∀ o c, g (emit o c) = g c)
    (hc : ∀ (c : Chip) (x : Cxl), g { c with cxl := x } = g c) (e0 : Entry) (xs : List Acc) (part : TRef → Nat → Bool) (c : Chip) :
    g (prepare e0 xs part c).chip = g c := by
  unfold prepare
  simp only
  split
  · exact hs _ _
  · split
    · exact (sendSnoops_same g he (fun c l => hc c _) _ _).trans (hs _ _)
    · split
      · split
        · exact hs _ _
        · refine (foldl_same g _ (fun c x => ?_) _ _).trans ((hs _ _).trans (hs _ _))
          unfold sendUio
          exact (he _ _).trans (hc _ _)
      · refine foldl_pre_same g _ (g c) (fun p x hp => ?_) _ _ ?_
        · have h1 : g (p.andThen (checkWrite (bindWindow c e0) x)).chip = g c :=
            andThen_same g p _ _ hp fun c' hc' => (checkWrite_same g hr hh _ _ _).trans hc'
          split
          · refine foldl_pre_same g _ (g c) (fun q b hq => ?_) _ _ h1
            split
            · exact andThen_same g q _ _ hq fun c' hc' => (checkMerge_same g hr hh _ _ _ _ _).trans hc'
            · exact hq
          · exact h1
        · exact foldl_pre_same g _ (g c) (fun p x hp =>
            andThen_same g p _ _ hp fun c' hc' => (checkRead_same g hr hh _ _ _).trans hc') _ _
            ((foldl_same g _ (fun c x => meet_same g hr hh hu _ _ c) _ _).trans (hs _ _))

end checks

/-- The checks before a commit change no memory, no poison and no seal. -/
theorem prepare_store (e : Entry) (xs : List Acc) (part : TRef → Nat → Bool) (c : Chip) : SameStore c (prepare e xs part c).chip :=
  ⟨prepare_same (·.mem) (fun i c => by simp) (fun _ _ => rfl) (fun _ _ => rfl) (fun _ _ => rfl) (fun o c => by simp) (fun _ _ => rfl) e xs part c,
   prepare_same (·.poison) (fun i c => by simp) (fun _ _ => rfl) (fun _ _ => rfl) (fun _ _ => rfl) (fun o c => by simp) (fun _ _ => rfl) e xs part c,
   prepare_same (·.seals) (fun i c => by simp) (fun _ _ => rfl) (fun _ _ => rfl) (fun _ _ => rfl) (fun o c => by simp) (fun _ _ => rfl) e xs part c⟩

/-! ### Records of the Daybook -/

/-- A record is queued, or its loss is counted: the Daybook, pending vectors and messages alone change. -/
theorem queueRec_same {γ : Type} (g : Chip → γ) (hr : ∀ i c, g (raise .dbk i c) = g c)
    (hd : ∀ (c : Chip) (k : Dbk), g { c with dbk := k } = g c) (m : Mgt) (die type : Nat) (p : List Byte) (c : Chip) :
    g (queueRec m die type p c).2 = g c := by
  unfold queueRec
  simp only [raiseIf]
  generalize hn : (if recKeep type = true then 256 else 192) = n
  split
  · exact hd _ _
  · rw [hr, hd]
    split <;> split <;> simp only [hr, hd]

theorem journal_same {γ : Type} (g : Chip → γ) (hr : ∀ i c, g (raise .dbk i c) = g c)
    (hd : ∀ (c : Chip) (k : Dbk), g { c with dbk := k } = g c) (m : Mgt) (die type : Nat) (p : List Byte) (c : Chip) :
    g (journal m die type p c) = g c := queueRec_same g hr hd m die type p c

/-! ### What has been sent stays sent -/

theorem mem_out_emit {c : Chip} {o x : Out} (h : o ∈ c.out) : o ∈ (emit x c).out := by
  unfold emit
  split
  · exact h
  · simp [h]

theorem mem_out_requestVector {c : Chip} {o : Out} (v : Nat) (h : o ∈ c.out) : o ∈ (requestVector v c).out := by
  unfold requestVector
  split
  · exact h
  · exact mem_out_emit h

theorem mem_out_raise {c : Chip} {o : Out} (b : Blk) (i : Nat) (h : o ∈ c.out) : o ∈ (raise b i c).out := by
  have hs : ∀ v, (b.setStatus c v).out = c.out := by intro v; cases b <;> simp [Blk.setStatus]
  unfold raise
  simp only
  split
  · exact mem_out_requestVector _ (by rw [hs]; exact h)
  · rw [hs]; exact h

theorem mem_out_raiseIf {c : Chip} {o : Out} (q : Bool) (b : Blk) (i : Nat) (h : o ∈ c.out) : o ∈ (raiseIf q b i c).out := by
  unfold raiseIf
  split
  · exact mem_out_raise b i h
  · exact h

/-! ### Answers on the fabric -/

/-- A packet given to a port is sent or waits there. -/
theorem handed_sendPacket (m : Mgt) (port : Nat) (t : PktType) (p : Packet) (c : Chip) :
    Handed port t p (sendPacket m port t p c) := by
  unfold sendPacket
  simp only
  split
  · exact Or.inl ⟨(c.port port).txSeq.toNat, mem_out_raiseIf _ _ _ (by simp [emit, Out.blocked])⟩
  · exact Or.inr (by simp)

/-- Sending a packet touches the fabric, pending vectors and messages alone. -/
theorem sendPacket_same {γ : Type} (g : Chip → γ) (hr : ∀ i c, g (raise .fab i c) = g c) (he : ∀ o c, g (emit o c) = g c)
    (hp : ∀ (c : Chip) p x, g (c.setPort p x) = g c) (m : Mgt) (port : Nat) (t : PktType) (p : Packet) (c : Chip) :
    g (sendPacket m port t p c) = g c := by
  unfold sendPacket transmit
  simp only [raiseIf]
  split
  · split <;> simp only [hr, he, hp]
  · exact hp _ _ _

end Sys2Proof.Machine
end

