-- ==== Sys2Proof/Tests/Slice0.lean ====
section
/-! SUPPORT. The author's own tests: commands that are ill formed, worked results of a few commands of each family from the
spec's words, and for each statement of Certificates/Slice0 a concrete state and operands that meet its hypotheses, clause by
clause. -/

namespace Sys2Proof.Machine.Tests

/- Each test is checked before the next one begins, so that few threads run at a time. -/
set_option Elab.async false

/-! ### Small states -/

/-- The module in service: powered, at stage 0x0B, with rank 5. -/
def live : State :=
  let d := State.reset.dev
  { State.reset with dev := { d with
    mgt := { d.mgt with powered := true, pwrGood := true, ready := true, stage := 11, rankValid := true, rank := 5, waves := 14 }
    str := { d.str with locks := 0x7F, selftestOk := true, keysHeld := true, drbgOk := true } } }

def onTheChip (f : Chip → Chip) (s : State) : State := { s with dev := { s.dev with chip := f s.dev.chip } }
def onTheDev (f : Dev → Dev) (s : State) : State := { s with dev := f s.dev }

/-- A start-up stage. -/
def stageAt (n : Nat) : State := onTheDev (fun d => { d with mgt := { d.mgt with stage := .ofNat 8 n, ready := false, waves := 0 } }) live

/-- A descriptor from its bytes' values: first byte, value. -/
def mkDesc (cls op : Nat) (l : List (Nat × Nat)) : Desc :=
  .ofNat 1024 (((1, cls) :: (2, op) :: l).foldl (fun n x => n + x.2 * 2 ^ (8 * x.1)) 0)

/-- A started entry. -/
def ent (id : Nat) (d : Desc) : Entry := { ownerEntry with id := id, desc := d }

/-- The module in service with these entries. -/
def withEnts (es : List Entry) : State :=
  onTheChip (fun c => { c with ory := { c.ory with entries := es, nextId := 100 } }) live

/-- The module in service with one started operation, entry 1. -/
def withOp (cls op : Nat) (l : List (Nat × Nat)) : State := withEnts [ent 1 (mkDesc cls op l)]

/-- The outcome's state; the state itself where there is none. -/
def after (i : Instr) (s : State) : State :=
  match exec i s with
  | .next t => t
  | _ => s

def refused (i : Instr) (s : State) : Bool :=
  match exec i s with
  | .refused .noSuchUnit => true
  | _ => false

def goes : Pre → Bool
  | .go _ => true
  | _ => false

theorem goes_iff (p : Pre) (h : goes p = true) : ∃ c, p = .go c := by
  cases p with
  | go c => exact ⟨c, rfl⟩
  | stop st c => simp [goes] at h
  | wait c => simp [goes] at h

theorem idsDistinct_of (c : Chip) (h1 : (c.ory.entries.map (·.id)).Nodup) (h2 : ∀ e ∈ c.ory.entries, e.id < c.ory.nextId)
    (h3 : (c.ory.wqs.all fun x => x.2.direct.all fun k => decide (k < c.ory.nextId)) = true) : IdsDistinct c := by
  refine ⟨h1, h2, fun q k hk => ?_⟩
  rcases fget_cases Wq.reset c.ory.wqs q with h | h
  · rw [Chip.wq, h] at hk; exact absurd hk (by simp [Wq.reset])
  · have := List.all_eq_true.mp h3 _ h
    rw [Chip.wq] at hk
    simpa [hk] using this

/-! ### Ill-formed commands: one for each check of WellFormed.lean -/

theorem test_wf_sensor_lists : (Instr.sensorSample [1] [] (List.replicate 8 0)).wf = false := by decide +kernel
theorem test_wf_band : (Instr.bandOff 14).wf = false := by decide
theorem test_wf_tile : (Instr.coreWatchdog 112).wf = false := by decide
theorem test_wf_word : (Instr.tileUncorrectable 111 0x41400).wf = false := by decide
theorem test_wf_windows : (Instr.hbm 0 0 []).wf = false := by decide +kernel
theorem test_wf_lanes : (Instr.qualification [] []).wf = false := by decide
theorem test_wf_passes : (Instr.firmware 16 [] []).wf = false := by decide
theorem test_wf_overlay : (Instr.overlays [112]).wf = false := by decide
theorem test_wf_selftest : (Instr.selfTest []).wf = false := by decide
theorem test_wf_offset : (Instr.configurationRequest 2 none).wf = false := by decide
theorem test_wf_read_line : (Instr.hostHdmRead 32).wf = false := by decide
theorem test_wf_write_line : (Instr.hostHdmWrite 0x4800000000 0 0).wf = false := by decide
theorem test_wf_snoop_line : (Instr.backInvalidateCompletion 65 none).wf = false := by decide
theorem test_wf_frame : (Instr.frameReceive 0 ⟨0, []⟩ []).wf = false := by decide
theorem test_wf_granule : (Instr.scrubRead 0x48000000 []).wf = false := by decide
theorem test_wf_register : (Instr.readClear (.bar0, 4)).wf = false := by decide
theorem test_wf_bar : (Instr.registerWrite .bar4 0x40000 false 0).wf = false := by decide

/-! ### Worked results -/

/-- R627: CAPABILITY is 0xD0, and PMBUS_REVISION 0x33. -/
theorem test_capability : (after .pmbusRevision (after .capability live)).dev.chip.out = [.pmbus [0xD0], .pmbus [0x33]] := by
  decide +kernel

/-- R629: 499 W leaves cap_w at its 2,000 W of reset, and 500 W is taken. -/
theorem test_cap : (after (.mfrPowerCap (some 499)) live).dev.tel.capW = 2000 ∧
    (after (.mfrPowerCap (some 500)) live).dev.tel.capW = 500 := by decide +kernel

/-- R423: a set of a set flag overruns; a clear leaves the overrun. -/
theorem test_flag_overrun :
    let s := after (.flagClearWrite 3 1) (after (.flagSetWrite 3 1) (after (.flagSetWrite 3 1) live))
    flagSet s.dev.chip 192 = false ∧ s.dev.chip.vsp.overrun.getLsbD 192 = true ∧ s.dev.chip.vsp.sets = 1 := by decide +kernel

/-- R404: FILL writes its pattern, byte by byte from the operation's first byte on. -/
theorem test_fill :
    let s := after (.fill 1 1) (withOp 4 2 [(48, 0x1000), (56, 6), (80, 6), (92, 0x44332211)])
    readBytes s.dev.chip 0x1000 7 = [0x11, 0x22, 0x33, 0x44, 0x11, 0x22, 0] ∧
      ((entryOf s.dev.chip 1).map (·.phase)) = some .done := by decide +kernel

/-- R232, R248: a DROP of a stack that is not open ends with ACCESS. -/
theorem test_stack_closed : ((entryOf (after (.drop 1) (withOp 11 4 [])).dev.chip 1).map (·.status)) = some 0x0E := by decide +kernel

/-- R503: COMPUTE_RESET_DONE clears compute_reset and sets reset_done. -/
theorem test_reset_done :
    let s := after .computeResetDone (after (.computeReset 1) live)
    s.dev.mgt.computeReset = false ∧ s.dev.mgt.evt.getLsbD 1 = true := by decide +kernel

/-- R593: a sensor halts the Strongroom and clears its keys. -/
theorem test_tamper : (after (.tamper 0) live).dev.str.halted = true ∧ (after (.tamper 0) live).dev.str.keysHeld = false := by
  decide +kernel

/-- R566: a token is added to the 512 of the start. -/
theorem test_token : (after .tokenRefill live).dev.chip.dbk.tokens = 513 := by decide +kernel

/-- R488: an enable of an entry that names no size is ignored. -/
theorem test_aperture : (after (.apertureEntryWrite 2 0 1) live).dev.chip.cxl.apers = [] := by decide +kernel

/-- R622: at 98 °C a band's step rises by one. -/
theorem test_hot_band :
    let s := after (.thermalThrottleStep 0) (after (.sensorSample (List.replicate 112 (98 * 16)) [] (List.replicate 8 0)) live)
    (s.dev.band 0).thermalStep = 1 := by decide +kernel

/-- R463: a request for another rank is answered MISROUTE, 4, and counted. -/
theorem test_misroute :
    let s := after (.read ⟨0, 6, 9, 1, false, requestBody 0 16 []⟩) live
    s.dev.chip.fab.misroute = 1 ∧ (s.dev.chip.port 0).waiting.map (·.2.body.head?) = [some 4] := by decide +kernel

/-- R344, R346: the scrub poisons a word that it cannot correct. -/
theorem test_scrub : poisonedAt (after (.scrubRead 2 [⟨35, [0, 8]⟩]) live).dev.chip (2 * 256 + 48) = true := by decide +kernel

/-- R4: there is no band 14. -/
theorem test_no_band : refused (.bandOff 14) live = true := by decide +kernel

/-- R139, R82: FP32 1 + 2 is 3, and MAX of the two is 2. -/
theorem test_vector :
    let s (op : Nat) := onTheChip (writeBytes 0x1000 [0, 0, 0x80, 0x3F, 0, 0, 0, 0x40])
      (withOp 2 op [(16, 0x1000), (24, 4), (48, 0x1004), (56, 4), (80, 0x2000), (88, 4), (112, 1), (116, 1)])
    readNat (after (.add 1 1) (s 1)).dev.chip 0x2000 4 = 0x40400000 ∧ readNat (after (.max 1 1) (s 4)).dev.chip 0x2000 4 = 0x40000000 := by
  decide +kernel

/-- R404: COPY moves the source's bytes and ends with status 0. -/
theorem test_copy :
    let s := after (.copy 1 1) (onTheChip (writeBytes 0x1000 [7, 8, 9]) (withOp 4 1 [(16, 0x1000), (24, 3), (48, 0x2000), (56, 3), (80, 3)]))
    readBytes s.dev.chip 0x2000 4 = [7, 8, 9, 0] ∧ ((entryOf s.dev.chip 1).map (·.status)) = some 0 := by decide +kernel

/-- R437: a SET acts on its masked flags and completes with status 0. -/
theorem test_set :
    let s := after (.set 1) (withOp 7 1 [(16, 128), (24, 5)])
    flagSet s.dev.chip 128 = true ∧ flagSet s.dev.chip 129 = false ∧ flagSet s.dev.chip 130 = true ∧
      ((entryOf s.dev.chip 1).map (·.phase)) = some .done := by decide +kernel

/-! ### Witnesses: the block, power and start-up -/

theorem wit_EveryCommandCompletes : (Instr.vinLow 39000).wf = true ∧ (Instr.bandOff 14).wf = false ∧ 14 ≤ 14 ∧ 112 ≤ 112 := by decide

theorem wit_EveryStepKeepsTheControlRanges : ControlInv live.dev ∧ ∃ t, step live = .next t := by
  refine ⟨?_, _, rfl⟩
  constructor <;> decide +kernel

theorem wit_MemoryOperationsKeepItsForm : ({ Chip.reset with mem := [(3, 5)], poison := [(7, true)] } : Chip).memWf = true := by decide +kernel

theorem wit_DescriptorIdentifiersStayDistinct :
    IdsDistinct (withEnts [ent 1 0, ent 2 0]).dev.chip ∧ ∃ t, step (withEnts [ent 1 0, ent 2 0]) = .next t :=
  ⟨idsDistinct_of _ (by decide +kernel) (by decide +kernel) (by decide +kernel), _, rfl⟩

/-- A cell, its own local name, and another cell. -/
theorem wit_WritesReadBackThroughBothViews : canon 0x12345 ≠ none ∧ canon (globalToLocal 0x12345) = canon 0x12345 ∧
    canon 0x12346 ≠ canon 0x12345 ∧ canon 0x47FFFFFFFF = some 0x47FFFFFFFF := by decide +kernel

def stoppedHub : State := onTheDev (fun d => { d with mgt := { d.mgt with powered := false, pwrGood := false, ready := false, stage := 0 } }) live
def cold : State := onTheDev (fun d => { d with mgt := { d.mgt with powered := true } }) stoppedHub

theorem wit_PowerAndColdStart :
    (live.dev.mgt.powered = true ∧ live.dev.tel.powerLost = false) ∧
    (onTheDev (fun d => { d with tel := { d.tel with currentLimit := true } }) live).dev.tel.currentLimit = true ∧
    stoppedHub.dev.mgt.powered = false ∧
    (cold.dev.mgt.powered = true ∧ cold.dev.mgt.pwrGood = false ∧ cold.dev.mgt.resetHeld = false ∧ cold.dev.tel.switchOpen = false) ∧
    (let s := onTheDev (fun d => { d with mgt := { d.mgt with pwrGood := true, resetHeld := true } }) cold
     s.dev.mgt.powered = true ∧ s.dev.mgt.pwrGood = true ∧ s.dev.tel.switchOpen = false ∧ s.dev.mgt.stage = 0) := by decide +kernel

theorem wit_InputAndReferenceConditions :
    live.dev.mgt.powered = true ∧ (38000 ≤ 38000 ∧ 39999 < 40000) ∧ 52000 < 52001 ∧ 57000 < 57001 ∧ live.dev.tel.ref25Lost = false ∧
    (let s := onTheDev (fun d => { d with tel := { d.tel with powerLost := true } }) live
     s.dev.mgt.pwrGood = true ∧ s.dev.tel.powerLost = true ∧ s.dev.tel.switchOpen = false ∧ 40000 ≤ 40000) := by decide +kernel

theorem wit_SamplesFillTheCounters :
    live.dev.mgt.powered = true ∧ live.dev.tel.capW.toNat * 1000 < 2000001 ∧ (∀ b < 14, (live.dev.band b).capStep = 0) ∧
    (onTheDev (fun d => { d with tel := { d.tel with pinCount := 999 } }) live).dev.tel.pinCount = 999 ∧
    (onTheChip (fun c => { c with dbk := { c.dbk with mode := 1 } }) live).dev.chip.dbk.mode ≠ 0 := by decide +kernel

theorem wit_HotBandsAreThrottled :
    live.dev.mgt.powered = true ∧ (List.replicate 112 (98 * 16 : Int)).length = 112 ∧ (List.replicate 8 (100 * 16 + 1 : Int)).length = 8 ∧
    98 * 16 ≤ (List.replicate 112 (98 * 16 : Int)).getD 111 0 ∧ 100 * 16 < (List.replicate 8 (100 * 16 + 1 : Int)).getD 7 0 := by
  decide +kernel

def bandIs (b : Nat) (st : BitVec 2) (s : State) : State := onTheDev (fun d => d.setBand b { d.band b with state := st }) s

/-- Run and nothing wanted; Gated and nothing on it; a band of spares; and a woken one. -/
theorem wit_BandsMoveBetweenPowerStates :
    inService live.dev.mgt = true ∧
    ((bandIs 13 3 live).dev.band 13).state = 3 ∧ live.dev.chip.ory.idleGate ≠ 0 ∧ wanted live.dev.chip 13 = false ∧
    ((bandIs 13 2 live).dev.band 13).state = 2 ∧ live.dev.tel.retainIdle ≠ 0 ∧ onBandNow live.dev.chip 13 = [] ∧
    live.dev.tel.offSpares = true ∧ (live.dev.band 13).waking = false ∧
    (let c := (List.range 112).foldl (fun c p => c.setTile p { c.tile p with role := 1 }) live.dev.chip
     ∀ p < 112, bandOf p = 13 → (c.tile p).role ≠ 0 ∧ (c.tile p).role ≠ 3) ∧
    (live.dev.mgt.computeReset = false ∧
      ((onTheDev (fun d => d.setBand 13 { d.band 13 with state := 2, waking := true }) live).dev.band 13).waking = true) := by decide +kernel

theorem wit_Sideband : pmbusOn live.dev = true ∧ live.dev.mgt.ready = true ∧ live.dev.chip.cxl.ideHaltIo = false ∧
    (500 ≤ (500#16).toNat ∧ (2000#16).toNat ≤ 2000) ∧ ¬500 ≤ (499#16).toNat ∧ bitsOf (2000 * 256) 8 11 = 2000 ∧
    (0 < 1000 ∧ (48000 : Int).natAbs ≤ 1023 * 2 ^ 15 * 1000) := by decide +kernel

theorem wit_StartupBeginsAndEnds :
    inStage 1 (stageAt 1).dev = true ∧ (stageAt 1).dev.str.halted = false ∧ inStage 2 (stageAt 2).dev = true ∧
    inStage 3 (stageAt 3).dev = true ∧ inStage 10 (stageAt 10).dev = true ∧
    (∀ q < 8, 6 ≤ (candidates (stageAt 10).dev.chip q).length) := by decide +kernel

/-- Windows that pass: every kind has its least value. -/
def okWindows : List Nat := List.replicate 1280 1000

theorem okWindows_ok (pc : Nat) (h : pc < 256) : windowsOk okWindows pc = true := by
  have e (i : Nat) (hi : i < 1280) : okWindows.getD i 0 = 1000 := by
    rw [okWindows, List.getD_eq_getElem?_getD, List.getElem?_replicate, if_pos hi, Option.getD_some]
  simp only [windowsOk, e, show 5 * pc < 1280 by omega, show 5 * pc + 1 < 1280 by omega, show 5 * pc + 2 < 1280 by omega,
    show 5 * pc + 3 < 1280 by omega]
  decide

theorem wit_BandsStacksAndPortsComeUp :
    inStage 4 (stageAt 4).dev = true ∧ (stageAt 4).dev.mgt.waves < 14 ∧
    14 ≤ (onTheDev (fun d => { d with mgt := { d.mgt with waves := 14 } }) (stageAt 4)).dev.mgt.waves ∧
    inStage 5 (stageAt 5).dev = true ∧ (∀ k < 8, (stageAt 5).dev.chip.til.almanac.stackBad.getLsbD k = false) ∧
    inStage 6 (stageAt 6).dev = true ∧ inStage 7 (stageAt 7).dev = true ∧
    (∀ p < 16, ((stageAt 7).dev.chip.port p).state ∈ ([0, 2, 5] : List (BitVec 4))) ∧
    inStage 8 (stageAt 8).dev = true ∧ (stageAt 8).dev.chip.til.almanac.tileBad.getLsbD 111 = false ∧ inStage 9 (stageAt 9).dev = true := by
  decide +kernel

theorem wit_ComputeResetEndsAllWork :
    (inService live.dev.mgt = true ∧ live.dev.mgt.computeReset = false ∧ live.dev.mgt.pwrGood = true ∧ live.dev.mgt.resetHeld = false ∧
      live.dev.mgt.powered = true ∧ live.dev.chip.cxl.ideHaltIo = false ∧ (1#32).getLsbD 0 = true ∧ (onTheChip (fun c => { c with cxl := { c.cxl with keepHbm := false } }) live).dev.chip.cxl.keepHbm = false) ∧
    (let s := onTheChip (fun c => { c with cxl := { c.cxl with keepHbm := true } }) live
     s.dev.chip.cxl.keepHbm = true ∧ s.dev.chip.til.pending0 = [] ∧ ∀ p < 112, (s.dev.chip.tile p).role ≠ 3) ∧
    inService (stageAt 4).dev.mgt = false ∧ (after (.computeReset 1) live).dev.mgt.computeReset = true := by decide +kernel

/-! ### Witnesses: queues and the Orrery -/

theorem live_isLive : Live live := by constructor <;> decide +kernel

/-- A frame ends in the check of its first 5,132 bytes. -/
def framed (body : List Byte) : List Byte := body ++ toBytes 8 (crc64 body).toNat

/-- An empty frame after the number 0xFFFF is good; so is one with a FLAG packet of one 4-byte unit in its first slot. -/
theorem wit_PortsChangeTheirState_frame (p : List Byte) (h : p.length = 5128) :
    let f := framed ([0, 0, 0, 0] ++ p)
    ofBytes ((f.drop 5132).take 8) = (crc64 (f.take 5132)).toNat ∧ ofBytes (f.take 2) = (0xFFFF#16 + 1).toNat := by
  have h1 : ([0, 0, 0, 0] ++ p : List Byte).length = 5132 := by simp [h]
  refine ⟨?_, by simp [framed, ofBytes]⟩
  simp only [framed]
  rw [List.drop_left' h1, List.take_left' h1]
  generalize crc64 _ = x
  simp only [toBytes, List.take, ofBytes, BitVec.toNat_ofNat]
  omega

/-- R452: a FLAG of 16 bytes from rank 7 to rank 5 with tag 9 is one slot, first and last, on virtual channel 0. -/
theorem test_slot_header_flag :
    let p : Packet := ⟨0, 5, 7, 9, false, List.replicate 16 0⟩
    p.body.length ≤ 4352 ∧
    headerOf .flag p 0 = 5 * 2 ^ 76 + 7 * 2 ^ 56 + 4 * 2 ^ 52 + 3 * 2 ^ 44 + 2 ^ 43 + 2 ^ 42 + 9 := by decide

theorem wit_PortsChangeTheirState_slots :
    (let f : List Byte := List.replicate 5140 0
     ofBytes ((f.drop 4).take 1) = 0 ∧ ∀ k < 19, slotHeader f k = 0) ∧
    (let h : Nat := 3 * 2 ^ 42 + 4 * 2 ^ 52
     let f : List Byte := List.replicate 24 0 ++ toBytes 12 h ++ List.replicate 5104 0
     ofBytes ((f.drop 4).take 1) = 0 ∧ bitsOf (slotHeader f 0) 42 2 = 3 ∧ bitsOf (slotHeader f 0) 52 4 = 4 ∧
     ∀ k < 19, k ≠ 0 → slotHeader f k = 0) := by decide +kernel

/-- Queue 0 is open, with a ring and a completion ring of 16 slots in HBM. -/
def opened (f : Wq → Wq) (s : State) : State :=
  onTheChip (onWq 0 fun w => f { w with isOpen := true, cfg := 0x0404, cplBase := 0x10000, base := 0x20000 }) s

theorem wit_SubmissionsArmOrRefuse :
    (let w := (opened id live).dev.chip.wq 0
     w.isOpen = true ∧ w.closing = false ∧ ((16#32) - w.head).toNat ≤ w.slots ∧ ((16#32) - w.tail).toNat < 2 ^ 31 ∧
     ¬((17#32) - w.head).toNat ≤ w.slots ∧ ((0#32) - w.cplHead).toNat ≤ (w.cplTail - w.cplHead).toNat ∧
     ¬((1#32) - w.cplHead).toNat ≤ (w.cplTail - w.cplHead).toNat) ∧
    (let w := (opened (fun w => { w with cfg := 0x0424 }) live).dev.chip.wq 0
     w.ringHost = true ∧ w.lineTail ≠ 1 ∧ w.lineHead = 0 ∧ w.lineTail = 0) ∧
    (live.dev.chip.wq 0).isOpen = false ∧
    (let w := (opened (fun w => { w with shadow := some (0, ⟨false, false⟩), direct := some 1 }) (withEnts [ent 1 0])).dev.chip.wq 0
     w.shadow.isSome = true ∧ w.direct.isSome = true) ∧
    (let c := (opened id live).dev.chip
     (c.wq 0).direct = none ∧ foreignStream c 0 0 = false ∧ roomFor c (placeTile c 0) = true) := by decide +kernel

theorem wit_SubmissionsArmOrRefuse_free : Live (opened id live) ∧ IdsDistinct (opened id live).dev.chip :=
  ⟨by constructor <;> decide +kernel, idsDistinct_of _ (by decide +kernel) (by decide +kernel) (by decide +kernel)⟩

theorem wit_SubmissionsArmOrRefuse_ids : Live (opened (fun w => { w with direct := some 1 }) (withEnts [ent 1 0])) ∧
    IdsDistinct (opened (fun w => { w with direct := some 1 }) (withEnts [ent 1 0])).dev.chip :=
  ⟨by constructor <;> decide +kernel, idsDistinct_of _ (by decide +kernel) (by decide +kernel) (by decide +kernel)⟩

theorem wit_QueuesAndStreamsObeyTheirCommands :
    (let e := { ent 1 0 with phase := .armed }
     let s := opened id (withEnts [e])
     e ∈ ownEntries s.dev.chip 0 ∧ (s.dev.chip.wq 0).isOpen = true ∧ (s.dev.chip.wq 0).cancelBusy = false ∧ (s.dev.chip.wq 0).closing = false ∧
     inIds (.ofNat 32 (dId e.desc)) 0 0 = true) ∧
    (let s := opened id live
     s.dev.chip.ory.entries.all (·.wq != 0) = true ∧ (s.dev.chip.wq 0).submitted = none ∧ (s.dev.chip.wq 0).shadow = none ∧
     (s.dev.chip.wq 0).fetched = (s.dev.chip.wq 0).tail) ∧
    ((opened (fun w => { w with cancelBusy := true }) live).dev.chip.wq 0).cancelBusy = true ∧
    ((96 ≤ 96 ∧ 126 ≤ 126) ∧ 95 < 96 ∧ (withEnts [ent 1 0]).dev.chip.ory.entries = [ent 1 0]) ∧
    (∀ cls ∈ [3, 5, 11], let e := ent 1 (mkDesc cls 1 [])
     e ∈ ownEntries (opened id (withEnts [e])).dev.chip 0 ∧ e.phase = .started ∧ dClass e.desc = cls) ∧
    (let e := ent 1 (mkDesc 4 1 [(80, 9)])
     e ∈ ownEntries (opened id (withEnts [e])).dev.chip 0 ∧ hasRecord e.desc = true ∧ atEnd e = false ∧ e.lead = none ∧ dClass e.desc ≠ 6 ∧
       dClass e.desc ≠ 9) ∧
    (let a := { ent 1 (mkDesc 1 1 []) with lead := some 1 }
     gatheringOf (withEnts [a, ent 2 0]).dev.chip 1 = [a] ∧ dResume a.desc = false ∧ gatheringOf (withEnts [a]).dev.chip 2 = []) := by
  decide +kernel

/-- A host-side descriptor without a tile: it starts. One whose wait flag is clear does not. -/
theorem wit_ReadyDescriptorsStart :
    (let e := { ent 1 (mkDesc 10 1 []) with phase := .armed }
     entryOf (withEnts [e]).dev.chip 1 = some e ∧ canStart (withEnts [e]).dev e = true ∧ candidate (withEnts [e]).dev.chip e = false) ∧
    (let e := { ent 1 (mkDesc 10 1 [(3, 1), (8, 9)]) with phase := .armed }
     entryOf (withEnts [e]).dev.chip 1 = some e ∧ canStart (withEnts [e]).dev e = false) := by decide +kernel

/-- Tile 0 runs number 0 in a band in Run. -/
def tileRuns (s : State) : State :=
  bandIs 0 3 (onTheChip (fun c => c.setTile 0 { c.tile 0 with logical := 0, running := 0, second := 127, role := 0 }) s)

/-- Two STREAMs of two streams that agree, on one multicast set; and a started COPY of a lower-priority queue that holds
the unit of an armed one. -/
theorem wit_ReadyDescriptorsStart_more :
    (let a := { ent 1 (mkDesc 1 1 [(12, 1)]) with phase := .armed, tile := 0 }
     let s := tileRuns (onTheChip (onStream 1 fun x => { x with mcast := 3 }) (withEnts [a]))
     entryOf s.dev.chip 1 = some a ∧ candidate s.dev.chip a = true ∧ present s.dev a = [a] ∧ s.dev.chip.ory.joinWindow ≠ 0 ∧
     (s.dev.chip.ory.streams.filter fun x => x.2.mcast.toNat = setOf s.dev.chip a).length ≤ 1) ∧
    (let a := { ent 1 (mkDesc 1 1 [(12, 1)]) with phase := .armed, tile := 0 }
     let s := tileRuns (onTheChip (fun c => onStream 2 (fun x => { x with mcast := 3 }) (onStream 1 (fun x => { x with mcast := 3 }) c)) (withEnts [a]))
     entryOf s.dev.chip 1 = some a ∧ candidate s.dev.chip a = true ∧
     ¬(s.dev.chip.ory.joinWindow = 0 ∨ (s.dev.chip.ory.streams.filter fun x => x.2.mcast.toNat = setOf s.dev.chip a).length ≤ 1)) ∧
    (let v := { ent 1 (mkDesc 4 1 [(12, 1), (80, 9)]) with tile := 0, wq := 0 }
     let w := { ent 2 (mkDesc 4 1 [(12, 2), (80, 9)]) with phase := .armed, tile := 0, wq := 1 }
     let s := tileRuns (onTheChip (onWq 1 fun q => { q with cfg := 0x10000 }) (withEnts [v, w]))
     s.dev.chip.ory.preemptEn = true ∧ readyBut s.dev w = true ∧ hasRecord v.desc = true ∧ atEnd v = false ∧
     prioOf s.dev.chip v < prioOf s.dev.chip w ∧ (∀ u ∈ unitsOf w.desc, ∀ x ∈ holders s.dev.chip w.tile u, x = v) ∧
     (∃ u ∈ unitsOf w.desc, v ∈ holders s.dev.chip w.tile u)) := by decide +kernel

def doneEnt : Entry := { ent 1 (mkDesc 7 1 [(3, 2), (10, 70)]) with phase := .done }

theorem wit_RetirementWritesTheCompletionEntry :
    (let s := opened id (withEnts [doneEnt])
     let c := s.dev.chip
     let w := c.wq 0
     entryOf c 1 = some doneEnt ∧ canRetire c doneEnt = true ∧ c.vsp.watches = [] ∧ c.openStacks = [] ∧ w.cplFull = false ∧
     w.cplHost = false ∧ trackedIn c w.cplAt 16 = [] ∧ w.cplAt + 16 ≤ hbmTop ∧ fld doneEnt.desc 3 2 1 = 0 ∧ signals doneEnt = true) ∧
    ((opened (fun w => { w with cplTail := 16 }) live).dev.chip.wq 0).cplFull = true := by decide +kernel

theorem wit_RetirementWritesTheCompletionEntry_queues : NothingToArm (opened id (withEnts [doneEnt])).dev.chip := by
  intro q
  rcases fget_cases Wq.reset (opened id (withEnts [doneEnt])).dev.chip.ory.wqs q with h | h
  · rw [Chip.wq, h]; decide
  · have : ∀ x ∈ (opened id (withEnts [doneEnt])).dev.chip.ory.wqs, x.2.fetched = x.2.tail ∧ x.2.submitted = none ∧ x.2.shadow = none := by decide +kernel
    exact this _ h

theorem wit_BarriersWaitForTheirRounds :
    (let e := ent 2 (mkDesc 10 1 [(16, 2)])
     let s := withEnts [ent 1 (mkDesc 4 1 [(12, 1)]), e]
     running s.dev.chip 2 10 1 = some e ∧ e.desc.getLsbD (128 + dStream (mkDesc 4 1 [(12, 1)])) = true ∧
     running (withEnts [e]).dev.chip 2 10 1 = some e) ∧
    (let e := ent 1 (mkDesc 10 2 [])
     running (withEnts [e]).dev.chip 1 10 2 = some e ∧ clog2 ((withEnts [e]).dev.chip.grp 0).m ≤ 0) := by decide +kernel

/-! ### Witnesses: flags, watches and mailboxes -/

/-- Flags 64 and 67 set, 64 strict. -/
def flagged : State := onTheChip (fun c => { c with vsp := { c.vsp with flags := 9 <<< 64, strict := 1 <<< 64 } }) live

theorem flagged_isLive : Live flagged := by constructor <;> decide +kernel

theorem wit_FlagWritesAndDescriptorsAct :
    (flagged.dev.chip.vsp.watches = [] ∧ flagSet flagged.dev.chip 64 = true ∧ flagged.dev.chip.vsp.strict.getLsbD 64 = true ∧
      64 / 64 = (1#10).toNat ∧ (1#64).getLsbD (64 % 64) = true) ∧
    (∀ op ∈ [1, 2], let e := ent 1 (mkDesc 7 op [(16, 65472), (24, 5)])
      running (withEnts [e]).dev.chip 1 7 op = some e ∧ e.round ≠ 1 ∧ (flagD e.desc).release = false ∧ (flagD e.desc).base % 64 = 0 ∧
      (flagD e.desc).remote = false) ∧
    (∀ op ∈ [1, 2], let e := ent 1 (mkDesc 7 op [(3, 4), (16, 64), (18, 1), (20, 9), (24, 5)])
      running (withEnts [e]).dev.chip 1 7 op = some e ∧ (flagD e.desc).release = true ∧ (flagD e.desc).remote = true ∧
      fenceDone (withEnts [e]).dev.chip e = true ∧
      (let s := withEnts [{ ent 0 (mkDesc 2 1 []) with phase := .started }, e]
       running s.dev.chip 1 7 op = some e ∧ fenceDone s.dev.chip e = false)) := by decide +kernel

def someWatch : Watch := ⟨0, 0, 0, false, .mbox 0 0, false⟩

theorem fget_slots (l : List Nat) (k : Nat) (h : k ∈ l) : fget none (l.map fun i => (i, some someWatch)) k = some someWatch := by
  induction l with
  | nil => simp at h
  | cons j r ih =>
    rw [List.map_cons, fget_cons]
    split
    · rfl
    · exact ih ((List.mem_cons.mp h).resolve_left (by omega))

/-- Every watch slot of die 0 is taken. -/
theorem wit_WatchesAreRegisteredAndRemoved_full (s : State) :
    findSlot (onTheChip (fun c => { c with vsp := { c.vsp with
      watches := (List.range 2048).map fun i => (i, some someWatch) } }) s).dev.chip 0 = none := by
  simp only [findSlot, onTheChip, Option.map_eq_none_iff, List.find?_eq_none]
  intro i hi
  rw [Nat.mul_zero, Nat.zero_add, fget_slots _ _ hi]
  simp

theorem wit_WatchesAreRegisteredAndRemoved :
    (let e := ent 1 (mkDesc 7 3 [(16, 64), (24, 4)])
     let s := withEnts [e]
     let x := flagD e.desc
     running s.dev.chip 1 7 3 = some e ∧ e.slotW = none ∧ (findSlot s.dev.chip (homeOf x.base)).isSome = true ∧
     condHolds x.cond x.mask (windowGet s.dev.chip.vsp.flags x.base) = false ∧ condHolds x.cond x.mask (windowGet (1 <<< 66) x.base) = true) ∧
    (let e := ent 1 (mkDesc 7 4 [(16, 64), (24, 4)])
     running (withEnts [e]).dev.chip 1 7 4 = some e ∧ homeOf (flagD e.desc).base = 0) ∧
    (let e := ent 1 (mkDesc 7 5 [])
     running (withEnts [e]).dev.chip 1 7 5 = some e) := by decide +kernel

/-- The key with an act of 1 on flag 70, which the Daybook takes where it runs and refuses where it does not. -/
theorem wit_ManualActsAndMailboxes :
    let v : W32 := 0xA5010046
    let runs := onTheChip (fun c => { c with dbk := { c.dbk with mode := 1 } }) live
    let lost := onTheChip (fun c => { c with dbk := { c.dbk with mode := 2 } }) live
    (v.toNat / 2 ^ 24 = 0xA5 ∧ v.toNat / 65536 % 4 = 1 ∧ (queueRec live.dev.mgt 0 9 [] runs.dev.chip).1 = true ∧
      (queueRec live.dev.mgt 0 9 [] lost.dev.chip).1 = false) ∧
    (let v : W32 := 0x00001001
     v.getLsbD 0 = true ∧ v.getLsbD 13 = false ∧ v.toNat / 256 % 32 = 16 ∧ (live.dev.chip.mbox 0).enable = false ∧
     (live.dev.chip.mbox 0).base.toNat + 16 * 2 ^ 16 ≤ hbmTop ∧ (live.dev.chip.mbox 0).waiting = [] ∧ (live.dev.chip.mbox 0).stuck = false) ∧
    (let x : MboxMsg := ⟨1, 64, 0, false, 0, 0, none⟩
     let b : Mbox := { fget Mbox.reset [] 0 with enable := true, log2 := 4, stuck := true, waiting := [x], base := 0x1000, tail := 15 }
     let c := { live.dev.chip with vsp := { live.dev.chip.vsp with mboxes := [(2, b)] } }
     c.mbox 2 = b ∧ b.host = false ∧ b.waiting = [x] ∧ (b.tail - b.head).toNat < 2 ^ b.log2.toNat ∧
     trackedIn c (b.base.toNat + 240) 16 = [] ∧ poisonedAt c (b.base.toNat + 240) = false) := by decide +kernel

/-! ### Witnesses: the CXL port -/

theorem wit_ConfigurationSpaceAndApertures :
    (live.dev.mgt.pwrGood = true ∧ live.dev.mgt.resetHeld = false ∧ live.dev.chip.cxl.link ≠ some .pcie ∧
      stoppedHub.dev.mgt.pwrGood = false) ∧
    (∀ on ∈ [true, false],
      let s := onTheChip (fun c => { c with cxl := { c.cxl with apers := [(15, ⟨if on then 0x10001 else 0x10000, 0x1000⟩)] } }) live
      (s.dev.chip.aper 15).base.getLsbD 0 = on ∧ s.dev.chip.cxl.lock = false ∧ inUse s.dev.chip 15 = false) ∧
    (live.dev.chip.aper 0).size = 0 ∧
    (let s := onTheChip (fun c => { c with cxl := { c.cxl with uios := [⟨1, 1, 0x800000001000, 4, true⟩], lock := true } }) live
     s.dev.chip.cxl.lock = true ∧ ∃ t, Runs [.apertureLock, .apertureEntryWrite 15 3 1, .configurationRequest 0 (some 1)] s t) ∧
    (let b : W64 := 0x000FFFFFFFFFF001 - 0x1000
     let z : W64 := 0x1000
     live.dev.chip.cxl.lock = false ∧ (live.dev.chip.aper 15).base.getLsbD 0 = false ∧
     b &&& 0x000FFFFFFFFFF00F = b ∧ z &&& 0x000001FFFFFFF000 = z ∧ z ≠ 0 ∧ Aper.host ⟨b, z⟩ + z.toNat ≤ 2 ^ 52) := by
  refine ⟨?_, ?_, ?_, ⟨?_, _, _, rfl, _, rfl, _, rfl, rfl⟩, ?_⟩ <;> decide +kernel

/-- The module in service on CXL, whose decoder 0 maps 256 MiB at 2^40. -/
def mapped : State :=
  onTheChip (fun c => { c with cxl := { c.cxl with link := some .native, hdms := [(0, ⟨true, false, 2 ^ 40, 2 ^ 28, 0⟩)] } }) live

theorem wit_HostAccessesActOnTheirLine :
    let line := 0x0FFFFFC0
    lineOk line = true ∧ cxlOpen mapped.dev.chip = true ∧ hdmMaps mapped.dev.chip line = true ∧
    mapped.dev.chip.cxl.filter.length < filterSize ∧ (∀ k < 4, poisonedAt mapped.dev.chip (line + 16 * k) = false) ∧
    (let s := onTheChip (fun c => { c with poison := [((line + 48) / 16, true)] }) mapped
     poisonedAt s.dev.chip (line + 16 * 3) = true ∧ 2 ^ 63 / 2 ^ (16 * 3) % 65536 ≠ 0 ∧ 2 ^ 63 / 2 ^ (16 * 3) % 65536 ≠ 0xFFFF) := by
  decide +kernel

theorem wit_HostEventsAndUnorderedAccesses :
    (let s := onTheChip (fun c => { c with cxl := { c.cxl with snoops := [0x40], filter := [0x40] } }) live
     0x40 ∈ s.dev.chip.cxl.snoops ∧ 0x80 ∉ s.dev.chip.cxl.snoops ∧ s.dev.chip.cxl.ideHalt = false ∧ lineOk 0x40 = true ∧
     s.dev.chip.cxl.heldReads = [] ∧ s.dev.chip.fab.held = [] ∧ s.dev.chip.ory.entries = [] ∧ s.dev.chip.ory.wqs = [] ∧
     s.dev.chip.clr.colls = [] ∧ s.dev.chip.clr.early = [] ∧ s.dev.chip.vsp.mboxes = []) ∧
    (live.dev.chip.cxl.ideKeys = none ∧ live.dev.chip.cxl.ideKeysIo = none) ∧
    (let s := onTheChip (fun c => { c with cxl := { c.cxl with ideKeys := some [1], ideKeysIo := some [2] } }) live
     s.dev.chip.cxl.ideKeys ≠ none ∧ s.dev.chip.cxl.ideKeysIo ≠ none) ∧
    (∀ read ∈ [true, false], let u : Uio := ⟨7, 1, 0x1000, 4, read⟩
     let e := ent 1 (mkDesc 4 1 [])
     let s := onTheChip (fun c => { c with cxl := { c.cxl with uios := [u] } }) (withEnts [e])
     s.dev.chip.cxl.uios.find? (·.tag = u.tag) = some u ∧ u.read = read ∧ s.dev.chip.cxl.ideHaltIo = false ∧
     entryOf s.dev.chip u.entry = some e ∧ e.phase = .started ∧ ∀ x ∈ s.dev.chip.cxl.uios, x.tag ≠ 8) := by decide +kernel

theorem wit_HostEventsAndUnorderedAccesses_ids :
    IdsDistinct (onTheChip (fun c => { c with cxl := { c.cxl with uios := [⟨7, 1, 0x1000, 4, true⟩] } })
      (withEnts [ent 1 (mkDesc 4 1 [])])).dev.chip :=
  idsDistinct_of _ (by decide +kernel) (by decide +kernel) (by decide +kernel)

theorem wit_DiscoveryTablesAreFixed : ∀ x ∈ [(LinkMode.native, 60), (.rateFallback, 30), (.widthFallback, 30), (.both, 15)],
    (onTheChip (fun c => { c with cxl := { c.cxl with link := some x.1 } }) live).dev.chip.cxl.link = some x.1 := by decide +kernel

/-! ### Witnesses: SPDM and the Strongroom -/

/-- The module in service with a mailbox command in progress. -/
def mailbox (op len : Nat) : State :=
  onTheDev (fun d => { d with str := { d.str with go := true, running := .ofNat 8 op, buf := 0x10000, bufLen := .ofNat 26 len } }) live

theorem wit_SpdmSessionsOpenAndEnd :
    (live.dev.mgt.powered = true ∧ live.dev.str.selftestOk = true ∧ live.dev.str.halted = false ∧ live.dev.str.go = false ∧
      live.dev.str.drbgOk = true ∧ (mailbox 1 192).dev.str.go = true) ∧
    (let s := onTheChip (fun c => { c with cxl := { c.cxl with sessions := [⟨3, true⟩], chunkOut := [1, 2] } }) live
     s.dev.chip.cxl.sessions ≠ [] ∧ sessionOpen s.dev.chip 3 = true ∧ (∃ x ∈ s.dev.chip.cxl.sessions, x.id = 3) ∧
     (∀ x ∈ s.dev.chip.cxl.sessions, x.id ≠ 4) ∧ s.dev.chip.cxl.chunkOut ≠ []) := by decide +kernel

theorem wit_StrongroomCommandsAnswer :
    (∀ x ∈ [(1, 192), (2, 1), (3, 17344), (4, 8112), (6, 32), (7, 7920), (8, 7920), (9, 32), (10, 4)],
      bufOk (mailbox x.1 x.2).dev.str x.2 = true ∧ bufOk (mailbox x.1 (x.2 - 1)).dev.str x.2 = false) ∧
    (let s := mailbox 10 4096
     s.dev.mgt.powered = true ∧ s.dev.str.halted = false ∧ s.dev.str.go = true ∧ s.dev.str.running.toNat = 10 ∧ s.dev.str.doeWait = [] ∧
     s.dev.str.drbgOk = true ∧ bufOk s.dev.str 4096 = true ∧
     readNat (onTheChip (writeBytes 0x10000 [0, 0x10]) s).dev.chip 0x10000 4 = 4096) ∧
    (readByte live.dev.chip 0x10000).toNat ≤ 1 ∧ live.dev.chip.til.almanac.owner = none ∧
    (let s := onTheChip (fun c => { c with til := { c.til with almanac := { c.til.almanac with owner := some [1] } } }) live
     s.dev.chip.til.almanac.owner ≠ none) ∧
    live.dev.mgt.ready = true ∧ (stageAt 3).dev.mgt.ready = false ∧
    (let s := onTheChip (fun c => { c with poison := [(0x1000, true)] }) (mailbox 10 4096)
     firstPoison s.dev.chip 0x10000 4 ≠ none ∧ trackedIn s.dev.chip 0x10000 4 = []) ∧
    (let s := onTheDev (fun d => { d with str := { d.str with committing := true } }) (mailbox 5 0)
     let r : Rec := ⟨6, false, 0, false, 3, []⟩
     s.dev.str.committing = true ∧ recordsLeft s.dev.chip = 0 ∧ (∀ x ∈ s.dev.chip.dbk.queue, x.type ≠ 6) ∧
     minVersion s.dev.chip 0 = s.dev.str.bootVersion.toNat ∧ minVersion s.dev.chip 1 = s.dev.str.cfgVersion.toNat ∧
     ∃ x ∈ (onTheChip (fun c => { c with dbk := { c.dbk with queue := [r] } }) s).dev.chip.dbk.queue, x.type = 6) := by decide +kernel

theorem wit_TamperClearsEveryKey :
    live.dev.str.halted = false ∧ (mailbox 1 192).dev.str.go = true ∧ live.dev.str.locks.getLsbD 6 = true ∧
    (stageAt 3).dev.mgt.powered = true ∧
    (onTheDev (fun d => { d with str := { d.str with locks := 0 } }) (stageAt 3)).dev.str.locks.getLsbD 6 = false := by decide +kernel

/-! ### Witnesses: the data plane -/

/-- The run record is bound, and no exponent-table entry belongs to tensor 5: a copy with that identifier mismatches. -/
def boundRun (s : State) : State := onTheChip (fun c => { c with run := { c.run with recAddr := some 0x8000 } }) s

/-- Bytes of a tensor reference, at `o`, of `n` bytes at `a`, of format `f`. -/
def refAt (o a n f : Nat) : List (Nat × Nat) := [(o, a), (o + 8, n), (o + 16, f)]

/-- A vector operation of 1 × 1 FP32 runs, and one on a block copy of another tensor's scale mismatches. -/
theorem wit_VectorUnitsWriteTheirResults :
    (∀ op ∈ List.range 19, op ≠ 0 → (running (withOp 2 op []).dev.chip 1 2 op).isSome = true) ∧
    (let e := ent 1 (mkDesc 2 1 (refAt 16 0x1000 4 0 ++ refAt 48 0x1004 4 0 ++ refAt 80 0x2000 4 0 ++ [(112, 1), (116, 1)]))
     let c := (withEnts [e]).dev.chip
     let v := vecD e.desc
     (scaleMismatch c e v.a || (v.twoSource && scaleMismatch c e v.b)) = false ∧ goes (prepare e (vecAccs c e) (partOf v.dest v.fmt v.nDest) c) = true) ∧
    (let e := ent 1 (mkDesc 2 0x0A (refAt 16 windowBase 32 3 ++ [(36, 5)] ++ refAt 80 0x2000 32 0 ++ [(112, 32), (116, 1)]))
     let s := boundRun (withEnts [e])
     scaleMismatch s.dev.chip e (vecD e.desc).a = true) ∧
    (let e := ent 1 (mkDesc 4 1 (refAt 16 windowBase 32 3 ++ [(36, 5)] ++ refAt 48 0x2000 32 3 ++ [(80, 32)]))
     let s := boundRun (withEnts [e])
     running s.dev.chip 1 4 1 = some e ∧ scaleMismatch s.dev.chip e (moveD e.desc).src = true ∧ e.chunk < (moveD e.desc).blocks) := by
  decide +kernel

theorem wit_StreamCommitsItsGroups :
    let e := ent 1 (mkDesc 1 1 (refAt 16 0x1000 4096 1))
    let c := (withEnts [e]).dev.chip
    let b := batchEntry e (membersOf c e)
    running c 1 1 1 = some e ∧ e.lead = none ∧ streamBad c b (membersOf c e) = false ∧
    goes (prepare b (streamAccs c (bindWindow c b) (membersOf c e)) (streamPart (membersOf c e)) c) = true ∧
    (let g := { e with lead := some 1 }
     running (withEnts [g]).dev.chip 1 1 1 = some g ∧ g.lead.isSome = true ∧ g.round = 0) := by decide +kernel

theorem wit_StreamCommitsItsGroups_ids : IdsDistinct (withEnts [ent 1 (mkDesc 1 1 (refAt 16 0x1000 4096 1))]).dev.chip :=
  idsDistinct_of _ (by decide +kernel) (by decide +kernel) (by decide +kernel)

theorem wit_WindowUnitsWriteTheirResults :
    (∀ op ∈ [1, 2, 3, 4, 5, 6, 7], let e := ent 1 (mkDesc 8 op [(122, 1)])
      running (withEnts [e]).dev.chip 1 8 op = some e ∧ ¬e.round < (winD e.desc e.record).stripeOf e) ∧
    (let e := ent 1 (mkDesc 8 1 [])
     stripeReady e = false ∧ goes (prepare e (convAccs (withEnts [e]).dev.chip e) (partOf (winD e.desc e.record).dest .fp32 0)
       (withEnts [e]).dev.chip) = true) := by decide +kernel

theorem wit_SegmentsStartAndCommit :
    (∀ op ∈ [1, 2], let e := ent 1 (mkDesc 3 op [])
      running (withEnts [e]).dev.chip 1 3 op = some e ∧ e.lead = none ∧ e.round ≠ 2 ∧
      (let f := { e with round := 2 }
       let c := (withEnts [f]).dev.chip
       let b := bindWindow c (batchEntry f (membersOf c f))
       running c 1 3 op = some f ∧ segBad c b (membersOf c f) = false ∧
         goes (prepare b (segAccs c b (membersOf c f)) (segPart (membersOf c f)) c) = true) ∧
      (let f := { e with lead := some 1 }
       running (withEnts [f]).dev.chip 1 3 op = some f ∧ f.lead.isSome = true ∧ f.round = 0)) ∧
    (let e := ent 1 (mkDesc 3 1 [])
     let c := (withEnts [e]).dev.chip
     goes (prepare (bindWindow c e) ((attD e.desc e.record).startAccs c (bindWindow c e)) (fun _ _ => false)
       (attActive (bindWindow c e) true c)) = true) := by decide +kernel

theorem wit_SegmentsStartAndCommit_ids : IdsDistinct (withEnts [ent 1 (mkDesc 3 1 [])]).dev.chip :=
  idsDistinct_of _ (by decide +kernel) (by decide +kernel) (by decide +kernel)

theorem wit_CacheOperationsCommitWhole : ∀ op ∈ [3, 4, 5], let e := ent 1 (mkDesc 3 op [])
    running (withEnts [e]).dev.chip 1 3 op = some e := by decide +kernel

/-- Stack 0 is open, with its control area at 64 KiB and local lanes of 64 KiB at 1 MiB. -/
def stacked (s : State) : State :=
  onTheChip (fun c => { c with openStacks := [(0, some ⟨0x10000, .ofNat 1024 (0x100000 * 2 ^ 64 + 0x10000 * 2 ^ 128), []⟩)] }) s

theorem wit_StackOperationsKeepTheirLanes :
    (let e := ent 1 (mkDesc 11 1 [(16, 0x20000)])
     let c := (withEnts [e]).dev.chip
     let d := stackD e.desc
     running c 1 11 1 = some e ∧ d.area + 8192 ≤ hbmTop ∧
     goes (prepare e [.rd (.plain d.area 128) 0 128, .wr (.plain d.area 8192) 128 (8192 - 128)] (fun _ _ => false) (codActive e c)) = true) ∧
    (∀ op ∈ [2, 3, 4, 5], let e := ent 1 (mkDesc 11 op [])
      running (withEnts [e]).dev.chip 1 11 op = some e ∧ fget none (withEnts [e]).dev.chip.openStacks (dSc e.desc) = none ∧
      (fget none (stacked (withEnts [e])).dev.chip.openStacks (dSc e.desc)).isSome = true) ∧
    (let e := ent 1 (mkDesc 11 5 [])
     let c := (stacked (withEnts [e])).dev.chip
     running c 1 11 5 = some e ∧
       goes (prepare e [.wr (.plain 0x10000 8192) 128 (8192 - 128)] (fun _ _ => false) (codActive e c)) = true) ∧
    (let e := { ent 1 (mkDesc 11 4 [(48, 1)]) with tile := 95 }
     let c := (stacked (withEnts [e])).dev.chip
     running c 1 11 4 = some e ∧ e.tile < 96 ∧ (readLane c 0x10000 95).frames < (stackD e.desc).drop ∧
     (stackD (mkDesc 11 4 [])).drop ≤ (readLane c 0x10000 95).frames ∧
     goes (prepare e (laneAccs 0x10000 95 true) (fun _ _ => false) (codActive e c)) = true) := by decide +kernel

theorem wit_StackOperationsKeepTheirLanes_frames :
    (let e := { ent 1 (mkDesc 11 2 (refAt 16 0x2000 4096 1 ++ [(56, 4096)])) with tile := 1 }
     let c := (stacked (withEnts [e])).dev.chip
     let o : OpenStack := ⟨0x10000, .ofNat 1024 (0x100000 * 2 ^ 64 + 0x10000 * 2 ^ 128), []⟩
     running c 1 11 2 = some e ∧ e.round ≠ 1 ∧ (regionD o.region).place (readLane c o.area e.tile) (rawFrame (stackD e.desc).count) = some 0 ∧
     (regionD o.region).place (readLane c o.area e.tile) 0x10001 = none ∧
     goes (prepare e (pushAccs c e o 0 0x110000) (fun _ _ => false) (codActive e c)) = true ∧
     (let f := { e with round := 1 }
      running (stacked (withEnts [f])).dev.chip 1 11 2 = some f ∧ f.acks = [] ∧ uioWritesOpen (stacked (withEnts [f])).dev.chip f = false)) ∧
    (let e := { ent 1 (mkDesc 11 3 (refAt 16 0x2000 4 1 ++ [(56, 4)])) with tile := 1 }
     let s := stacked (withEnts [e])
     let c0 := s.dev.chip
     -- One frame of 4 KiB, in BF16, of 4 bytes of source, at the bottom of tile 1's local lane.
     let c := writeBytes (dirAddr 0x10000 1 0) [0, 0, 0, 0, 1] (writeBytes (laneAddr 0x10000 1 + 24) [1]
       (writeBytes 0x110000 [0x20, 0, 1, 0, 0, 0, 0, 0, 0, 0, 0, 0, 0, 0, 0, 0, 4] c0))
     let dir := readDir c 0x10000 1 0
     running c 1 11 3 = some e ∧ (readLane c0 0x10000 1).frames = 0 ∧ (readLane c 0x10000 1).frames = 1 ∧
     dir.layer = (stackD e.desc).layer ∧ dir.part = (stackD e.desc).part ∧ dir.tier = 0 ∧ dir.offset = 0 ∧ dir.length = 1 ∧
     readNat c (0x110000 + 2) 1 = (stackD e.desc).ref.format ∧ readNat c (0x110000 + 16) 8 = (stackD e.desc).count ∧
     goes (prepare e (laneAccs 0x10000 1 false) (fun _ _ => false) (codActive e c)) = true ∧
     goes (prepare e [.rd (.plain 0x110000 4096) 0 4096] (fun _ _ => false) c) = true ∧
     checkBlock e (.rd ⟨0x110000, 4096, 0, 0, 1, 0⟩ 0 4096) 0 c ≠ .wait c) := by decide +kernel

theorem wit_CodecWritesFramesAndSources :
    (let e := ent 1 (mkDesc 5 1 (refAt 16 0x1000 4 1 ++ refAt 48 0x2000 8192 1 ++ [(80, 4)]))
     let c := (withEnts [e]).dev.chip
     running c 1 5 1 = some e ∧ goes (prepare e (encodeAccs e) (fun _ _ => false) (codActive e c)) = true) ∧
    (let e := ent 1 (mkDesc 5 2 (refAt 16 0x2000 8192 1 ++ refAt 48 0x5000 4 1))
     let c0 := (withEnts [e]).dev.chip
     let c := writeBytes 0x2000 [0x20, 0, 1] c0
     running c 1 5 2 = some e ∧ goes (prepare e [.rd (.plain 0x2000 64) 0 64] (fun _ _ => false) (codActive e c)) = true ∧
     peekNat c0 e 0x2000 1 ≠ 0x20 ∧ peekNat c e 0x2000 1 = 0x20 ∧ peekNat c e 0x2002 1 = (codecD e.desc).dest.format ∧
     (codecD e.desc).count = 0) ∧
    ((⟨1, 1, 0, 0, 0, 0, 0, 0, 0⟩ : FrameTag).mode ≤ 1 ∧ ([1, 2] : List Byte).length < 2 ^ 40) := by decide +kernel

theorem wit_MemorySideOperationsWriteTheirBlocks :
    (∀ op ∈ [1, 2], let e := ent 1 (mkDesc 4 op [(16, 0x1000), (24, 5000), (48, 0x3000), (56, 5000), (80, 5000)])
     let c := (withEnts [e]).dev.chip
     let x := moveD e.desc
     running c 1 4 op = some e ∧ e.chunk < x.blocks ∧ moveMissing e = false ∧ x.dstRemote = false ∧ x.srcRemote = false ∧
       x.dst.addr + x.count ≤ hbmTop ∧ goes (prepare e (moveAccs c e) (movePart e) c) = true ∧ scaleMismatch c e x.src = false ∧ e.held = [] ∧
     (let f := { e with chunk := 2 }
      running (withEnts [f]).dev.chip 1 4 op = some f ∧ (moveD f.desc).blocks ≤ f.chunk ∧ f.acks = [] ∧
        uioWritesOpen (withEnts [f]).dev.chip f = false)) ∧
    (let e := ent 1 (mkDesc 4 1 [(16, 0x1000), (24, 1), (48, 0x3000), (56, 1), (80, 1), (88, 3 + 2 ^ 30)])
     running (withEnts [e]).dev.chip 1 4 1 = some e ∧ moveMissing e = true ∧ e.chunk < (moveD e.desc).blocks ∧ e.asked = false ∧
     (let f := { e with asked := true }
      running (withEnts [f]).dev.chip 1 4 1 = some f ∧ moveMissing f = true)) ∧
    (∀ op ∈ [0x10, 0x11, 0x12, 0x13, 0x14, 0x15], let e := ent 1 (mkDesc 4 op [])
     running (withEnts [e]).dev.chip 1 4 op = some e) ∧
    (let e := ent 1 (mkDesc 4 0x15 (refAt 16 0x1000 8 0 ++ refAt 48 0x2000 8 11 ++ refAt 80 0x3000 8 0 ++ [(112, 2), (116, 1)]))
     goes (prepare e (scatterIdx e) (fun _ _ => false) (withEnts [e]).dev.chip) = true) := by decide +kernel

/-! ### Witnesses: updates, clearances and the Assay -/

theorem wit_UpdatesWriteTheInactiveGeneration :
    ∀ op ∈ [1, 2, 3], let e := ent 1 (mkDesc 9 op [])
      running (withEnts [e]).dev.chip 1 9 op = some e ∧ (parD e.record).copies.any (fun g => scaleMismatch (withEnts [e]).dev.chip e g.ref) = false := by
  decide +kernel

/-- A group record: this module is member 1 of 4; one plane, a window of 4, epoch 9. -/
def groupRecord (epoch : Nat) : BitVec 512 := .ofNat 512
  ([(1, 1), (2, 2), (3, 4), (4, 7), (8, 4), (12, 1), (16, 4), (20, 1), (22, epoch), (24, 4096), (28, 1), (30, 1)].foldl
    (fun n x => n + x.2 * 2 ^ (8 * x.1)) 0)

/-- Group queue 0 is bound. -/
def grouped (s : State) : State :=
  onTheChip (fun c => { c with clr := { c.clr with
    gqs := [(0, { Gq.reset with bound := true, record := groupRecord 9, members := [3, 5, 8, 9], epoch := 9, nextSeq := 1 })] } }) s

/-- A collective in flight of entry 1. -/
def inColl (code : Nat) (ph : CPhase) (ts : List Tranche) (e : Entry) (s : State) : State :=
  onTheChip (fun c => { c with clr := { c.clr with colls := [⟨some e, 0, code, 1, 9, 0, [], ph, false, true, false, ts⟩] } }) s

theorem wit_ClearancesPassOrRejectTheStep :
    let e := ent 1 (mkDesc 9 4 [])
    let c := (withEnts [e]).dev.chip
    running c 1 9 4 = some e ∧ collOf c 1 = none ∧ myTurn c e 0 = true ∧ (c.gq 0).bound = false ∧
    (let s := boundRun (grouped (withEnts [e]))
     collOf s.dev.chip 1 = none ∧ myTurn s.dev.chip e 0 = true ∧ (s.dev.chip.gq 0).bound = true ∧ s.dev.chip.run.recAddr ≠ none ∧
     s.dev.chip.clr.early = [] ∧ goes (prepare e (lossAccs s.dev.chip e) (fun _ _ => false) s.dev.chip) = true) ∧
    (let b := ent 0 (mkDesc 9 4 [])
     myTurn (withEnts [b, e]).dev.chip e 0 = false ∧ running (withEnts [b, e]).dev.chip 1 9 4 = some e) ∧
    (∀ ph ∈ [CPhase.head, .verdict, .mismatch, .abandoned],
      (collOf (inColl 0x20 ph [] e (withEnts [e])).dev.chip 1).map (·.phase) = some ph) ∧
    (let x (r : W32) := (onTheChip (fun c => { c with clr := { c.clr with kept := [⟨0, r, [], true, r, [], false, 0⟩] } }) (boundRun live)).dev.chip
     (keptFor (x 0) 0).map (·.result) = some 0 ∧ (keptFor (x 4) 0).map (·.result) = some 4 ∧ (x 4).run.recAddr = some 0x8000 ∧
       (x 4).poison = [] ∧ 0x8000 % 16 = 0 ∧ 0x8000 + 256 ≤ hbmTop) := by decide +kernel

theorem wit_ChecksLandInTheirSlots :
    let e := ent 1 (mkDesc 1 1 [(100, 5)])
    let tid := (arrD e.desc).dest.tid
    let s := onTheChip (fun c => { c with asy := { c.asy with
      due := [⟨1, 15, tid, [0x3F800000], [0x3F800000]⟩], slots := [(4095, { Slot.reset with tensor := .ofNat 32 tid, histEn := true, thrBin := 15 }), (7, { Slot.reset with tensor := 9 })] } }) live
    (s.dev.chip.asy.due.find? fun x => decide (x.op = 1) && decide (x.block = 15)).isSome = true ∧ (s.dev.chip.asy.slots.map (·.1)).Nodup ∧
    s.dev.chip.asy.due.all (fun x => !(decide (x.op = 1) && decide (x.block = 14))) = true ∧ tid ≠ 9 := by decide +kernel

/-! ### Witnesses: collectives -/

/-- A started Collective operation of group queue 0, in epoch 9. -/
def collEnt (id op : Nat) (l : List (Nat × Nat)) : Entry := ent id (mkDesc 6 op ((14, 9) :: l))

/-- Module 1's port 0 is Active and its plane offers 8 slots of 64 KiB. -/
def onPlane (s : State) : State :=
  onTheChip (fun c => { c.setPort 0 { c.port 0 with state := 3 } with clr := { c.clr with planeSlot := [(0, 0x80040)] } }) s

theorem wit_CollectivesTakeTheirTurn :
    (∀ op ∈ [1, 2, 3, 4, 5], let e := collEnt 1 op []
      let s := grouped (withEnts [e])
      let c := s.dev.chip
      running c 1 6 op = some e ∧ collOf c 1 = none ∧ myTurn c e 0 = true ∧ (c.gq 0).bound = true ∧ byt e.desc 14 2 = (c.gq 0).epoch.toNat ∧
      c.clr.early = [] ∧ (grpOf (c.gq 0).record).me ≠ 0 ∧
      ((withEnts [e]).dev.chip.gq 0).bound = false ∧ byt (mkDesc 6 op []) 14 2 ≠ 9 ∧
      (let b := collEnt 0 op []
       myTurn (grouped (withEnts [b, e])).dev.chip e 0 = false)) ∧
    (let c := (onPlane live).dev.chip
     c.clr.switchEn = true ∧ qualifies c 4096 0 = true) ∧
    (∀ op ∈ [3, 4, 5], let e := collEnt 1 op []
      let s := inColl op .moving [] e (grouped (withEnts [e]))
      (collOf s.dev.chip 1).map (fun k => (k.phase, k.sent, k.lost)) = some (.moving, true, false) ∧
      goes (prepare e (receiveAccs (collD e.desc) (grpOf (groupRecord 9))) (receivePart (collD e.desc) (grpOf (groupRecord 9))) s.dev.chip) = true ∧
      partsFit (collD e.desc) (grpOf (groupRecord 9)) (if op = 4 then [[]] else [[], [], [], []]) = true ∧
      partsFit (collD e.desc) (grpOf (groupRecord 9)) [] = false) ∧
    -- A block of each member under policy Full: its own seals agree, and others do not.
    (let x := collD (mkDesc 6 3 (refAt 16 0x1000 16384 1 ++ [(34, 1)]))
     badSeal x [[1, 2]] [partSeals x.src.tid [1, 2]] = none ∧ badSeal x [[1, 2]] [partSeals x.src.tid [1, 3]] ≠ none) := by decide +kernel

theorem wit_PairsAndGroupsAgree :
    (∀ op ∈ [6, 7], let e := collEnt 1 op []
      let c := (grouped (withEnts [e])).dev.chip
      let f := { e with round := 1 }
      running c 1 6 op = some e ∧ e.round = 0 ∧ myTurn c e 0 = true ∧ (c.gq 0).bound = true ∧ byt e.desc 14 2 = (c.gq 0).epoch.toNat ∧
      e.cancel = false ∧ myTurn (grouped (withEnts [collEnt 0 op [], e])).dev.chip e 0 = false ∧
      running (grouped (withEnts [f])).dev.chip 1 6 op = some f ∧ ownPair (grouped (withEnts [f])).dev.chip f ≠ 0 ∧
      goes (prepare f (partAccs (collD f.desc).src 0 0 0 false) (fun _ _ => false) (grouped (withEnts [f])).dev.chip) = true ∧
      (partRanges .fp32 0 0 0).foldl (fun s r => s + r.2) 0 = 0) ∧
    (let e := { collEnt 1 6 [] with round := 2 }
     running (grouped (withEnts [e])).dev.chip 1 6 6 = some e) ∧
    (let e := { collEnt 1 6 (refAt 16 windowBase 32 3 ++ [(36, 5)]) with round := 1 }
     let s := boundRun (grouped (withEnts [e]))
     running s.dev.chip 1 6 6 = some e ∧ scaleMismatch s.dev.chip e (collD e.desc).src = true) ∧
    (let e := { collEnt 1 11 [] with round := 2 }
     running (withEnts [e]).dev.chip 1 6 11 = some e ∧ (withEnts [e]).dev.chip.clr.early = []) ∧
    (let e := { collEnt 1 8 [] with record := (groupRecord 10).setWidth 2048 }
     let c := (withEnts [e]).dev.chip
     running c 1 6 8 = some e ∧ collOf c 1 = none ∧ myTurn c e 0 = true ∧ (c.gq 0).bound = false ∧ c.clr.early = [] ∧
     (grpOf e.record).me ≠ 0 ∧ (let s := grouped (withEnts [e]); myTurn s.dev.chip e 0 = true ∧ (s.dev.chip.gq 0).bound = true)) ∧
    (∀ cancel ∈ [true, false], let e := { collEnt 1 9 [] with cancel := cancel }
     let c := (grouped (withEnts [e])).dev.chip
     running c 1 6 9 = some e ∧ myTurn c e 0 = true ∧ byt e.desc 14 2 = (c.gq 0).epoch.toNat ∧ e.cancel = cancel) ∧
    (∀ x ∈ [(10, true), (9, false)], let e := { collEnt 1 10 [] with record := (groupRecord x.1).setWidth 2048 }
     let c := (grouped (withEnts [e])).dev.chip
     running c 1 6 10 = some e ∧ collOf c 1 = none ∧ myTurn c e 0 = true ∧ c.clr.early = [] ∧
       decide ((grpOf e.record).epoch = ((c.gq 0).epoch.toNat + 1) % 65536) = x.2) ∧
    (let e := collEnt 1 11 []
     running (withEnts [e]).dev.chip 1 6 11 = some e ∧ e.round = 0 ∧
     (let f := { e with round := 1 }
      running (withEnts [f]).dev.chip 1 6 11 = some f)) := by decide +kernel

/-- A tranche of one lane block whose leader is member 0. -/
def tranche (ph : TPhase) : Tranche := ⟨5, false, 0, 1, 0, 0, 0, 0, ph, false, 0, [], [], []⟩
/-- An ALL_REDUCE in flight whose one tranche stands in a phase. -/
def reducing (kp : CPhase) (t : Tranche) : State :=
  let e := collEnt 1 1 (refAt 16 0x1000 1024 0 ++ refAt 48 0x2000 1024 0 ++ [(84, 256)])
  inColl 1 kp [t] e (grouped (withEnts [e]))
def msgTo (ph : Nat) (data : List Byte) : CollMsg := ⟨0, ph, false, 0, 7, 9, 0, 5, 4, 1040, data⟩

theorem wit_TranchesClaimAndContribute :
    (let c := (reducing .tranches (tranche .waiting)).dev.chip
     let e := collEnt 1 1 (refAt 16 0x1000 1024 0 ++ refAt 48 0x2000 1024 0 ++ [(84, 256)])
     namedT c 1 5 ≠ none ∧ namedT c 1 6 = none ∧ c.clr.early = [] ∧ openTranches c 0 < (c.grp 0).window ∧ stagingUsed c 0 = 0 ∧
     (tranche .waiting).leader ≠ (c.grp 0).me ∧ scaleMismatch c e (collD e.desc).src = false ∧
     (match namedT c 1 5 with
      | some (k, t) => decide (t.phase = .waiting) && decide (k.phase = .tranches) && decide (largest (redOf c k) t ≤ 2 ^ 24)
      | none => false) = true) ∧
    (let c := (onPlane (reducing .tranches (tranche .backoff))).dev.chip
     (tranche .backoff).plane < 16 ∧ (c.grp 0).sw = true ∧ c.clr.switchEn = true ∧ qualifies c (c.grp 0).tb 0 = true) ∧
    (∀ ph ∈ [TPhase.waiting, .claimed, .backoff],
      (findT (reducing .tranches (tranche ph)).dev.chip (msgTo 0 [])).map (·.2.phase) = some ph) ∧
    (let c := (reducing .tranches { tranche .claimed with leader := 1, retries := 2 }).dev.chip
     (c.grp 0).retry ≤ 2 ∧ 1 < (c.grp 0).m ∧ (c.grp 0).me = 1) ∧
    (let e := ent 1 (mkDesc 9 4 [])
     let s := onPlane (inColl 0x20 .head [{ tranche .backoff with plane := 16 }] e (grouped (withEnts [e])))
     s.dev.chip.clr.colls.map (fun k => (k.name, k.code, k.phase)) = [(1, 0x20, .head)] ∧
       (s.dev.chip.grp 0).planes = [0] ∧ qualifies s.dev.chip (s.dev.chip.grp 0).tb 0 = true ∧
       live.dev.chip.clr.colls.all (fun y => !(decide (y.name = 1) && decide (y.code = 0x20))) = true) := by decide +kernel

theorem wit_ResultsLandAndFencesRaiseTheEpoch :
    (let x := { msgTo 0 [] with tranche := 2 ^ 24 - 1 }
     findT (grouped live).dev.chip x = none ∧ stale (grouped live).dev.chip x = true) ∧
    (∀ ph ∈ [TPhase.exponent, .values], let c := (reducing .tranches { tranche ph with ring := ph == .values }).dev.chip
      (findT c (msgTo ph.code [])).map (fun x => (x.2.phase, x.1.code, x.1.lost, x.2.head)) = some (ph, 1, false, false) ∧
      0 + 1 < (c.grp 0).m) ∧
    (let c := (reducing .tranches (tranche .values)).dev.chip
     let e := collEnt 1 1 (refAt 16 0x1000 1024 0 ++ refAt 48 0x2000 1024 0 ++ [(84, 256)])
     let ref := (collD e.desc).target []
     entryOf c 1 = some e ∧ ref.fmt = some .fp32 ∧
     goes (prepare e (wrAccs ref .fp32 256 [0, 255]) (partOf ref .fp32 256) c) = true) ∧
    (let x : CollMsg := { msgTo 0 [] with epoch := 10 }
     let c := (grouped live).dev.chip
     (List.range 64).find? (fun q => (c.gq q).bound && decide ((c.grp q).id = x.group.toNat)) = some 0 ∧
     epochAfter x.epoch (c.gq 0).epoch.toNat = true ∧ epochAfter 9 (c.gq 0).epoch.toNat = false ∧ (c.grp 0).me ≠ 0) := by decide +kernel

/-! ### Witnesses: the fabric -/

/-- Window 15 lets ranks 0 to 9 read and write the first MiB. -/
def windowed : State := onTheChip (fun c => { c with fab := { c.fab with wins := [(15, ⟨0, 0x100000, 9, 0, true, true⟩)] } }) live

theorem wit_RemoteAccessesAreAnswered :
    let c := windowed.dev.chip
    notReady live.dev.mgt = false ∧ notReady (stageAt 3).dev.mgt = true ∧ live.dev.mgt.rankValid = true ∧ live.dev.mgt.rank = 5 ∧
    (∀ w ∈ [true, false], windowLets c 9 0xFFFF0 16 w = true ∧ accessible c 0xFFFF0 16 w = true ∧ windowLets c 10 0xFFFF0 16 w = false) ∧
    inWindow 0xFFFF0 = false ∧ isOuter 0xFFFF0 = false ∧ trackedIn c 0xFFFF0 16 = [] ∧
    (let s := onTheChip (fun c => { c with cxl := { c.cxl with filter := [0xFFFC0] } }) windowed
     trackedIn s.dev.chip 0xFFFF0 16 ≠ []) ∧
    (let s := onTheChip (fun c => { c with poison := [(0xFFFF, true)] }) windowed
     poisonedAt s.dev.chip 0xFFFF0 = true ∧ firstPoison s.dev.chip 0xFFFF0 16 ≠ none) ∧
    firstPoison c 0xFFFF0 16 = none := by decide +kernel

theorem wit_RemoteFlagsAndRanks :
    let s := onTheChip (fun c => { c with vsp := { c.vsp with base64 := 2, count64 := 1 }, fab := { c.fab with flagSeen := [(9, [1])] } }) (onPlane live)
    let c := s.dev.chip
    notReady s.dev.mgt = false ∧ notReady (stageAt 3).dev.mgt = true ∧ s.dev.mgt.rankValid = true ∧
    (128 % 64 = 0 ∧ 64 * c.vsp.base64.toNat ≤ 128 ∧ 128 + 64 ≤ 64 * c.vsp.base64.toNat + 64 * c.vsp.count64.toNat) ∧
    ¬192 + 64 ≤ 64 * c.vsp.base64.toNat + 64 * c.vsp.count64.toNat ∧ 1 ∈ fget [] c.fab.flagSeen 9 ∧ 2 ∉ fget [] c.fab.flagSeen 9 ∧
    (c.port 0).state = 3 ∧ (c.port 15).state ≠ 3 ∧ s.dev.mgt.powered = true ∧ c.cxl.ideHaltIo = false ∧
    (∀ g ∈ c.clr.gqs, g.2.bound = false) ∧ (∃ g ∈ (grouped live).dev.chip.clr.gqs, g.2.bound = true) := by decide +kernel

/-- Entry 1 has a request of a type outstanding under tag 77. -/
def asking (cls : Nat) (t : PktType) (nr : Bool) : State :=
  onPlane (onTheChip (fun c => { c with fab := { c.fab with remotes := [⟨77, 1, t, 9, 0x1000, 16, [], 0, nr⟩] } }) (withEnts [ent 1 (mkDesc cls 1 [])]))

theorem wit_AnswersReachTheirOperations :
    (∀ x ∈ [(4, PktType.write), (4, .read), (7, .flag)], ∀ nr ∈ [true, false], let s := asking x.1 x.2 nr
      (remoteOf s.dev.chip 77).map (fun r => (r.type, r.notReady, r.entry, r.port)) = some (x.2, nr, 1, 0) ∧
      remoteOf s.dev.chip 78 = none ∧ (entryOf s.dev.chip 1).map (·.phase) = some .started ∧ (s.dev.chip.port 0).state = 3) := by
  decide +kernel

def portIs (st : BitVec 4) (used : Bool) : State :=
  onTheChip (fun c => c.setPort 15 { c.port 15 with state := st, spareUsed := used }) live

theorem wit_PortsChangeTheirState :
    (∀ st ∈ [(0 : BitVec 4), 1, 2, 3, 4], ((portIs st false).dev.chip.port 15).state = st) ∧
    ((portIs 3 true).dev.chip.port 15).spareUsed = true ∧ spareReady ((portIs 3 false).dev.chip.port 15) = true ∧
    live.dev.chip.fab.swapEn = true ∧
    (∀ passed ∈ [(0x1FF : BitVec 9), 0xFF, 0x1FE, 0xFC], (List.range 9).filter (fun l => !passed.getLsbD l) =
      if passed = 0x1FF then [] else if passed = 0xFF then [8] else if passed = 0x1FE then [0] else [0, 1, 8]) ∧
    (let x := (portIs 3 false).dev.chip.port 15
     (x.rxSeq + 1).toNat = 0 ∧ x.retired = 0 ∧ x.rate = false) ∧
    (∀ l < 9, live.dev.chip.til.almanac.laneBad.getLsbD (9 * 15 + l) = false) := by decide +kernel

theorem wit_PortsChangeTheirState_isLive : Live (portIs 3 false) := by constructor <;> decide +kernel

/-! ### Witnesses: HBM, tiles, Daybook and registers -/

theorem wit_ScrubAndMergesKeepTheStore :
    (let c := live.dev.chip
     live.dev.mgt.ready = true ∧ live.dev.mgt.failed = false ∧ c.hbm.scrubHours ≠ 0 ∧ 0x47FFFFFF < 0x48000000 ∧ 15 < 16 ∧
     (∀ w < 16, fget false c.poison (16 * 0x47FFFFFF + w) = false) ∧ c.hbm.ceThreshold = 16 ∧ c.hbm.trained = 0 ∧ c.upsets = [] ∧
     c.hbm.scrubbed = [] ∧ (∀ b ∈ [136, 143], b / 8 = 17) ∧ 0 / 8 ≠ 143 / 8 ∧ (16 * 0x47FFFFFF + 15) / 16 = 0x47FFFFFF) ∧
    (let s := onTheChip (fun c => { c with hbm := { c.hbm with scrubbed := [(0, 0x48000000)] }, poison := [(16 * 0x47FFFFFF + 15, true)] }) live
     (∃ r ∈ s.dev.chip.hbm.scrubbed, r.1 ≤ 0x47FFFFFF ∧ 0x47FFFFFF < r.2) ∧ fget false s.dev.chip.poison (16 * 0x47FFFFFF + 15) = true) ∧
    (let s := onTheChip (fun c => { c with hbm := { c.hbm with trained := 0xFF, temps := [(7, 95 * 16 + 1)], scrubPos := 0x47FFFFFF } }) live
     s.dev.chip.hbm.trained.getLsbD 7 = true ∧ 95 * 16 < fget 0 s.dev.chip.hbm.temps 7 ∧ 0x48000000 ≤ s.dev.chip.hbm.scrubPos + 1) ∧
    (let r : TRef := ⟨0x10000, 8192, 0, 0, 1, 4⟩
     let c := live.dev.chip
     r.sealed r.addr = true ∧ accessible c r.addr r.ext true = true ∧ isOuter r.addr = false ∧ blocksOf 4096 4 = [1] ∧
     trackedIn c 0x11000 4096 = [] ∧
     (let p := (checkWrite ownerEntry (.wr r 4096 4) c).andThen (checkMerge ownerEntry [.wr r 4096 4] (.wr r 4096 4) 1)
      goes p = false ∧ p ≠ .wait c)) := by decide +kernel

theorem wit_RowsAndSweeps :
    (let s := onTheChip (fun c => { c with hbm := { c.hbm with candidates := [(255, 9)] } }) live
     let c := s.dev.chip
     s.dev.mgt.ready = true ∧ c.hbm.autoRepair = true ∧ ((255#8).toNat, 9) ∈ c.hbm.candidates ∧ repairBusy c = false ∧
     fget [] c.hbm.redirects 255 = [] ∧ c.hbm.repairCtrl.getLsbD 0 = false ∧ c.hbm.sweeping = false ∧ c.hbm.repairRow = none) ∧
    (let s := onTheChip (fun c => { c with hbm := { c.hbm with sweeping := true, repairRow := some (255, 9, true), redirects := [(255, [1, 2, 3, 4, 5, 6, 7, 8])] } }) live
     s.dev.chip.hbm.sweeping = true ∧ (fget [] s.dev.chip.hbm.redirects 255).length = 8 ∧ s.dev.chip.hbm.repairRow.isSome = true) ∧
    (let s := onTheChip (fun c => { c with hbm := { c.hbm with repairRow := some (255, 9, false), repairAsk := some (0, true) } }) live
     s.dev.chip.hbm.repairRow = some ((255#8).toNat, 9, false) ∧ s.dev.chip.hbm.repairAsk = some (0, true) ∧
     s.dev.chip.hbm.sweeping = false) ∧
    (let v : W64 := 1
     v.getLsbD 0 = true ∧ bitsOf v.toNat 8 40 * 256 < hbmTop) ∧
    (let s := onTheDev (fun d => { d with mgt := { d.mgt with computeReset := true } }) live
     let v : W32 := 0x80000401
     s.dev.mgt.computeReset = true ∧ s.dev.chip.hbm.repairRow = none ∧ bitsOf v.toNat 8 4 ≤ 4 ∧ bitsOf v.toNat 0 8 ≠ 0 ∧ v.getLsbD 31 = true) := by
  decide +kernel

def tileHas (p : Nat) (f : Tile → Tile) (s : State) : State := onTheChip (fun c => c.setTile p (f (c.tile p))) s

theorem wit_FaultedTilesLeaveService :
    live.dev.mgt.ready = true ∧ live.dev.mgt.failed = false ∧ faulted live.dev.chip 111 = false ∧
    (∀ role ∈ [(0 : BitVec 4), 1, 2, 3], ∀ seen ∈ [true, false],
      let s := tileHas 111 (fun x => { x with role := role, ueSeen := seen, logical := 95 }) live
      (s.dev.chip.tile 111).role = role ∧ (s.dev.chip.tile 111).ueSeen = seen ∧ faulted s.dev.chip 111 = false) ∧
    tilesOfBand 13 ≠ [] ∧ (0x413FF < 0x41400 ∧ 0x3FFFF < 0x40000) := by decide +kernel

theorem wit_NumbersMoveToSparesAndPartners :
    (let s := onTheChip (fun c => { c with til := { c.til with pending0 := [0, 3] } }) (tileHas 0 (fun x => { x with role := 0, logical := 0, second := 127 }) live)
     let c := s.dev.chip
     c.til.pending0 = 0 :: [3] ∧ (c.tile 0).role = 0 ∧ (c.tile 0).logical.toNat = 0 ∧ (c.tile 0).second = 127 ∧ spareFor c 0 = none ∧
     saveEn c = false ∧ c.til.pending1 = [] ∧
     (∃ q ∈ quadTiles 0, spareFor (tileHas q (fun x => { x with role := 1 }) s).dev.chip 0 = some q)) ∧
    (let e := { ent 1 0 with tile := 95, phase := .armed }
     let s := tileHas 111 (fun x => { x with role := 3, logical := 94, second := 95, running := 94 }) (withEnts [e])
     let c := s.dev.chip
     (c.ory.entries.map (·.id)).Nodup ∧ (c.tile 111).role = 3 ∧ faulted c 111 = false ∧ (c.tile 111).running.toNat = 94 ∧
     saveAt c + 0x18000000 ≤ hbmTop ∧ (placedOn c 95).any (readyOff c) = true ∧ ((placedOn c 94).all fun e => e.phase != .started) = true) ∧
    (let s := onTheChip (fun c => { c with til := { c.til with unbacked := [95] } }) (tileHas 111 (fun x => { x with role := 0 }) live)
     s.dev.chip.til.unbacked = [95] ∧ (partnerFor s.dev.chip 95 (95 % 12)).isSome = true ∧
     bitsOf (1 : W64).toNat 22 26 * 2 ^ 22 + 0x18000000 ≤ hbmTop) := by decide +kernel

theorem wit_DaybookRecordsAndReads :
    let r : Rec := ⟨7, false, 0, false, 3, []⟩
    let busy (k : Dbk) : Dbk :=
      { k with mode := 1, queue := [r], tokens := 1, nextSlot := 511, head := 511, firstSeq := 1, erases := [⟨true, 511, false⟩], readBusy := true, consSector := 383 }
    let s := onTheChip (fun c => { c with dbk := busy c.dbk }) live
    let k := s.dev.chip.dbk
    s.dev.mgt.powered = true ∧ s.dev.str.keysHeld = true ∧ dbkRuns s.dev.chip = true ∧ dbkRuns live.dev.chip = false ∧ k.flushed = false ∧
    k.consol = none ∧ k.queue = r :: [] ∧ 0 < k.tokens ∧ 0 < k.nextSlot ∧ k.nextSlot < 512 ∧ k.head < 512 ∧ r.type ≠ 1 ∧
    k.erases = ⟨true, 511, false⟩ :: [] ∧ s.dev.chip.cxl.ideHaltIo = false ∧ k.mode ≠ 2 ∧ k.queue.length < 192 ∧
    128 ≤ (k.head + 512 - k.consSector) % 512 ∧ k.readBusy = true ∧ stoppedHub.dev.mgt.powered = false ∧ live.dev.chip.dbk.readBusy = false ∧ header? live.dev.chip false 511 = none := by
  decide +kernel

theorem wit_RegistersActByTheirAccessType :
    live.dev.mgt.powered = true ∧ live.dev.chip.cxl.ideHaltIo = false ∧ live.dev.mgt.ready = true ∧ 0xA00038 % 8 = 0 ∧
    (∀ p ∈ [0, 111], (0x1018028 + 0x20000 * p) % 8 = 0) ∧ earlyBlock 0x600028 = false ∧ (stageAt 3).dev.mgt.ready = false ∧
    (500 ≤ bitsOf (500 * 256) 8 11) ∧ ¬bitsOf (2001 * 256) 8 11 ≤ 2000 ∧
    (∀ q ∈ live.dev.chip.ory.wqs, q.2.isOpen = false) ∧ (∃ q ∈ (opened id live).dev.chip.ory.wqs, q.2.isOpen = true) := by decide +kernel

/-- A GROUP barrier of four members in its first round, before and behind its release. -/
theorem wit_BarriersWaitForTheirRounds_group : ∀ r ∈ [0, 1],
    let e := { ent 1 (mkDesc 10 2 [(18, 64)]) with round := r }
    let c := (grouped (withEnts [e])).dev.chip
    running c 1 10 2 = some e ∧ e.round / 2 < clog2 (c.grp 0).m ∧ e.round % 2 = r ∧ fenceDone c e = true ∧ flagSet c 64 = false ∧
      c.vsp.watches = [] ∧ flagSet (after (.flagSetWrite 1 1) live).dev.chip 64 = true := by decide +kernel

/-- An offer of 2.0 and 2.1 opens queue 0 at 2.1; an open queue reports 5, and one without an offer of ours 2. -/
theorem wit_OpenNegotiatesOrReports :
    (let w := { live.dev.chip.wq 0 with cfg := 0x0404, cplBase := 0x10000, base := 0x20000, resumeBase := 0x30000, offer := 0x30000 }
     openResult live.dev.chip w = 1 ∧ pickVersion w.offer = some (2, 1) ∧ openResult live.dev.chip { w with offer := 0x8 } = 2 ∧
     openResult live.dev.chip { w with isOpen := true } = 5 ∧ openResult live.dev.chip { w with cfg := 0x0403 } = 3) ∧
    live.dev.mgt.ready = true ∧ live.dev.chip.cxl.ideHaltIo = false := by decide +kernel

end Sys2Proof.Machine.Tests
end

section
/-! SUPPORT. What an answer on the fabric and an update of the flags leave as they were, and what a flag reads as after an update. -/

namespace Sys2Proof.Machine

/-! ### Event status -/

/-- A status word with bit `i` put reads that bit as set. -/
theorem getLsbD_ofNat_or_two_pow {w i : Nat} (x : Nat) (h : i < w) : (BitVec.ofNat w (x ||| 2 ^ i)).getLsbD i = true := by
  simp only [BitVec.getLsbD_ofNat, Nat.testBit_or, Nat.testBit_two_pow_self, h, decide_true, Bool.or_true, Bool.and_true]

/-! ### Sending: what it leaves as it was -/

@[simp] theorem sendPacket_vsp (m : Mgt) (q : Nat) (t : PktType) (p : Packet) (c : Chip) : (sendPacket m q t p c).vsp = c.vsp :=
  sendPacket_same (·.vsp) (fun i c => raise_fab_vsp c i) (fun o c => emit_vsp c o) (fun _ _ _ => rfl) m q t p c

@[simp] theorem sendPacket_ory (m : Mgt) (q : Nat) (t : PktType) (p : Packet) (c : Chip) : (sendPacket m q t p c).ory = c.ory :=
  sendPacket_same (·.ory) (fun i c => raise_fab_ory c i) (fun o c => emit_ory c o) (fun _ _ _ => rfl) m q t p c

@[simp] theorem sendPacket_clr (m : Mgt) (q : Nat) (t : PktType) (p : Packet) (c : Chip) : (sendPacket m q t p c).clr = c.clr :=
  sendPacket_same (·.clr) (fun i c => raise_fab_clr c i) (fun o c => emit_clr c o) (fun _ _ _ => rfl) m q t p c

@[simp] theorem sendPacket_flagSeen (m : Mgt) (q : Nat) (t : PktType) (p : Packet) (c : Chip) :
    (sendPacket m q t p c).fab.flagSeen = c.fab.flagSeen :=
  sendPacket_same (·.fab.flagSeen) (fun i c => by simp) (fun o c => by simp) (fun _ _ _ => rfl) m q t p c

theorem sameStore_sendPacket (m : Mgt) (q : Nat) (t : PktType) (p : Packet) (c : Chip) : SameStore c (sendPacket m q t p c) :=
  ⟨sendPacket_same (·.mem) (fun i c => raise_mem c .fab i) (fun o c => emit_mem c o) (fun _ _ _ => rfl) m q t p c,
   sendPacket_same (·.poison) (fun i c => raise_poison c .fab i) (fun o c => emit_poison c o) (fun _ _ _ => rfl) m q t p c,
   sendPacket_same (·.seals) (fun i c => raise_seals c .fab i) (fun o c => emit_seals c o) (fun _ _ _ => rfl) m q t p c⟩

theorem SameStore.trans {a b c : Chip} (h : SameStore a b) (h' : SameStore b c) : SameStore a c :=
  ⟨h'.1.trans h.1, h'.2.1.trans h.2.1, h'.2.2.trans h.2.2⟩

theorem sameStore_raise (b : Blk) (i : Nat) (c : Chip) : SameStore c (raise b i c) :=
  ⟨raise_mem c b i, raise_poison c b i, raise_seals c b i⟩

theorem sameStore_requestVector (v : Nat) (c : Chip) : SameStore c (requestVector v c) :=
  ⟨requestVector_mem c v, requestVector_poison c v, requestVector_seals c v⟩

/-! ### Sending: the other ports, and what has been handed to them -/

/-- Sending on one port leaves every other port as it was. -/
theorem port_sendPacket_of_ne (m : Mgt) {q r : Nat} (t : PktType) (p : Packet) (c : Chip) (h : q ≠ r) :
    (sendPacket m q t p c).port r = c.port r := by
  have hr : ∀ (b : Bool) (c : Chip), (raiseIf b .fab 4 c).port r = c.port r := fun b c => by
    unfold raiseIf Chip.port; split <;> simp
  have he : ∀ (o : Out) (c : Chip), (emit o c).port r = c.port r := fun o c => by simp [Chip.port]
  unfold sendPacket transmit
  simp only
  split
  · rw [hr, he, port_setPort, if_neg h]
  · rw [port_setPort, if_neg h]

theorem mem_out_sendPacket (m : Mgt) (q : Nat) (t : PktType) (p : Packet) {c : Chip} {o : Out} (h : o ∈ c.out) :
    o ∈ (sendPacket m q t p c).out := by
  unfold sendPacket transmit
  simp only
  split
  · exact mem_out_raiseIf _ _ _ (mem_out_emit h)
  · exact h

/-- What has been handed to one port stays so when another port sends. -/
theorem handed_sendPacket_of_ne (m : Mgt) {q r : Nat} (t : PktType) (p : Packet) {t' : PktType} {p' : Packet} {c : Chip}
    (h : q ≠ r) (hh : Handed r t' p' c) : Handed r t' p' (sendPacket m q t p c) := by
  rcases hh with ⟨seq, hs⟩ | hw
  · exact Or.inl ⟨seq, mem_out_sendPacket m q t p hs⟩
  · exact Or.inr (by rw [port_sendPacket_of_ne m t p c h]; exact hw)

/-! ### Flag updates: the fabric is as it was (R423, R430 to R435) -/

@[simp] theorem freeSlot_fab (o : Option Nat) (c : Chip) : (freeSlot o c).fab = c.fab := by cases o <;> rfl

@[simp] theorem sendSnoops_fab (l : List Nat) (c : Chip) : (sendSnoops l c).fab = c.fab :=
  sendSnoops_same (·.fab) (fun o c => emit_fab c o) (fun _ _ => rfl) l c

@[simp] theorem recordUe_fab (a : Nat) (c : Chip) : (recordUe a c).fab = c.fab :=
  recordUe_same (·.fab) (fun i c => raise_hbm_fab c i) (fun _ _ => rfl) a c

@[simp] theorem writeBytes_fab (l : List Byte) (a : Nat) (c : Chip) : (writeBytes a l c).fab = c.fab :=
  writeBytes_same (·.fab) (fun a v c => writeByte_fab c a v) l a c

theorem mboxWrite_fab {b : Mbox} {msg : List Byte} {c c' : Chip} (h : mboxWrite b msg c = some c') : c'.fab = c.fab := by
  unfold mboxWrite at h
  simp only at h
  split at h
  · split at h
    · split at h
      · cases h; simp
      · cases h
    · cases h
  · split at h
    · cases h; simp
    · cases h

@[simp] theorem pumpOne_fab (i : Nat) (c : Chip) : (pumpOne i c).fab = c.fab := by
  unfold pumpOne
  simp only
  split
  · rfl
  · generalize (if (c.mbox i).host = true then [] else _) = held
    split
    · exact raise_vsp_fab c 3
    · split
      · exact sendSnoops_fab held c
      · split
        · rw [raise_vsp_fab, Chip.setMbox_fab]
          split <;> simp
        · next c' hw =>
          split <;> simp [mboxWrite_fab hw]

@[simp] theorem pumpMbox_fab (i n : Nat) (c : Chip) : (pumpMbox i n c).fab = c.fab := by
  induction n generalizing c with
  | zero => rfl
  | succ n ih =>
    unfold pumpMbox
    simp only
    split
    · rw [ih, pumpOne_fab]
    · exact pumpOne_fab i c

@[simp] theorem postMsg_fab (i : Nat) (x : MboxMsg) (c : Chip) : (postMsg i x c).fab = c.fab := by
  unfold postMsg
  simp only
  split <;> simp

@[simp] theorem fireWatch_fab (slot : Nat) (w : Watch) (c : Chip) : (fireWatch slot w c).fab = c.fab := by
  unfold fireWatch
  simp only
  generalize hc : (if w.clearOnFire = true then _ else _) = c1
  have hfab : c1.fab = c.fab := by rw [← hc]; split <;> simp
  cases w.who with
  | entry id =>
    simp only
    split <;> simp [hfab]
  | mbox i tag =>
    simp only
    split <;> simp [hfab]

@[simp] theorem settle_fab (base : Nat) (c : Chip) : (settle base c).fab = c.fab := by
  refine foldl_same (·.fab) _ (fun c x => ?_) _ c
  simp only
  split
  · split
    · exact fireWatch_fab _ _ _
    · rfl
  · rfl

@[simp] theorem setFlags_fab (base : Nat) (mask : W64) (rank : Option Nat) (c : Chip) :
    (setFlags base mask rank c).fab = c.fab := by
  unfold setFlags; simp

@[simp] theorem clearFlags_fab (base : Nat) (mask : W64) (c : Chip) : (clearFlags base mask c).fab = c.fab := by
  unfold clearFlags; simp

/-! ### Flag updates: the flags (R418, R419) -/

theorem getLsbD_windowGet (x : BitVec 65536) (base i : Nat) :
    (windowGet x base).getLsbD i = (decide (i < 64) && x.getLsbD (base + i)) := by
  simp [windowGet]

/-- A flag of the window replaced reads as put there, and every other as before. -/
theorem getLsbD_windowPut (x : BitVec 65536) {base f : Nat} (v : W64) (hf : f < 65536) :
    (windowPut x base v).getLsbD f = if base ≤ f ∧ f < base + 64 then v.getLsbD (f - base) else x.getLsbD f := by
  simp only [windowPut, BitVec.getLsbD_or, BitVec.getLsbD_and, BitVec.getLsbD_not, BitVec.getLsbD_shiftLeft,
    BitVec.getLsbD_setWidth, BitVec.getLsbD_allOnes]
  by_cases hlo : base ≤ f
  · by_cases hhi : f < base + 64
    · simp [hf, hlo, hhi, show ¬f < base by omega, show f - base < 64 by omega, show f - base < 65536 by omega]
    · have hb : v.getLsbD (f - base) = false := BitVec.getLsbD_of_ge _ _ (by omega)
      simp [hf, hhi, hb, show ¬f - base < 64 by omega]
  · simp [hf, hlo, show f < base by omega]

/-- Without a watch, an update settles at once. -/
theorem settle_of_no_watch (base : Nat) {c : Chip} (h : c.vsp.watches = []) : settle base c = c := by simp [settle, h]

theorem raiseIf_vsp_watches (c : Chip) (q : Bool) (i : Nat) : (raiseIf q .vsp i c).vsp.watches = c.vsp.watches := by
  unfold raiseIf; split <;> simp

theorem raiseIf_vsp_flags (c : Chip) (q : Bool) (i : Nat) : (raiseIf q .vsp i c).vsp.flags = c.vsp.flags := by
  unfold raiseIf; split <;> simp

theorem flagSet_congr {c c' : Chip} (h : c'.vsp = c.vsp) (f : Nat) : flagSet c' f = flagSet c f := by rw [flagSet, h, flagSet]

/-- Whether flag `f` lies in the window from `base` and is masked there. -/
def masked (base : Nat) (mask : W64) (f : Nat) : Bool := decide (base ≤ f) && decide (f < base + 64) && mask.getLsbD (f - base)

/-- A window put back with each of its flags combined with the mask's, by an `op` that an unmasked flag stays as it is under:
the flags combine with what is masked, in the window and beside it. -/
theorem getLsbD_windowPut_masked (op : Bool → Bool → Bool) (hop : ∀ a, op a false = a) (x : BitVec 65536) (base : Nat)
    (mask v : W64) (hv : ∀ i < 64, v.getLsbD i = op (x.getLsbD (base + i)) (mask.getLsbD i)) {f : Nat} (hf : f < 65536) :
    (windowPut x base v).getLsbD f = op (x.getLsbD f) (masked base mask f) := by
  rw [getLsbD_windowPut _ _ hf, masked]
  by_cases h : base ≤ f ∧ f < base + 64
  · rw [if_pos h, hv _ (by omega), Nat.add_sub_cancel' h.1]
    simp [h]
  · rw [if_neg h]
    rcases not_and_or.mp h with h | h <;> simp [h, hop]

/-- Without a watch, setting a window's masked flags sets these and no other. -/
theorem flagSet_setFlags (base : Nat) (mask : W64) (rank : Option Nat) {c : Chip} {f : Nat} (hw : c.vsp.watches = [])
    (hf : f < 65536) : flagSet (setFlags base mask rank c) f = (flagSet c f || masked base mask f) := by
  unfold setFlags flagSet
  simp only
  rw [settle_of_no_watch _ (by simp [raiseIf_vsp_watches, hw])]
  simp only [raiseIf_vsp_flags]
  refine getLsbD_windowPut_masked or Bool.or_false _ _ _ _ (fun i hi => ?_) hf
  rw [BitVec.getLsbD_or, getLsbD_windowGet]
  simp [hi]

/-- Without a watch, clearing a window's masked flags clears these and no other. -/
theorem flagSet_clearFlags (base : Nat) (mask : W64) {c : Chip} {f : Nat} (hw : c.vsp.watches = []) (hf : f < 65536) :
    flagSet (clearFlags base mask c) f = (flagSet c f && !masked base mask f) := by
  rw [clearFlags, settle_of_no_watch _ (by simp only [hw])]
  refine getLsbD_windowPut_masked (fun a b => a && !b) Bool.and_true _ _ _ _ (fun i hi => ?_) hf
  rw [BitVec.getLsbD_and, BitVec.getLsbD_not, getLsbD_windowGet]
  simp [hi]

end Sys2Proof.Machine
end

section
/-! SUPPORT. A remote flag update case by case (R420, R438, R460, R464). -/

namespace Sys2Proof.Machine

/-- The number that a remote flag update carries (R453). -/
def flagSeqOf (p : Packet) : Nat := ofBytes (p.body.take 4)
/-- The first flag of its window. -/
def flagBaseOf (p : Packet) : Nat := ofBytes ((p.body.drop 4).take 2)
/-- Its act: 1 sets, 2 clears. -/
def flagActOf (p : Packet) : Nat := ofBytes ((p.body.drop 6).take 1)
/-- Its mask over the window's 64 flags. -/
def flagMaskOf (p : Packet) : W64 := .ofNat 64 (ofBytes ((p.body.drop 8).take 8))

/-- Whether a remote flag update lies whole in VSP_REMOTE_WIN and is one that R420 lets through. -/
def InRemoteWin (c : Chip) (p : Packet) : Prop :=
  flagBaseOf p % 64 = 0 ∧ (flagActOf p = 1 ∨ flagActOf p = 2) ∧ 64 * c.vsp.base64.toNat ≤ flagBaseOf p ∧
    flagBaseOf p + 64 ≤ 64 * c.vsp.base64.toNat + 64 * c.vsp.count64.toNat

/-- The module's own test by which it refuses an update. -/
def refusesFlag (c : Chip) (p : Packet) : Bool :=
  flagBaseOf p % 64 ≠ 0 || (flagActOf p ≠ 1 && flagActOf p ≠ 2) || flagBaseOf p < 64 * c.vsp.base64.toNat ||
    64 * c.vsp.base64.toNat + 64 * c.vsp.count64.toNat < flagBaseOf p + 64

theorem refusesFlag_iff {c : Chip} {p : Packet} : refusesFlag c p = true ↔ ¬InRemoteWin c p := by
  simp only [refusesFlag, InRemoteWin, Bool.or_eq_true, Bool.and_eq_true, decide_eq_true_eq]
  omega

/-- The chip that has noted a number of a source among its last 1,024 (R464). -/
def noteFlag (src seq : Nat) (c : Chip) : Chip :=
  let seen := fget [] c.fab.flagSeen src
  { c with fab := { c.fab with flagSeen := fset [] c.fab.flagSeen src ((seen ++ [seq]).drop (seen.length + 1 - 1024)) } }

/-- The update that a packet asks for. -/
def applyFlag (p : Packet) (c : Chip) : Chip :=
  if flagActOf p = 1 then setFlags (flagBaseOf p) (flagMaskOf p) (some p.src.toNat) c
  else clearFlags (flagBaseOf p) (flagMaskOf p) c

section cases

variable {m : Mgt} {p : Packet} {c : Chip}

theorem onFlag_of_notReady (hn : notReady m = true) : onFlag m p c = answer m .ack p (ackBody 1 (flagSeqOf p)) c := by
  simp [onFlag, hn, flagSeqOf]

/-- An update addressed to a ready module: refused outside VSP_REMOTE_WIN, acknowledged again where its number has been seen,
and else noted, applied and acknowledged. -/
theorem onFlag_of_ready (hn : notReady m = false) (hv : m.rankValid = true) (hd : p.dest = m.rank) :
    onFlag m p c =
      if refusesFlag c p then answer m .ack p (ackBody 2 (flagSeqOf p)) (raise .vsp 1 c)
      else if (fget [] c.fab.flagSeen p.src.toNat).contains (flagSeqOf p) then answer m .ack p (ackBody 0 (flagSeqOf p)) c
      else answer m .ack p (ackBody 0 (flagSeqOf p)) (applyFlag p (noteFlag p.src.toNat (flagSeqOf p) c)) := by
  unfold onFlag
  simp only
  rw [if_neg (by simp [hn]), if_neg (by simp [hv, hd])]
  rfl

theorem onFlag_outside (hn : notReady m = false) (hv : m.rankValid = true) (hd : p.dest = m.rank) (ho : ¬InRemoteWin c p) :
    onFlag m p c = answer m .ack p (ackBody 2 (flagSeqOf p)) (raise .vsp 1 c) := by
  rw [onFlag_of_ready hn hv hd, if_pos (refusesFlag_iff.mpr ho)]

theorem onFlag_again (hn : notReady m = false) (hv : m.rankValid = true) (hd : p.dest = m.rank) (hi : InRemoteWin c p)
    (hs : flagSeqOf p ∈ fget [] c.fab.flagSeen p.src.toNat) : onFlag m p c = answer m .ack p (ackBody 0 (flagSeqOf p)) c := by
  rw [onFlag_of_ready hn hv hd, if_neg fun h => refusesFlag_iff.mp h hi, if_pos (List.contains_iff_mem.mpr hs)]

theorem onFlag_first (hn : notReady m = false) (hv : m.rankValid = true) (hd : p.dest = m.rank) (hi : InRemoteWin c p)
    (hs : flagSeqOf p ∉ fget [] c.fab.flagSeen p.src.toNat) :
    onFlag m p c = answer m .ack p (ackBody 0 (flagSeqOf p)) (applyFlag p (noteFlag p.src.toNat (flagSeqOf p) c)) := by
  rw [onFlag_of_ready hn hv hd, if_neg fun h => refusesFlag_iff.mp h hi, if_neg fun h => hs (List.contains_iff_mem.mp h)]

end cases

@[simp] theorem noteFlag_vsp (src seq : Nat) (c : Chip) : (noteFlag src seq c).vsp = c.vsp := by
  simp only [noteFlag]

/-- A number just noted is among those of its source. -/
theorem mem_flagSeen_noteFlag (src seq : Nat) (c : Chip) : seq ∈ fget [] (noteFlag src seq c).fab.flagSeen src := by
  rw [noteFlag, fget_fset_self, List.drop_append_of_le_length (by omega)]
  simp

@[simp] theorem applyFlag_fab (p : Packet) (c : Chip) : (applyFlag p c).fab = c.fab := by
  unfold applyFlag; split <;> simp

/-- Without a watch, an update sets or clears the masked flags of its window, as its act says. -/
theorem flagSet_applyFlag (p : Packet) (c : Chip) {f : Nat} (hw : c.vsp.watches = []) (hf : f < 65536) :
    flagSet (applyFlag p c) f =
      if flagActOf p = 1 then flagSet c f || masked (flagBaseOf p) (flagMaskOf p) f
      else flagSet c f && !masked (flagBaseOf p) (flagMaskOf p) f := by
  unfold applyFlag
  split
  · exact flagSet_setFlags _ _ _ hw hf
  · exact flagSet_clearFlags _ _ hw hf

/-- The mask of a packet read as the number that its eight bytes spell. -/
theorem masked_flagMask (p : Packet) (f : Nat) : masked (flagBaseOf p) (flagMaskOf p) f =
    (decide (flagBaseOf p ≤ f) && decide (f < flagBaseOf p + 64) &&
      (ofBytes ((p.body.drop 8).take 8)).testBit (f - flagBaseOf p)) := by
  by_cases h : flagBaseOf p ≤ f ∧ f < flagBaseOf p + 64
  · rw [masked, flagMaskOf, BitVec.getLsbD_ofNat]
    simp [h, show f - flagBaseOf p < 64 by omega]
  · rcases not_and_or.mp h with h | h <;> simp [masked, h]

/-! ### What each case gives -/

/-- Outside VSP_REMOTE_WIN nothing changes but the event and the acknowledgement (R420). -/
theorem refused_effect (m : Mgt) (p : Packet) (body : List Byte) (c : Chip) :
    let c' := answer m .ack p body (raise .vsp 1 c)
    c'.vsp.evt.getLsbD 1 = true ∧ c'.vsp = { c.vsp with evt := c'.vsp.evt } ∧ c'.fab.flagSeen = c.fab.flagSeen ∧ SameStore c c' := by
  intro c'
  have hv : c'.vsp = { c.vsp with evt := .ofNat 7 (c.vsp.evt.toNat ||| 2 ^ 1) } := by simp [c', answer]
  refine ⟨?_, ?_, ?_, (sameStore_raise _ _ _).trans (sameStore_sendPacket _ _ _ _ _)⟩
  · rw [hv]; exact getLsbD_ofNat_or_two_pow _ (by decide)
  · rw [hv]
  · simp [c', answer]

end Sys2Proof.Machine
end

section
/-! SUPPORT. An advertisement of a plane (R459), and MGT_RANK with the identities that it tells (R414, R467, R525). -/

namespace Sys2Proof.Machine

theorem ofBytes_lt (l : List Byte) : ofBytes l < 256 ^ l.length := by
  induction l with
  | nil => simp [ofBytes]
  | cons b r ih =>
    have hb := b.isLt
    simp only [ofBytes, List.length_cons, Nat.pow_succ]
    omega

/-- A field of `n` bytes is below 256^n. -/
theorem ofBytes_take_lt (l : List Byte) (n : Nat) : ofBytes (l.take n) < 256 ^ n :=
  (ofBytes_lt _).trans_le (Nat.pow_le_pow_right (by omega) (List.length_take_le n l))

theorem shiftLeft_or_eq_add (a b : Nat) (h : b < 65536) : a <<< 16 ||| b = b + 65536 * a := by
  rw [← Nat.shiftLeft_add_eq_or_of_lt (i := 16) h, Nat.shiftLeft_eq]
  omega

theorem port_congr {c c' : Chip} (h : c'.fab = c.fab) (q : Nat) : c'.port q = c.port q := by simp [Chip.port, h]

/-- Which ports are Active is the fabric's alone. -/
theorem activePorts_congr {c c' : Chip} (h : c'.fab = c.fab) : activePorts c' = activePorts c := by
  simp only [activePorts, port_congr h]

theorem nodup_activePorts (c : Chip) : (activePorts c).Nodup := List.nodup_range.filter _

/-- What a port tells of the module depends on that port's registers alone. -/
theorem identBody_congr (m : Mgt) {c c' : Chip} {q : Nat} (h : c'.port q = c.port q) : identBody m c' q = identBody m c q := by
  simp [identBody, h]

/-- The chip after each of these ports has told the module's identity in turn. -/
def tellIdentity (m : Mgt) (qs : List Nat) (c : Chip) : Chip := qs.foldl (fun c q => sendIdent m q c) c

theorem tellIdentity_same {γ : Type} (g : Chip → γ) (m : Mgt) (hg : ∀ q t p c, g (sendPacket m q t p c) = g c) (qs : List Nat)
    (c : Chip) : g (tellIdentity m qs c) = g c := foldl_same g _ (fun _ _ => hg _ _ _ _) qs c

theorem sameStore_tellIdentity (m : Mgt) (qs : List Nat) (c : Chip) : SameStore c (tellIdentity m qs c) :=
  foldl_keeps (SameStore c) _ (fun _ _ h => h.trans (sameStore_sendPacket _ _ _ _ _)) qs c ⟨rfl, rfl, rfl⟩

theorem handed_tellIdentity_of_not_mem (m : Mgt) {r : Nat} {t : PktType} {p : Packet} (qs : List Nat) {c : Chip} (hr : r ∉ qs)
    (h : Handed r t p c) : Handed r t p (tellIdentity m qs c) := by
  induction qs generalizing c with
  | nil => exact h
  | cons q qs ih =>
    exact ih (List.not_mem_of_not_mem_cons hr) (handed_sendPacket_of_ne m _ _ (List.ne_of_not_mem_cons hr).symm h)

/-- Each port of the list is handed the identity as its registers stood before: the ports before it do not touch them. -/
theorem handed_tellIdentity (m : Mgt) {r : Nat} (qs : List Nat) (c : Chip) (hn : qs.Nodup) (hr : r ∈ qs) :
    Handed r .identReply (packetTo m r 0 0 (identBody m c r)) (tellIdentity m qs c) := by
  induction qs generalizing c with
  | nil => cases hr
  | cons q qs ih =>
    obtain ⟨hq, hqs⟩ := List.nodup_cons.mp hn
    rcases List.mem_cons.mp hr with rfl | hr
    · exact handed_tellIdentity_of_not_mem m qs hq (handed_sendPacket m _ _ _ c)
    · have hne : q ≠ r := fun h => hq (h ▸ hr)
      rw [← identBody_congr m (port_sendPacket_of_ne m .identReply (packetTo m q 0 0 (identBody m c q)) c hne)]
      exact ih (sendIdent m q c) hqs hr

/-- An event of management sets its bit and requests at most a vector. -/
theorem raiseD_mgt (i : Nat) (d : Dev) : ∃ c', raiseD .mgt i d =
    { d with mgt := { d.mgt with evt := .ofNat 3 (d.mgt.evt.toNat ||| 2 ^ i) }, chip := c' } ∧
      c'.fab = d.chip.fab ∧ c'.clr = d.chip.clr ∧ SameStore d.chip c' := by
  unfold raiseD
  simp only
  split
  · exact ⟨requestVector 0 d.chip, rfl, by simp, by simp, sameStore_requestVector _ _⟩
  · exact ⟨d.chip, rfl, rfl, rfl, rfl, rfl, rfl⟩

/-- MGT_RANK takes a value: the registers, the event where they change, and then the identity on every Active port. -/
theorem setRank_eq (valid : Bool) (rank : BitVec 20) (d : Dev) : ∃ m' c',
    setRank valid rank d = { d with mgt := m', chip := tellIdentity m' (activePorts d.chip) c' } ∧
      m'.rankValid = valid ∧ m'.rank = rank ∧
      ((d.mgt.rankValid ≠ valid ∨ d.mgt.rank ≠ rank) → m'.evt.getLsbD 2 = true) ∧
      c'.fab = d.chip.fab ∧ c'.clr = d.chip.clr ∧ SameStore d.chip c' := by
  unfold setRank
  simp only
  split
  · next h =>
    obtain ⟨c', he, hf, hc, hs⟩ := raiseD_mgt 2 { d with mgt := { d.mgt with rankValid := valid, rank := rank } }
    rw [he]
    refine ⟨{ d.mgt with rankValid := valid, rank := rank, evt := .ofNat 3 (d.mgt.evt.toNat ||| 2 ^ 2) }, c', ?_, rfl, rfl,
      fun _ => getLsbD_ofNat_or_two_pow _ (by decide), hf, hc, hs⟩
    rw [← activePorts_congr hf]
    rfl
  · next h =>
    refine ⟨_, d.chip, rfl, rfl, rfl, fun hne => absurd ?_ h, rfl, rfl, rfl, rfl, rfl⟩
    simpa using hne

/-- MGT_RANK_WRITE where the bus reaches it. -/
theorem exec_mgtRankWrite {s : State} (v : W32) (hp : s.dev.mgt.powered = true) (hh : s.dev.chip.cxl.ideHaltIo = false) :
    exec (.mgtRankWrite v) s = onDev (rankWrite v) s := by
  show onDev _ s = _
  simp [onDev, hp, hh]

theorem rankWrite_of_bound (v : W32) {d : Dev} (h : ∃ g ∈ d.chip.clr.gqs, g.2.bound = true) : rankWrite v d = d := by
  rw [rankWrite, if_pos (List.any_eq_true.mpr h)]

theorem rankWrite_of_unbound (v : W32) {d : Dev} (h : ∀ g ∈ d.chip.clr.gqs, g.2.bound = false) :
    rankWrite v d = setRank (v.getLsbD 31) (v.setWidth 20) d := by
  rw [rankWrite, if_neg]
  simpa using h

end Sys2Proof.Machine
end

section
/-! PROOFS. Remote flag updates, identities and ranks. -/

open Sys2Proof Sys2Proof.Machine

namespace Sys2Proof.Machine

/-- FLAG (R420, R464): a refusal changes nothing but its event, a number seen before nothing at all, and a new one is noted and
its update applied; each is acknowledged on the port it came by. -/
theorem flag_effects (s : State) (p : Packet) (hn : notReady s.dev.mgt = false) (hv : s.dev.mgt.rankValid = true)
    (hd : p.dest = s.dev.mgt.rank) :
    let c := s.dev.chip
    let reply (body : List Byte) (c' : Chip) : Prop :=
      Handed p.port.toNat .ack ⟨p.port, p.src, s.dev.mgt.rank, p.tag, false, body⟩ c'
    (¬InRemoteWin c p → ChipEffect (.flag p) s fun c' => reply (ackBody 2 (flagSeqOf p)) c' ∧ c'.vsp.evt.getLsbD 1 = true ∧
      c'.vsp = { c.vsp with evt := c'.vsp.evt } ∧ c'.fab.flagSeen = c.fab.flagSeen ∧ SameStore c c') ∧
    (InRemoteWin c p → flagSeqOf p ∈ fget [] c.fab.flagSeen p.src.toNat → ChipEffect (.flag p) s fun c' =>
      reply (ackBody 0 (flagSeqOf p)) c' ∧ c'.vsp = c.vsp ∧ SameStore c c') ∧
    (InRemoteWin c p → flagSeqOf p ∉ fget [] c.fab.flagSeen p.src.toNat → ChipEffect (.flag p) s fun c' =>
      reply (ackBody 0 (flagSeqOf p)) c' ∧ flagSeqOf p ∈ fget [] c'.fab.flagSeen p.src.toNat ∧
      (c.vsp.watches = [] → ∀ f < 65536, flagSet c' f =
        if flagActOf p = 1 then flagSet c f || masked (flagBaseOf p) (flagMaskOf p) f
        else flagSet c f && !masked (flagBaseOf p) (flagMaskOf p) f)) := by
  intro c reply
  refine ⟨fun ho => ?_, fun hi hs => ?_, fun hi hs => ?_⟩ <;> refine ChipEffect.of_onChip (fun m c => onFlag m p c) rfl ?_
  · rw [onFlag_outside hn hv hd ho]
    exact ⟨handed_sendPacket _ _ _ _ _, refused_effect _ _ _ _⟩
  · rw [onFlag_again hn hv hd hi hs]
    exact ⟨handed_sendPacket _ _ _ _ _, sendPacket_vsp _ _ _ _ _, sameStore_sendPacket _ _ _ _ _⟩
  · rw [onFlag_first hn hv hd hi hs]
    refine ⟨handed_sendPacket _ _ _ _ _, ?_, fun hw f hf => ?_⟩
    · rw [answer, sendPacket_flagSeen, applyFlag_fab]
      exact mem_flagSeen_noteFlag _ _ _
    · rw [answer, flagSet_congr (sendPacket_vsp _ _ _ _ _), flagSet_applyFlag p _ (by rw [noteFlag_vsp]; exact hw) hf,
        flagSet_congr (noteFlag_vsp _ _ c)]

/-- IDENT_QUERY (R467) on an Active port: the module's identity goes back to the asker, and nothing is written. -/
theorem identQuery_effect (s : State) (p : Packet) (h : (s.dev.chip.port p.port.toNat).state = 3) :
    ChipEffect (.identQuery p) s fun c' =>
      Handed p.port.toNat .identReply
        ⟨p.port, p.src, s.dev.mgt.rank, p.tag, false, identBody s.dev.mgt s.dev.chip p.port.toNat⟩ c' ∧
      SameStore s.dev.chip c' ∧ c'.ory = s.dev.chip.ory ∧ c'.vsp = s.dev.chip.vsp := by
  refine ChipEffect.of_onChip (fun m c => onIdentQuery m p c) rfl ?_
  rw [onIdentQuery, if_pos h]
  exact ⟨handed_sendPacket _ _ _ _ _, sameStore_sendPacket _ _ _ _ _, sendPacket_ory _ _ _ _ _, sendPacket_vsp _ _ _ _ _⟩

/-- A port that is not Active neither tells an identity nor takes an advertisement. -/
theorem idle_of_not_active (s : State) (p : Packet) (h : (s.dev.chip.port p.port.toNat).state ≠ 3) :
    Idle (.identQuery p) s ∧ Idle (.switch p) s :=
  ⟨Idle.of_onChip (fun m c => onIdentQuery m p c) rfl (by rw [onIdentQuery, if_neg h]),
   Idle.of_onChip (fun m c => onSwitch m p c) rfl (by
     simp only [onSwitch, h, decide_false, Bool.false_and, Bool.false_eq_true, if_false])⟩

/-- SWITCH (R459): the advertisement of an Active port's own plane sets its slots. -/
theorem switch_gives (s : State) (p : Packet) (h : (s.dev.chip.port p.port.toNat).state = 3)
    (hcode : ofBytes ((p.body.drop 0).take 1) = 0x20) (hkind : ofBytes ((p.body.drop 1).take 1) = 0)
    (hplane : ofBytes ((p.body.drop 6).take 1) = p.port.toNat) :
    Gives (.switch p) s { s.dev with chip := { s.dev.chip with clr := { s.dev.chip.clr with
      planeSlot := fset 0 s.dev.chip.clr.planeSlot p.port.toNat
        (.ofNat 32 (ofBytes ((p.body.drop 2).take 2) + 65536 * ofBytes ((p.body.drop 4).take 2))) } } } := by
  have hslots := shiftLeft_or_eq_add (ofBytes ((p.body.drop 4).take 2)) _ (ofBytes_take_lt (p.body.drop 2) 2)
  show onChip (fun m c => onSwitch m p c) s = _
  rw [← hslots]
  simp only [onChip, onDev, onSwitch, h, hcode, hkind, hplane, decide_true, Bool.and_self, if_true]

/-- MGT_RANK_WRITE (R414, R525) where no group queue is bound. -/
theorem mgtRankWrite_effect (s : State) (v : W32) (hp : s.dev.mgt.powered = true) (hh : s.dev.chip.cxl.ideHaltIo = false)
    (hb : ∀ g ∈ s.dev.chip.clr.gqs, g.2.bound = false) :
    let c := s.dev.chip
    Effect (.mgtRankWrite v) s fun d =>
      d.mgt.rankValid = v.getLsbD 31 ∧ d.mgt.rank = v.setWidth 20 ∧
      ((s.dev.mgt.rankValid ≠ v.getLsbD 31 ∨ s.dev.mgt.rank ≠ v.setWidth 20) → d.mgt.evt.getLsbD 2 = true) ∧
      (∀ p ∈ activePorts c, Handed p .identReply (packetTo d.mgt p 0 0 (identBody d.mgt c p)) d.chip) ∧
      d.tel = s.dev.tel ∧ d.str = s.dev.str ∧ SameStore c d.chip ∧ d.chip.clr = c.clr := by
  intro c
  refine Effect.of_onDev (rankWrite v) (exec_mgtRankWrite v hp hh) ?_
  obtain ⟨m', c', he, hvalid, hrank, hevt, hfab, hclr, hstore⟩ := setRank_eq (v.getLsbD 31) (v.setWidth 20) s.dev
  rw [rankWrite_of_unbound v hb, he]
  refine ⟨hvalid, hrank, hevt, fun q hq => ?_, rfl, rfl, hstore.trans (sameStore_tellIdentity _ _ _), ?_⟩
  · rw [← identBody_congr m' (port_congr hfab q)]
    exact handed_tellIdentity m' _ c' (nodup_activePorts _) hq
  · exact (tellIdentity_same (·.clr) m' (fun _ _ _ _ => sendPacket_clr _ _ _ _ _) _ _).trans hclr

end Sys2Proof.Machine

/-- Settles O52: each case of a remote flag update, a query, an advertisement and a rank by its own lemma. -/
theorem remoteFlagsAndRanks : Obligations.RemoteFlagsAndRanks := by
  unfold Obligations.RemoteFlagsAndRanks
  refine ⟨fun s p => ⟨fun hn => ?_, fun hn hv hd => ?_, identQuery_effect s p, idle_of_not_active s p, switch_gives s p⟩,
    fun s v hp hh => ⟨fun hb => ?_, mgtRankWrite_effect s v hp hh⟩⟩
  · refine ChipEffect.of_onChip (fun m c => onFlag m p c) rfl ?_
    rw [onFlag_of_notReady hn]
    exact ⟨handed_sendPacket _ _ _ _ _, sendPacket_vsp _ _ _ _ _⟩
  · obtain ⟨houtside, hagain, hfirst⟩ := flag_effects s p hn hv hd
    refine ⟨houtside, hagain, fun hi hs => (hfirst hi hs).mono fun c' ⟨hreply, hseen, hflags⟩ =>
      ⟨hreply, hseen, fun hw f hf => ?_⟩⟩
    rw [hflags hw f hf, masked_flagMask]
    rfl
  · exact Idle.of_onDev (rankWrite v) (exec_mgtRankWrite v hp hh) (rankWrite_of_bound v hb)

end

section
/-! SUPPORT. Host CXL.mem accesses (R493 to R495): what a record of a poisoned word and a correction leave as they were, the
words of a line, and what writing its bytes and clearing its poison give. -/

namespace Sys2Proof.Machine

/-! ### Events, corrections and records of poisoned words -/

/-- A requested vector touches no field of the CXL port but its pending vectors. -/
theorem requestVector_cxl_same {γ : Type} (g : Cxl → γ) (hg : ∀ (x : Cxl) (p : BitVec 256), g { x with vecPend := p } = g x)
    (v : Nat) (c : Chip) : g (requestVector v c).cxl = g c.cxl := by
  unfold requestVector
  split
  · exact hg _ _
  · rw [emit_cxl]

theorem raise_hbm_cxl_same {γ : Type} (g : Cxl → γ) (hg : ∀ (x : Cxl) (p : BitVec 256), g { x with vecPend := p } = g x)
    (i : Nat) (c : Chip) : g (raise .hbm i c).cxl = g c.cxl := by
  unfold raise
  simp only
  split
  · exact requestVector_cxl_same g hg _ _
  · rfl

theorem meet_cxl_same {γ : Type} (g : Cxl → γ) (hg : ∀ (x : Cxl) (p : BitVec 256), g { x with vecPend := p } = g x)
    (a n : Nat) (c : Chip) : g (meet a n c).cxl = g c.cxl :=
  meet_same (fun c => g c.cxl) (raise_hbm_cxl_same g hg) (fun _ _ => rfl) (fun _ _ => rfl) a n c

theorem recordUe_cxl_same {γ : Type} (g : Cxl → γ) (hg : ∀ (x : Cxl) (p : BitVec 256), g { x with vecPend := p } = g x)
    (a : Nat) (c : Chip) : g (recordUe a c).cxl = g c.cxl :=
  recordUe_same (fun c => g c.cxl) (raise_hbm_cxl_same g hg) (fun _ _ => rfl) a c

@[simp] theorem meet_ory (a n : Nat) (c : Chip) : (meet a n c).ory = c.ory :=
  meet_same (·.ory) (fun i c => raise_hbm_ory c i) (fun _ _ => rfl) (fun _ _ => rfl) a n c

theorem sameStore_meet (a n : Nat) (c : Chip) : SameStore c (meet a n c) :=
  ⟨meet_same (·.mem) (fun i c => raise_mem c .hbm i) (fun _ _ => rfl) (fun _ _ => rfl) a n c,
   meet_same (·.poison) (fun i c => raise_poison c .hbm i) (fun _ _ => rfl) (fun _ _ => rfl) a n c,
   meet_same (·.seals) (fun i c => raise_seals c .hbm i) (fun _ _ => rfl) (fun _ _ => rfl) a n c⟩

theorem sameStore_recordUe (a : Nat) (c : Chip) : SameStore c (recordUe a c) :=
  ⟨recordUe_same (·.mem) (fun i c => raise_mem c .hbm i) (fun _ _ => rfl) a c,
   recordUe_same (·.poison) (fun i c => raise_poison c .hbm i) (fun _ _ => rfl) a c,
   recordUe_same (·.seals) (fun i c => raise_seals c .hbm i) (fun _ _ => rfl) a c⟩

theorem sameStore_emit (o : Out) (c : Chip) : SameStore c (emit o c) := ⟨emit_mem c o, emit_poison c o, emit_seals c o⟩

/-- An output that no failed stream blocks is sent. -/
theorem mem_out_emit_self {o : Out} {c : Chip} (h : o.blocked c = false) : o ∈ (emit o c).out := by
  simp [emit, h]

theorem addCandidate_ueAddr (k : Nat) (c : Chip) : (addCandidate k c).hbm.ueAddr = c.hbm.ueAddr := by
  unfold addCandidate; simp only; split <;> rfl

theorem addCandidate_out (k : Nat) (c : Chip) : (addCandidate k c).out = c.out := by
  unfold addCandidate; simp only; split <;> rfl

/-- An address recorded in HBM_UE_ADDR reads as valid. -/
theorem getLsbD_ueAddr_valid {k : Nat} (h : k < hbmTop) : (BitVec.ofNat 64 (2 ^ 63 + k / 16 * 16)).getLsbD 63 = true := by
  have hk : k / 16 * 16 < 2 ^ 63 := by unfold hbmTop at h; omega
  rw [BitVec.getLsbD_ofNat, Nat.testBit_two_pow_add_eq, Nat.testBit_lt_two_pow hk]
  rfl

/-- A record of a poisoned word of HBM ends with the event: the address is valid before it, and what was sent stays sent. -/
theorem recordUe_raises {a : Nat} (c : Chip) (h : a < hbmTop) : ∃ c1, recordUe a c = raise .hbm 1 c1 ∧
    c1.hbm.ueAddr.getLsbD 63 = true ∧ ∀ o ∈ c.out, o ∈ c1.out := by
  simp only [recordUe, canon_hbm h, if_neg (Nat.not_le.mpr h)]
  refine ⟨_, rfl, ?_, fun o ho => ?_⟩
  · rw [addCandidate_ueAddr]
    exact getLsbD_ueAddr_valid h
  · rw [addCandidate_out]
    exact mem_out_raiseIf _ _ _ ho

/-- R346: a record of a poisoned word of HBM sets the event and a valid address. -/
theorem recordUe_records {a : Nat} (c : Chip) (h : a < hbmTop) :
    (recordUe a c).hbm.evt.getLsbD 1 = true ∧ (recordUe a c).hbm.ueAddr.getLsbD 63 = true := by
  obtain ⟨c1, he, hv, -⟩ := recordUe_raises c h
  rw [he, raise_hbm_own]
  exact ⟨getLsbD_ofNat_or_two_pow _ (by decide), hv⟩

theorem mem_out_recordUe {a : Nat} {c : Chip} {o : Out} (h : a < hbmTop) (ho : o ∈ c.out) : o ∈ (recordUe a c).out := by
  obtain ⟨c1, he, -, hout⟩ := recordUe_raises c h
  rw [he]
  exact mem_out_raise _ _ (hout o ho)

/-! ### Bytes and words of HBM -/

theorem readByte_hbm {a : Nat} (c : Chip) (h : a < hbmTop) : readByte c a = cellByte c a := by rw [readByte, canon_hbm h]

theorem poisonedAt_hbm {a : Nat} (c : Chip) (h : a < hbmTop) : poisonedAt c a = fget false c.poison (a / 16) := by
  rw [poisonedAt, canon_hbm h]

theorem readByte_congr {c c' : Chip} (h : c'.mem = c.mem) (a : Nat) : readByte c' a = readByte c a := by
  simp only [readByte, cellByte, h]

theorem readBytes_congr {c c' : Chip} (h : c'.mem = c.mem) (a n : Nat) : readBytes c' a n = readBytes c a n := by
  simp only [readBytes, readByte_congr h]

theorem poisonedAt_congr {c c' : Chip} (h : c'.poison = c.poison) (a : Nat) : poisonedAt c' a = poisonedAt c a := by
  simp only [poisonedAt, h]

theorem firstPoison_congr {c c' : Chip} (h : c'.poison = c.poison) (a n : Nat) : firstPoison c' a n = firstPoison c a n := by
  have hp : poisonedAt c' = poisonedAt c := funext (poisonedAt_congr h)
  simp only [firstPoison, hp]

theorem readByte_writeByte {a b : Nat} (c : Chip) (v : Byte) (ha : a < hbmTop) (hb : b < hbmTop) :
    readByte (writeByte a v c) b = if a = b then v else readByte c b := by
  rw [readByte_hbm _ hb, readByte_hbm _ hb, cellByte_writeByte, canon_hbm ha]
  simp only [Option.some.injEq]

theorem poisonedAt_setPoison {a b : Nat} (c : Chip) (v : Bool) (ha : a < hbmTop) (hb : b < hbmTop) :
    poisonedAt (setPoison a v c) b = if a / 16 = b / 16 then v else poisonedAt c b := by
  rw [poisonedAt_hbm _ hb, poisonedAt_hbm _ hb, poison_setPoison, canon_hbm ha]
  simp only [Option.map_some, Option.some.injEq]

/-- A word that a range touches begins before the range's end. -/
theorem lt_of_mem_wordsIn {a n w : Nat} (h : w ∈ wordsIn a n) : w < a + n := by
  unfold wordsIn at h
  split at h
  · cases h
  · simp only [span, List.mem_map, List.mem_range] at h
    obtain ⟨_, ⟨i, hi, rfl⟩, rfl⟩ := h
    omega

theorem firstPoison_lt {c : Chip} {a n w : Nat} (h : firstPoison c a n = some w) : w < a + n :=
  lt_of_mem_wordsIn (List.mem_of_find?_eq_some h)

/-- A line that the host may name lies whole in HBM, aligned. -/
theorem lineOk_iff {line : Nat} : lineOk line = true ↔ line % 64 = 0 ∧ line + 64 ≤ hbmTop := by
  simp only [lineOk, Bool.and_eq_true, decide_eq_true_eq, hbmTop]
  omega

/-! ### A host write: bytes and whole words -/

/-- The enabled ones among these bytes of a line, written in turn. -/
def writeEnabled (line : Nat) (data : BitVec 512) (en : W64) (is : List Nat) (c : Chip) : Chip :=
  is.foldl (fun c i => if en.getLsbD i then writeByte (line + i) (.ofNat 8 (byt data i 1)) c else c) c

/-- The poison of those among these words of a line that the enables cover whole, cleared in turn. -/
def clearCovered (line : Nat) (en : W64) (ks : List Nat) (c : Chip) : Chip :=
  ks.foldl (fun c k => if bitsOf en.toNat (16 * k) 16 = 0xFFFF then setPoison (line + 16 * k) false c else c) c

theorem lineWrite_eq (line : Nat) (data : BitVec 512) (en : W64) (c : Chip) :
    lineWrite line data en c = clearCovered line en (List.range 4) (writeEnabled line data en (List.range 64) c) := rfl

theorem writeEnabled_cons (line : Nat) (data : BitVec 512) (en : W64) (i : Nat) (is : List Nat) (c : Chip) :
    writeEnabled line data en (i :: is) c =
      writeEnabled line data en is (if en.getLsbD i then writeByte (line + i) (.ofNat 8 (byt data i 1)) c else c) := rfl

theorem clearCovered_cons (line : Nat) (en : W64) (k : Nat) (ks : List Nat) (c : Chip) :
    clearCovered line en (k :: ks) c =
      clearCovered line en ks (if bitsOf en.toNat (16 * k) 16 = 0xFFFF then setPoison (line + 16 * k) false c else c) := rfl

theorem writeEnabled_same {γ : Type} (g : Chip → γ) (h : ∀ a v c, g (writeByte a v c) = g c) (line : Nat) (data : BitVec 512)
    (en : W64) (is : List Nat) (c : Chip) : g (writeEnabled line data en is c) = g c := by
  refine foldl_same g _ (fun c i => ?_) is c
  split
  · exact h _ _ _
  · rfl

theorem clearCovered_same {γ : Type} (g : Chip → γ) (h : ∀ a v c, g (setPoison a v c) = g c) (line : Nat) (en : W64)
    (ks : List Nat) (c : Chip) : g (clearCovered line en ks c) = g c := by
  refine foldl_same g _ (fun c k => ?_) ks c
  split
  · exact h _ _ _
  · rfl

/-- What neither a byte nor poison touches, a host write leaves as it was. -/
theorem lineWrite_same {γ : Type} (g : Chip → γ) (hb : ∀ a v c, g (writeByte a v c) = g c) (hp : ∀ a v c, g (setPoison a v c) = g c)
    (line : Nat) (data : BitVec 512) (en : W64) (c : Chip) : g (lineWrite line data en c) = g c :=
  (clearCovered_same g hp line en _ _).trans (writeEnabled_same g hb line data en _ c)

/-- The memory after a host write is what its enabled bytes leave. -/
theorem lineWrite_mem (line : Nat) (data : BitVec 512) (en : W64) (c : Chip) :
    (lineWrite line data en c).mem = (writeEnabled line data en (List.range 64) c).mem :=
  clearCovered_same (·.mem) (fun a v c => setPoison_mem c a v) _ _ _ _

theorem cellByte_writeEnabled {line k : Nat} (data : BitVec 512) (en : W64) (is : List Nat) (c : Chip)
    (h : ∀ i ∈ is, canon (line + i) ≠ some k) : cellByte (writeEnabled line data en is c) k = cellByte c k := by
  induction is generalizing c with
  | nil => rfl
  | cons j is ih =>
    have hj : canon (line + j) ≠ some k := h j List.mem_cons_self
    rw [writeEnabled_cons, ih _ fun i hi => h i (List.mem_cons_of_mem _ hi)]
    split
    · rw [cellByte_writeByte, if_neg hj]
    · rfl

theorem readByte_writeEnabled {line i : Nat} (data : BitVec 512) (en : W64) (is : List Nat) (c : Chip)
    (h : ∀ j ∈ is, line + j < hbmTop) (hi : line + i < hbmTop) :
    readByte (writeEnabled line data en is c) (line + i) =
      if i ∈ is ∧ en.getLsbD i = true then .ofNat 8 (byt data i 1) else readByte c (line + i) := by
  induction is generalizing c with
  | nil => simp [writeEnabled]
  | cons j is ih =>
    have hj : line + j < hbmTop := h j List.mem_cons_self
    rw [writeEnabled_cons, ih _ fun k hk => h k (List.mem_cons_of_mem _ hk)]
    by_cases hji : j = i
    · subst hji
      by_cases he : en.getLsbD j = true <;> simp [he, readByte_writeByte _ _ hj hj]
    · have hne : line + j ≠ line + i := by omega
      by_cases he : en.getLsbD j = true <;> simp [he, Ne.symm hji, readByte_writeByte _ _ hj hi, hji]

theorem poisonedAt_clearCovered {line k : Nat} (en : W64) (ks : List Nat) (c : Chip) (ha : line % 16 = 0)
    (h : ∀ j ∈ ks, line + 16 * j < hbmTop) (hk : line + 16 * k < hbmTop) :
    poisonedAt (clearCovered line en ks c) (line + 16 * k) =
      (poisonedAt c (line + 16 * k) && !(decide (k ∈ ks) && bitsOf en.toNat (16 * k) 16 == 0xFFFF)) := by
  induction ks generalizing c with
  | nil => simp [clearCovered]
  | cons j ks ih =>
    have hj : line + 16 * j < hbmTop := h j List.mem_cons_self
    rw [clearCovered_cons, ih _ fun i hi => h i (List.mem_cons_of_mem _ hi)]
    by_cases hjk : j = k
    · subst hjk
      by_cases he : bitsOf en.toNat (16 * j) 16 = 0xFFFF
      · simp [he, poisonedAt_setPoison _ _ hj hj]
      · simp [he, beq_eq_false_iff_ne.mpr he]
    · have hne : (line + 16 * j) / 16 ≠ (line + 16 * k) / 16 := by omega
      by_cases he : bitsOf en.toNat (16 * j) 16 = 0xFFFF <;> simp [he, Ne.symm hjk, poisonedAt_setPoison _ _ hj hk, hne]

theorem ofNat_byt_one {n : Nat} (d : BitVec n) (i : Nat) : BitVec.ofNat 8 (byt d i 1) = .ofNat 8 (d.toNat / 2 ^ (8 * i)) := by
  apply BitVec.eq_of_toNat_eq
  simp only [byt, bitsOf, Nat.shiftRight_eq_div_pow, BitVec.toNat_ofNat, Nat.mul_one, Nat.mod_mod]

/-- A byte of the line after a host write: the data's where it is enabled, and what was there elsewhere. -/
theorem readByte_lineWrite {line i : Nat} (data : BitVec 512) (en : W64) (c : Chip) (hl : line + 64 ≤ hbmTop) (hi : i < 64) :
    readByte (lineWrite line data en c) (line + i) =
      if en.getLsbD i then .ofNat 8 (data.toNat / 2 ^ (8 * i)) else readByte c (line + i) := by
  have hin : ∀ j ∈ List.range 64, line + j < hbmTop := fun j hj => by have := List.mem_range.mp hj; omega
  rw [readByte_congr (lineWrite_mem line data en c), readByte_writeEnabled data en _ c hin (by omega), ofNat_byt_one]
  simp only [List.mem_range, hi, true_and]

/-- A host write changes no cell beyond its line. -/
theorem sameCells_lineWrite (line : Nat) (data : BitVec 512) (en : W64) (c : Chip) :
    SameCells [(line, 64)] c (lineWrite line data en c) := by
  intro k hk
  have hout : ∀ i ∈ List.range 64, canon (line + i) ≠ some k := fun i hi =>
    hk (line, 64) List.mem_cons_self i (List.mem_range.mp hi)
  rw [cellByte, lineWrite_mem]
  exact cellByte_writeEnabled data en _ c hout

/-- The enables of word `k` as the statements name them. -/
theorem bitsOf_enables (en : W64) (k : Nat) : bitsOf en.toNat (16 * k) 16 = en.toNat / 2 ^ (16 * k) % 65536 :=
  congrArg (· % 65536) (Nat.shiftRight_eq_div_pow en.toNat (16 * k))

/-- A word of the line stays poisoned after a host write unless the write covers it whole. -/
theorem poisonedAt_lineWrite {line k : Nat} (data : BitVec 512) (en : W64) (c : Chip) (ha : line % 64 = 0)
    (hl : line + 64 ≤ hbmTop) (hk : k < 4) :
    poisonedAt (lineWrite line data en c) (line + 16 * k) =
      (poisonedAt c (line + 16 * k) && en.toNat / 2 ^ (16 * k) % 65536 != 0xFFFF) := by
  have hin : ∀ j ∈ List.range 4, line + 16 * j < hbmTop := fun j hj => by have := List.mem_range.mp hj; omega
  have hp := writeEnabled_same (·.poison) (fun a v c => writeByte_poison c a v) line data en (List.range 64) c
  rw [lineWrite_eq, poisonedAt_clearCovered en _ _ (by omega) hin (by omega), poisonedAt_congr hp, bitsOf_enables]
  simp only [List.mem_range, hk, decide_true, Bool.true_and, bne]

end Sys2Proof.Machine
end

section
/-! SUPPORT. HOST_HDM_READ and HOST_HDM_WRITE case by case. -/

namespace Sys2Proof.Machine

/-- The line joins the snoop filter where it is not there yet (R493). -/
def joinFilter (line : Nat) (c : Chip) : Chip :=
  if c.cxl.filter.contains line then c else { c with cxl := { c.cxl with filter := c.cxl.filter ++ [line] } }

theorem mem_filter_joinFilter (line : Nat) (c : Chip) : line ∈ (joinFilter line c).cxl.filter := by
  unfold joinFilter
  split
  · exact List.contains_iff_mem.mp ‹_›
  · simp

theorem sameStore_joinFilter (line : Nat) (c : Chip) : SameStore c (joinFilter line c) := by
  unfold joinFilter
  split <;> exact ⟨rfl, rfl, rfl⟩

theorem joinFilter_ideHalt (line : Nat) (c : Chip) : (joinFilter line c).cxl.ideHalt = c.cxl.ideHalt := by
  unfold joinFilter; split <;> rfl

/-- An open port discards nothing. -/
theorem ideHalt_of_cxlOpen {c : Chip} (h : cxlOpen c = true) : c.cxl.ideHalt = false := by
  simp only [cxlOpen, Bool.and_eq_true, Bool.not_eq_true'] at h
  exact h.2

/-- The line goes out with the mark of its first poisoned word, and that word is recorded (R495). -/
def answerRead (line : Nat) (c : Chip) : Option Nat → Chip
  | some w => recordUe w (emit (.hdmData line (readBytes c line 64) true) c)
  | none => emit (.hdmData line (readBytes c line 64) false) c

/-- A read of a mapped line that has room in the filter: the line joins it, its flipped bits are corrected, and it is
answered by its first poisoned word (R493, R495). -/
theorem hdmRead_of_room {line : Nat} {c : Chip} (ho : cxlOpen c = true) (hm : hdmMaps c line = true)
    (hr : line ∈ c.cxl.filter ∨ c.cxl.filter.length < filterSize) :
    hdmRead line c = answerRead line (meet line 64 (joinFilter line c)) (firstPoison c line 64) := by
  obtain ⟨-, hpoison, -⟩ := (sameStore_joinFilter line c).trans (sameStore_meet line 64 _)
  have hroom : ¬(!c.cxl.filter.contains line && decide (filterSize ≤ c.cxl.filter.length)) = true := by
    rcases hr with hmem | hlen
    · simp [hmem]
    · simp [Nat.not_le.mpr hlen]
  rw [← firstPoison_congr hpoison, hdmRead, if_neg (by simp [ho, hm]), if_neg hroom]
  rfl

/-- Whether a host write covers some bytes of word `k` of its line and not all. -/
def coversPart (en : W64) (k : Nat) : Bool := bitsOf en.toNat (16 * k) 16 != 0 && bitsOf en.toNat (16 * k) 16 != 0xFFFF

theorem coversPart_iff {en : W64} {k : Nat} :
    coversPart en k = true ↔ en.toNat / 2 ^ (16 * k) % 65536 ≠ 0 ∧ en.toNat / 2 ^ (16 * k) % 65536 ≠ 0xFFFF := by
  simp only [coversPart, bitsOf_enables, Bool.and_eq_true, bne_iff_ne]

/-- The words that a host write covers in part are read first: their flipped bits are corrected. -/
def meetParts (line : Nat) (en : W64) (c : Chip) : Chip :=
  (List.range 4).foldl (fun c k => if coversPart en k then meet (line + 16 * k) 16 c else c) c

theorem meetParts_same {γ : Type} (g : Chip → γ) (h : ∀ a n c, g (meet a n c) = g c) (line : Nat) (en : W64) (c : Chip) :
    g (meetParts line en c) = g c := by
  refine foldl_same g _ (fun c k => ?_) _ c
  split
  · exact h _ _ _
  · rfl

theorem sameStore_meetParts (line : Nat) (en : W64) (c : Chip) : SameStore c (meetParts line en c) :=
  ⟨meetParts_same (·.mem) (fun a n c => (sameStore_meet a n c).1) line en c,
   meetParts_same (·.poison) (fun a n c => (sameStore_meet a n c).2.1) line en c,
   meetParts_same (·.seals) (fun a n c => (sameStore_meet a n c).2.2) line en c⟩

/-- The first poisoned word of the line that a host write covers in part. -/
def firstSpoilt (line : Nat) (en : W64) (c : Chip) : Option Nat :=
  (List.range 4).find? fun k => coversPart en k && poisonedAt c (line + 16 * k)

theorem firstSpoilt_eq_none {line : Nat} {en : W64} {c : Chip} :
    firstSpoilt line en c = none ↔ ∀ k < 4, coversPart en k = true → poisonedAt c (line + 16 * k) = false := by
  simp [firstSpoilt]

theorem firstSpoilt_lt {line k : Nat} {en : W64} {c : Chip} (h : firstSpoilt line en c = some k) : k < 4 :=
  List.mem_range.mp (List.mem_of_find?_eq_some h)

theorem firstSpoilt_congr {c c' : Chip} (h : c'.poison = c.poison) (line : Nat) (en : W64) :
    firstSpoilt line en c' = firstSpoilt line en c := by
  simp only [firstSpoilt, poisonedAt_congr h]

/-- A host write that is reported and dropped because of word `k` (R495). -/
def reportSpoilt (line k : Nat) (c : Chip) : Chip :=
  recordUe (line + 16 * k) (emit .rasError { c with cxl := { c.cxl with ras := true } })

theorem sameStore_reportSpoilt (line k : Nat) (c : Chip) : SameStore c (reportSpoilt line k c) :=
  (sameStore_emit .rasError { c with cxl := { c.cxl with ras := true } }).trans (sameStore_recordUe _ _)

/-- A host write by the first poisoned word that it covers in part: reported and dropped, or applied where there is none. -/
def applyOrReport (line : Nat) (data : BitVec 512) (en : W64) (c : Chip) : Option Nat → Chip
  | some k => reportSpoilt line k c
  | none => lineWrite line data en c

/-- A host write of a mapped line: dropped and reported where it covers part of a poisoned word, and applied elsewhere. -/
theorem hdmWrite_of_open {line : Nat} {c : Chip} (data : BitVec 512) (en : W64) (ho : cxlOpen c = true)
    (hm : hdmMaps c line = true) :
    hdmWrite line data en c = applyOrReport line data en (meetParts line en c) (firstSpoilt line en c) := by
  obtain ⟨-, hpoison, -⟩ := sameStore_meetParts line en c
  rw [← firstSpoilt_congr hpoison, hdmWrite, if_neg (by simp [ho, hm])]
  rfl

end Sys2Proof.Machine
end

section
/-! PROOFS. Host CXL.mem accesses. -/

open Sys2Proof Sys2Proof.Machine

namespace Sys2Proof.Machine

/-- HOST_HDM_READ of a mapped line with room in the filter (R493, R495). -/
theorem hdmRead_effect {line : Nat} {c : Chip} (hl : lineOk line = true) (ho : cxlOpen c = true) (hm : hdmMaps c line = true)
    (hr : line ∈ c.cxl.filter ∨ c.cxl.filter.length < filterSize) :
    let c' := hdmRead line c
    Out.hdmData line (readBytes c line 64) (firstPoison c line 64).isSome ∈ c'.out ∧ line ∈ c'.cxl.filter ∧ SameStore c c' ∧
      (firstPoison c line 64 ≠ none → c'.hbm.evt.getLsbD 1 = true ∧ c'.hbm.ueAddr.getLsbD 63 = true) := by
  have hstore := (sameStore_joinFilter line c).trans (sameStore_meet line 64 _)
  have hhalt : (meet line 64 (joinFilter line c)).cxl.ideHalt = false := by
    rw [meet_cxl_same (·.ideHalt) (fun _ _ => rfl), joinFilter_ideHalt, ideHalt_of_cxlOpen ho]
  have hfilter : line ∈ (meet line 64 (joinFilter line c)).cxl.filter := by
    rw [meet_cxl_same (·.filter) (fun _ _ => rfl)]
    exact mem_filter_joinFilter line c
  rw [hdmRead_of_room ho hm hr, ← readBytes_congr hstore.1]
  cases hp : firstPoison c line 64 with
  | none =>
    refine ⟨mem_out_emit_self hhalt, ?_, hstore.trans (sameStore_emit _ _), fun h => absurd rfl h⟩
    rw [answerRead, emit_cxl]
    exact hfilter
  | some w =>
    have hw : w < hbmTop := (firstPoison_lt hp).trans_le (lineOk_iff.mp hl).2
    refine ⟨mem_out_recordUe hw (mem_out_emit_self hhalt), ?_,
      (hstore.trans (sameStore_emit _ _)).trans (sameStore_recordUe _ _), fun _ => recordUe_records _ hw⟩
    rw [answerRead, recordUe_cxl_same (·.filter) (fun _ _ => rfl), emit_cxl]
    exact hfilter

/-- HOST_HDM_WRITE that covers part of no poisoned word (R494, R495). -/
theorem hdmWrite_applied {line : Nat} {c : Chip} (data : BitVec 512) (en : W64) (hl : lineOk line = true)
    (ho : cxlOpen c = true) (hm : hdmMaps c line = true) (hn : firstSpoilt line en c = none) :
    let c' := hdmWrite line data en c
    (∀ i < 64, readByte c' (line + i) = if en.getLsbD i then .ofNat 8 (data.toNat / 2 ^ (8 * i)) else readByte c (line + i)) ∧
      SameCells [(line, 64)] c c' ∧ c'.seals = c.seals ∧ c'.ory = c.ory ∧
      ∀ k < 4, poisonedAt c' (line + 16 * k) = (poisonedAt c (line + 16 * k) && en.toNat / 2 ^ (16 * k) % 65536 != 0xFFFF) := by
  obtain ⟨hmem, hpoison, hseals⟩ := sameStore_meetParts line en c
  obtain ⟨halign, htop⟩ := lineOk_iff.mp hl
  rw [hdmWrite_of_open data en ho hm, hn, applyOrReport]
  refine ⟨fun i hi => ?_, fun k hk => ?_, ?_, ?_, fun k hk => ?_⟩
  · rw [← readByte_congr hmem]
    exact readByte_lineWrite data en _ htop hi
  · refine (sameCells_lineWrite line data en _ k hk).trans ?_
    rw [cellByte, hmem, cellByte]
  · exact (lineWrite_same (·.seals) (fun a v c => writeByte_seals c a v) (fun a v c => setPoison_seals c a v) _ _ _ _).trans hseals
  · exact (lineWrite_same (·.ory) (fun a v c => writeByte_ory c a v) (fun a v c => setPoison_ory c a v) _ _ _ _).trans
      (meetParts_same (·.ory) meet_ory line en c)
  · rw [← poisonedAt_congr hpoison]
    exact poisonedAt_lineWrite data en _ halign htop hk

/-- HOST_HDM_WRITE that covers part of a poisoned word is dropped whole and reported (R495). -/
theorem hdmWrite_dropped {line k : Nat} {c : Chip} (data : BitVec 512) (en : W64) (hl : lineOk line = true)
    (ho : cxlOpen c = true) (hm : hdmMaps c line = true) (hk : firstSpoilt line en c = some k) :
    let c' := hdmWrite line data en c
    SameStore c c' ∧ c'.cxl.ras = true ∧ Out.rasError ∈ c'.out ∧ c'.hbm.evt.getLsbD 1 = true ∧
      c'.hbm.ueAddr.getLsbD 63 = true := by
  have hword : line + 16 * k < hbmTop := by
    have htop := (lineOk_iff.mp hl).2
    have hlt := firstSpoilt_lt hk
    omega
  rw [hdmWrite_of_open data en ho hm, hk]
  refine ⟨(sameStore_meetParts line en c).trans (sameStore_reportSpoilt _ _ _), ?_,
    mem_out_recordUe hword (mem_out_emit_self rfl), recordUe_records _ hword⟩
  rw [applyOrReport, reportSpoilt, recordUe_cxl_same (·.ras) (fun _ _ => rfl), emit_cxl]

end Sys2Proof.Machine

/-- Settles O30: a read with room in the filter, and a write by whether it covers part of a poisoned word. -/
theorem hostAccessesActOnTheirLine : Obligations.HostAccessesActOnTheirLine := by
  unfold Obligations.HostAccessesActOnTheirLine
  intro s line data en hl ho hm c part
  refine ⟨fun hr => ?_, fun hclean => ?_, fun ⟨k, hk, hpart, hpoison⟩ => ?_⟩
  · refine ChipEffect.of_onChip (fun _ c => hdmRead line c) rfl ?_
    obtain ⟨hout, hfilter, ⟨hmem, -, hseals⟩, hrecord⟩ := hdmRead_effect hl ho hm hr
    exact ⟨hout, hfilter, hmem, hseals, hrecord⟩
  · refine ChipEffect.of_onChip (fun _ c => hdmWrite line data en c) rfl ?_
    exact hdmWrite_applied data en hl ho hm (firstSpoilt_eq_none.mpr fun k hk hp => hclean k hk (coversPart_iff.mp hp))
  · refine ChipEffect.of_onChip (fun _ c => hdmWrite line data en c) rfl ?_
    have hspoilt : firstSpoilt line en c ≠ none := fun hn => by
      rw [firstSpoilt_eq_none.mp hn k hk (coversPart_iff.mpr hpart)] at hpoison
      cases hpoison
    obtain ⟨k', hk'⟩ := Option.ne_none_iff_exists'.mp hspoilt
    obtain ⟨⟨hmem, hp, -⟩, hrest⟩ := hdmWrite_dropped data en hl ho hm hk'
    exact ⟨hmem, hp, hrest⟩

end

section
/-! SUPPORT. TEL_CTRL and MFR_POWER_CAP (R629): what a write of cap_w does, and what a read of it answers. -/

open Sys2Proof Sys2Proof.Machine

namespace Sys2Proof.Machine

theorem powered_of_pmbusOn {d : Dev} (h : pmbusOn d = true) : d.mgt.powered = true := by
  rw [pmbusOn, Bool.and_eq_true] at h
  exact h.1

/-- A write of all 64 bits leaves nothing of the old value (R11). -/
theorem merge_full (old w : Nat) (h : w < 2 ^ 64) : merge old w (2 ^ 64 - 1) = w := by
  rw [merge, Nat.and_two_pow_sub_one_of_lt_two_pow h, Nat.sub_self, Nat.and_zero, Nat.zero_or]

/-! ### What is sent -/

theorem emit_out_of_unblocked {o : Out} {c : Chip} (h : o.blocked c = false) : (emit o c).out = c.out ++ [o] := by
  simp [emit, h]

/-! ### The field (R629) -/

theorem capW_setCap_of_fits {n : Nat} (d : Dev) (h : 500 ≤ n ∧ n ≤ 2000) : (setCap n d).tel.capW.toNat = n := by
  rw [setCap, if_pos h]
  exact Nat.mod_eq_of_lt (h.2.trans_lt (by decide))

theorem setCap_of_not_fits {n : Nat} (d : Dev) (h : ¬(500 ≤ n ∧ n ≤ 2000)) : setCap n d = d := by
  rw [setCap, if_neg h]

/-! ### TEL_CTRL -/

/-- A write of TEL_CTRL: retain_idle and off_spares take their bits, and cap_w what R629 allows. -/
theorem writeTel_telCtrl {w : Nat} (d : Dev) (h : w < 2 ^ 64) :
    writeTel 0x00 w (2 ^ 64 - 1) d = setCap (bitsOf w 8 11) { d with
      tel := { d.tel with retainIdle := .ofNat 8 (bitsOf w 24 8), offSpares := w.testBit 0 } } := by
  simp only [writeTel, if_pos, merge_full _ _ h]

/-- Offset 0xA00000 of BAR0 is TEL_CTRL, which a write reaches before Ready too (R507). -/
theorem registerWrite_telCtrl {d : Dev} (v : W64) (hp : d.mgt.powered = true) (hh : d.chip.cxl.ideHaltIo = false) :
    registerWrite .bar0 0xA00000 true v d = writeTel 0x00 v.toNat (2 ^ 64 - 1) d := by
  have hearly : earlyBlock 0xA00000 = true := by decide
  simp [registerWrite, hp, hh, writeBar0, hearly, capWrite]

/-- Bits [18:8] of TEL_CTRL read as cap_w, and the 64 bits of the answer hold them. -/
theorem bitsOf_readBar0_telCtrl (d : Dev) :
    bitsOf (BitVec.ofNat 64 (readBar0 d 0xA00000)).toNat 8 11 = d.tel.capW.toNat := by
  have hearly : earlyBlock 0xA00000 = true := by decide
  have hread : readBar0 d 0xA00000 = d.tel.retainIdle.toNat * 2 ^ 24 + d.tel.capW.toNat * 2 ^ 8 + b2n d.tel.offSpares := by
    simp [readBar0, hearly, readTel, fields]
  have hcap : d.tel.capW.toNat < 2048 := d.tel.capW.isLt
  have hspare : b2n d.tel.offSpares < 2 := by cases d.tel.offSpares <;> decide
  rw [hread, BitVec.toNat_ofNat, bitsOf, Nat.shiftRight_eq_div_pow]
  omega

/-- READ_CLEAR of TEL_CTRL answers its 64 bits, and clears nothing. -/
theorem readClear_telCtrl {d : Dev} (hp : d.mgt.powered = true) (hh : d.chip.cxl.ideHaltIo = false) :
    readClear .bar0 0xA00000 d = d.mapChip (emit (.regRead .bar0 0xA00000 (.ofNat 64 (readBar0 d 0xA00000)))) := by
  simp [readClear, hp, hh, clearRead]

/-! ### MFR_POWER_CAP -/

theorem exec_mfrPowerCap {s : State} (w : Option (BitVec 16)) (h : pmbusOn s.dev = true) :
    exec (.mfrPowerCap w) s = onDev (powerCap w) s := by
  show onDev _ s = _
  rw [onDev, onDev, onPmbus, if_pos h]

end Sys2Proof.Machine
end

section
/-! PROOFS. The power cap. -/

open Sys2Proof Sys2Proof.Machine

/-- Settles O16: both paths write by `setCap` and read the same field. -/
theorem powerCapIsOneField : Obligations.PowerCapIsOneField := by
  unfold Obligations.PowerCapIsOneField
  intro s w v hon hh n fits
  have hp := powered_of_pmbusOn hon
  refine ⟨fun hw => ?_, fun hw => ?_, fun hn => ?_, fun hn => ?_, ?_, ?_⟩
  · exact Effect.of_onDev (powerCap (some w)) (exec_mfrPowerCap _ hon) (capW_setCap_of_fits _ hw)
  · exact Idle.of_onDev (powerCap (some w)) (exec_mfrPowerCap _ hon) (setCap_of_not_fits _ hw)
  · refine Effect.of_onDev (registerWrite .bar0 0xA00000 true v) rfl ?_
    rw [registerWrite_telCtrl v hp hh, writeTel_telCtrl _ v.isLt]
    exact capW_setCap_of_fits _ hn
  · refine Effect.of_onDev (registerWrite .bar0 0xA00000 true v) rfl ?_
    rw [registerWrite_telCtrl v hp hh, writeTel_telCtrl _ v.isLt, setCap_of_not_fits _ hn]
  · exact Effect.of_onDev (powerCap none) (exec_mfrPowerCap _ hon) (emit_out_of_unblocked rfl)
  · refine Effect.of_onDev (readClear .bar0 0xA00000) rfl ⟨_, ?_, bitsOf_readBar0_telCtrl s.dev⟩
    rw [readClear_telCtrl hp hh]
    exact emit_out_of_unblocked hh

end
